-- ==== Sys2Proof/Word.lean ====
section
/-! DEFINITION. The word types of the block: 32-bit instruction and configuration words (00_scope.md R6 `WORD`),
bytes of the external memory (20_memory.md R61) and the three issuing threads (00_scope.md R6 `NTHREADS`, D3). -/

namespace Sys2Proof

/-- A 32-bit word: an instruction, a general register, a configuration word (R21, R22, R26, R27). -/
abbrev Word := BitVec 32

/-- One byte of the external memory (R61). -/
abbrev Byte := BitVec 8

/-- An issuing thread, ids 0, 1, 2 (60_exceptions.md R292). -/
abbrev Thread := Fin 3

end Sys2Proof
end

