-- ==== Sys2Proof/Syntax.lean ====
section
/-! DEFINITION. The names the schema uses and the instruction syntax: one constructor of `Instr` per row of
spec/opcode_table.json (30_encoding.md R91), its fields the row's arguments in ascending start bit.
An argument is the unsigned integer of one contiguous slice (R86), so its type is `Nat`. -/

namespace Sys2Proof

/-- Opcode names of the schema: those of R91, and any other name a fuller schema may carry (R83, R94). -/
inductive OpName where
  | mop | nop | mopCfg | replay
  | zeroacc | setrwc | xmov
  | flushdma | reg2flop
  | setadc | setadcxy | incadcxy | addrcrxy | setadczw | incadczw | addrcrzw | setadcxx
  | dmanop | storereg | sfpnop
  | atgetm | atrelm | stallwait | seminit | sempost | semget | semwait
  | wrcfg | setc16 | rmwcib0 | rmwcib1 | rmwcib2 | rmwcib3
  | other (n : Nat)
deriving DecidableEq, Repr, Inhabited

/-- Argument names of the schema (R91), `threadOverride` of 45_adc_unit.md R233, and any other. -/
inductive ArgName where
  | zmaskLo16 | loopCount | mopType | zmaskHi16
  | loadMode | executeWhileLoading | len | startIdx
  | dst | addrMode | clearMode
  | bitMask | rwcA | rwcB | rwcD | rwcCr | clearAbVld
  | last | movBlockSelection
  | flushSpec
  | regIndex | flopIndex | contextId2 | byteOffset | targetSel | sizeSel
  | value | dimensionIndex | channelIndex | cntSetMask
  | ch0X | ch0Y | ch1X | ch1Y | ch0Z | ch0W | ch1Z | ch1W
  | xStart | xEnd2
  | regAddr | tdmaDataRegIndex
  | mutexIndex
  | waitRes | stallRes
  | semSel | initValue | maxValue | waitSemCond
  | cfgReg | wr128b | gprAddress
  | setc16Value | setc16Reg
  | cfgRegAddr | data | mask
  | threadOverride
  | other (n : Nat)
deriving DecidableEq, Repr, Inhabited

/-- Execution-resource tags (41_dispatch_and_queues.md R151); `other` is a name no unit of the block carries. -/
inductive Tag where
  | matrix | vector | scalar | config | sync | mover | packer | unpacker | misc
  | none | frontend
  | other (n : Nat)
deriving DecidableEq, Repr, Inhabited

/-- Names of configuration fields: the one the source names (R28, R100), and any other of a fuller schema. -/
inductive CfgName where
  | cfgStateId
  | other (n : Nat)
deriving DecidableEq, Repr, Inhabited

/-- What an `InvalidFieldAccess` names: an argument, a configuration field, or an index (R284). -/
inductive FieldRef where
  | arg (a : ArgName)
  | field (f : CfgName)
  | index (n : Nat)
deriving DecidableEq, Repr, Inhabited

/-- The instructions of the default schema (R91). The argument `ovr` of the ADC family is the schema argument
`ThreadOverride` of R233: 0 where the row has none, as in every row of the default schema. -/
inductive Instr where
  | mop (zmaskLo16 loopCount mopType : Nat)
  | nop
  | mopCfg (zmaskHi16 : Nat)
  | replay (loadMode executeWhileLoading len startIdx : Nat)
  | zeroacc (dst addrMode clearMode : Nat)
  | setrwc (bitMask rwcA rwcB rwcD rwcCr clearAbVld : Nat)
  | xmov (last movBlockSelection : Nat)
  | flushdma (flushSpec : Nat)
  | reg2flop (regIndex flopIndex contextId2 byteOffset targetSel sizeSel : Nat)
  | setadc (value dimensionIndex channelIndex cntSetMask ovr : Nat)
  | setadcxy (bitMask ch0X ch0Y ch1X ch1Y cntSetMask ovr : Nat)
  | incadcxy (ch0X ch0Y ch1X ch1Y cntSetMask ovr : Nat)
  | addrcrxy (bitMask ch0X ch0Y ch1X ch1Y cntSetMask ovr : Nat)
  | setadczw (bitMask ch0Z ch0W ch1Z ch1W cntSetMask ovr : Nat)
  | incadczw (ch0Z ch0W ch1Z ch1W cntSetMask ovr : Nat)
  | addrcrzw (bitMask ch0Z ch0W ch1Z ch1W cntSetMask ovr : Nat)
  | setadcxx (xStart xEnd2 cntSetMask : Nat)
  | dmanop
  | storereg (regAddr tdmaDataRegIndex : Nat)
  | sfpnop
  | atgetm (mutexIndex : Nat)
  | atrelm (mutexIndex : Nat)
  | stallwait (waitRes stallRes : Nat)
  | seminit (semSel initValue maxValue : Nat)
  | sempost (semSel : Nat)
  | semget (semSel : Nat)
  | semwait (waitSemCond semSel stallRes : Nat)
  | wrcfg (cfgReg wr128b gprAddress : Nat)
  | setc16 (setc16Value setc16Reg : Nat)
  | rmwcib0 (cfgRegAddr data mask : Nat)
  | rmwcib1 (cfgRegAddr data mask : Nat)
  | rmwcib2 (cfgRegAddr data mask : Nat)
  | rmwcib3 (cfgRegAddr data mask : Nat)
deriving DecidableEq, Repr, Inhabited

end Sys2Proof
end

