-- ==== Sys2Proof/Config.lean ====
section
/-! DEFINITION. What is fixed for one machine: the schema's shape (30_encoding.md R83), the parameters of
00_scope.md R6 as plain data, and the open functions of the spec as constants with no body.
Parameter values stand in State (`State.par`, log entry 1), so a statement about every state is a statement about
every parameter value; the open functions are uninterpreted (log entry 8). -/

namespace Sys2Proof

/-! ## Components and units -/

/-- The ten backend units (10_state.md R37, 41_dispatch_and_queues.md R151). -/
inductive FUnit where
  | matrix | vector | scalar | config | sync | mover | packer | unpacker0 | unpacker1 | misc
deriving DecidableEq, Repr, Inhabited

/-- The components that advance once per cycle: ten units and three frontends (R160). -/
inductive Component where
  | unit (u : FUnit)
  | frontend (t : Thread)
deriving DecidableEq, Repr, Inhabited

/-- The units with in-flight work FLUSHDMA can wait for (10_state.md R45, 44_thcon_unit.md R222). -/
inductive DmaUnit where
  | unpacker0 | unpacker1 | packer
deriving DecidableEq, Repr, Inhabited

/-! ## The schema (R83) -/

/-- A row of `SCHEMA.ops`: opcode value, name, arguments as (name, start bit), tag. -/
structure OpRow where
  opcode : Nat
  name : OpName
  args : List (ArgName × Nat)
  tag : Tag
deriving DecidableEq, Repr, Inhabited

/-- The configuration array a field lives in: the spec's fourth column (R88, D2). -/
inductive Space where
  | general | thread
deriving DecidableEq, Repr, Inhabited

/-- A row of `SCHEMA.cfg`: name, space, word address, shift, mask (R83, R88). -/
structure CfgRow where
  name : CfgName
  space : Space
  addr : Nat
  shift : Nat
  mask : Word
deriving DecidableEq, Repr, Inhabited

/-- The schema: opcode table and config-field table (R83). -/
structure Schema where
  ops : List OpRow
  cfg : List CfgRow
deriving DecidableEq, Repr, Inhabited

/-- The decoded view of a word, the "Instruction" of the spec (10_state.md R21, R84): name, argument values in ascending
start bit, tag, raw word. -/
structure Decoded where
  name : OpName
  args : List (ArgName × Nat)
  tag : Tag
  word : Word
deriving DecidableEq, Repr, Inhabited

/-! ## Counters (10_state.md R42, R43) -/

/-- A counter and its carry shadow; the width is a parameter, so both are naturals (R244, R252). -/
structure Counter where
  val : Nat
  cr : Nat
deriving DecidableEq, Repr, Inhabited

/-- The read/write address counters of one thread (R42). -/
structure Rwc where
  srcA : Counter
  srcB : Counter
  dst : Counter
  fidelityPhase : Nat
  extraAddrModBit : Bool
deriving DecidableEq, Repr, Inhabited

/-- The four dimensions of an ADC channel (R43). -/
inductive Dim where
  | x | y | z | w
deriving DecidableEq, Repr, Inhabited

/-- The three ADC channel groups of a thread (R43). -/
inductive Group where
  | u0 | u1 | pk
deriving DecidableEq, Repr, Inhabited

/-- Which of a counter's two registers a poke or a move names (R43, R243). -/
inductive Half where
  | counter | shadow
deriving DecidableEq, Repr, Inhabited

/-- One ADC channel: four counters with their shadows (R43). -/
structure AdcChannel where
  x : Counter
  y : Counter
  z : Counter
  w : Counter
deriving DecidableEq, Repr, Inhabited

/-- One ADC channel group: two channels (R43). -/
structure AdcGroup where
  ch0 : AdcChannel
  ch1 : AdcChannel
deriving DecidableEq, Repr, Inhabited

/-- The address-counter bank of one thread: three groups (R43). -/
structure AdcThread where
  u0 : AdcGroup
  u1 : AdcGroup
  pk : AdcGroup
deriving DecidableEq, Repr, Inhabited

/-- All counters 0 (R42). -/
def Rwc.zero : Rwc := ⟨⟨0, 0⟩, ⟨0, 0⟩, ⟨0, 0⟩, 0, false⟩

/-- One channel's counters 0 (R43). -/
def AdcChannel.zero : AdcChannel := ⟨⟨0, 0⟩, ⟨0, 0⟩, ⟨0, 0⟩, ⟨0, 0⟩⟩

/-- One thread's counters 0 (R43). -/
def AdcThread.zero : AdcThread :=
  ⟨⟨AdcChannel.zero, AdcChannel.zero⟩, ⟨AdcChannel.zero, AdcChannel.zero⟩, ⟨AdcChannel.zero, AdcChannel.zero⟩⟩

/-! ## What the open functions answer -/

/-- The four scopes of ZEROACC, in the source's order (46_matrix_unit.md R256). -/
inductive Scope where
  | single | block16 | half | whole
deriving DecidableEq, Repr, Inhabited

/-- The Mover's two region kinds (20_memory.md R62). -/
inductive Region where
  | l0 | l1
deriving DecidableEq, Repr, Inhabited

/-- What `MoverOperands` answers: the directional mode, the two addresses and the byte count (R268, R269). -/
structure Transfer where
  srcRegion : Region
  dstRegion : Region
  src : Nat
  dst : Nat
  n : Nat
deriving DecidableEq, Repr, Inhabited

/-- The transfer widths of a THCON register move, in bits (R217). -/
inductive MoveSize where
  | b8 | b16 | b32 | b128
deriving DecidableEq, Repr, Inhabited

/-- One word of the general configuration that a THCON move names as its target (R217, target (a)), with its indices
kept as they come. -/
structure CfgPlace where
  bank : Nat
  idx : Nat
deriving DecidableEq, Repr, Inhabited

/-- The write of one word of the general configuration (R217). -/
structure CfgWrite extends CfgPlace where
  value : Word
deriving DecidableEq, Repr, Inhabited

/-- One field of an address-counter channel that a THCON move names as its target (R217, target (b)). The target index is kept as it
comes: the group by its bit of R232, the channel and the dimension by their numbers of R241 (log entry 9). -/
structure AdcPlace where
  group : Nat
  chan : Nat
  dim : Nat
  half : Half
deriving DecidableEq, Repr, Inhabited

/-- The write of one field of an address-counter channel (R217). -/
structure AdcWrite extends AdcPlace where
  value : Nat
deriving DecidableEq, Repr, Inhabited

/-- The target of a THCON move (R217): words of the general configuration, or fields of the counters of `t'`, which is
the issuing thread or, where `override` is present, the thread it names. -/
inductive MoveTarget where
  | config (ps : List CfgPlace)
  | counters (override : Option Nat) (ps : List AdcPlace)
deriving DecidableEq, Repr, Inhabited

/-- What a THCON move writes (R217): words of the general configuration; fields of the counters of `t'`, which is the
issuing thread or, where `override` is present, the thread it names; or the moved registers of the issuing thread, when
the move runs from the target, the places it reads, to the registers. -/
inductive MoveEffect where
  | toConfig (ws : List CfgWrite)
  | toCounters (override : Option Nat) (ws : List AdcWrite)
  | toRegisters (src : MoveTarget) (vs : Vector Word 4)
deriving DecidableEq, Repr, Inhabited

/-- The target of a move, whichever way it runs (R217). -/
def MoveEffect.target : MoveEffect → MoveTarget
  | .toConfig ws => .config (ws.map CfgWrite.toCfgPlace)
  | .toCounters o ws => .counters o (ws.map AdcWrite.toAdcPlace)
  | .toRegisters src _ => src

/-- What `ThconMove` answers (R217): the transfer width; the first general register it moves where the row has no
argument `RegIndex`; and what it writes. -/
structure ThconAnswer where
  size : MoveSize
  reg : Nat
  effect : MoveEffect
deriving DecidableEq, Repr, Inhabited

/-- The general configuration, both banks (10_state.md R26). -/
abbrev GeneralCfg := Vector (Vector Word 188) 2

/-- The per-thread configuration of one thread (10_state.md R27). -/
abbrev ThreadCfg := Vector Word 57

/-! ## The open functions (00_scope.md R6): no body, so nothing can be proved of their values (log entry 8) -/

/-- `ThconMove` (R217, R218): total, depends only on its arguments (the schema, the argument map, the thread, its
registers, both configuration banks, the counters), otherwise unconstrained. -/
opaque Config.thconMove (sch : Schema) (args : List (ArgName × Nat)) (t : Thread) (gpr : List Word) (cfg : GeneralCfg)
  (adc : Vector AdcThread 3) : ThconAnswer

/-- `AddrModFn` (R253): total, reads only its arguments. -/
opaque Config.addrModFn (bank : Vector Word 188) (tcfg : ThreadCfg) (idx : Nat) (rwc : Rwc) : Rwc

/-- What picks the rows of ZEROACC when the 32-bit mode is off (R256): the row of the single scope, the block of
the 16-row scope, the half (by its parity) of the half scope. -/
opaque Config.zeroaccPick (scope : Scope) (dst : Nat) (rwc : Rwc) : Nat

/-- The rows of ZEROACC when the 32-bit mode is on, which the spec does not constrain (R256). -/
opaque Config.zeroaccRows32 (scope : Scope) (dst : Nat) (rwc : Rwc) : List Nat

/-- `Mode32` (R256): an open function of the whole instruction and the configuration. -/
opaque Config.mode32 (i : Decoded) (cfg : GeneralCfg) (tcfg : Vector ThreadCfg 3) (t : Thread) : Bool

/-- `ZeroaccEnabled` (R256): an open function of the whole instruction and the configuration. -/
opaque Config.zeroaccEnabled (i : Decoded) (cfg : GeneralCfg) (tcfg : Vector ThreadCfg 3) (t : Thread) : Bool

/-- `MoverOperands` (R269): an open function of the whole instruction, the configuration and the thread. -/
opaque Config.moverOperands (cfg : GeneralCfg) (tcfg : Vector ThreadCfg 3) (i : Decoded) (t : Thread) : Transfer

/-- A constant answer supplied for an open function; where it is absent the constant above answers (log entry 8).
`MoverOperands` "returning the tuple shown" of 95_test_vectors.md section 2.11 is such a constant answer. -/
structure Supplied where
  thconMove : Option ThconAnswer
  addrMod : Option Rwc
  zeroaccPick : Option Nat
  zeroaccRows32 : Option (List Nat)
  mode32 : Option Bool
  zeroaccEnabled : Option Bool
  moverOperands : Option Transfer
deriving DecidableEq, Repr, Inhabited

/-! ## Parameters (00_scope.md R6) -/

/-- `ADDRCR_MODE` (45_adc_unit.md R239). -/
inductive AddrcrMode where
  | clear | carriageReturn
deriving DecidableEq, Repr, Inhabited

/-- `INCADC_SHADOW` (45_adc_unit.md R237). -/
inductive IncadcShadow where
  | both | counterOnly
deriving DecidableEq, Repr, Inhabited

/-- `MOP_T1_ALT_RULE` (40_frontend.md R118). -/
inductive AltRule where
  | differ | op1NotNop
deriving DecidableEq, Repr, Inhabited

/-- A predicate a STALLWAIT condition bit can name (40_frontend.md R134). DESIGN CHOICE, log entry 36: `COND_BIT` is open
and the spec does not say what a bit may name; the model admits the kinds of predicate R134's own table uses, and no
other. -/
inductive CondPred where
  /-- Scalar unit idle for the thread: no queue entry and no outstanding flush. -/
  | scalarIdle
  /-- Unpacker0, Unpacker1 or Packer idle for the thread: not `InFlight` (R222). -/
  | dmaIdle (u : DmaUnit)
  /-- The unit's queue holds no entry of the thread. -/
  | queueIdle (u : FUnit)
deriving DecidableEq, Repr, Inhabited

/-- The parameters of R6 that are data. -/
structure Params where
  /-- `SCHEMA` (R83). -/
  schema : Schema
  /-- `TICK_ORDER` (R160). -/
  tickOrder : List Component
  /-- `CAP_MOPQ` (R29). -/
  capMopQ : Nat
  /-- `CAP_REPLAYQ` (R30). -/
  capReplayQ : Nat
  /-- `WAITGATE_REOFFER` (R136). -/
  reoffer : Bool
  /-- `NGPR` (R22). -/
  ngpr : Nat
  /-- `BLOCK_CLASS` (R133): the block-mask bit of each tag that has one. -/
  blockClass : List (Tag × Nat)
  /-- `COND_BIT` (R134): the predicate of each condition bit, from bit 0 up; absent where there is none. -/
  condBit : List (Option CondPred)
  /-- `WX, WY, WZ, WW` (R43, R244). -/
  wx : Nat
  wy : Nat
  wz : Nat
  ww : Nat
  /-- `WSRC, WDST, WFID` (R42, R252). -/
  wsrc : Nat
  wdst : Nat
  wfid : Nat
  /-- `DST_ROWS` (R44). -/
  dstRows : Nat
  /-- `ADDRCR_MODE` (R239). -/
  addrcrMode : AddrcrMode
  /-- `INCADC_SHADOW` (R237). -/
  incadcShadow : IncadcShadow
  /-- `STOREREG_BASE` (R219). -/
  storeregBase : Nat
  /-- `MOP_T1_ALT_RULE` (R118). -/
  altRule : AltRule
  /-- `UNPACK_SEL_BIT` (R152). -/
  unpackSelBit : Nat
  /-- `INSTRN_BASE[t]` (R64), the first address of thread t's intake range. -/
  instrnBase : Vector Nat 3
  /-- The length in bytes of thread t's intake range (R64 calls it "a range"). -/
  instrnSize : Vector Nat 3
  /-- `SEM_REG_BASE` (R64). -/
  semRegBase : Nat
  /-- `MOP_CFG_BASE[t]` (R64). -/
  mopCfgBase : Vector Nat 3
  /-- `L1_BASE, L1_SIZE, L0_BASE, L0_SIZE` (R62). -/
  l1Base : Nat
  l1Size : Nat
  l0Base : Nat
  l0Size : Nat
  /-- `size()` of the memory capability, a `u64` (R61): the extent of the external memory in bytes. -/
  memSize : BitVec 64
  /-- `LATENCY(u)` of Unpacker0, Unpacker1, Packer, in that order (R271). -/
  latency : Vector Nat 3
  /-- Answers supplied for the open functions. -/
  supplied : Supplied
deriving DecidableEq, Repr, Inhabited

end Sys2Proof
end

