-- ==== Sys2Proof/WellFormed.lean ====
section
/-! DEFINITION. When an instruction is one the default schema can encode: every argument fits its slice
(30_encoding.md R91, R99), and the ADC family, whose rows have no `ThreadOverride`, has override 0 (R233). -/

namespace Sys2Proof

/-- `x` fits an argument of `n` bits. -/
abbrev fits (n x : Nat) : Prop := x < 2 ^ n

/-- Well-formedness under the default schema: the widths of R91, one line per row. -/
abbrev Instr.WellFormed : Instr → Prop
  | .mop lo lc ty => fits 16 lo ∧ fits 7 lc ∧ fits 1 ty
  | .nop => True
  | .mopCfg hi => fits 24 hi
  | .replay lm ewl len st => fits 1 lm ∧ fits 3 ewl ∧ fits 10 len ∧ fits 10 st
  | .zeroacc dst am cm => fits 15 dst ∧ fits 4 am ∧ fits 5 cm
  | .setrwc bm a b d cr cl => fits 6 bm ∧ fits 4 a ∧ fits 4 b ∧ fits 4 d ∧ fits 4 cr ∧ fits 2 cl
  | .xmov l mb => fits 23 l ∧ fits 1 mb
  | .flushdma f => fits 24 f
  | .reg2flop r f c b t z => fits 6 r ∧ fits 10 f ∧ fits 2 c ∧ fits 2 b ∧ fits 2 t ∧ fits 2 z
  | .setadc v d c m o => fits 18 v ∧ fits 2 d ∧ fits 1 c ∧ fits 3 m ∧ o = 0
  | .setadcxy bm a b c d m o =>
    fits 6 bm ∧ fits 3 a ∧ fits 3 b ∧ fits 3 c ∧ fits 6 d ∧ fits 3 m ∧ o = 0
  | .incadcxy a b c d m o => fits 3 a ∧ fits 3 b ∧ fits 3 c ∧ fits 6 d ∧ fits 3 m ∧ o = 0
  | .addrcrxy bm a b c d m o =>
    fits 6 bm ∧ fits 3 a ∧ fits 3 b ∧ fits 3 c ∧ fits 6 d ∧ fits 3 m ∧ o = 0
  | .setadczw bm a b c d m o =>
    fits 6 bm ∧ fits 3 a ∧ fits 3 b ∧ fits 3 c ∧ fits 6 d ∧ fits 3 m ∧ o = 0
  | .incadczw a b c d m o => fits 3 a ∧ fits 3 b ∧ fits 3 c ∧ fits 6 d ∧ fits 3 m ∧ o = 0
  | .addrcrzw bm a b c d m o =>
    fits 6 bm ∧ fits 3 a ∧ fits 3 b ∧ fits 3 c ∧ fits 6 d ∧ fits 3 m ∧ o = 0
  | .setadcxx a b m => fits 10 a ∧ fits 11 b ∧ fits 3 m
  | .dmanop => True
  | .storereg a r => fits 18 a ∧ fits 6 r
  | .sfpnop => True
  | .atgetm i => fits 24 i
  | .atrelm i => fits 24 i
  | .stallwait w b => fits 15 w ∧ fits 9 b
  | .seminit s i m => fits 14 s ∧ fits 4 i ∧ fits 4 m
  | .sempost s => fits 22 s
  | .semget s => fits 22 s
  | .semwait c s b => fits 2 c ∧ fits 13 s ∧ fits 9 b
  | .wrcfg c w g => fits 15 c ∧ fits 1 w ∧ fits 8 g
  | .setc16 v r => fits 16 v ∧ fits 8 r
  | .rmwcib0 c d m => fits 8 c ∧ fits 8 d ∧ fits 8 m
  | .rmwcib1 c d m => fits 8 c ∧ fits 8 d ∧ fits 8 m
  | .rmwcib2 c d m => fits 8 c ∧ fits 8 d ∧ fits 8 m
  | .rmwcib3 c d m => fits 8 c ∧ fits 8 d ∧ fits 8 m

end Sys2Proof
end

