-- ==== Sys2Proof/Decode.lean ====
section
/-! DEFINITION. The schema's default tables, the decoder of 30_encoding.md R84 over any schema, and the encoder of R99.
Decoding is total: a word whose opcode no row has is answered by `none` (`UnknownOpcode` where a stage decodes it,
60_exceptions.md R282). -/

namespace Sys2Proof

/-! ## The default schema (R91, R100) -/

/-- R91, opcodes 0x01 to 0x04. -/
def opsFront : List OpRow := [
  ⟨0x01, .mop, [(.zmaskLo16, 0), (.loopCount, 16), (.mopType, 23)], .frontend⟩,
  ⟨0x02, .nop, [], .none⟩,
  ⟨0x03, .mopCfg, [(.zmaskHi16, 0)], .frontend⟩,
  ⟨0x04, .replay, [(.loadMode, 0), (.executeWhileLoading, 1), (.len, 4), (.startIdx, 14)], .frontend⟩]

/-- R91, opcodes 0x10 to 0x48. -/
def opsData : List OpRow := [
  ⟨0x10, .zeroacc, [(.dst, 0), (.addrMode, 15), (.clearMode, 19)], .matrix⟩,
  ⟨0x37, .setrwc, [(.bitMask, 0), (.rwcA, 6), (.rwcB, 10), (.rwcD, 14), (.rwcCr, 18), (.clearAbVld, 22)], .matrix⟩,
  ⟨0x40, .xmov, [(.last, 0), (.movBlockSelection, 23)], .mover⟩,
  ⟨0x46, .flushdma, [(.flushSpec, 0)], .scalar⟩,
  ⟨0x48, .reg2flop, [(.regIndex, 0), (.flopIndex, 6), (.contextId2, 16), (.byteOffset, 18), (.targetSel, 20),
    (.sizeSel, 22)], .scalar⟩]

/-- R91, the ADC family. -/
def opsAdc : List OpRow := [
  ⟨0x50, .setadc, [(.value, 0), (.dimensionIndex, 18), (.channelIndex, 20), (.cntSetMask, 21)], .misc⟩,
  ⟨0x51, .setadcxy, [(.bitMask, 0), (.ch0X, 6), (.ch0Y, 9), (.ch1X, 12), (.ch1Y, 15), (.cntSetMask, 21)], .misc⟩,
  ⟨0x52, .incadcxy, [(.ch0X, 6), (.ch0Y, 9), (.ch1X, 12), (.ch1Y, 15), (.cntSetMask, 21)], .misc⟩,
  ⟨0x53, .addrcrxy, [(.bitMask, 0), (.ch0X, 6), (.ch0Y, 9), (.ch1X, 12), (.ch1Y, 15), (.cntSetMask, 21)], .misc⟩,
  ⟨0x54, .setadczw, [(.bitMask, 0), (.ch0Z, 6), (.ch0W, 9), (.ch1Z, 12), (.ch1W, 15), (.cntSetMask, 21)], .misc⟩,
  ⟨0x55, .incadczw, [(.ch0Z, 6), (.ch0W, 9), (.ch1Z, 12), (.ch1W, 15), (.cntSetMask, 21)], .misc⟩,
  ⟨0x56, .addrcrzw, [(.bitMask, 0), (.ch0Z, 6), (.ch0W, 9), (.ch1Z, 12), (.ch1W, 15), (.cntSetMask, 21)], .misc⟩,
  ⟨0x5E, .setadcxx, [(.xStart, 0), (.xEnd2, 10), (.cntSetMask, 21)], .misc⟩]

/-- R91, opcodes 0x60 to 0x8F. -/
def opsMisc : List OpRow := [
  ⟨0x60, .dmanop, [], .scalar⟩,
  ⟨0x67, .storereg, [(.regAddr, 0), (.tdmaDataRegIndex, 18)], .scalar⟩,
  ⟨0x8F, .sfpnop, [], .vector⟩]

/-- R91, opcodes 0xA0 to 0xA6. -/
def opsSync : List OpRow := [
  ⟨0xA0, .atgetm, [(.mutexIndex, 0)], .sync⟩,
  ⟨0xA1, .atrelm, [(.mutexIndex, 0)], .sync⟩,
  ⟨0xA2, .stallwait, [(.waitRes, 0), (.stallRes, 15)], .frontend⟩,
  ⟨0xA3, .seminit, [(.semSel, 2), (.initValue, 16), (.maxValue, 20)], .sync⟩,
  ⟨0xA4, .sempost, [(.semSel, 2)], .sync⟩,
  ⟨0xA5, .semget, [(.semSel, 2)], .sync⟩,
  ⟨0xA6, .semwait, [(.waitSemCond, 0), (.semSel, 2), (.stallRes, 15)], .frontend⟩]

/-- R91, opcodes 0xB0 to 0xB6. -/
def opsCfg : List OpRow := [
  ⟨0xB0, .wrcfg, [(.cfgReg, 0), (.wr128b, 15), (.gprAddress, 16)], .config⟩,
  ⟨0xB2, .setc16, [(.setc16Value, 0), (.setc16Reg, 16)], .config⟩,
  ⟨0xB3, .rmwcib0, [(.cfgRegAddr, 0), (.data, 8), (.mask, 16)], .config⟩,
  ⟨0xB4, .rmwcib1, [(.cfgRegAddr, 0), (.data, 8), (.mask, 16)], .config⟩,
  ⟨0xB5, .rmwcib2, [(.cfgRegAddr, 0), (.data, 8), (.mask, 16)], .config⟩,
  ⟨0xB6, .rmwcib3, [(.cfgRegAddr, 0), (.data, 8), (.mask, 16)], .config⟩]

/-- `SCHEMA_DEFAULT` (R91, R100): every number in it except the NOP opcode is the spec's general knowledge (G1). -/
def schemaDefault : Schema where
  ops := opsFront ++ opsData ++ opsAdc ++ opsMisc ++ opsSync ++ opsCfg
  cfg := [⟨.cfgStateId, .thread, 0, 0, 0x00000001⟩]

/-! ## Bit slices (R8, R81) -/

/-- `w[hi:lo]` of R8 as an unsigned integer. -/
def slice (hi lo : Nat) (w : Word) : Nat := w.toNat / 2 ^ lo % 2 ^ (hi + 1 - lo)

/-- `OPC_HI:OPC_LO` of R6: the opcode field is `w[31:24]` (R81). -/
def opcodeOf (w : Word) : Nat := slice 31 24 w

/-- `ARG_TOP` of R6: the last argument extends to bit 23 (R84). -/
def argTop : Nat := 23

/-- `NOP_OPCODE` of R6. -/
def nopOpcode : Nat := 0x02

/-- `isnop` (R87): the opcode field is 0x02; DMANOP and SFPNOP are not no-ops in this sense. -/
def isnop (w : Word) : Bool := opcodeOf w == nopOpcode

/-! ## Decode (R84) -/

/-- Insert an argument by ascending start bit. -/
def insertArg (a : ArgName × Nat) : List (ArgName × Nat) → List (ArgName × Nat)
  | [] => [a]
  | b :: bs => if a.2 < b.2 then a :: b :: bs else b :: insertArg a bs

/-- R85: a row's arguments in ascending start bit, in whatever direction the schema lists them. -/
def sortArgs (as : List (ArgName × Nat)) : List (ArgName × Nat) := as.foldr insertArg []

/-- R84: the end bit of each argument of an ascending list is the start of the next minus one, the last one's is
`argTop`; each entry is (name, start, end). -/
def argBounds : List (ArgName × Nat) → List (ArgName × Nat × Nat)
  | [] => []
  | [(n, s)] => [(n, s, argTop)]
  | (n, s) :: (m, s') :: rest => (n, s, s' - 1) :: argBounds ((m, s') :: rest)

/-- The bounds of a row's arguments. -/
def OpRow.bounds (r : OpRow) : List (ArgName × Nat × Nat) := argBounds (sortArgs r.args)

/-- The row of an opcode value. -/
def Schema.rowOf (sch : Schema) (op : Nat) : Option OpRow := sch.ops.find? fun r => decide (r.opcode = op)

/-- The row of a name. -/
def Schema.rowNamed (sch : Schema) (n : OpName) : Option OpRow := sch.ops.find? fun r => decide (r.name = n)

/-- `Decode(w)` (R84); `none` is the `UnknownOpcode` case. -/
def Schema.decode (sch : Schema) (w : Word) : Option Decoded :=
  match sch.rowOf (opcodeOf w) with
  | none => none
  | some r => some ⟨r.name, r.bounds.map fun b => (b.1, slice b.2.2 b.2.1 w), r.tag, w⟩

/-- The name a word decodes to. -/
def Schema.nameOf (sch : Schema) (w : Word) : Option OpName := (sch.decode w).map (·.name)

/-- The value of a name in an argument map (a well-formed row names each argument once, log entry 40). -/
def argValue : List (ArgName × Nat) → ArgName → Option Nat
  | [], _ => none
  | (n, v) :: rest, a => if a = n then some v else argValue rest a

/-- `arg(instr, name)` (R84): a name the row lacks is an `InvalidFieldAccess`. -/
def Decoded.arg (d : Decoded) (a : ArgName) : Except FieldRef Nat :=
  match argValue d.args a with
  | some v => .ok v
  | none => .error (.arg a)

/-- The override selector of R233: the argument `ThreadOverride` when the row has one, 0 when it has none. -/
def Decoded.override (d : Decoded) : Nat := (argValue d.args .threadOverride).getD 0

/-- The instruction of an opcode name, its arguments read by `look`; `none` for a name the spec gives no rule. -/
def Instr.build (name : OpName) (look : ArgName → Nat) (ovr : Nat) : Option Instr :=
  match name with
  | .mop => some (.mop (look .zmaskLo16) (look .loopCount) (look .mopType))
  | .nop => some .nop
  | .mopCfg => some (.mopCfg (look .zmaskHi16))
  | .replay => some (.replay (look .loadMode) (look .executeWhileLoading) (look .len) (look .startIdx))
  | .zeroacc => some (.zeroacc (look .dst) (look .addrMode) (look .clearMode))
  | .setrwc => some (.setrwc (look .bitMask) (look .rwcA) (look .rwcB) (look .rwcD) (look .rwcCr) (look .clearAbVld))
  | .xmov => some (.xmov (look .last) (look .movBlockSelection))
  | .flushdma => some (.flushdma (look .flushSpec))
  | .reg2flop => some (.reg2flop (look .regIndex) (look .flopIndex) (look .contextId2) (look .byteOffset)
      (look .targetSel) (look .sizeSel))
  | .setadc => some (.setadc (look .value) (look .dimensionIndex) (look .channelIndex) (look .cntSetMask) ovr)
  | .setadcxy => some (.setadcxy (look .bitMask) (look .ch0X) (look .ch0Y) (look .ch1X) (look .ch1Y)
      (look .cntSetMask) ovr)
  | .incadcxy => some (.incadcxy (look .ch0X) (look .ch0Y) (look .ch1X) (look .ch1Y) (look .cntSetMask) ovr)
  | .addrcrxy => some (.addrcrxy (look .bitMask) (look .ch0X) (look .ch0Y) (look .ch1X) (look .ch1Y)
      (look .cntSetMask) ovr)
  | .setadczw => some (.setadczw (look .bitMask) (look .ch0Z) (look .ch0W) (look .ch1Z) (look .ch1W)
      (look .cntSetMask) ovr)
  | .incadczw => some (.incadczw (look .ch0Z) (look .ch0W) (look .ch1Z) (look .ch1W) (look .cntSetMask) ovr)
  | .addrcrzw => some (.addrcrzw (look .bitMask) (look .ch0Z) (look .ch0W) (look .ch1Z) (look .ch1W)
      (look .cntSetMask) ovr)
  | .setadcxx => some (.setadcxx (look .xStart) (look .xEnd2) (look .cntSetMask))
  | .dmanop => some .dmanop
  | .storereg => some (.storereg (look .regAddr) (look .tdmaDataRegIndex))
  | .sfpnop => some .sfpnop
  | .atgetm => some (.atgetm (look .mutexIndex))
  | .atrelm => some (.atrelm (look .mutexIndex))
  | .stallwait => some (.stallwait (look .waitRes) (look .stallRes))
  | .seminit => some (.seminit (look .semSel) (look .initValue) (look .maxValue))
  | .sempost => some (.sempost (look .semSel))
  | .semget => some (.semget (look .semSel))
  | .semwait => some (.semwait (look .waitSemCond) (look .semSel) (look .stallRes))
  | .wrcfg => some (.wrcfg (look .cfgReg) (look .wr128b) (look .gprAddress))
  | .setc16 => some (.setc16 (look .setc16Value) (look .setc16Reg))
  | .rmwcib0 => some (.rmwcib0 (look .cfgRegAddr) (look .data) (look .mask))
  | .rmwcib1 => some (.rmwcib1 (look .cfgRegAddr) (look .data) (look .mask))
  | .rmwcib2 => some (.rmwcib2 (look .cfgRegAddr) (look .data) (look .mask))
  | .rmwcib3 => some (.rmwcib3 (look .cfgRegAddr) (look .data) (look .mask))
  | .other _ => none

/-- The instruction a decoded view stands for: `none` where the name has no rule (R157). An argument the row lacks is
written 0 here; that it raises `InvalidFieldAccess` where the rule reads it is `State.missingArg` (R84, log entry 16). -/
def Decoded.toInstr (d : Decoded) : Option Instr :=
  Instr.build d.name (fun a => (argValue d.args a).getD 0) d.override

/-- The instruction a word stands for under a schema. -/
def Schema.decodeInstr (sch : Schema) (w : Word) : Option Instr := (sch.decode w).bind Decoded.toInstr

/-- The word of four little-endian bytes (20_memory.md R65). -/
def wordOfBytes (b0 b1 b2 b3 : Byte) : Word := (b3 ++ b2 ++ b1 ++ b0 : BitVec 32)

/-- Decoding of bytes under the default schema: an instruction is one 32-bit word, so four bytes (R80). -/
def decodeBytes : List Byte → Option Instr
  | [b0, b1, b2, b3] => schemaDefault.decodeInstr (wordOfBytes b0 b1 b2 b3)
  | _ => none

/-- The bytes of an instruction of `nbits` bits numbered as spec/opcode_table.json numbers them: one 32-bit word in
its byte order, bits above `nbits` zero. -/
def tableBytes (nbits w : Nat) : List Byte :=
  let x := w % 2 ^ nbits
  [BitVec.ofNat 8 x, BitVec.ofNat 8 (x / 2 ^ 8), BitVec.ofNat 8 (x / 2 ^ 16), BitVec.ofNat 8 (x / 2 ^ 24)]

/-- The instruction the decoder reads from a table word: every instruction of this hardware is one 32-bit word, so
a wider one is none. -/
def decodeTableWord (nbits w : Nat) : Option Instr :=
  if w % 2 ^ nbits < 2 ^ 32 then decodeBytes (tableBytes nbits w) else none

/-! ## The Config Store (R88) -/

/-- `(raw & mask) >> shift` (R88). -/
def CfgRow.extract (r : CfgRow) (raw : Word) : Nat := ((raw &&& r.mask) >>> r.shift).toNat

/-- The row of a field name in one configuration array (log entry 26). -/
def Schema.field (sch : Schema) (sp : Space) (n : CfgName) : Option CfgRow :=
  sch.cfg.find? fun r => decide (r.name = n) && decide (r.space = sp)

/-! ## Encode (R99) -/

/-- The name of an instruction. -/
def Instr.opName : Instr → OpName
  | .mop _ _ _ => .mop
  | .nop => .nop
  | .mopCfg _ => .mopCfg
  | .replay _ _ _ _ => .replay
  | .zeroacc _ _ _ => .zeroacc
  | .setrwc _ _ _ _ _ _ => .setrwc
  | .xmov _ _ => .xmov
  | .flushdma _ => .flushdma
  | .reg2flop _ _ _ _ _ _ => .reg2flop
  | .setadc _ _ _ _ _ => .setadc
  | .setadcxy _ _ _ _ _ _ _ => .setadcxy
  | .incadcxy _ _ _ _ _ _ => .incadcxy
  | .addrcrxy _ _ _ _ _ _ _ => .addrcrxy
  | .setadczw _ _ _ _ _ _ _ => .setadczw
  | .incadczw _ _ _ _ _ _ => .incadczw
  | .addrcrzw _ _ _ _ _ _ _ => .addrcrzw
  | .setadcxx _ _ _ => .setadcxx
  | .dmanop => .dmanop
  | .storereg _ _ => .storereg
  | .sfpnop => .sfpnop
  | .atgetm _ => .atgetm
  | .atrelm _ => .atrelm
  | .stallwait _ _ => .stallwait
  | .seminit _ _ _ => .seminit
  | .sempost _ => .sempost
  | .semget _ => .semget
  | .semwait _ _ _ => .semwait
  | .wrcfg _ _ _ => .wrcfg
  | .setc16 _ _ => .setc16
  | .rmwcib0 _ _ _ => .rmwcib0
  | .rmwcib1 _ _ _ => .rmwcib1
  | .rmwcib2 _ _ _ => .rmwcib2
  | .rmwcib3 _ _ _ => .rmwcib3

/-- The arguments of an instruction by name; a schema row takes those it has. -/
def Instr.args : Instr → List (ArgName × Nat)
  | .mop zmaskLo16 loopCount mopType => [(.zmaskLo16, zmaskLo16), (.loopCount, loopCount), (.mopType, mopType)]
  | .nop => []
  | .mopCfg zmaskHi16 => [(.zmaskHi16, zmaskHi16)]
  | .replay loadMode executeWhileLoading len startIdx => [(.loadMode, loadMode),
    (.executeWhileLoading, executeWhileLoading), (.len, len), (.startIdx, startIdx)]
  | .zeroacc dst addrMode clearMode => [(.dst, dst), (.addrMode, addrMode), (.clearMode, clearMode)]
  | .setrwc bitMask rwcA rwcB rwcD rwcCr clearAbVld => [(.bitMask, bitMask), (.rwcA, rwcA), (.rwcB, rwcB),
    (.rwcD, rwcD), (.rwcCr, rwcCr), (.clearAbVld, clearAbVld)]
  | .xmov last movBlockSelection => [(.last, last), (.movBlockSelection, movBlockSelection)]
  | .flushdma flushSpec => [(.flushSpec, flushSpec)]
  | .reg2flop regIndex flopIndex contextId2 byteOffset targetSel sizeSel => [(.regIndex, regIndex),
    (.flopIndex, flopIndex), (.contextId2, contextId2), (.byteOffset, byteOffset), (.targetSel, targetSel),
    (.sizeSel, sizeSel)]
  | .setadc value dimensionIndex channelIndex cntSetMask ovr => [(.value, value),
    (.dimensionIndex, dimensionIndex), (.channelIndex, channelIndex), (.cntSetMask, cntSetMask),
    (.threadOverride, ovr)]
  | .setadcxy bitMask ch0X ch0Y ch1X ch1Y cntSetMask ovr => [(.bitMask, bitMask), (.ch0X, ch0X),
    (.ch0Y, ch0Y), (.ch1X, ch1X), (.ch1Y, ch1Y), (.cntSetMask, cntSetMask), (.threadOverride, ovr)]
  | .incadcxy ch0X ch0Y ch1X ch1Y cntSetMask ovr => [(.ch0X, ch0X), (.ch0Y, ch0Y), (.ch1X, ch1X),
    (.ch1Y, ch1Y), (.cntSetMask, cntSetMask), (.threadOverride, ovr)]
  | .addrcrxy bitMask ch0X ch0Y ch1X ch1Y cntSetMask ovr => [(.bitMask, bitMask), (.ch0X, ch0X),
    (.ch0Y, ch0Y), (.ch1X, ch1X), (.ch1Y, ch1Y), (.cntSetMask, cntSetMask), (.threadOverride, ovr)]
  | .setadczw bitMask ch0Z ch0W ch1Z ch1W cntSetMask ovr => [(.bitMask, bitMask), (.ch0Z, ch0Z),
    (.ch0W, ch0W), (.ch1Z, ch1Z), (.ch1W, ch1W), (.cntSetMask, cntSetMask), (.threadOverride, ovr)]
  | .incadczw ch0Z ch0W ch1Z ch1W cntSetMask ovr => [(.ch0Z, ch0Z), (.ch0W, ch0W), (.ch1Z, ch1Z),
    (.ch1W, ch1W), (.cntSetMask, cntSetMask), (.threadOverride, ovr)]
  | .addrcrzw bitMask ch0Z ch0W ch1Z ch1W cntSetMask ovr => [(.bitMask, bitMask), (.ch0Z, ch0Z),
    (.ch0W, ch0W), (.ch1Z, ch1Z), (.ch1W, ch1W), (.cntSetMask, cntSetMask), (.threadOverride, ovr)]
  | .setadcxx xStart xEnd2 cntSetMask => [(.xStart, xStart), (.xEnd2, xEnd2), (.cntSetMask, cntSetMask)]
  | .dmanop => []
  | .storereg regAddr tdmaDataRegIndex => [(.regAddr, regAddr), (.tdmaDataRegIndex, tdmaDataRegIndex)]
  | .sfpnop => []
  | .atgetm mutexIndex => [(.mutexIndex, mutexIndex)]
  | .atrelm mutexIndex => [(.mutexIndex, mutexIndex)]
  | .stallwait waitRes stallRes => [(.waitRes, waitRes), (.stallRes, stallRes)]
  | .seminit semSel initValue maxValue => [(.semSel, semSel), (.initValue, initValue), (.maxValue, maxValue)]
  | .sempost semSel => [(.semSel, semSel)]
  | .semget semSel => [(.semSel, semSel)]
  | .semwait waitSemCond semSel stallRes => [(.waitSemCond, waitSemCond), (.semSel, semSel),
    (.stallRes, stallRes)]
  | .wrcfg cfgReg wr128b gprAddress => [(.cfgReg, cfgReg), (.wr128b, wr128b), (.gprAddress, gprAddress)]
  | .setc16 setc16Value setc16Reg => [(.setc16Value, setc16Value), (.setc16Reg, setc16Reg)]
  | .rmwcib0 cfgRegAddr data mask => [(.cfgRegAddr, cfgRegAddr), (.data, data), (.mask, mask)]
  | .rmwcib1 cfgRegAddr data mask => [(.cfgRegAddr, cfgRegAddr), (.data, data), (.mask, mask)]
  | .rmwcib2 cfgRegAddr data mask => [(.cfgRegAddr, cfgRegAddr), (.data, data), (.mask, mask)]
  | .rmwcib3 cfgRegAddr data mask => [(.cfgRegAddr, cfgRegAddr), (.data, data), (.mask, mask)]

/-- The value of one argument in its place: `(value mod 2^width) << start` (R99). An omitted argument is 0 (R98). -/
def placeArg (as : List (ArgName × Nat)) (b : ArgName × Nat × Nat) : Nat :=
  2 ^ b.2.1 * ((argValue as b.1).getD 0 % 2 ^ (b.2.2 + 1 - b.2.1))

/-- `Encode(name, args)` (R99) as a number, for any name of the schema and any arguments; `none` where the schema has no
row of the name. The fields of a row do not overlap, so their OR is their sum (log entry 31). -/
def Schema.encodeNat (sch : Schema) (n : OpName) (args : List (ArgName × Nat)) : Option Nat :=
  match sch.rowNamed n with
  | none => none
  | some r => some (2 ^ 24 * r.opcode + (r.bounds.map (placeArg args)).sum)

/-- `Encode(name, args)` (R99). -/
def Schema.encode (sch : Schema) (n : OpName) (args : List (ArgName × Nat)) : Option Word :=
  (sch.encodeNat n args).map (BitVec.ofNat 32)

/-- `Encode` of an instruction under a schema. -/
def Instr.encodeWith (sch : Schema) (i : Instr) : Option Word := sch.encode i.opName i.args

/-- The word of an instruction under the default schema, which has a row for every instruction. -/
def encode (i : Instr) : Word := (i.encodeWith schemaDefault).getD 0

/-! ## Well-formedness of a schema (R83) -/

/-- The tags of R151 and the tags no unit carries are both legal (R83), so only numbers and names are checked:
opcode values and names distinct, opcode values 8 bits, in one row start bits distinct and each in 0..23. DEDUCED, log
entry 40: "names distinct" is read of the argument names of one row too, since `Decode` makes them the keys of a map. -/
def Schema.wf (sch : Schema) : Bool :=
  decide ((sch.ops.map (·.opcode)).Nodup) && decide ((sch.ops.map (·.name)).Nodup) &&
  sch.ops.all (fun r => r.opcode < 256 && decide ((r.args.map (·.1)).Nodup) && decide ((r.args.map (·.2)).Nodup) &&
    r.args.all (fun a => a.2 ≤ argTop)) &&
  decide ((sch.cfg.map (·.name)).Nodup)

end Sys2Proof
end

