-- ==== Sys2Proof/Machine/Defaults.lean ====
section
/-! DEFINITION. The default values of the parameters of 00_scope.md R6. Where R6 gives no default the value is the
model's DESIGN CHOICE (log entry 12); no statement rests on one. -/

namespace Sys2Proof

/-- The default `TICK_ORDER` (41_dispatch_and_queues.md R160): the ten units, then the frontends by thread id. -/
def tickOrderDefault : List Component :=
  [.unit .matrix, .unit .vector, .unit .scalar, .unit .config, .unit .sync, .unit .mover, .unit .packer,
   .unit .unpacker0, .unit .unpacker1, .unit .misc, .frontend 0, .frontend 1, .frontend 2]

/-- The default `BLOCK_CLASS` table (40_frontend.md R133). -/
def blockClassDefault : List (Tag × Nat) :=
  [(.misc, 0), (.sync, 1), (.packer, 2), (.unpacker, 3), (.mover, 4), (.scalar, 5), (.matrix, 6), (.config, 7),
   (.vector, 8)]

/-- The default `COND_BIT` table (40_frontend.md R134), from bit 0; bits 8 to 11 and 15 and above have no
predicate. -/
def condBitDefault : List (Option CondPred) :=
  [some .scalarIdle, some (.dmaIdle .unpacker0), some (.dmaIdle .unpacker1), some (.dmaIdle .packer),
   some (.dmaIdle .packer), some (.dmaIdle .packer), some (.dmaIdle .packer), some (.queueIdle .matrix),
   none, none, none, none,
   some (.queueIdle .mover), some (.queueIdle .config), some (.queueIdle .vector)]

/-- No open function has a supplied answer: the constants of Config answer (log entry 8). -/
def Supplied.absent : Supplied where
  thconMove := none
  addrMod := none
  zeroaccPick := none
  zeroaccRows32 := none
  mode32 := none
  zeroaccEnabled := none
  moverOperands := none

/-- The parameters at their defaults (R6). DESIGN CHOICE, log entry 12: `instrnBase`, `instrnSize`, `semRegBase`,
`mopCfgBase`, `storeregBase`, the region bounds (those of 95_test_vectors.md section 2.11) and `memSize`. -/
def Params.default : Params where
  schema := schemaDefault
  tickOrder := tickOrderDefault
  capMopQ := 1
  capReplayQ := 1
  reoffer := true
  ngpr := 64
  blockClass := blockClassDefault
  condBit := condBitDefault
  wx := 18
  wy := 13
  wz := 8
  ww := 8
  wsrc := 6
  wdst := 10
  wfid := 2
  dstRows := 1024
  addrcrMode := .clear
  incadcShadow := .both
  storeregBase := 0
  altRule := .differ
  unpackSelBit := 23
  instrnBase := #v[0xFFE40000, 0xFFE50000, 0xFFE60000]
  instrnSize := #v[0x10000, 0x10000, 0x10000]
  semRegBase := 0xFFE80000
  mopCfgBase := #v[0xFFE90000, 0xFFEA0000, 0xFFEB0000]
  l1Base := 0
  l1Size := 0x180000
  l0Base := 0xFFB00000
  l0Size := 0x10000
  memSize := BitVec.allOnes 64
  latency := #v[0, 0, 0]
  supplied := Supplied.absent

/-- What R6 requires of a parameter choice: capacities at least 1, `STOREREG_BASE` a multiple of 4, a well-formed
schema (R83) and every component once in `TICK_ORDER` (R160). -/
def Params.wf (p : Params) : Bool :=
  p.schema.wf && 1 ≤ p.capMopQ && 1 ≤ p.capReplayQ && p.storeregBase % 4 == 0 &&
  decide p.tickOrder.Nodup && tickOrderDefault.all (p.tickOrder.contains ·)

end Sys2Proof
end

