-- ==== Sys2Proof/Machine/State.lean ====
section
/-! DEFINITION. The state of the block (10_state.md R20 to R45), why a run can stop, and the state after reset
(R50, 70_reset_and_hazards.md R300). Everything is plain data. -/

namespace Sys2Proof.Machine

/-! ## Why a run stops -/

/-- The fatal error classes of 60_exceptions.md R280 and the one stuck state of 93_implementation_defined.md U14.
All are safe: the run ends where the spec ends it, or where the spec has no step. -/
inductive Fault where
  /-- F1 (R282): a stage decodes a word whose opcode no schema row has. Raised by the macro expander, the replay
  expander and the wait gate. Safe. -/
  | unknownOpcode (w : Word)
  /-- F2 (R283): the dispatcher meets a tag that names no unit, or the wait gate a FRONTEND word. Safe. -/
  | unroutableInstruction (w : Word)
  /-- F3 (R284): a name absent from the schema, or an index out of range. Raised by the meanings, where a rule reads an
  argument its row lacks (`State.missingArg`), and by an environment write of a register that does not exist. Safe. -/
  | invalidFieldAccess (r : FieldRef)
  /-- F4 (R285): a Mover transfer that straddles a 64 KiB boundary or fails range validation. Safe. -/
  | unsupportedTransfer (src dst n : Nat)
  /-- Stuck (U14, 20_memory.md R61): the memory capability cannot serve the access. Raised by STOREREG, XMOV and the
  environment's memory accesses. Safe. -/
  | memoryUnserved (addr n : Nat)
deriving DecidableEq, Repr

/-- The refusals of 60_exceptions.md R286. All are safe: the model stops where no claim may be made. -/
inductive Refusal where
  /-- An instruction whose arm in `exec` has no meaning yet. Raised by `exec`. Safe. -/
  | notModelled (mnemonic : String)
  /-- R157, R179, R251, R270: a unit has no rule for the instruction routed to it. Raised by a drain. Safe. -/
  | unmodelledAtUnit (u : FUnit) (w : Word)
  /-- R242: nothing in the spec fixes what SETADCXX's two values do. Raised by SETADCXX. Safe. -/
  | setadcxxValuesNotGiven
  /-- R256: ZEROACC with a `clear_mode` other than 0 to 3. Raised by ZEROACC. Safe. -/
  | zeroaccScopeNotGiven (clearMode : Nat)
  /-- R127 (a): a play of a slot that was never recorded since reset. Raised by the replay expander. Safe. -/
  | replayOfEmptySlot (slot : Nat)
  /-- R127 (b): a REPLAY word while the thread is in load mode. Raised by REPLAY. Safe. -/
  | replayWhileLoading
  /-- R134: a latched STALLWAIT condition bit with no predicate. Raised by the wait gate. Safe. -/
  | conditionBitUnmodelled (bit : Nat)
  /-- R64, R66, R110: an access that touches a port but is not one R64 gives. Raised by an environment move. Safe. -/
  | portAccessNotGiven (addr size : Nat)
deriving DecidableEq, Repr

/-- Why a run stopped. -/
inductive Stop where
  | fault (f : Fault)
  | refused (r : Refusal)
deriving DecidableEq, Repr

/-- The record of a stop (R281: `Faulted(F, info, thread, component)`); an environment move has no thread and no
component. -/
structure Halt where
  why : Stop
  thread : Option Thread
  component : Option Component
deriving DecidableEq, Repr

/-! ## Pieces of state -/

/-- An entry of a unit queue: raw word and issuing thread; the decoded view is a function of the word (R21). -/
structure Entry where
  word : Word
  thread : Thread
deriving DecidableEq, Repr, Inhabited

/-- The kind of a latched wait condition (R35). -/
inductive LatchKind where
  | none | stallwait | semwait
deriving DecidableEq, Repr, Inhabited

/-- A latched wait condition (R35). -/
structure Latch where
  kind : LatchKind
  condMask : Nat
  blockMask : Nat
  semSel : Option (BitVec 8)
deriving DecidableEq, Repr, Inhabited

/-- No latched condition (R35). -/
def Latch.clear : Latch := ⟨.none, 0, 0, Option.none⟩

/-- A semaphore: value and max, both 0..15 (R39). -/
structure Semaphore where
  value : Nat
  max : Nat
deriving DecidableEq, Repr, Inhabited

/-- The external byte-addressed memory (20_memory.md R61) as (address, byte) pairs in one canonical form. -/
structure Memory where
  cells : List Host.Cell
deriving DecidableEq, Repr, Inhabited

/-- A move of the environment (60_exceptions.md R296), made between cycles. -/
inductive EnvMove where
  /-- `IntakeWrite(t, w)` (R110). -/
  | intakeWrite (t : Thread) (w : Word)
  /-- `SemRegWrite(i, data)` (R204). -/
  | semRegWrite (i : Fin 8) (data : Word)
  /-- The semaphore register read (R205). -/
  | semRegRead (i : Fin 8)
  /-- `MopCfgWrite(t, k, v)` (R113). -/
  | mopCfgWrite (t : Thread) (k : Fin 9) (v : Word)
  /-- `AdcPoke(t, g, c, field, v)` (R243). -/
  | adcPoke (t : Thread) (g : Group) (c : Fin 2) (d : Dim) (h : Half) (v : Nat)
  /-- A control core's write of `gpr[t][i]` (R296). -/
  | gprWrite (t : Thread) (i : Nat) (v : Word)
  /-- A write of the external memory by its owner (R296). -/
  | memWrite (addr : Nat) (bytes : List Byte)
  /-- A read of the external memory by its owner (R296). -/
  | memRead (addr n : Nat)
  /-- A write of `size` bytes (the low bytes of `data`) at an address of the memory map (R64). -/
  | busWrite (addr size : Nat) (data : Word)
  /-- A read of `size` bytes at an address of the memory map (R64). -/
  | busRead (addr size : Nat)
  /-- The reset capability (R300). -/
  | reset
deriving DecidableEq, Repr

/-- What a move answered: success or failure of an intake write (R110), or bytes read (R205). -/
inductive Reply where
  | accepted (ok : Bool)
  | bytes (bs : List Byte)
deriving DecidableEq, Repr

/-- Where a unit's queue stands in `State.queue`, in the order of R160. -/
def unitIndex : FUnit → Fin 10
  | .matrix => 0
  | .vector => 1
  | .scalar => 2
  | .config => 3
  | .sync => 4
  | .mover => 5
  | .packer => 6
  | .unpacker0 => 7
  | .unpacker1 => 8
  | .misc => 9

/-- Where a unit's in-flight counters stand in `State.inflight` and `Params.latency`. -/
def dmaIndex : DmaUnit → Fin 3
  | .unpacker0 => 0
  | .unpacker1 => 1
  | .packer => 2

/-- The state. Fields up to `halt` are the model's own (log entries 1, 2, 3, 5); the rest is 10_state.md R21 to
R45, a per-thread piece as a vector indexed by the thread. -/
structure State where
  /-- The parameters (R6), constant in every run. -/
  par : Params
  /-- The issuing thread `t` of the instruction being executed. -/
  cur : Thread
  /-- The decoded view of the instruction being executed, which the open functions read whole (R217, R256, R269). -/
  instr : Decoded
  /-- The environment's moves before the first tick of each coming cycle (R160, R296). -/
  inputs : List (List EnvMove)
  /-- What the moves of the latest cycle answered, in order. -/
  replies : List Reply
  /-- The faulted or refused record (R281, R286). -/
  halt : Option Halt
  /-- R22. -/
  gpr : Vector (List Word) 3
  /-- R26. -/
  cfg : GeneralCfg
  /-- R27. -/
  tcfg : Vector ThreadCfg 3
  /-- R29. -/
  mopQ : Vector (List Word) 3
  /-- R30. -/
  replayQ : Vector (List Word) 3
  /-- R31: the nine config words, the high-mask latch, the expansion flag, the words still to emit. -/
  mopCfg : Vector (Vector Word 9) 3
  zmaskHi : Vector (BitVec 16) 3
  expanding : Vector Bool 3
  mopOut : Vector (List Word) 3
  /-- R33: the replay buffer and its cursors. -/
  rbuf : Vector (Vector (Option Word) 32) 3
  recCursor : Vector Nat 3
  recLeft : Vector Nat 3
  startIdx : Vector Nat 3
  playCursor : Vector Nat 3
  playLeft : Vector Nat 3
  ewl : Vector Bool 3
  /-- R34. -/
  gateSlot : Vector (Option Word) 3
  /-- R35. -/
  latch : Vector Latch 3
  /-- R36. -/
  mutexWait : Vector Bool 3
  backendStall : Vector Bool 3
  /-- R37: the ten unit queues, oldest entry first, indexed by `unitIndex`. -/
  queue : Vector (List Entry) 10
  /-- R38. -/
  cfgWritePrev : Bool
  /-- R39. -/
  sem : Vector Semaphore 8
  /-- R40: the holder of each mutex, and the blocked (thread, index) pairs, oldest first. -/
  mutex : Vector (Option Thread) 8
  waiters : List (Thread × Nat)
  /-- R41. -/
  flush : Vector (Option (BitVec 3)) 3
  /-- R42. -/
  rwc : Vector Rwc 3
  /-- R43. -/
  adc : Vector AdcThread 3
  /-- R44: the rows marked undefined, rising. -/
  dstUndefined : List Nat
  /-- R45: indexed by `dmaIndex` and thread. -/
  inflight : Vector (Vector Nat 3) 3
  /-- The external memory (R61), which belongs to the environment. -/
  mem : Memory
deriving DecidableEq, Repr

/-- The decoded view of a NOP word (R140): what `State.instr` holds before the first instruction. -/
def Decoded.nop : Decoded := ⟨.nop, [], .none, 0x02000000⟩

/-- The state after construction with parameters `p`: the table of R50, and nothing listed in the external memory
(R301). -/
def State.powerOn (p : Params) : State where
  par := p
  cur := 0
  instr := Decoded.nop
  inputs := []
  replies := []
  halt := none
  gpr := Vector.replicate 3 (List.replicate p.ngpr 0)
  cfg := Vector.replicate 2 (Vector.replicate 188 0)
  tcfg := Vector.replicate 3 (Vector.replicate 57 0)
  mopQ := Vector.replicate 3 []
  replayQ := Vector.replicate 3 []
  mopCfg := Vector.replicate 3 (Vector.replicate 9 0)
  zmaskHi := Vector.replicate 3 0
  expanding := Vector.replicate 3 false
  mopOut := Vector.replicate 3 []
  rbuf := Vector.replicate 3 (Vector.replicate 32 none)
  recCursor := Vector.replicate 3 0
  recLeft := Vector.replicate 3 0
  startIdx := Vector.replicate 3 0
  playCursor := Vector.replicate 3 0
  playLeft := Vector.replicate 3 0
  ewl := Vector.replicate 3 false
  gateSlot := Vector.replicate 3 none
  latch := Vector.replicate 3 Latch.clear
  mutexWait := Vector.replicate 3 false
  backendStall := Vector.replicate 3 false
  queue := Vector.replicate 10 []
  cfgWritePrev := false
  sem := Vector.replicate 8 ⟨0, 0⟩
  mutex := Vector.replicate 8 none
  waiters := []
  flush := Vector.replicate 3 none
  rwc := Vector.replicate 3 Rwc.zero
  adc := Vector.replicate 3 AdcThread.zero
  dstUndefined := []
  inflight := Vector.replicate 3 (Vector.replicate 3 0)
  mem := ⟨[]⟩

/-- Construction (R83, R301, U26): no model exists for an ill-formed parameter choice. -/
def State.construct (p : Params) : Option State := if p.wf then some (State.powerOn p) else none

/-- The machine right after reset, with the default parameters (R50, R300). -/
def State.reset : State := State.powerOn Params.default

/-- The reset capability applied to a state (R300): every piece of state of R50 at its table value, the faulted and
refused marks cleared; the schema and the other parameters, the external memory and the environment's own moves and
answers are not touched. -/
def State.reboot (s : State) : State :=
  { State.powerOn s.par with inputs := s.inputs, replies := s.replies, mem := s.mem }

end Sys2Proof.Machine
end

