-- ==== Sys2Proof/Machine/Ops.lean ====
section
/-! DEFINITION. The operations every rule is built on: the external memory, the unit queues, raising a fault or a
refusal (this hardware's whole exception mechanism: 60_exceptions.md R281, R290), and the callbacks into the wait
gate (40_frontend.md R137). -/

namespace Sys2Proof.Machine

/-- The result of an instruction's meaning. -/
abbrev Result := Host.Outcome State Fault Refusal

/-- Continue with a value, or raise the `InvalidFieldAccess` that stands in its place (R284). -/
def orFault {α : Type} (e : Except FieldRef α) (k : α → Result) : Result :=
  match e with
  | .ok a => k a
  | .error r => .fault (.invalidFieldAccess r)

/-! ## The external memory (20_memory.md R61) -/

/-- What a byte that nothing has written reads as. DESIGN CHOICE, log entry 6: the spec leaves the contents of the
external memory to the environment. -/
def Memory.unlisted : Byte := 0

/-- The canonical form of the cells: addresses strictly rising, no cell equal to what an unlisted address reads. -/
def cellsWf : List Host.Cell → Bool
  | [] => true
  | [c] => c.2 != Memory.unlisted
  | c :: d :: rest => c.2 != Memory.unlisted && c.1 < d.1 && cellsWf (d :: rest)

/-- The memory is in its canonical form. -/
def Memory.wf (m : Memory) : Bool := cellsWf m.cells

/-- Read one byte of a list of cells. -/
def readCell : List Host.Cell → Nat → Byte
  | [], _ => Memory.unlisted
  | c :: rest, a => if c.1 = a then c.2 else readCell rest a

/-- Write one byte into a canonical list of cells, keeping the form. -/
def writeCell : List Host.Cell → Nat → Byte → List Host.Cell
  | [], a, b => if b = Memory.unlisted then [] else [(a, b)]
  | c :: rest, a, b =>
    if a < c.1 then (if b = Memory.unlisted then c :: rest else (a, b) :: c :: rest)
    else if a = c.1 then (if b = Memory.unlisted then rest else (a, b) :: rest)
    else c :: writeCell rest a b

/-- Read one byte. -/
def Memory.read (m : Memory) (a : Nat) : Byte := readCell m.cells a

/-- Write one byte. -/
def Memory.write (m : Memory) (a : Nat) (b : Byte) : Memory := ⟨writeCell m.cells a b⟩

/-- `MemRead(addr, n)` (R9): the bytes in ascending address order. -/
def Memory.readBytes (m : Memory) (a n : Nat) : List Byte := (List.range n).map fun k => m.read (a + k)

/-- `MemWrite(addr, n, bytes)` (R9) in ascending address order. -/
def Memory.writeBytes (m : Memory) (a : Nat) : List Byte → Memory
  | [] => m
  | b :: bs => (m.write a b).writeBytes (a + 1) bs

/-- `LE32` (44_thcon_unit.md R219, 20_memory.md R65): byte 0 is bits 7:0 of the word. -/
def le32 (w : Word) : List Byte :=
  [w.extractLsb' 0 8, w.extractLsb' 8 8, w.extractLsb' 16 8, w.extractLsb' 24 8]

/-- The memory capability can serve `n` bytes at `addr` (R61 `size()`, U14): every address of a served access is one of
64 bits, since `size()` is. -/
def State.served (s : State) (addr n : Nat) : Bool := addr + n ≤ s.par.memSize.toNat

/-! ## Raising (R281, R286): the one shared operation -/

/-- The run has ended (R281). -/
def State.halted (s : State) : Bool := s.halt.isSome

/-- `raise F(info)` and `refuse(reason)`: nothing is saved and no handler runs; the state is kept as it is, marked
with the reason, the thread and the component (R281, R286, R290). -/
def State.stop (s : State) (why : Stop) (t : Thread) (c : Component) : State :=
  { s with halt := some ⟨why, some t, some c⟩ }

/-- The state after an instruction's meaning: its next state, or the state before it, stopped (R281: "the faulting
instruction's own writes are not made"). -/
def State.absorb (s : State) (t : Thread) (c : Component) : Result → State
  | .next s' => s'
  | .fault f => s.stop (.fault f) t c
  | .refused r => s.stop (.refused r) t c

/-- Go on unless the run has ended: "no component steps again" (R281). -/
def State.andThen (s : State) (f : State → State) : State := if s.halted then s else f s

/-! ## Issuing (log entry 3) -/

/-- Thread t's instruction with decoded view `d` is the one being executed. -/
def State.issue (s : State) (t : Thread) (d : Decoded) : State := { s with cur := t, instr := d }

/-! ## Unit queues (R37, R153) -/

/-- `queue[u]`. -/
def State.queueOf (s : State) (u : FUnit) : List Entry := s.queue[unitIndex u]

/-- `queue[u] <- q`. -/
def State.setQueue (s : State) (u : FUnit) (q : List Entry) : State :=
  { s with queue := s.queue.set (unitIndex u) q }

/-- Append an entry to `queue[u]`. -/
def State.pushEntry (s : State) (u : FUnit) (e : Entry) : State := s.setQueue u (s.queueOf u ++ [e])

/-- `queue[u]` holds an entry of thread t. -/
def State.queued (s : State) (u : FUnit) (t : Thread) : Bool := (s.queueOf u).any fun e => decide (e.thread = t)

/-! ## Callbacks into the wait gate (R137) -/

/-- `informMutexAcquired(t)`. -/
def State.informMutexAcquired (s : State) (t : Thread) : State :=
  { s with mutexWait := s.mutexWait.set t false }

/-- `setBackendEnforcedStall(t)`. -/
def State.setBackendEnforcedStall (s : State) (t : Thread) : State :=
  { s with backendStall := s.backendStall.set t true }

/-- `clearBackendEnforcedStall(t)`. -/
def State.clearBackendEnforcedStall (s : State) (t : Thread) : State :=
  { s with backendStall := s.backendStall.set t false }

/-! ## In-flight counters (R45) -/

/-- `inflight[u][t]`. -/
def State.inflightOf (s : State) (u : DmaUnit) (t : Thread) : Nat := s.inflight[dmaIndex u][t]

/-- `inflight[u][t] <- n`. -/
def State.setInflight (s : State) (u : DmaUnit) (t : Thread) (n : Nat) : State :=
  { s with inflight := s.inflight.set (dmaIndex u) (s.inflight[dmaIndex u].set t n) }

/-! ## Semaphores (R39): the saturating steps of R200 and R201 -/

/-- `SEM_MAXVAL` of R6. -/
def semMaxval : Nat := 15

/-- SEMPOST's step on one semaphore: saturating at 15, not at `max` (R200). -/
def Semaphore.post (x : Semaphore) : Semaphore := { x with value := min (x.value + 1) semMaxval }

/-- SEMGET's step on one semaphore: saturating at 0 (R201). -/
def Semaphore.get (x : Semaphore) : Semaphore := { x with value := x.value - 1 }

/-- Apply an operation to every selected semaphore in one step (R198): bit i of the selector selects `sem[i]`. -/
def State.overSemaphores (s : State) (sel : Nat) (f : Semaphore → Semaphore) : State :=
  { s with sem := Vector.ofFn fun i => if sel.testBit i then f s.sem[i] else s.sem[i] }

end Sys2Proof.Machine
end

