-- ==== Sys2Proof/Machine/Operands.lean ====
section
/-! DEFINITION. The operand forms of the rules: configuration fields and the active bank (30_encoding.md R88,
42_config_unit.md R175), byte lanes (R178), counter widths (R244, R252), the ADC family's group selection, thread
override and enable pairs (45_adc_unit.md R232 to R234, R241), the mutex index (R193), general registers (R22, R24). -/

namespace Sys2Proof

/-! ## Truncation (R8) -/

/-- `trunc_N(v)` (R8). -/
def truncTo (n v : Nat) : Nat := v % 2 ^ n

/-- The width of a dimension's counters: `WX, WY, WZ, WW` (R244). -/
def Params.dimWidth (p : Params) : Dim → Nat
  | .x => p.wx
  | .y => p.wy
  | .z => p.wz
  | .w => p.ww

/-! ## ADC counters (R43) -/

/-- One counter of a channel. -/
def AdcChannel.get (a : AdcChannel) : Dim → Counter
  | .x => a.x
  | .y => a.y
  | .z => a.z
  | .w => a.w

/-- One channel of a group. -/
def AdcGroup.chan (a : AdcGroup) (c : Fin 2) : AdcChannel := if c = 0 then a.ch0 else a.ch1

/-- One group of a bank. -/
def AdcThread.group (a : AdcThread) : Group → AdcGroup
  | .u0 => a.u0
  | .u1 => a.u1
  | .pk => a.pk

/-- `adc[t][g][c].d` of a thread's bank: the counter with its shadow. -/
def AdcThread.get (a : AdcThread) (g : Group) (c : Fin 2) (d : Dim) : Counter := ((a.group g).chan c).get d

/-- The channel whose counters are given by dimension. -/
def AdcChannel.ofFn (f : Dim → Counter) : AdcChannel := ⟨f .x, f .y, f .z, f .w⟩

/-- The group whose counters are given by channel and dimension. -/
def AdcGroup.ofFn (f : Fin 2 → Dim → Counter) : AdcGroup := ⟨AdcChannel.ofFn (f 0), AdcChannel.ofFn (f 1)⟩

/-- The bank whose counters are given by group, channel and dimension. -/
def AdcThread.ofFn (f : Group → Fin 2 → Dim → Counter) : AdcThread :=
  ⟨AdcGroup.ofFn (f .u0), AdcGroup.ofFn (f .u1), AdcGroup.ofFn (f .pk)⟩

/-- The two dimension pairs of the two-dimension instructions (R234). -/
inductive DimPair where
  | xy | zw
deriving DecidableEq, Repr

/-- The place of a (channel, dimension) pair in the enable mask (R234): channel 0 first, first dimension first;
`none` for a dimension the instruction does not have. -/
def pairPlace (p : DimPair) (c : Fin 2) (d : Dim) : Option Nat :=
  match p, d with
  | .xy, .x => some (2 * c.val)
  | .xy, .y => some (2 * c.val + 1)
  | .zw, .z => some (2 * c.val)
  | .zw, .w => some (2 * c.val + 1)
  | _, _ => none

/-- The four value fields of a two-dimension instruction, in the order of the enable mask (R234). -/
structure PairValues where
  v0 : Nat
  v1 : Nat
  v2 : Nat
  v3 : Nat

/-- The value field of a place. -/
def PairValues.at (v : PairValues) (k : Nat) : Nat :=
  if k = 0 then v.v0 else if k = 1 then v.v1 else if k = 2 then v.v2 else v.v3

/-- The operation on each enabled pair of a two-dimension instruction (R234): `f width value` on the counters whose
bit of the enable mask is set. -/
def pairOps (p : Params) (pair : DimPair) (enable : Nat) (v : PairValues) (f : Nat → Nat → Counter → Counter)
    (c : Fin 2) (d : Dim) : Option (Counter → Counter) :=
  match pairPlace pair c d with
  | some k => if enable.testBit k then some (f (p.dimWidth d) (v.at k)) else none
  | none => none

/-- Set: counter and shadow take the truncated value (R235, R244). -/
def Counter.setTo (width v : Nat) (_ : Counter) : Counter := ⟨truncTo width v, truncTo width v⟩

/-- Increment, wrapping at the width (R237, R244); the shadow too unless `INCADC_SHADOW` is `counter_only`. -/
def Counter.inc (mode : IncadcShadow) (width v : Nat) (x : Counter) : Counter :=
  match mode with
  | .both => ⟨truncTo width (x.val + v), truncTo width (x.cr + v)⟩
  | .counterOnly => ⟨truncTo width (x.val + v), x.cr⟩

/-- Clear, or the carriage return of `ADDRCR_MODE` (R239): `d_Cr <- d_Cr + v; d <- d_Cr`. -/
def Counter.addrcr (mode : AddrcrMode) (width v : Nat) (x : Counter) : Counter :=
  match mode with
  | .clear => ⟨0, 0⟩
  | .carriageReturn => ⟨truncTo width (x.cr + v), truncTo width (x.cr + v)⟩

/-! ## RWC counters (R252) -/

/-- Every write of an RWC counter truncates to its width (R252). -/
def Rwc.trunc (p : Params) (r : Rwc) : Rwc :=
  { srcA := ⟨truncTo p.wsrc r.srcA.val, truncTo p.wsrc r.srcA.cr⟩
    srcB := ⟨truncTo p.wsrc r.srcB.val, truncTo p.wsrc r.srcB.cr⟩
    dst := ⟨truncTo p.wdst r.dst.val, truncTo p.wdst r.dst.cr⟩
    fidelityPhase := truncTo p.wfid r.fidelityPhase
    extraAddrModBit := r.extraAddrModBit }

/-- The operands of SETRWC on one counter (R254): direct, or relative to the shadow. -/
def Counter.setRelative (width : Nat) (cr : Bool) (v : Nat) (x : Counter) : Counter :=
  let r := truncTo width (if cr then x.cr + v else v)
  ⟨r, r⟩

end Sys2Proof

namespace Sys2Proof.Machine

/-! ## Configuration fields (R88) -/

/-- `CfgRead(name, b)` (R88). -/
def State.cfgRead (s : State) (n : CfgName) (b : Fin 2) : Except FieldRef Nat :=
  match s.par.schema.field .general n with
  | none => .error (.field n)
  | some r => if h : r.addr < 188 then .ok (r.extract s.cfg[b][r.addr]) else .error (.index r.addr)

/-- `TCfgRead(name, t)` (R88). -/
def State.tcfgRead (s : State) (n : CfgName) (t : Thread) : Except FieldRef Nat :=
  match s.par.schema.field .thread n with
  | none => .error (.field n)
  | some r => if h : r.addr < 57 then .ok (r.extract s.tcfg[t][r.addr]) else .error (.index r.addr)

/-- `ActiveBank(t)` (R175, R28): 2 or more raises `InvalidFieldAccess`. -/
def State.activeBank (s : State) (t : Thread) : Except FieldRef (Fin 2) :=
  match s.tcfgRead .cfgStateId t with
  | .error e => .error e
  | .ok v => if h : v < 2 then .ok ⟨v, h⟩ else .error (.index v)

/-! ## General registers (R22, R24) -/

/-- `gpr[t][i]`; an index of `NGPR` or more does not exist (R24). -/
def State.gprOf (s : State) (t : Thread) (i : Nat) : Word := (s.gpr[t][i]?).getD 0

/-- `gpr[t][i] <- v`. -/
def State.setGpr (s : State) (t : Thread) (i : Nat) (v : Word) : State :=
  { s with gpr := s.gpr.set t (s.gpr[t].set i v) }

/-! ## Configuration words (R26, R27) -/

/-- `cfg[b][i]`. -/
def State.cfgOf (s : State) (b : Fin 2) (i : Nat) : Word := (s.cfg[b][i]?).getD 0

/-- `cfg[b][i] <- v`; callers check `i < 188` first. -/
def State.setCfg (s : State) (b : Fin 2) (i : Nat) (v : Word) : State :=
  { s with cfg := s.cfg.set b (s.cfg[b].setIfInBounds i v) }

/-- `tcfg[t][i] <- v`; callers check `i < 57` first. -/
def State.setTcfg (s : State) (t : Thread) (i : Nat) (v : Word) : State :=
  { s with tcfg := s.tcfg.set t (s.tcfg[t].setIfInBounds i v) }

/-! ## Byte lanes (R178, R65) -/

/-- Byte lane k of a word: bits `8k+7 : 8k` (R65). -/
def byteLane (w : Word) (k : Nat) : Byte := w.extractLsb' (8 * k) 8

/-- The word with byte lane k replaced. -/
def setByteLane (w : Word) (k : Nat) (b : Byte) : Word :=
  (w &&& ~~~((0xFF#32) <<< (8 * k))) ||| ((b.setWidth 32) <<< (8 * k))

/-- The masked write of one byte: `(old & ~m) | (d & m)` (R178). -/
def maskedByte (old d m : Byte) : Byte := (old &&& ~~~m) ||| (d &&& m)

/-! ## ADC counters (R43, R230) -/

/-- Write one half of one counter, truncated to its width (R243, R217). -/
def State.pokeAdc (s : State) (t : Thread) (g : Group) (c : Fin 2) (d : Dim) (h : Half) (v : Nat) : State :=
  { s with
    adc := s.adc.set t (AdcThread.ofFn fun g' c' d' =>
      let old := s.adc[t].get g' c' d'
      if g' = g ∧ c' = c ∧ d' = d then
        match h with
        | .counter => { old with val := truncTo (s.par.dimWidth d) v }
        | .shadow => { old with cr := truncTo (s.par.dimWidth d) v }
      else old) }

/-- Group selection (R232): bit 0 Unpacker0, bit 1 Unpacker1, bit 2 Packer. -/
def groupSelected (cntSetMask : Nat) : Group → Bool
  | .u0 => cntSetMask.testBit 0
  | .u1 => cntSetMask.testBit 1
  | .pk => cntSetMask.testBit 2

/-- The group of an index: the place of its bit in the group selection (R232); a larger one is out of range (R284). -/
def groupOfIndex (n : Nat) : Except FieldRef Group :=
  match n with
  | 0 => .ok .u0
  | 1 => .ok .u1
  | 2 => .ok .pk
  | _ => .error (.index n)

/-- The dimension of an index (R241: 0 X, 1 Y, 2 Z, 3 W); a larger one is out of range (R284, log entry 18). -/
def dimOfIndex (n : Nat) : Except FieldRef Dim :=
  match n with
  | 0 => .ok .x
  | 1 => .ok .y
  | 2 => .ok .z
  | 3 => .ok .w
  | _ => .error (.index n)

/-- The channel of an index (R241: 0 or 1); a larger one is out of range (R284, log entry 18). -/
def chanOfIndex (n : Nat) : Except FieldRef (Fin 2) := if h : n < 2 then .ok ⟨n, h⟩ else .error (.index n)

/-- Thread override (R233): 0 is the issuing thread, `v` is thread `v - 1`, an id past the last thread raises. -/
def overrideThread (t : Thread) (v : Nat) : Except FieldRef Thread :=
  if v = 0 then .ok t else if h : v - 1 < 3 then .ok ⟨v - 1, h⟩ else .error (.index (v - 1))

/-- The shared operation of the ADC family (R230): in every selected group of the target thread, each counter for
which `f` gives an operation is changed by it, every other counter is unchanged. -/
def State.overAdc (s : State) (ovr cntSetMask : Nat) (f : Fin 2 → Dim → Option (Counter → Counter)) : Result :=
  orFault (overrideThread s.cur ovr) fun t' =>
    .next { s with
      adc := s.adc.set t' (AdcThread.ofFn fun g c d =>
        let old := s.adc[t'].get g c d
        if groupSelected cntSetMask g then
          match f c d with
          | some h => h old
          | none => old
        else old) }

/-! ## Mutex index (R193) -/

/-- The usable mutex indices are 1..7; any other raises `InvalidFieldAccess` (R193). -/
def mutexIndex (i : Nat) : Except FieldRef (Fin 8) :=
  if h : 1 ≤ i ∧ i < 8 then .ok ⟨i, h.2⟩ else .error (.index i)

/-! ## RWC counters (R252) -/

/-- Write thread t's RWC set. -/
def State.setRwc (s : State) (t : Thread) (r : Rwc) : State := { s with rwc := s.rwc.set t r }

end Sys2Proof.Machine
end

