-- ==== Sys2Proof/Machine/Flags.lean ====
section
/-! DEFINITION. The block has no arithmetic condition codes (10_state.md R46); what a program can observe are the
predicates of this file: in-flight status (44_thcon_unit.md R222), STALLWAIT conditions (40_frontend.md R134), the
latched wait (R132) and the block classes (R133). -/

namespace Sys2Proof

/-- The unit of a `DmaUnit`. -/
def DmaUnit.unit : DmaUnit → FUnit
  | .unpacker0 => .unpacker0
  | .unpacker1 => .unpacker1
  | .packer => .packer

/-- `Blocked(blockMask, instr)` (R133): the tag's class bit is set in the mask; a tag with no class is never
blocked, and the tag NONE never is, whatever the table. -/
def Params.blocked (p : Params) (blockMask : Nat) (tag : Tag) : Bool :=
  if tag = .none then false
  else
    match p.blockClass.find? fun x => decide (x.1 = tag) with
    | some x => blockMask.testBit x.2
    | none => false

end Sys2Proof

namespace Sys2Proof.Machine

/-- `InFlight(u, t)` (R222): the queue holds an entry of thread t, or the unit still has work of it in flight. -/
def State.inFlight (s : State) (u : DmaUnit) (t : Thread) : Bool :=
  s.queued (u.unit) t || decide (0 < s.inflightOf u t)

/-- The units a FLUSHDMA mask selects (R221): bit 0 Unpacker0, bit 1 Unpacker1, bit 2 Packer. -/
def flushSelects (m : BitVec 3) (u : DmaUnit) : Bool := m.getLsbD (dmaIndex u)

/-- Some unit selected by the mask has in-flight work of thread t (R221, R223). -/
def State.anyInFlight (s : State) (m : BitVec 3) (t : Thread) : Bool :=
  [DmaUnit.unpacker0, .unpacker1, .packer].any fun u => flushSelects m u && s.inFlight u t

/-- `stalled(u)` (R155, R216): true only for the Scalar unit, while any thread's flush is outstanding. -/
def State.stalled (s : State) (u : FUnit) : Bool :=
  decide (u = .scalar) && [(0 : Thread), 1, 2].any fun t => (s.flush[t]).isSome

/-- Whether a predicate of the `COND_BIT` table is met for thread t (R134). -/
def State.predMet (s : State) (t : Thread) : CondPred → Bool
  | .scalarIdle => !s.queued .scalar t && (s.flush[t]).isNone
  | .dmaIdle u => !s.inFlight u t
  | .queueIdle u => !s.queued u t

/-- `CondMet(c, t)` (R134); `none` for a bit with no predicate. -/
def State.condMet (s : State) (c : Nat) (t : Thread) : Option Bool :=
  match s.par.condBit[c]? with
  | some (some p) => some (s.predMet t p)
  | _ => none

/-- The set bits of a mask, from bit 0 upward (R9). -/
def bitsOf (m : Nat) : List Nat := (List.range (m.log2 + 1)).filter m.testBit

/-- A semaphore meets a selected SEMWAIT condition (R132): bit 0 while its value is 0, bit 1 while it is at or above
its max. -/
def Semaphore.holds (x : Semaphore) (cond : Nat) : Bool :=
  (cond.testBit 0 && decide (x.value = 0)) || (cond.testBit 1 && decide (x.max ≤ x.value))

/-- `WaitHolds(t)` (R132): the latched condition is still unmet. The refusal is R134's: a set condition bit the model
has no predicate for (log entry 14). -/
def State.waitHolds (s : State) (t : Thread) : Except Refusal Bool :=
  let l := s.latch[t]
  match l.kind with
  | .none => .ok false
  | .stallwait =>
    match (bitsOf l.condMask).find? fun c => (s.condMet c t).isNone with
    | some c => .error (.conditionBitUnmodelled c)
    | none => .ok ((bitsOf l.condMask).any fun c => decide (s.condMet c t = some false))
  | .semwait => .ok ((List.finRange 8).any fun i => (l.semSel.getD 0).getLsbD i && s.sem[i].holds l.condMask)

end Sys2Proof.Machine
end

