-- ==== Sys2Proof/Machine/Admission.lean ====
section
/-! DEFINITION. The admission phase of the units (41_dispatch_and_queues.md R153, R154; 42_config_unit.md R171;
43_sync_unit.md R191) and the routing of tags to units (R150 to R152). -/

namespace Sys2Proof.Machine

/-- The answer of `offer(u, t, instr)` (R153): the state with the entry appended, the `false` of a rejection (which is
`CapacityExceeded`, R158, no fault), or the fault of an argument read (R84). -/
inductive Offer where
  | taken (s : State)
  | rejected
  | fault (f : Fault)
deriving DecidableEq, Repr

/-- The name an entry decodes to. -/
def State.entryName (s : State) (e : Entry) : Option OpName := s.par.schema.nameOf e.word

/-- An argument of an entry's decoded view. -/
def State.entryArg (s : State) (e : Entry) (a : ArgName) : Option Nat :=
  match s.par.schema.decode e.word with
  | some d => argValue d.args a
  | none => none

/-- How many entries of `queue[u]` have a name. -/
def State.countNamed (s : State) (u : FUnit) (n : OpName) : Nat :=
  ((s.queueOf u).filter fun e => decide (s.entryName e = some n)).length

/-- Take the offer if `ok` holds. -/
def State.offerIf (s : State) (u : FUnit) (e : Entry) (ok : Bool) : Offer :=
  if ok then .taken (s.pushEntry u e) else .rejected

/-- Generic admission (R154): one pending instruction per (unit, thread), none while the unit is stalled (R155). -/
def State.offerGeneric (s : State) (u : FUnit) (e : Entry) : Offer :=
  s.offerIf u e (!s.stalled u && !s.queued u e.thread)

/-- The Config unit's pair SETC16/WRCFG (R171). -/
def isCfgWriter (n : Option OpName) : Bool := decide (n = some .setc16 ∨ n = some .wrcfg)

/-- `offer(Config, t, instr)` (R171). -/
def State.offerConfig (s : State) (e : Entry) (name : OpName) : Offer :=
  let nS := s.countNamed .config .setc16
  let nW := s.countNamed .config .wrcfg
  let ok :=
    if name = .setc16 then decide (nS < 3)
    else if name = .wrcfg then decide (nW < 1)
    else !s.cfgWritePrev && decide (nS = 0) && decide (nW = 0) &&
      !(s.queueOf .config).any fun x => decide (x.thread = e.thread) && !isCfgWriter (s.entryName x)
  s.offerIf .config e ok

/-- The Sync unit's pair ATGETM/ATRELM (R191). -/
def isMutexOp (n : Option OpName) : Bool := decide (n = some .atgetm ∨ n = some .atrelm)

/-- `offer(Sync, t, instr)` (R191); the mutex index is compared raw, before any validity check. -/
def State.offerSync (s : State) (e : Entry) (d : Decoded) : Offer :=
  let at' := (s.queueOf .sync).filter fun x => isMutexOp (s.entryName x)
  let oth := (s.queueOf .sync).filter fun x => !isMutexOp (s.entryName x)
  if isMutexOp (some d.name) then
    match d.arg .mutexIndex with
    | .error r => .fault (.invalidFieldAccess r)
    | .ok i =>
      s.offerIf .sync e (decide (at'.length < 3) && !at'.any fun x => decide (s.entryArg x .mutexIndex = some i))
  else s.offerIf .sync e (oth.isEmpty && at'.isEmpty)

/-- `offer(u, t, instr)` (R153): the Config and Sync units have rules of their own (R154). -/
def State.offer (s : State) (u : FUnit) (t : Thread) (d : Decoded) : Offer :=
  let e : Entry := ⟨d.word, t⟩
  match u with
  | .config => s.offerConfig e d.name
  | .sync => s.offerSync e d
  | .matrix => s.offerGeneric .matrix e
  | .vector => s.offerGeneric .vector e
  | .scalar => s.offerGeneric .scalar e
  | .mover => s.offerGeneric .mover e
  | .packer => s.offerGeneric .packer e
  | .unpacker0 => s.offerGeneric .unpacker0 e
  | .unpacker1 => s.offerGeneric .unpacker1 e
  | .misc => s.offerGeneric .misc e

/-- Where a tag routes a word (R150 to R152). -/
inductive Route where
  /-- Dropped silently: tag NONE. -/
  | dropped
  /-- Offered to a unit. -/
  | unit (u : FUnit)
  /-- The tag names no unit of the backend (R150, R141, R95). -/
  | unroutable
deriving DecidableEq, Repr

/-- The dispatcher's map (R151); the unpacker pair is selected by one instruction bit (R152). -/
def routeOf (p : Params) (tag : Tag) (w : Word) : Route :=
  match tag with
  | .none => .dropped
  | .unpacker => .unit (if w.getLsbD p.unpackSelBit then .unpacker1 else .unpacker0)
  | .matrix => .unit .matrix
  | .vector => .unit .vector
  | .scalar => .unit .scalar
  | .config => .unit .config
  | .sync => .unit .sync
  | .mover => .unit .mover
  | .packer => .unit .packer
  | .misc => .unit .misc
  | .frontend => .unroutable
  | .other _ => .unroutable

/-- The unit whose file gives an opcode name its rule (R157); `none` for a name that no unit executes. -/
def homeUnit : OpName → Option FUnit
  | .zeroacc => some .matrix
  | .setrwc => some .matrix
  | .xmov => some .mover
  | .flushdma => some .scalar
  | .reg2flop => some .scalar
  | .dmanop => some .scalar
  | .storereg => some .scalar
  | .setadc => some .misc
  | .setadcxy => some .misc
  | .incadcxy => some .misc
  | .addrcrxy => some .misc
  | .setadczw => some .misc
  | .incadczw => some .misc
  | .addrcrzw => some .misc
  | .setadcxx => some .misc
  | .sfpnop => some .vector
  | .atgetm => some .sync
  | .atrelm => some .sync
  | .seminit => some .sync
  | .sempost => some .sync
  | .semget => some .sync
  | .wrcfg => some .config
  | .setc16 => some .config
  | .rmwcib0 => some .config
  | .rmwcib1 => some .config
  | .rmwcib2 => some .config
  | .rmwcib3 => some .config
  | .mop => none
  | .nop => none
  | .mopCfg => none
  | .replay => none
  | .stallwait => none
  | .semwait => none
  | .other _ => none

end Sys2Proof.Machine
end

