-- ==== Sys2Proof/Machine/Environment.lean ====
section
/-! DEFINITION. The moves of the environment between cycles (60_exceptions.md R296): instruction intake
(40_frontend.md R110), the semaphore registers (43_sync_unit.md R204, R205), the macro config port (40_frontend.md
R113), THCON pokes (45_adc_unit.md R243), register writes, external memory accesses, the memory map (20_memory.md
R64) and reset (70_reset_and_hazards.md R300). -/

namespace Sys2Proof.Machine

/-- Record what a move answered. -/
def State.reply (s : State) (r : Reply) : State := { s with replies := s.replies ++ [r] }

/-- A move that the spec gives no meaning, or that it cannot serve: the run stops, with no thread and component. -/
def State.stopMove (s : State) (why : Stop) : State := { s with halt := some ⟨why, none, none⟩ }

/-- `IntakeWrite(t, w)` (R110): accepted when `mopQ[t]` has room; a refused write changes nothing. -/
def State.intakeWrite (s : State) (t : Thread) (w : Word) : State :=
  if s.mopQ[t].length < s.par.capMopQ then
    { s with mopQ := s.mopQ.set t (s.mopQ[t] ++ [w]) }.reply (.accepted true)
  else s.reply (.accepted false)

/-- `SemRegWrite(i, data)` (R204): SEMGET-like when bit 0 is set, SEMPOST-like otherwise. -/
def State.semRegWrite (s : State) (i : Fin 8) (data : Word) : State :=
  { s with sem := s.sem.set i (if data.getLsbD 0 then s.sem[i].get else s.sem[i].post) }

/-- The semaphore register read (R205): the zero-extended value, no side effect. -/
def State.semRegRead (s : State) (i : Fin 8) : State :=
  s.reply (.bytes (le32 (BitVec.ofNat 32 s.sem[i].value)))

/-- `MopCfgWrite(t, k, v)` (R113): an expansion in progress is not affected, its output is already computed. -/
def State.mopCfgWrite (s : State) (t : Thread) (k : Fin 9) (v : Word) : State :=
  { s with mopCfg := s.mopCfg.set t (s.mopCfg[t].set k v) }

/-- A control core's write of a general register (R296); an index of `NGPR` or more is out of range (R24, R284). -/
def State.gprWrite (s : State) (t : Thread) (i : Nat) (v : Word) : State :=
  if i < s.par.ngpr then s.setGpr t i v else s.stopMove (.fault (.invalidFieldAccess (.index i)))

/-- A write of the external memory by its owner (R296, R61). -/
def State.memWrite (s : State) (a : Nat) (bs : List Byte) : State :=
  if s.served a bs.length then { s with mem := s.mem.writeBytes a bs }
  else s.stopMove (.fault (.memoryUnserved a bs.length))

/-- A read of the external memory by its owner (R296, R61). -/
def State.memRead (s : State) (a n : Nat) : State :=
  if s.served a n then s.reply (.bytes (s.mem.readBytes a n)) else s.stopMove (.fault (.memoryUnserved a n))

/-! ## The memory map (R64) -/

/-- A memory-mapped port of R64. -/
inductive Port where
  | intake (t : Thread)
  | semReg (i : Fin 8)
  | mopCfg (t : Thread) (k : Fin 9)
deriving DecidableEq, Repr

/-- The first address of a port and how many bytes it has (R64). -/
def State.portSpan (s : State) : Port → Nat × Nat
  | .intake t => (s.par.instrnBase[t], s.par.instrnSize[t])
  | .semReg i => (s.par.semRegBase + 4 * i.val, 4)
  | .mopCfg t k => (s.par.mopCfgBase[t] + 4 * k.val, 4)

/-- A 32-bit access at an address reaches a port: a register at its own address, an intake range at any address in it.
DESIGN CHOICE, log entry 39: R64 calls the intake "a range" and gives it no alignment, so a 32-bit write that starts in
the range is an offer at an unaligned address too, and where its last bytes pass the end of the range. -/
def portHit (s : State) (a : Nat) : Port → Bool
  | .intake t => decide (s.par.instrnBase[t] ≤ a) && decide (a < s.par.instrnBase[t] + s.par.instrnSize[t])
  | .semReg i => decide (a = s.par.semRegBase + 4 * i.val)
  | .mopCfg t k => decide (a = s.par.mopCfgBase[t] + 4 * k.val)

/-- An access of `n` bytes at `a` touches a byte of a port. DESIGN CHOICE, log entry 37: an access of no bytes, which
R64 does not speak of, touches none, wherever it starts. -/
def portTouch (s : State) (a n : Nat) (p : Port) : Bool :=
  decide (0 < n) && decide (a < (s.portSpan p).1 + (s.portSpan p).2) && decide ((s.portSpan p).1 < a + n)

/-- All ports, in the order of R64's table. -/
def allPorts : List Port :=
  [.intake 0, .intake 1, .intake 2] ++ (List.finRange 8).map .semReg ++
    (List.finRange 9).map (.mopCfg 0) ++ (List.finRange 9).map (.mopCfg 1) ++ (List.finRange 9).map (.mopCfg 2)

/-- The port at an address, if there is one. DESIGN CHOICE, log entry 38: where the open address parameters put two ports
at one address, the first in the order of R64's table answers. -/
def State.portAt (s : State) (a : Nat) : Option Port := allPorts.find? (portHit s a)

/-- The low `size` bytes of a word, little-endian (R65). -/
def lowBytes (size : Nat) (w : Word) : List Byte := (le32 w).take size

/-- An access touches a port. -/
def State.portTouched (s : State) (a n : Nat) : Bool := allPorts.any (portTouch s a n)

/-- An access at an address of the memory map that is not a port access of R64: the external memory `plain` where it
touches no port; one that touches a port is refused, whichever of its bytes it touches (DESIGN CHOICE, log entry 37). -/
def State.elsewhere (s : State) (a n : Nat) (plain : State) : State :=
  if s.portTouched a n then s.stopMove (.refused (.portAccessNotGiven a n)) else plain

/-- A write at an address of the memory map (R64): the ports take 32-bit writes (R66, R67), an access that touches none
is one of the external memory. -/
def State.busWrite (s : State) (a size : Nat) (data : Word) : State :=
  let plain := s.elsewhere a size
    (if size ≤ 4 then s.memWrite a (lowBytes size data) else s.stopMove (.refused (.portAccessNotGiven a size)))
  if size = 4 then
    match s.portAt a with
    | some (.intake t) => s.intakeWrite t data
    | some (.semReg i) => s.semRegWrite i data
    | some (.mopCfg t k) => s.mopCfgWrite t k data
    | none => plain
  else plain

/-- A read at an address of the memory map (R64): only the semaphore registers are read as ports. -/
def State.busRead (s : State) (a size : Nat) : State :=
  let plain := s.elsewhere a size (s.memRead a size)
  if size = 4 then
    match s.portAt a with
    | some (.semReg i) => s.semRegRead i
    | some (.intake _) => plain
    | some (.mopCfg _ _) => plain
    | none => plain
  else plain

/-! ## Moves -/

/-- One move on a run that has not ended. -/
def State.makeMove (s : State) : EnvMove → State
  | .intakeWrite t w => s.intakeWrite t w
  | .semRegWrite i data => s.semRegWrite i data
  | .semRegRead i => s.semRegRead i
  | .mopCfgWrite t k v => s.mopCfgWrite t k v
  | .adcPoke t g c d h v => s.pokeAdc t g c d h v
  | .gprWrite t i v => s.gprWrite t i v
  | .memWrite a bs => s.memWrite a bs
  | .memRead a n => s.memRead a n
  | .busWrite a size data => s.busWrite a size data
  | .busRead a size => s.busRead a size
  | .reset => s.reboot

/-- A move is an access of the external memory alone (R296), which belongs to the environment (10_state.md R20). -/
def State.isMemoryMove (s : State) : EnvMove → Bool
  | .intakeWrite _ _ => false
  | .semRegWrite _ _ => false
  | .semRegRead _ => false
  | .mopCfgWrite _ _ _ => false
  | .adcPoke _ _ _ _ _ _ => false
  | .gprWrite _ _ _ => false
  | .memWrite _ _ => true
  | .memRead _ _ => true
  | .busWrite a n _ => !s.portTouched a n
  | .busRead a n => !s.portTouched a n
  | .reset => false

/-- A move after the run has ended (R281, log entry 28): reset leaves the state; the environment still reads and writes
its own memory, and an access that cannot be made does nothing; no other move has an effect. -/
def State.moveAfterStop (s : State) (m : EnvMove) : State :=
  if m = .reset then s.reboot
  else if s.isMemoryMove m then { s.makeMove m with halt := s.halt }
  else s

/-- One move (R296). -/
def State.envMove (s : State) (m : EnvMove) : State := if s.halted then s.moveAfterStop m else s.makeMove m

/-- The environment's moves before a cycle's first tick (R160), in the order the environment chose. -/
def State.beginCycle (s : State) : State :=
  match s.inputs with
  | [] => { s with replies := [] }
  | ms :: rest => ms.foldl State.envMove { s with inputs := rest, replies := [] }

end Sys2Proof.Machine
end

