-- ==== Sys2Proof/Machine/Adc.lean ====
section
/-! DEFINITION. The Misc/ADC unit's instructions (45_adc_unit.md): SETADCXY, SETADCZW, INCADCXY, INCADCZW, ADDRCRXY,
ADDRCRZW, SETADC, SETADCXX. Each is the shared operation `State.overAdc` with the counters it changes. -/

namespace Sys2Proof.Machine

/-- SETADCXY (R235). -/
def execSetadcxy (bitMask ch0X ch0Y ch1X ch1Y cntSetMask ovr : Nat) (s : State) : Result :=
  s.overAdc ovr cntSetMask (pairOps s.par .xy bitMask ⟨ch0X, ch0Y, ch1X, ch1Y⟩ Counter.setTo)

/-- SETADCZW (R236). -/
def execSetadczw (bitMask ch0Z ch0W ch1Z ch1W cntSetMask ovr : Nat) (s : State) : Result :=
  s.overAdc ovr cntSetMask (pairOps s.par .zw bitMask ⟨ch0Z, ch0W, ch1Z, ch1W⟩ Counter.setTo)

/-- INCADCXY (R237): all four pairs are enabled (R234). -/
def execIncadcxy (ch0X ch0Y ch1X ch1Y cntSetMask ovr : Nat) (s : State) : Result :=
  s.overAdc ovr cntSetMask (pairOps s.par .xy 0b1111 ⟨ch0X, ch0Y, ch1X, ch1Y⟩ (Counter.inc s.par.incadcShadow))

/-- INCADCZW (R238). -/
def execIncadczw (ch0Z ch0W ch1Z ch1W cntSetMask ovr : Nat) (s : State) : Result :=
  s.overAdc ovr cntSetMask (pairOps s.par .zw 0b1111 ⟨ch0Z, ch0W, ch1Z, ch1W⟩ (Counter.inc s.par.incadcShadow))

/-- ADDRCRXY (R239). -/
def execAddrcrxy (bitMask ch0X ch0Y ch1X ch1Y cntSetMask ovr : Nat) (s : State) : Result :=
  s.overAdc ovr cntSetMask (pairOps s.par .xy bitMask ⟨ch0X, ch0Y, ch1X, ch1Y⟩ (Counter.addrcr s.par.addrcrMode))

/-- ADDRCRZW (R240). -/
def execAddrcrzw (bitMask ch0Z ch0W ch1Z ch1W cntSetMask ovr : Nat) (s : State) : Result :=
  s.overAdc ovr cntSetMask (pairOps s.par .zw bitMask ⟨ch0Z, ch0W, ch1Z, ch1W⟩ (Counter.addrcr s.par.addrcrMode))

/-- SETADC (R241): one channel, one dimension. -/
def execSetadc (value dimensionIndex channelIndex cntSetMask ovr : Nat) (s : State) : Result :=
  orFault (overrideThread s.cur ovr) fun _ =>
    orFault (chanOfIndex channelIndex) fun c =>
      orFault (dimOfIndex dimensionIndex) fun d =>
        s.overAdc ovr cntSetMask fun c' d' =>
          if c' = c ∧ d' = d then some (Counter.setTo (s.par.dimWidth d) value) else none

/-- SETADCXX (R242): refused, since nothing fixes what the two values do. -/
def execSetadcxx (_xStart _xEnd2 _cntSetMask : Nat) (_s : State) : Result := .refused .setadcxxValuesNotGiven

end Sys2Proof.Machine
end

