-- ==== Sys2Proof/Machine/ConfigUnit.lean ====
section
/-! DEFINITION. The Config unit's instructions (42_config_unit.md): SETC16, WRCFG, RMWCIB0 to RMWCIB3. -/

namespace Sys2Proof.Machine

/-- SETC16 (R174): the whole word of the issuing thread's own array becomes the zero-extended value. -/
def execSetc16 (setc16Value setc16Reg : Nat) (s : State) : Result :=
  if setc16Reg < 57 then .next (s.setTcfg s.cur setc16Reg ((BitVec.ofNat 16 setc16Value).setWidth 32))
  else .fault (.invalidFieldAccess (.index setc16Reg))

/-- `Validate(r, c, n)` (R177), the checks in the rule's order; the offending index is recorded (log entry 19). -/
def validateWrcfg (ngpr r c n : Nat) : Except FieldRef Unit :=
  if 188 ≤ c + n - 1 then .error (.index c)
  else if ngpr ≤ r + n - 1 then .error (.index r)
  else if n = 4 ∧ c % 4 ≠ 0 then .error (.index c)
  else if n = 4 ∧ r % 4 ≠ 0 then .error (.index r)
  else .ok ()

/-- The copy of WRCFG (R176): registers r, r+1, … of thread t into config words c, c+1, … of bank b. -/
def State.copyGprToCfg (s : State) (t : Thread) (b : Fin 2) (r c : Nat) : Nat → State
  | 0 => s
  | n + 1 => (s.copyGprToCfg t b r c n).setCfg b (c + n) (s.gprOf t (r + n))

/-- WRCFG (R176): one or four words into the active bank. -/
def execWrcfg (cfgReg wr128b gprAddress : Nat) (s : State) : Result :=
  orFault (s.activeBank s.cur) fun b =>
    let n := if wr128b = 1 then 4 else 1
    orFault (validateWrcfg s.par.ngpr gprAddress cfgReg n) fun _ =>
      .next (s.copyGprToCfg s.cur b gprAddress cfgReg n)

/-- The shared operation of RMWCIB0 to RMWCIB3 (R178): masked write of byte lane k of a word of the active bank. -/
def State.rmwLane (s : State) (k cfgRegAddr data mask : Nat) : Result :=
  orFault (s.activeBank s.cur) fun b =>
    if cfgRegAddr < 188 then
      let w := s.cfgOf b cfgRegAddr
      .next (s.setCfg b cfgRegAddr
        (setByteLane w k (maskedByte (byteLane w k) (BitVec.ofNat 8 data) (BitVec.ofNat 8 mask))))
    else .fault (.invalidFieldAccess (.index cfgRegAddr))

/-- RMWCIB0 (R178). -/
def execRmwcib0 (cfgRegAddr data mask : Nat) (s : State) : Result := s.rmwLane 0 cfgRegAddr data mask

/-- RMWCIB1 (R178). -/
def execRmwcib1 (cfgRegAddr data mask : Nat) (s : State) : Result := s.rmwLane 1 cfgRegAddr data mask

/-- RMWCIB2 (R178). -/
def execRmwcib2 (cfgRegAddr data mask : Nat) (s : State) : Result := s.rmwLane 2 cfgRegAddr data mask

/-- RMWCIB3 (R178). -/
def execRmwcib3 (cfgRegAddr data mask : Nat) (s : State) : Result := s.rmwLane 3 cfgRegAddr data mask

end Sys2Proof.Machine
end

