-- ==== Sys2Proof/Machine/Frontend.lean ====
section
/-! DEFINITION. The instructions the frontend executes: MOP, MOP_CFG, REPLAY, STALLWAIT, SEMWAIT, NOP
(40_frontend.md). The stages that pop the word and move it on are in Machine/Cycle.lean. -/

namespace Sys2Proof.Machine

/-! ## Macro expansion (R116 to R119) -/

/-- One position of template 0 (R117): a set mask bit emits the skip pair, a clear one the body. Positions of 32 and
above read the mask as 0. -/
def t0Step (cw : Vector Word 9) (mask : BitVec 32) (i : Nat) : List Word :=
  let hasB := cw[1].getLsbD 0
  let hasA123 := cw[1].getLsbD 1
  if mask.getLsbD i then [cw[7]] ++ (if hasB then [cw[8]] else [])
  else [cw[3]] ++ (if hasA123 then [cw[4], cw[5], cw[6]] else []) ++ (if hasB then [cw[2]] else [])

/-- `ExpandT0(c, mask, count)` (R117): least significant bit first. -/
def expandT0 (cw : Vector Word 9) (mask : BitVec 32) (count : Nat) : List Word :=
  (List.range count).flatMap (t0Step cw mask)

/-- The quirk of R119: `outerCount` 1, a no-op start, `innerCount` 0 and a first end instruction that is not a no-op
force 129. -/
def t1Outer (cw : Vector Word 9) : Nat :=
  let outer := slice 6 0 cw[0]
  if outer = 1 && isnop cw[2] && decide (slice 6 0 cw[1] = 0) && !isnop cw[3] then 129 else outer

/-- When the two loop bodies alternate (R118, `MOP_T1_ALT_RULE`). -/
def t1Alternates (r : AltRule) (cw : Vector Word 9) : Bool :=
  match r with
  | .differ => decide (cw[5] ≠ cw[6])
  | .op1NotNop => !isnop cw[6]

/-- The inner loop of one outer iteration (R118): `n` words, the last one an override chosen by whether the outer
iteration is the last, the others alternating between the bodies. -/
def t1Inner (cw : Vector Word 9) (alt : Bool) (n : Nat) (lastOuter : Bool) : List Word :=
  (List.range n).map fun i =>
    if i + 1 = n then (if lastOuter then cw[7] else cw[8])
    else if alt && decide (i % 2 = 1) then cw[6] else cw[5]

/-- The optional end pair (R118): the second end instruction only when the first is emitted. -/
def t1End (cw : Vector Word 9) : List Word :=
  if isnop cw[3] then [] else cw[3] :: (if isnop cw[4] then [] else [cw[4]])

/-- `ExpandT1(c)` (R118). -/
def expandT1 (r : AltRule) (cw : Vector Word 9) : List Word :=
  let outer := t1Outer cw
  let alt := t1Alternates r cw
  let inner := slice 6 0 cw[1]
  let n := if alt then 2 * inner else inner
  (List.range outer).flatMap fun j =>
    (if isnop cw[2] then [] else [cw[2]]) ++ t1Inner cw alt n (j + 1 = outer) ++ t1End cw

/-- The template-0 mask (R116): the latched high half and the instruction's low half. -/
def t0Mask (hi : BitVec 16) (lo : Nat) : BitVec 32 :=
  ((hi.setWidth 32) <<< 16) ||| BitVec.ofNat 32 lo

/-- Start an expansion of thread t with output `out` (R112). -/
def State.startExpansion (s : State) (t : Thread) (out : List Word) : State :=
  { s with mopOut := s.mopOut.set t out, expanding := s.expanding.set t (!out.isEmpty) }

/-- MOP (R116): template 0 uses and clears the high-mask latch, template 1 reads only the config words. -/
def execMop (zmaskLo16 loopCount mopType : Nat) (s : State) : Result :=
  if mopType = 0 then
    .next { s.startExpansion s.cur
        (expandT0 s.mopCfg[s.cur] (t0Mask s.zmaskHi[s.cur] zmaskLo16) (loopCount + 1)) with
      zmaskHi := s.zmaskHi.set s.cur 0 }
  else .next (s.startExpansion s.cur (expandT1 s.par.altRule s.mopCfg[s.cur]))

/-- MOP_CFG (R115): the high-mask latch takes bits 15:0 of the argument. -/
def execMopCfg (zmaskHi16 : Nat) (s : State) : Result :=
  .next { s with zmaskHi := s.zmaskHi.set s.cur (BitVec.ofNat 16 zmaskHi16) }

/-! ## Replay (R125 to R127) -/

/-- `REPLAY_SLOTS` of R6. -/
def replaySlots : Nat := 32

/-- The length of a REPLAY: `REPLAY_DEFAULT_LEN` when `len` is 0 (R6, R125, R126). -/
def replayLen (len : Nat) : Nat := if len = 0 then 64 else len

/-- REPLAY (R125 load mode, R126 play mode); while the thread is in load mode it is refused (R127 b). DESIGN CHOICE, log
entry 42: R125 and R126 give `load_mode` 1 and 0 only; a larger value, which a wider field of another schema can hold,
is taken as play mode. -/
def execReplay (loadMode executeWhileLoading len startIdx : Nat) (s : State) : Result :=
  if 0 < s.recLeft[s.cur] then .refused .replayWhileLoading
  else
    let start := startIdx % replaySlots
    if loadMode = 1 then
      .next { s with
        startIdx := s.startIdx.set s.cur start
        recCursor := s.recCursor.set s.cur start
        recLeft := s.recLeft.set s.cur (replayLen len)
        ewl := s.ewl.set s.cur (decide (executeWhileLoading = 1)) }
    else
      .next { s with
        startIdx := s.startIdx.set s.cur start
        playCursor := s.playCursor.set s.cur start
        playLeft := s.playLeft.set s.cur (replayLen len) }

/-! ## Wait gate (R138, R139) and NOP (R140) -/

/-- STALLWAIT (R138). -/
def execStallwait (waitRes stallRes : Nat) (s : State) : Result :=
  .next { s with latch := s.latch.set s.cur ⟨.stallwait, waitRes, stallRes, none⟩ }

/-- SEMWAIT (R139): a zero condition mask degenerates to a STALLWAIT with condition mask 0x7F and the instruction's
own block mask. -/
def execSemwait (waitSemCond semSel stallRes : Nat) (s : State) : Result :=
  if waitSemCond = 0 then .next { s with latch := s.latch.set s.cur ⟨.stallwait, 0x7F, stallRes, none⟩ }
  else .next { s with latch := s.latch.set s.cur ⟨.semwait, waitSemCond, stallRes, some (BitVec.ofNat 8 semSel)⟩ }

/-- NOP (R140): dropped by the dispatcher, no state changes. -/
def execNop (s : State) : Result := .next s

end Sys2Proof.Machine
end

