-- ==== Sys2Proof/Machine/Matrix.lean ====
section
/-! DEFINITION. The Matrix unit's two described instructions (46_matrix_unit.md): SETRWC and ZEROACC. -/

namespace Sys2Proof.Machine

/-- SETRWC (R254); `clear_ab_vld` and `rwc_cr[3]` are ignored, as the rule says. -/
def execSetrwc (bitMask rwcA rwcB rwcD rwcCr _clearAbVld : Nat) (s : State) : Result :=
  let r := s.rwc[s.cur]
  .next (s.setRwc s.cur
    { r with
      srcA := if bitMask.testBit 0 then Counter.setRelative s.par.wsrc (rwcCr.testBit 0) rwcA r.srcA else r.srcA
      srcB := if bitMask.testBit 1 then Counter.setRelative s.par.wsrc (rwcCr.testBit 1) rwcB r.srcB else r.srcB
      dst := if bitMask.testBit 2 then Counter.setRelative s.par.wdst (rwcCr.testBit 2) rwcD r.dst else r.dst
      fidelityPhase := if bitMask.testBit 3 then 0 else r.fidelityPhase })

/-! ## ZEROACC (R255, R256) -/

/-- `ScopeOf` (R256); values other than 0 to 3 are refused. -/
def scopeOf : Nat → Option Scope
  | 0 => some .single
  | 1 => some .block16
  | 2 => some .half
  | 3 => some .whole
  | _ => none

/-- What `Mode32` answers in a state (R256, log entry 8). -/
def State.mode32 (s : State) : Bool :=
  match s.par.supplied.mode32 with
  | some x => x
  | none => Config.mode32 s.instr s.cfg s.tcfg s.cur

/-- What `ZeroaccEnabled` answers in a state (R256, log entry 8). -/
def State.zeroaccEnabled (s : State) : Bool :=
  match s.par.supplied.zeroaccEnabled with
  | some x => x
  | none => Config.zeroaccEnabled s.instr s.cfg s.tcfg s.cur

/-- The free choice of rows when the 32-bit mode is off (R256, log entry 10). -/
def State.zeroaccPick (s : State) (sc : Scope) (dst : Nat) : Nat :=
  match s.par.supplied.zeroaccPick with
  | some x => x
  | none => Config.zeroaccPick sc dst s.rwc[s.cur]

/-- The free rows when the 32-bit mode is on (R256, log entry 10). -/
def State.zeroaccRows32 (s : State) (sc : Scope) (dst : Nat) : List Nat :=
  match s.par.supplied.zeroaccRows32 with
  | some x => x
  | none => Config.zeroaccRows32 sc dst s.rwc[s.cur]

/-- `ZeroaccRows` (R256): the whole register in every mode; with the 32-bit mode off one row, 16 consecutive rows from
a multiple of 16, or the lower or upper half; with it on, the open function's rows. -/
def State.zeroaccRows (s : State) (sc : Scope) (dst : Nat) (mode32 : Bool) : List Nat :=
  match sc, mode32 with
  | .whole, _ => List.range s.par.dstRows
  | sc, true => s.zeroaccRows32 sc dst
  | .single, false => [s.zeroaccPick .single dst]
  | .block16, false => List.range' (16 * s.zeroaccPick .block16 dst) 16
  | .half, false =>
    List.range' (if s.zeroaccPick .half dst % 2 = 0 then 0 else s.par.dstRows / 2) (s.par.dstRows / 2)

/-- Add a row to a rising list of rows. -/
def insertRow (r : Nat) : List Nat → List Nat
  | [] => [r]
  | x :: rest => if r < x then r :: x :: rest else if r = x then x :: rest else x :: insertRow r rest

/-- Mark rows undefined (R255). -/
def State.markRows (s : State) (rows : List Nat) : State :=
  { s with dstUndefined := rows.foldr insertRow s.dstUndefined }

/-- `dstUndefined[r]` (R44). -/
def State.rowUndefined (s : State) (r : Nat) : Bool := s.dstUndefined.contains r

/-- What `AddrModFn` answers in a state for the issuing thread's bank b (R253, log entry 8). -/
def State.addrModFn (s : State) (b : Fin 2) (idx : Nat) : Rwc :=
  match s.par.supplied.addrMod with
  | some x => x
  | none => Config.addrModFn s.cfg[b] s.tcfg[s.cur] idx s.rwc[s.cur]

/-- `applyAddrMod(t, idx)` (R253): the issuing thread's RWC takes the open function's answer, each field truncated
to its width (R252). -/
def State.applyAddrMod (s : State) (b : Fin 2) (idx : Nat) : State :=
  s.setRwc s.cur ((s.addrModFn b idx).trunc s.par)

/-- The address-mod step of ZEROACC: only for the single-row and 16-row scopes (R255); it reads the active bank,
which can be out of range (R175). -/
def State.zeroaccBank (s : State) (sc : Scope) : Except FieldRef (Option (Fin 2)) :=
  match sc with
  | .single => (s.activeBank s.cur).map some
  | .block16 => (s.activeBank s.cur).map some
  | .half => .ok none
  | .whole => .ok none

/-- The rows ZEROACC marks: those of its scope where marking is enabled, else none (R255). -/
def State.zeroaccMarks (s : State) (sc : Scope) (dst : Nat) : List Nat :=
  if s.zeroaccEnabled then s.zeroaccRows sc dst s.mode32 else []

/-- The first row that does not exist (R255, R284). -/
def State.badRow (s : State) (rows : List Nat) : Option Nat := rows.find? fun r => decide (s.par.dstRows ≤ r)

/-- ZEROACC (R255): mark the rows of the scope if the enable bits allow it, then apply the address-mod in the single
and 16-row scopes whether or not marking was enabled (D26). All checks come before any write (R281). -/
def execZeroacc (dst addrMode clearMode : Nat) (s : State) : Result :=
  match scopeOf clearMode with
  | none => .refused (.zeroaccScopeNotGiven clearMode)
  | some sc =>
    let rows := s.zeroaccMarks sc dst
    match s.badRow rows with
    | some r => .fault (.invalidFieldAccess (.index r))
    | none =>
      orFault (s.zeroaccBank sc) fun b =>
        match b with
        | some b => .next ((s.markRows rows).applyAddrMod b addrMode)
        | none => .next (s.markRows rows)

end Sys2Proof.Machine
end

