-- ==== Sys2Proof/Machine/Mover.lean ====
section
/-! DEFINITION. The Mover's transfer (47_mover_and_other_units.md R265 to R269) and the Vector unit's SFPNOP
(R273). -/

namespace Sys2Proof.Machine

/-- What `MoverOperands` answers in a state (R269, log entry 8). -/
def State.moverOperands (s : State) : Transfer :=
  match s.par.supplied.moverOperands with
  | some x => x
  | none => Config.moverOperands s.cfg s.tcfg s.instr s.cur

/-- `[a, a+n)` lies inside a region (R266). -/
def State.inRegion (s : State) (r : Region) (a n : Nat) : Bool :=
  match r with
  | .l1 => s.par.l1Base ≤ a && a + n ≤ s.par.l1Base + s.par.l1Size
  | .l0 => s.par.l0Base ≤ a && a + n ≤ s.par.l0Base + s.par.l0Size

/-- `MOVER_REGION` of R6: the 64 KiB granule. -/
def moverRegion : Nat := 65536

/-- A range crosses a 64 KiB boundary (R267). -/
def straddles (a n : Nat) : Bool := 0 < n && a / moverRegion != (a + n - 1) / moverRegion

/-- The checks of R266 and R267; a transfer of no bytes passes every check (R268). -/
def State.transferOk (s : State) (x : Transfer) : Bool :=
  decide (x.n = 0) ||
    (s.inRegion x.srcRegion x.src x.n && s.inRegion x.dstRegion x.dst x.n &&
      !straddles x.src x.n && !straddles x.dst x.n)

/-- The bytes a transfer writes (R268): the source's, all read before the write, in the L1-sourced modes; zeros,
without reading the source, in the L0-sourced modes. -/
def State.transferBytes (s : State) (x : Transfer) : List Byte :=
  match x.srcRegion with
  | .l1 => s.mem.readBytes x.src x.n
  | .l0 => List.replicate x.n 0

/-- The first access of a transfer that the memory capability cannot serve (U14), if there is one: the read, if the mode
reads its source, then the write. -/
def State.transferUnserved (s : State) (x : Transfer) : Option Nat :=
  if decide (x.srcRegion = .l1) && !s.served x.src x.n then some x.src
  else if s.served x.dst x.n then none
  else some x.dst

/-- XMOV (R268): its two arguments are not read by the rule itself; `MoverOperands` reads the whole instruction. -/
def execXmov (_last _movBlockSelection : Nat) (s : State) : Result :=
  let x := s.moverOperands
  if s.transferOk x then
    if x.n = 0 then .next s
    else
      match s.transferUnserved x with
      | some a => .fault (.memoryUnserved a x.n)
      | none => .next { s with mem := s.mem.writeBytes x.dst (s.transferBytes x) }
  else .fault (.unsupportedTransfer x.src x.dst x.n)

/-- SFPNOP (R273): routed to the Vector unit, nothing at drain. -/
def execSfpnop (s : State) : Result := .next s

end Sys2Proof.Machine
end

