-- ==== Sys2Proof/Machine/Sync.lean ====
section
/-! DEFINITION. The Sync unit's instructions (43_sync_unit.md): ATGETM, ATRELM, SEMINIT, SEMPOST, SEMGET, and the
resolution of the blocked-mutex waiters (R196). -/

namespace Sys2Proof.Machine

/-- A mutex is free or already held by the thread (R194, R196, R48: re-entrant on self). -/
def State.mutexGrantable (s : State) (t : Thread) (i : Fin 8) : Bool :=
  decide (s.mutex[i] = none ∨ s.mutex[i] = some t)

/-- Thread t comes to own mutex i and its wait gate is informed (R194, R196). -/
def State.grantMutex (s : State) (t : Thread) (i : Fin 8) : State :=
  { s with mutex := s.mutex.set i (some t) }.informMutexAcquired t

/-- ATGETM (R194). -/
def execAtgetm (mutexIdx : Nat) (s : State) : Result :=
  orFault (mutexIndex mutexIdx) fun i =>
    if s.mutexGrantable s.cur i then .next (s.grantMutex s.cur i)
    else .next { s with waiters := s.waiters ++ [(s.cur, i.val)] }

/-- ATRELM (R195): releasing by a non-holder is a no-op. -/
def execAtrelm (mutexIdx : Nat) (s : State) : Result :=
  orFault (mutexIndex mutexIdx) fun i =>
    if s.mutex[i] = some s.cur then .next { s with mutex := s.mutex.set i none } else .next s

/-- The sequential scan of R196 over a list of waiters, oldest first: the state after the grants and the waiters that
stay. A waiter's index is one an ATGETM checked (R193); one that is not usable is never granted. -/
def resolveScan : List (Thread × Nat) → State → State × List (Thread × Nat)
  | [], s => (s, [])
  | w :: rest, s =>
    match mutexIndex w.2 with
    | .ok i =>
      if s.mutexGrantable w.1 i then resolveScan rest (s.grantMutex w.1 i)
      else
        let r := resolveScan rest s
        (r.1, w :: r.2)
    | .error _ =>
      let r := resolveScan rest s
      (r.1, w :: r.2)

/-- `post(Sync)` (R196): granted entries are removed from the list. -/
def State.resolveWaiters (s : State) : State :=
  let r := resolveScan s.waiters s
  { r.1 with waiters := r.2 }

/-- SEMINIT (R199): value and max of every selected semaphore take the 4-bit fields, with no clamp to max. -/
def execSeminit (semSel initValue maxValue : Nat) (s : State) : Result :=
  .next (s.overSemaphores semSel fun _ => ⟨truncTo 4 initValue, truncTo 4 maxValue⟩)

/-- SEMPOST (R200). -/
def execSempost (semSel : Nat) (s : State) : Result := .next (s.overSemaphores semSel Semaphore.post)

/-- SEMGET (R201): it never blocks. -/
def execSemget (semSel : Nat) (s : State) : Result := .next (s.overSemaphores semSel Semaphore.get)

end Sys2Proof.Machine
end

