-- ==== Sys2Proof/Machine/Thcon.lean ====
section
/-! DEFINITION. The Scalar/THCON unit's instructions (44_thcon_unit.md): the register move REG2FLOP, STOREREG,
FLUSHDMA, DMANOP, and the re-check of outstanding flushes (R223). -/

namespace Sys2Proof.Machine

/-- What `ThconMove` answers in a state: the supplied constant, or the open function of R218 applied to its stated
arguments (log entry 8). -/
def State.thconMove (s : State) : ThconAnswer :=
  match s.par.supplied.thconMove with
  | some x => x
  | none => Config.thconMove s.par.schema s.instr.args s.cur s.gpr[s.cur] s.cfg s.adc

/-- The first general register of the move (R217): the argument `RegIndex` where the row has one, else the answer's. -/
def State.thconReg (s : State) (regIndex : Nat) (a : ThconAnswer) : Nat :=
  if (argValue s.instr.args .regIndex).isSome then regIndex else a.reg

/-- How many consecutive general registers a move takes: a 128-bit transfer four (R217). -/
def moveRegisters : MoveSize → Nat
  | .b8 => 1
  | .b16 => 1
  | .b32 => 1
  | .b128 => 4

/-- The first index of words of the general configuration that names nothing (R26). -/
def cfgBadIndex : List CfgPlace → Option Nat
  | [] => none
  | w :: rest => if 2 ≤ w.bank then some w.bank else if 188 ≤ w.idx then some w.idx else cfgBadIndex rest

/-- The first index of fields of the counters that names nothing (R43): the group, the channel, the dimension. -/
def adcBadIndex : List AdcPlace → Option Nat
  | [] => none
  | w :: rest =>
    if 3 ≤ w.group then some w.group else if 2 ≤ w.chan then some w.chan else if 4 ≤ w.dim then some w.dim
    else adcBadIndex rest

/-- The first index of a target that names nothing; an override names a thread before any of its counters. -/
def targetBadIndex : MoveTarget → Option Nat
  | .config ps => cfgBadIndex ps
  | .counters (some v) ps => if 3 ≤ v then some v else adcBadIndex ps
  | .counters none ps => adcBadIndex ps

/-- The first index of a move that names nothing (R217: "an index out of range raises"): the registers it moves, then
its target, whichever way it runs (log entry 9). -/
def thconBadIndex (ngpr reg : Nat) (a : ThconAnswer) : Option Nat :=
  match (List.range' reg (moveRegisters a.size)).find? fun i => decide (ngpr ≤ i) with
  | some i => some i
  | none => targetBadIndex a.effect.target

/-- One write of a configuration word whose indices have been checked. -/
def State.cfgWrite (s : State) (w : CfgWrite) : State :=
  if h : w.bank < 2 then s.setCfg ⟨w.bank, h⟩ w.idx w.value else s

/-- One write of a counter field of a thread whose indices have been checked. -/
def State.counterWrite (s : State) (t : Thread) (w : AdcWrite) : State :=
  match groupOfIndex w.group, chanOfIndex w.chan, dimOfIndex w.dim with
  | .ok g, .ok c, .ok d => s.pokeAdc t g c d w.half w.value
  | _, _, _ => s

/-- The thread whose counters a move writes (R217): the issuing thread, or the one the override names. -/
def State.thconTarget (s : State) : Option Nat → Thread
  | none => s.cur
  | some v => if h : v < 3 then ⟨v, h⟩ else s.cur

/-- Registers reg, reg+1, … of the issuing thread take the first `n` of four words. -/
def State.loadRegisters (s : State) (reg : Nat) (vs : Vector Word 4) : Nat → State
  | 0 => s
  | n + 1 => (s.loadRegisters reg vs n).setGpr s.cur (reg + n) ((vs[n]?).getD 0)

/-- Apply the writes of a move whose indices have been checked (R217), in order. -/
def State.thconApply (s : State) (reg : Nat) (size : MoveSize) : MoveEffect → State
  | .toConfig ws => ws.foldl State.cfgWrite s
  | .toCounters o ws => ws.foldl (fun s' w => s'.counterWrite (s.thconTarget o) w) s
  | .toRegisters _ vs => s.loadRegisters reg vs (moveRegisters size)

/-- REG2FLOP, the THCON register move (R217): every register it moves and every index of its target exists, and then
its writes are applied. The other operands of the default schema are read by the open function only. -/
def execReg2flop (regIndex _flopIndex _contextId2 _byteOffset _targetSel _sizeSel : Nat) (s : State) : Result :=
  let a := s.thconMove
  let reg := s.thconReg regIndex a
  match thconBadIndex s.par.ngpr reg a with
  | some i => .fault (.invalidFieldAccess (.index i))
  | none => .next (s.thconApply reg a.size a.effect)

/-- The byte address STOREREG writes (R219). -/
def State.storeregAddr (s : State) (regAddr : Nat) : Nat := s.par.storeregBase + 4 * regAddr

/-- STOREREG (R219): four little-endian bytes of a general register. -/
def execStorereg (regAddr tdmaDataRegIndex : Nat) (s : State) : Result :=
  if tdmaDataRegIndex < s.par.ngpr then
    if s.served (s.storeregAddr regAddr) 4 then
      .next { s with mem := s.mem.writeBytes (s.storeregAddr regAddr) (le32 (s.gprOf s.cur tdmaDataRegIndex)) }
    else .fault (.memoryUnserved (s.storeregAddr regAddr) 4)
  else .fault (.invalidFieldAccess (.index tdmaDataRegIndex))

/-- FLUSHDMA (R221): with in-flight work of the thread in a selected unit the Scalar unit is stalled and the thread's
gate is told; otherwise nothing happens. -/
def execFlushdma (flushSpec : Nat) (s : State) : Result :=
  let m := BitVec.ofNat 3 flushSpec
  if s.anyInFlight m s.cur then
    .next ({ s with flush := s.flush.set s.cur (some m) }.setBackendEnforcedStall s.cur)
  else .next s

/-- Re-check thread t's outstanding flush (R223). -/
def State.recheckFlush (s : State) (t : Thread) : State :=
  match s.flush[t] with
  | some m =>
    if s.anyInFlight m t then s
    else { s with flush := s.flush.set t none }.clearBackendEnforcedStall t
  | none => s

/-- `pre(Scalar)` (R223): for every thread, in order of id. -/
def State.recheckFlushes (s : State) : State := ((s.recheckFlush 0).recheckFlush 1).recheckFlush 2

/-- DMANOP (R220): admitted like any instruction of the unit, nothing at drain. -/
def execDmanop (s : State) : Result := .next s

end Sys2Proof.Machine
end

