-- ==== Sys2Proof/Machine/Dispatch.lean ====
section
/-! DEFINITION. One arm per instruction: the effect an instruction has where it is executed (MOP and MOP_CFG in the
macro expander, REPLAY in the replay expander, STALLWAIT, SEMWAIT and NOP at the wait gate, the rest at their unit's
drain), for the issuing thread `s.cur`. -/

namespace Sys2Proof.Machine

/-- The meaning of an instruction. -/
def exec (i : Instr) (s : State) : Host.Outcome State Fault Refusal :=
  match i with
  | .mop zmaskLo16 loopCount mopType => Sys2Proof.Machine.execMop zmaskLo16 loopCount mopType s
  | .nop => Sys2Proof.Machine.execNop s
  | .mopCfg zmaskHi16 => Sys2Proof.Machine.execMopCfg zmaskHi16 s
  | .replay loadMode executeWhileLoading len startIdx => Sys2Proof.Machine.execReplay loadMode executeWhileLoading len startIdx s
  | .zeroacc dst addrMode clearMode => Sys2Proof.Machine.execZeroacc dst addrMode clearMode s
  | .setrwc bitMask rwcA rwcB rwcD rwcCr clearAbVld => Sys2Proof.Machine.execSetrwc bitMask rwcA rwcB rwcD rwcCr clearAbVld s
  | .xmov last movBlockSelection => Sys2Proof.Machine.execXmov last movBlockSelection s
  | .flushdma flushSpec => Sys2Proof.Machine.execFlushdma flushSpec s
  | .reg2flop regIndex flopIndex contextId2 byteOffset targetSel sizeSel => Sys2Proof.Machine.execReg2flop regIndex flopIndex contextId2 byteOffset targetSel sizeSel s
  | .setadc value dimensionIndex channelIndex cntSetMask ovr => Sys2Proof.Machine.execSetadc value dimensionIndex channelIndex cntSetMask ovr s
  | .setadcxy bitMask ch0X ch0Y ch1X ch1Y cntSetMask ovr => Sys2Proof.Machine.execSetadcxy bitMask ch0X ch0Y ch1X ch1Y cntSetMask ovr s
  | .incadcxy ch0X ch0Y ch1X ch1Y cntSetMask ovr => Sys2Proof.Machine.execIncadcxy ch0X ch0Y ch1X ch1Y cntSetMask ovr s
  | .addrcrxy bitMask ch0X ch0Y ch1X ch1Y cntSetMask ovr => Sys2Proof.Machine.execAddrcrxy bitMask ch0X ch0Y ch1X ch1Y cntSetMask ovr s
  | .setadczw bitMask ch0Z ch0W ch1Z ch1W cntSetMask ovr => Sys2Proof.Machine.execSetadczw bitMask ch0Z ch0W ch1Z ch1W cntSetMask ovr s
  | .incadczw ch0Z ch0W ch1Z ch1W cntSetMask ovr => Sys2Proof.Machine.execIncadczw ch0Z ch0W ch1Z ch1W cntSetMask ovr s
  | .addrcrzw bitMask ch0Z ch0W ch1Z ch1W cntSetMask ovr => Sys2Proof.Machine.execAddrcrzw bitMask ch0Z ch0W ch1Z ch1W cntSetMask ovr s
  | .setadcxx xStart xEnd2 cntSetMask => Sys2Proof.Machine.execSetadcxx xStart xEnd2 cntSetMask s
  | .dmanop => Sys2Proof.Machine.execDmanop s
  | .storereg regAddr tdmaDataRegIndex => Sys2Proof.Machine.execStorereg regAddr tdmaDataRegIndex s
  | .sfpnop => Sys2Proof.Machine.execSfpnop s
  | .atgetm mutexIndex => Sys2Proof.Machine.execAtgetm mutexIndex s
  | .atrelm mutexIndex => Sys2Proof.Machine.execAtrelm mutexIndex s
  | .stallwait waitRes stallRes => Sys2Proof.Machine.execStallwait waitRes stallRes s
  | .seminit semSel initValue maxValue => Sys2Proof.Machine.execSeminit semSel initValue maxValue s
  | .sempost semSel => Sys2Proof.Machine.execSempost semSel s
  | .semget semSel => Sys2Proof.Machine.execSemget semSel s
  | .semwait waitSemCond semSel stallRes => Sys2Proof.Machine.execSemwait waitSemCond semSel stallRes s
  | .wrcfg cfgReg wr128b gprAddress => Sys2Proof.Machine.execWrcfg cfgReg wr128b gprAddress s
  | .setc16 setc16Value setc16Reg => Sys2Proof.Machine.execSetc16 setc16Value setc16Reg s
  | .rmwcib0 cfgRegAddr data mask => Sys2Proof.Machine.execRmwcib0 cfgRegAddr data mask s
  | .rmwcib1 cfgRegAddr data mask => Sys2Proof.Machine.execRmwcib1 cfgRegAddr data mask s
  | .rmwcib2 cfgRegAddr data mask => Sys2Proof.Machine.execRmwcib2 cfgRegAddr data mask s
  | .rmwcib3 cfgRegAddr data mask => Sys2Proof.Machine.execRmwcib3 cfgRegAddr data mask s

end Sys2Proof.Machine
end

