-- ==== Sys2Proof/Machine/Reads.lean ====
section
/-! DEFINITION. Which arguments a rule reads (30_encoding.md R84, R96; 60_exceptions.md R284, R288): `arg(instr, name)`
raises where the rule's pseudocode evaluates it, and an argument no rule reads does not make an encoding illegal. Under
the default schema every row has every argument its rule reads; under another one it may not (log entry 16). -/

namespace Sys2Proof.Machine

/-- The value fields of the enabled pairs, in the order of the enable mask (45_adc_unit.md R234). -/
def enabledFields (enable : Nat) (fields : List ArgName) : List ArgName :=
  (fields.zipIdx.filter fun x => enable.testBit x.2).map (·.1)

/-- What a two-dimension instruction of the ADC family reads (45_adc_unit.md R235 to R240): the override is optional
(R233), an empty group selection reads nothing more, and a clear does not use its value fields (R239). -/
def State.pairReads (s : State) (ovr cntSetMask : Nat) (enable : List ArgName) (values : List ArgName) : List ArgName :=
  match overrideThread s.cur ovr with
  | .error _ => []
  | .ok _ => .cntSetMask :: if cntSetMask % 8 = 0 then [] else enable ++ values

/-- The value fields of XY instructions (R234). -/
def fieldsXY : List ArgName := [.ch0X, .ch0Y, .ch1X, .ch1Y]

/-- The value fields of ZW instructions (R234). -/
def fieldsZW : List ArgName := [.ch0Z, .ch0W, .ch1Z, .ch1W]

/-- The value fields ADDRCRXY and ADDRCRZW use (R239): none in mode `clear`. -/
def State.addrcrFields (s : State) (bitMask : Nat) (fields : List ArgName) : List ArgName :=
  match s.par.addrcrMode with
  | .clear => []
  | .carriageReturn => enabledFields bitMask fields

/-- What SETADC reads (R241). -/
def State.setadcReads (s : State) (dimensionIndex channelIndex cntSetMask ovr : Nat) : List ArgName :=
  match overrideThread s.cur ovr with
  | .error _ => []
  | .ok _ =>
    .channelIndex ::
      if 2 ≤ channelIndex then []
      else .dimensionIndex ::
        if 4 ≤ dimensionIndex then []
        else .cntSetMask :: if cntSetMask % 8 = 0 then [] else [.value]

/-- What one counter of SETRWC reads (46_matrix_unit.md R254): its value and the relative mask only where it is enabled
(log entry 16). -/
def setrwcReads (bitMask k : Nat) (value : ArgName) : List ArgName :=
  if bitMask.testBit k then [.rwcCr, value] else []

/-- What ZEROACC reads (46_matrix_unit.md R255): `dst` only where marking is enabled, `AddrMode` only in the two scopes
with an address-mod step, and nothing after a stop. -/
def State.zeroaccReads (s : State) (dst clearMode : Nat) : List ArgName :=
  .clearMode ::
    match scopeOf clearMode with
    | none => []
    | some sc =>
      (if s.zeroaccEnabled then [.dst] else []) ++
        if (s.badRow (s.zeroaccMarks sc dst)).isNone && decide (sc = .single ∨ sc = .block16) then [.addrMode] else []

/-- What RMWCIB0 to RMWCIB3 read (42_config_unit.md R178). -/
def State.rmwReads (s : State) (cfgRegAddr : Nat) : List ArgName :=
  match s.activeBank s.cur with
  | .error _ => []
  | .ok _ => .cfgRegAddr :: if cfgRegAddr < 188 then [.mask, .data] else []

/-- The arguments the rule of an instruction reads when it executes in a state, in the order of its pseudocode, up to
its end or to the check that stops it. -/
def State.argsRead (s : State) : Instr → List ArgName
  | .mop _ _ mopType => .mopType :: if mopType = 0 then [.zmaskLo16, .loopCount] else []
  | .nop => []
  | .mopCfg _ => [.zmaskHi16]
  | .replay loadMode _ _ _ =>
    if 0 < s.recLeft[s.cur] then []
    else .loadMode :: .startIdx :: .len :: if loadMode = 1 then [.executeWhileLoading] else []
  | .zeroacc dst _ clearMode => s.zeroaccReads dst clearMode
  | .setrwc bitMask _ _ _ _ _ =>
    .bitMask :: (setrwcReads bitMask 0 .rwcA ++ setrwcReads bitMask 1 .rwcB ++ setrwcReads bitMask 2 .rwcD)
  | .xmov _ _ => []
  | .flushdma _ => [.flushSpec]
  | .reg2flop _ _ _ _ _ _ => []
  | .setadc _ dimensionIndex channelIndex cntSetMask ovr => s.setadcReads dimensionIndex channelIndex cntSetMask ovr
  | .setadcxy bitMask _ _ _ _ cntSetMask ovr =>
    s.pairReads ovr cntSetMask [.bitMask] (enabledFields bitMask fieldsXY)
  | .incadcxy _ _ _ _ cntSetMask ovr => s.pairReads ovr cntSetMask [] fieldsXY
  | .addrcrxy bitMask _ _ _ _ cntSetMask ovr =>
    s.pairReads ovr cntSetMask [.bitMask] (s.addrcrFields bitMask fieldsXY)
  | .setadczw bitMask _ _ _ _ cntSetMask ovr =>
    s.pairReads ovr cntSetMask [.bitMask] (enabledFields bitMask fieldsZW)
  | .incadczw _ _ _ _ cntSetMask ovr => s.pairReads ovr cntSetMask [] fieldsZW
  | .addrcrzw bitMask _ _ _ _ cntSetMask ovr =>
    s.pairReads ovr cntSetMask [.bitMask] (s.addrcrFields bitMask fieldsZW)
  | .setadcxx _ _ _ => []
  | .dmanop => []
  | .storereg _ tdmaDataRegIndex =>
    .tdmaDataRegIndex :: if tdmaDataRegIndex < s.par.ngpr then [.regAddr] else []
  | .sfpnop => []
  | .atgetm _ => [.mutexIndex]
  | .atrelm _ => [.mutexIndex]
  | .stallwait _ _ => [.waitRes, .stallRes]
  | .seminit semSel _ _ => .semSel :: if semSel % 256 = 0 then [] else [.initValue, .maxValue]
  | .sempost _ => [.semSel]
  | .semget _ => [.semSel]
  | .semwait waitSemCond _ _ => .waitSemCond :: .stallRes :: if waitSemCond = 0 then [] else [.semSel]
  | .wrcfg _ _ _ =>
    match s.activeBank s.cur with
    | .error _ => []
    | .ok _ => [.gprAddress, .cfgReg, .wr128b]
  | .setc16 _ setc16Reg => .setc16Reg :: if setc16Reg < 57 then [.setc16Value] else []
  | .rmwcib0 cfgRegAddr _ _ => s.rmwReads cfgRegAddr
  | .rmwcib1 cfgRegAddr _ _ => s.rmwReads cfgRegAddr
  | .rmwcib2 cfgRegAddr _ _ => s.rmwReads cfgRegAddr
  | .rmwcib3 cfgRegAddr _ _ => s.rmwReads cfgRegAddr

/-- The first argument the rule reads that the row of the instruction lacks (R84). -/
def State.missingArg (s : State) (i : Instr) : Option ArgName :=
  (s.argsRead i).find? fun a => (argValue s.instr.args a).isNone

end Sys2Proof.Machine
end

