-- ==== Sys2Proof/Machine/Cycle.lean ====
section
/-! DEFINITION. The components of a cycle: the dispatcher (41_dispatch_and_queues.md R150), the three stages of a
frontend (40_frontend.md R111, R112, R124, R131), the drain of a unit (R156), and the cycle itself (R160). A component
is a total function of the state; a stop is recorded in `halt` and nothing steps after it (60_exceptions.md R281). -/

namespace Sys2Proof.Machine

/-! ## Executing -/

/-- Execute the instruction `i` of the decoded word `d` of thread t in a component: an argument that the rule reads and
the row lacks is an `InvalidFieldAccess` (R84, log entry 16). -/
def State.runInstr (s : State) (c : Component) (t : Thread) (d : Decoded) (i : Instr) : State :=
  match (s.issue t d).missingArg i with
  | some a => s.stop (.fault (.invalidFieldAccess (.arg a))) t c
  | none => s.absorb t c (exec i (s.issue t d))

/-- Execute a decoded word of thread t; a name with no rule is what `unmodelled` says. -/
def State.runDecoded (s : State) (c : Component) (t : Thread) (d : Decoded) (unmodelled : State) : State :=
  match d.toInstr with
  | none => unmodelled
  | some i => s.runInstr c t d i

/-! ## The dispatcher (R150) -/

/-- `Dispatch(t, instr)` (R150): a NONE word is taken and dropped, which is all NOP does (R140). -/
def State.dispatch (s : State) (t : Thread) (d : Decoded) : Offer :=
  match routeOf s.par d.tag d.word with
  | .dropped => .taken (if d.name = .nop then s.runInstr (.frontend t) t d .nop else s)
  | .unit u => s.offer u t d
  | .unroutable => .fault (.unroutableInstruction d.word)

/-! ## The wait gate (R131) -/

/-- Empty the gate slot of thread t. -/
def State.clearGate (s : State) (t : Thread) : State := { s with gateSlot := s.gateSlot.set t none }

/-- Put a word into the gate slot of thread t. -/
def State.fillGate (s : State) (t : Thread) (w : Word) : State := { s with gateSlot := s.gateSlot.set t (some w) }

/-- The re-evaluation of the latch at the start of `GateTick` (R131, R132). -/
def State.refreshLatch (s : State) (t : Thread) : State :=
  if s.latch[t].kind = .none then s
  else
    match s.waitHolds t with
    | .error r => s.stop (.refused r) t (.frontend t)
    | .ok true => s
    | .ok false => { s with latch := s.latch.set t Latch.clear }

/-- After an accepted offer (R131): the slot empties, and an ATGETM makes the gate wait (R137). -/
def State.forwarded (s : State) (t : Thread) (name : OpName) : State :=
  if name = .atgetm then { s.clearGate t with mutexWait := s.mutexWait.set t true } else s.clearGate t

/-- The gate's treatment of the decoded word in its slot (R131), in the order of R288. -/
def State.gateWord (s : State) (t : Thread) (d : Decoded) : State :=
  if s.mutexWait[t] || s.backendStall[t] then s
  else if d.name = .stallwait ∨ d.name = .semwait then
    if s.latch[t].kind ≠ .none then s
    else (s.runDecoded (.frontend t) t d s).andThen fun s => s.clearGate t
  else if d.tag = .frontend then s.stop (.fault (.unroutableInstruction d.word)) t (.frontend t)
  else if s.latch[t].kind ≠ .none ∧ s.par.blocked s.latch[t].blockMask d.tag = true then s
  else
    match s.dispatch t d with
    | .taken s' => s'.forwarded t d.name
    | .rejected => if s.par.reoffer then s else s.clearGate t
    | .fault f => s.stop (.fault f) t (.frontend t)

/-- The part of `GateTick` after the latch (R131). -/
def State.gateForward (s : State) (t : Thread) : State :=
  match s.gateSlot[t] with
  | none => s
  | some w =>
    match s.par.schema.decode w with
    | none => s.stop (.fault (.unknownOpcode w)) t (.frontend t)
    | some d => s.gateWord t d

/-- `GateTick(t)` (R131). -/
def State.gateTick (s : State) (t : Thread) : State := (s.refreshLatch t).andThen fun s => s.gateForward t

/-! ## The replay expander (R124) -/

/-- Take the head off `replayQ[t]`. -/
def State.popReplayQ (s : State) (t : Thread) : State :=
  { s with replayQ := s.replayQ.set t s.replayQ[t].tail }

/-- Continue a play (R124): one word per cycle, when the gate slot is free; an empty slot is refused (R127 a). -/
def State.playTick (s : State) (t : Thread) : State :=
  match s.gateSlot[t] with
  | some _ => s
  | none =>
    let slot := s.playCursor[t] % replaySlots
    match (s.rbuf[t][slot]?).getD none with
    | none => s.stop (.refused (.replayOfEmptySlot slot)) t (.frontend t)
    | some w =>
      { s.fillGate t w with
        playCursor := s.playCursor.set t (s.playCursor[t] + 1)
        playLeft := s.playLeft.set t (s.playLeft[t] - 1) }

/-- Record the head word in load mode (R124, R125), forwarding it too when `ewl` is set. -/
def State.recordTick (s : State) (t : Thread) (w : Word) : State :=
  if s.ewl[t] && (s.gateSlot[t]).isSome then s
  else
    let s' := { s with
      rbuf := s.rbuf.set t (s.rbuf[t].setIfInBounds (s.recCursor[t] % replaySlots) (some w))
      recCursor := s.recCursor.set t (s.recCursor[t] + 1)
      recLeft := s.recLeft.set t (s.recLeft[t] - 1) }
    (if s.ewl[t] then s'.fillGate t w else s').popReplayQ t

/-- The replay expander's treatment of its head word (R124). DESIGN CHOICE, log entry 41: R124 obeys every REPLAY at the
head of `replayQ`, one that a MOP expansion produced too, and the model follows it, although D36 and U6 list such a
word among those that fault at the wait gate. -/
def State.replayWord (s : State) (t : Thread) (w : Word) (d : Decoded) : State :=
  if d.name = .replay then (s.runDecoded (.frontend t) t d s).andThen fun s => s.popReplayQ t
  else if 0 < s.recLeft[t] then s.recordTick t w
  else
    match s.gateSlot[t] with
    | none => (s.fillGate t w).popReplayQ t
    | some _ => s

/-- `ReplayTick(t)` (R124). -/
def State.replayTick (s : State) (t : Thread) : State :=
  if 0 < s.playLeft[t] then s.playTick t
  else
    match s.replayQ[t] with
    | [] => s
    | w :: _ =>
      match s.par.schema.decode w with
      | none => s.stop (.fault (.unknownOpcode w)) t (.frontend t)
      | some d => s.replayWord t w d

/-! ## The macro expander (R112) -/

/-- Take the head off `mopQ[t]`. -/
def State.popMopQ (s : State) (t : Thread) : State := { s with mopQ := s.mopQ.set t s.mopQ[t].tail }

/-- Append a word to `replayQ[t]`. -/
def State.pushReplayQ (s : State) (t : Thread) (w : Word) : State :=
  { s with replayQ := s.replayQ.set t (s.replayQ[t] ++ [w]) }

/-- Emit the next word of an expansion in progress, if `replayQ[t]` has room (R112). -/
def State.mopEmit (s : State) (t : Thread) : State :=
  if s.expanding[t] && decide (s.replayQ[t].length < s.par.capReplayQ) then
    match s.mopOut[t] with
    | [] => { s with expanding := s.expanding.set t false }
    | w :: rest =>
      { s.pushReplayQ t w with
        mopOut := s.mopOut.set t rest
        expanding := s.expanding.set t (!rest.isEmpty) }
  else s

/-- The macro expander's treatment of its head word (R112); after a MOP the first word is emitted in the same tick. -/
def State.mopWord (s : State) (t : Thread) (w : Word) (d : Decoded) : State :=
  if d.name = .mopCfg then (s.runDecoded (.frontend t) t d s).andThen fun s => s.popMopQ t
  else if d.name = .mop then
    (s.runDecoded (.frontend t) t d s).andThen fun s => (s.popMopQ t).mopEmit t
  else if s.replayQ[t].length < s.par.capReplayQ then (s.pushReplayQ t w).popMopQ t
  else s

/-- `MopTick(t)` (R112). -/
def State.mopTick (s : State) (t : Thread) : State :=
  if s.expanding[t] then s.mopEmit t
  else
    match s.mopQ[t] with
    | [] => s
    | w :: _ =>
      match s.par.schema.decode w with
      | none => s.stop (.fault (.unknownOpcode w)) t (.frontend t)
      | some d => s.mopWord t w d

/-- A frontend tick (R111): the three stages once each, downstream first. -/
def State.frontendTick (s : State) (t : Thread) : State :=
  ((s.gateTick t).andThen fun s => s.replayTick t).andThen fun s => s.mopTick t

/-! ## Units (R156) -/

/-- The data units whose entries leave in-flight work (R271). -/
def dmaOf : FUnit → Option DmaUnit
  | .packer => some .packer
  | .unpacker0 => some .unpacker0
  | .unpacker1 => some .unpacker1
  | .matrix => none
  | .vector => none
  | .scalar => none
  | .config => none
  | .sync => none
  | .mover => none
  | .misc => none

/-- The occupancy effect of an entry of the Packer and the Unpackers (R271). -/
def State.occupy (s : State) (u : FUnit) (t : Thread) : State :=
  match dmaOf u with
  | some v => s.setInflight v t s.par.latency[dmaIndex v]
  | none => s

/-- `Execute_u(instr, t)` (R156): the unit's rule for the name, or the refusal of R157. -/
def State.execEntry (s : State) (u : FUnit) (e : Entry) : State :=
  match s.par.schema.decode e.word with
  | none => s.stop (.fault (.unknownOpcode e.word)) e.thread (.unit u)
  | some d =>
    let s' := s.occupy u e.thread
    let unmodelled := s'.stop (.refused (.unmodelledAtUnit u e.word)) e.thread (.unit u)
    if homeUnit d.name = some u then s'.runDecoded (.unit u) e.thread d unmodelled else unmodelled

/-- `pre(u)` (R156): only the Scalar unit has one (R223). -/
def State.preUnit (s : State) (u : FUnit) : State := if u = .scalar then s.recheckFlushes else s

/-- Count thread t's in-flight work of a unit down, unless an instruction of it was drained in this tick (R271). -/
def State.countDown (s : State) (v : DmaUnit) (drained : List Entry) (t : Thread) : State :=
  if drained.any fun e => decide (e.thread = t) then s else s.setInflight v t (s.inflightOf v t - 1)

/-- `post(u)` (R156): the Config unit's hysteresis flag (R172), the Sync unit's waiter resolution (R196), the Packer's
and the Unpackers' count-down (R271). -/
def State.postUnit (s : State) (u : FUnit) (drained : List Entry) : State :=
  match u with
  | .config => { s with cfgWritePrev := drained.any fun e => isCfgWriter (s.entryName e) }
  | .sync => s.resolveWaiters
  | .packer => ((s.countDown .packer drained 0).countDown .packer drained 1).countDown .packer drained 2
  | .unpacker0 => ((s.countDown .unpacker0 drained 0).countDown .unpacker0 drained 1).countDown .unpacker0 drained 2
  | .unpacker1 => ((s.countDown .unpacker1 drained 0).countDown .unpacker1 drained 1).countDown .unpacker1 drained 2
  | .matrix => s
  | .vector => s
  | .scalar => s
  | .mover => s
  | .misc => s

/-- The loop of the drain (R156): every entry, oldest first, until the run ends. -/
def State.drainLoop (u : FUnit) (q : List Entry) (s : State) : State :=
  q.foldl (fun s e => s.andThen fun s => s.execEntry u e) s

/-- `tick(u)` (R156). -/
def State.unitTick (s : State) (u : FUnit) : State :=
  let s := s.preUnit u
  let q := s.queueOf u
  (State.drainLoop u q s).andThen fun s => (s.setQueue u []).postUnit u q

/-! ## The cycle (R160) -/

/-- One component's share of a cycle. -/
def State.tick (s : State) : Component → State
  | .unit u => s.unitTick u
  | .frontend t => s.frontendTick t

/-- One global cycle (R160): the environment's moves, then every component in `TICK_ORDER`; after a stop no component
steps (R281). -/
def State.cycle (s : State) : State :=
  s.par.tickOrder.foldl (fun s c => s.andThen fun s => s.tick c) s.beginCycle

/-- What a cycle's state says to the driver: it goes on, or the reason the run ended. -/
def State.outcome (s : State) : Result :=
  match s.halt with
  | none => .next s
  | some ⟨.fault f, _, _⟩ => .fault f
  | some ⟨.refused r, _, _⟩ => .refused r

/-! ## Placing an instruction (log entry 4) -/

/-- Put a word where the macro expander takes its next one: it is the head of `mopQ`, and no expansion is in
progress. -/
def State.placeAtMop (s : State) (w : Word) : State :=
  { s with
    mopQ := s.mopQ.set s.cur [w]
    mopOut := s.mopOut.set s.cur []
    expanding := s.expanding.set s.cur false }

/-- Put a word where the replay expander takes its next one: it is the head of `replayQ`, and no play is in
progress. -/
def State.placeAtReplay (s : State) (w : Word) : State :=
  { s with replayQ := s.replayQ.set s.cur [w], playLeft := s.playLeft.set s.cur 0 }

/-- Put a word where the wait gate takes its next one, with nothing holding the gate. -/
def State.placeAtGate (s : State) (w : Word) : State :=
  { s with
    gateSlot := s.gateSlot.set s.cur (some w)
    latch := s.latch.set s.cur Latch.clear
    mutexWait := s.mutexWait.set s.cur false
    backendStall := s.backendStall.set s.cur false }

/-- Put a word into a unit's queue as its only entry, as the wait gate leaves it when the word is admitted: an ATGETM
makes the gate wait (R131). -/
def State.placeAtUnit (s : State) (u : FUnit) (w : Word) (name : OpName) : State :=
  let s' := s.setQueue u [⟨w, s.cur⟩]
  if name = .atgetm then { s' with mutexWait := s.mutexWait.set s.cur true } else s'

/-- Put a word of the thread `s.cur` where the component that executes it takes its next instruction; a run that had
ended is running again. -/
def State.place (s : State) (w : Word) : State :=
  let s := { s with halt := none }
  match s.par.schema.decode w with
  | none => s.placeAtMop w
  | some d =>
    if d.name = .mop ∨ d.name = .mopCfg then s.placeAtMop w
    else if d.name = .replay then s.placeAtReplay w
    else
      match routeOf s.par d.tag d.word with
      | .unit u => s.placeAtUnit u w d.name
      | .dropped => s.placeAtGate w
      | .unroutable => s.placeAtGate w

end Sys2Proof.Machine
end

