-- ==== Sys2Proof/Machine/Step.lean ====
section
/-! DEFINITION. The step: one global cycle of the block (41_dispatch_and_queues.md R160, log entry 2), and the
placement of an instruction where the next step executes it (log entry 4). -/

namespace Sys2Proof.Machine

/-- One step is one call of `advance`: the environment's moves of this cycle, then every component in `TICK_ORDER`. -/
def step (s : State) : Host.Outcome State Fault Refusal := s.cycle.outcome

/-- The state with a table word stored where the next step executes it: MOP and MOP_CFG at the head of `mopQ`, REPLAY
at the head of `replayQ`, STALLWAIT, SEMWAIT and NOP in the gate slot, a unit's instruction in the unit's queue. -/
def State.withFetchWord (s : State) (nbits w : Nat) : State := s.place (BitVec.ofNat 32 (w % 2 ^ nbits))

end Sys2Proof.Machine
end

