-- ==== Sys2Proof/Safety.lean ====
section
/-! DEFINITION. What the statements call a safe step, a final state (70_reset_and_hazards.md R311), an idle block, and
the invariants of the state (10_state.md R39, R42 to R45, R47; 20_memory.md R61). -/

namespace Sys2Proof.Machine

/-- A step that neither faults nor is refused. -/
def Safe (s : State) : Prop := ∃ t, step s = .next t

/-- The end of a run (R311), at a cycle boundary: nothing faulted, every FIFO and queue empty, no expansion, play,
mutex wait, backend stall, waiter, flush or in-flight work, and no further move of the environment. R311 excludes the
faulted state only; that a state marked refused (60_exceptions.md R286) is not final either is the model's choice
(DESIGN CHOICE, log entry 43). -/
def State.final (s : State) : Bool :=
  s.halt.isNone && s.inputs.all List.isEmpty &&
  ([0, 1, 2] : List Thread).all (fun t =>
    s.mopQ[t].isEmpty && s.replayQ[t].isEmpty && s.gateSlot[t].isNone && !s.expanding[t] &&
    decide (s.playLeft[t] = 0) && !s.mutexWait[t] && !s.backendStall[t] && s.flush[t].isNone &&
    decide (s.inflightOf .unpacker0 t = 0) && decide (s.inflightOf .unpacker1 t = 0) &&
    decide (s.inflightOf .packer t = 0)) &&
  s.queue.toList.all List.isEmpty && s.waiters.isEmpty

/-- Nothing is in progress and nothing is latched: the next cycle of such a state changes nothing but what an
instruction placed in it does. The schema is the default one, the capacities are at least 1, and `TICK_ORDER`, whatever
it is, holds every component once. -/
structure State.Quiet (s : State) : Prop where
  schema : s.par.schema = schemaDefault
  orderNodup : s.par.tickOrder.Nodup
  orderAll : ∀ c : Component, c ∈ s.par.tickOrder
  capReplay : 1 ≤ s.par.capReplayQ
  halt : s.halt = none
  inputs : s.inputs = []
  replies : s.replies = []
  mopQ : ∀ t : Thread, s.mopQ[t] = []
  replayQ : ∀ t : Thread, s.replayQ[t] = []
  mopOut : ∀ t : Thread, s.mopOut[t] = []
  expanding : ∀ t : Thread, s.expanding[t] = false
  playLeft : ∀ t : Thread, s.playLeft[t] = 0
  gateSlot : ∀ t : Thread, s.gateSlot[t] = none
  latch : ∀ t : Thread, s.latch[t] = Latch.clear
  mutexWait : ∀ t : Thread, s.mutexWait[t] = false
  backendStall : ∀ t : Thread, s.backendStall[t] = false
  queue : ∀ u : FUnit, s.queueOf u = []
  cfgWritePrev : s.cfgWritePrev = false
  waiters : s.waiters = []
  flush : ∀ t : Thread, s.flush[t] = none
  inflight : ∀ (u : DmaUnit) (t : Thread), s.inflightOf u t = 0

/-- What the step does around `exec` with the word of an instruction placed for the thread `s.cur` (log entry 4), `t`
being the state after `exec`: the stage pops the word (R112, R124, R131), after a MOP the expansion's first word goes
on in the same tick (R112), a unit empties its queue and does its bookkeeping (R156). -/
def State.consumed (t : State) (i : Instr) : State :=
  match homeUnit i.opName with
  | some u => (t.setQueue u []).postUnit u [⟨encode i, t.cur⟩]
  | none =>
    match i.opName with
    | .mop => (t.popMopQ t.cur).mopEmit t.cur
    | .mopCfg => t.popMopQ t.cur
    | .replay => t.popReplayQ t.cur
    | _ => t.clearGate t.cur

/-! ## Invariants -/

/-- Every RWC field fits its width (10_state.md R42, 46_matrix_unit.md R252). -/
def Rwc.Fits (p : Params) (r : Rwc) : Prop :=
  r.srcA.val < 2 ^ p.wsrc ∧ r.srcA.cr < 2 ^ p.wsrc ∧ r.srcB.val < 2 ^ p.wsrc ∧ r.srcB.cr < 2 ^ p.wsrc ∧
  r.dst.val < 2 ^ p.wdst ∧ r.dst.cr < 2 ^ p.wdst ∧ r.fidelityPhase < 2 ^ p.wfid

/-- The data a state holds is legal: every register file has `NGPR` registers (R22), every semaphore is in 0..15
(R39), every counter fits its width (R42, R43, R244, R252), the marked rows are rows of the Destination register, listed
once and rising (R44), and the memory is in its canonical form (log entry 6). -/
structure State.DataLegal (s : State) : Prop where
  gpr : ∀ t : Thread, s.gpr[t].length = s.par.ngpr
  sem : ∀ i : Fin 8, s.sem[i].value ≤ 15 ∧ s.sem[i].max ≤ 15
  rwc : ∀ t : Thread, Rwc.Fits s.par s.rwc[t]
  adc : ∀ (t : Thread) (g : Group) (c : Fin 2) (d : Dim),
    (s.adc[t].get g c d).val < 2 ^ s.par.dimWidth d ∧ (s.adc[t].get g c d).cr < 2 ^ s.par.dimWidth d
  rising : s.dstUndefined.Pairwise (· < ·)
  rows : ∀ r ∈ s.dstUndefined, r < s.par.dstRows
  mem : s.mem.wf = true

/-- The frontends are legal: FIFOs within their capacities (R29, R30), an expansion flagged exactly while words are
left to emit (R31, R112), the start index a slot (R33), a latch with no kind holding nothing and a semaphore selector
exactly with kind SEMWAIT (R35). -/
structure State.FrontendLegal (s : State) : Prop where
  mopQ : ∀ t : Thread, s.mopQ[t].length ≤ s.par.capMopQ
  replayQ : ∀ t : Thread, s.replayQ[t].length ≤ s.par.capReplayQ
  expanding : ∀ t : Thread, s.expanding[t] = true ↔ s.mopOut[t] ≠ []
  startIdx : ∀ t : Thread, s.startIdx[t] < 32
  latchNone : ∀ t : Thread, s.latch[t].kind = .none → s.latch[t] = Latch.clear
  latchSel : ∀ t : Thread, (s.latch[t].semSel).isSome = true ↔ s.latch[t].kind = .semwait

/-- The entries of a unit's queue whose opcode name satisfies `f`. -/
def State.entriesNamed (s : State) (u : FUnit) (f : OpName → Bool) : List Entry :=
  (s.queueOf u).filter fun e => (s.entryName e).any f

/-- R47: at most one pending instruction per (unit, thread), but for the Config unit, at most three SETC16 and one WRCFG
in all, and the Sync unit, at most three ATGETM/ATRELM with distinct mutex indices; the Sync unit's other instructions
are at most one in all (43_sync_unit.md R191). -/
structure State.QueuesLegal (s : State) : Prop where
  generic : ∀ u : FUnit, u ≠ .config → u ≠ .sync → ((s.queueOf u).map Entry.thread).Nodup
  setc16 : (s.entriesNamed .config (decide <| · = .setc16)).length ≤ 3
  wrcfg : (s.entriesNamed .config (decide <| · = .wrcfg)).length ≤ 1
  configOther : ((s.entriesNamed .config fun n => decide (n ≠ .setc16 ∧ n ≠ .wrcfg)).map Entry.thread).Nodup
  mutexOps : (s.entriesNamed .sync fun n => decide (n = .atgetm ∨ n = .atrelm)).length ≤ 3
  mutexIndices : ((s.entriesNamed .sync fun n => decide (n = .atgetm ∨ n = .atrelm)).map fun e =>
    s.entryArg e .mutexIndex).Nodup
  syncOther : (s.entriesNamed .sync fun n => decide (n ≠ .atgetm ∧ n ≠ .atrelm)).length ≤ 1

/-- Every queued word decodes (a stage decodes a word before it offers it, R131). -/
def State.QueuesDecode (s : State) : Prop :=
  ∀ (u : FUnit), ∀ e ∈ s.queueOf u, (s.par.schema.decode e.word).isSome = true

/-- The mutex requests of thread t that are under way: its ATGETM entries in the Sync unit's queue and its entries in
the waiter list. -/
def State.mutexRequests (s : State) (t : Thread) : Nat :=
  (s.entriesNamed .sync fun n => decide (n = .atgetm)).countP (fun e => decide (e.thread = t)) +
    s.waiters.countP fun w => decide (w.1 = t)

/-- A thread has at most one mutex request under way, and its gate waits while it has one (43_sync_unit.md R197,
10_state.md R36). -/
def State.RequestsLegal (s : State) : Prop :=
  ∀ t : Thread, s.mutexRequests t ≤ 1 ∧ (0 < s.mutexRequests t → s.mutexWait[t] = true)

/-! ## What the statements speak about -/

/-- The state stopped for a reason, in a component, on behalf of a thread; nothing else changes (60_exceptions.md R281,
R286). -/
def State.stoppedBy (s : State) (y : Stop) (t : Thread) (c : Component) : State :=
  { s with halt := some ⟨y, some t, some c⟩ }

/-- The bit of `CntSetMask` that selects a group (45_adc_unit.md R232). -/
def groupBit : Group → Nat
  | .u0 => 0
  | .u1 => 1
  | .pk => 2

/-- From s to t only counters of thread u changed: in each group whose bit is set in `m`, the counter of channel c and
dimension d went through `f c d`; every other counter kept its value. -/
def State.AdcEffect (s t : State) (u : Thread) (m : Nat) (f : Fin 2 → Dim → Counter → Counter) : Prop :=
  t = { s with adc := t.adc } ∧ (∀ v : Thread, v ≠ u → t.adc[v] = s.adc[v]) ∧
  ∀ (g : Group) (c : Fin 2) (d : Dim), t.adc[u].get g c d =
    if m.testBit (groupBit g) then f c d (s.adc[u].get g c d) else s.adc[u].get g c d

/-- The value a write of the general configuration gives word i of bank b. -/
def CfgWrite.valueAt (b i : Nat) (w : CfgWrite) : Option Word := if w.bank = b ∧ w.idx = i then some w.value else none

/-- The number of a dimension (45_adc_unit.md R241). -/
def dimNumber : Dim → Nat
  | .x => 0
  | .y => 1
  | .z => 2
  | .w => 3

/-- The value a write of a counter field gives one half of one counter. -/
def AdcWrite.valueAt (g : Group) (c : Fin 2) (d : Dim) (h : Half) (w : AdcWrite) : Option Nat :=
  if w.group = groupBit g ∧ w.chan = c.val ∧ w.dim = dimNumber d ∧ w.half = h then some w.value else none

/-- What the last of the values a list of writes gives a place leaves there, the old value where none writes it. -/
def lastOf {α β : Type} (f : α → Option β) (ws : List α) (old : β) : β := ((ws.filterMap f).getLast?).getD old

/-- One word reaches the replay expander of thread t, the wait gate having taken the word before it. -/
def State.feedReplay (t : Thread) (s : State) (w : Word) : State :=
  { s with replayQ := s.replayQ.set t [w], gateSlot := s.gateSlot.set t none }.replayTick t

/-- What the replay expander of thread t puts into the gate slot in n cycles, the wait gate taking every word. -/
def State.playedWords (t : Thread) : Nat → State → List (Option Word)
  | 0, _ => []
  | n + 1, s =>
    let s' := { s with gateSlot := s.gateSlot.set t none }.replayTick t
    s'.gateSlot[t] :: s'.playedWords t n

/-- An instruction on its way to execution: its thread, its decoded view, and the instruction it stands for. -/
structure Issue where
  thread : Thread
  view : Decoded
  instr : Instr
deriving DecidableEq, Repr

/-- The instructions of a unit's queue run one after another, each for its own thread with its own decoded view; no row
lacks an argument its rule reads, and all of them answer a next state. -/
def runAll : List Issue → State → Option State
  | [], s => some s
  | x :: rest, s =>
    match (s.issue x.thread x.view).missingArg x.instr, exec x.instr (s.issue x.thread x.view) with
    | none, .next s' => runAll rest s'
    | _, _ => none

/-- A queue entry holds an instruction of unit u. -/
def State.Holds (s : State) (u : FUnit) (e : Entry) (x : Issue) : Prop :=
  e.thread = x.thread ∧ homeUnit x.instr.opName = some u ∧
  s.par.schema.decode e.word = some x.view ∧ x.view.toInstr = some x.instr

/-- The state r in which the wait gate of thread t treats the word in its slot, having re-checked the latch at the start
of the tick (40_frontend.md R131, R132): the state itself where no latch is in force or the latched condition still
holds, the state with the latch cleared where it does not hold. -/
def State.Rechecked (s : State) (t : Thread) (r : State) : Prop :=
  (s.latch[t].kind = .none ∧ r = s) ∨
  (s.latch[t].kind ≠ .none ∧ s.waitHolds t = .ok true ∧ r = s) ∨
  (s.latch[t].kind ≠ .none ∧ s.waitHolds t = .ok false ∧ r = { s with latch := s.latch.set t Latch.clear })

/-- The wait gate of thread t has a decoded word in its slot, and nothing keeps it from treating the word in the
re-checked state r: neither flag of 40_frontend.md R137 is set, and no STALLWAIT or SEMWAIT in force in r has the word's
class in its block mask. -/
structure State.GateOpen (s : State) (t : Thread) (w : Word) (d : Decoded) (r : State) : Prop where
  halt : s.halt = none
  slot : s.gateSlot[t] = some w
  decoded : s.par.schema.decode w = some d
  mutexWait : s.mutexWait[t] = false
  backendStall : s.backendStall[t] = false
  rechecked : s.Rechecked t r
  free : r.latch[t].kind = .none ∨ s.par.blocked r.latch[t].blockMask d.tag = false

end Sys2Proof.Machine
end

