-- ==== Sys2Proof/Certificates/Slice0/Obligations.lean ====
section
/-! DEFINITION. The statements for the provers, one `def Obligations.<Name> : Prop` each. They are about every state,
so about every value of the parameters (log entry 1) and of the open functions (log entry 8), unless one says
otherwise. `s.cur` is the issuing thread `t` of the spec's instruction rules (log entry 3). Where a rule's clause is
one the spec marks as its decision (D<n>) or as general knowledge (G<n>), the docstring says so. -/

section Statements

open Sys2Proof Sys2Proof.Machine

/-! ## Encoding (30_encoding.md) -/

/-- Decoding the word of a well-formed instruction gives it back, with every operand. R99 is marked as derived in the
spec, and the widths of the default schema are G1. -/
def Obligations.DecodeOfEncodeIsIdentity : Prop :=
  ∀ i : Instr, i.WellFormed →
    decodeTableWord 32 (encode i).toNat = some i ∧ schemaDefault.nameOf (encode i) = some i.opName

/-- Words of instructions, and words of opcodes no row has. All but the word of XMOV, 0x40800010, are written out in
95_test_vectors.md; that one is worked out from the row of XMOV in R91. -/
def Obligations.SampleWordsDecode : Prop :=
  decodeTableWord 32 0x01010001 = some (.mop 1 1 0) ∧
  decodeTableWord 32 0x04078041 = some (.replay 1 0 4 30) ∧
  decodeTableWord 32 0x10180000 = some (.zeroacc 0 0 3) ∧
  decodeTableWord 32 0x37110004 = some (.setrwc 4 0 0 4 4 0) ∧
  decodeTableWord 32 0x40800010 = some (.xmov 16 1) ∧
  decodeTableWord 32 0x46000004 = some (.flushdma 4) ∧
  decodeTableWord 32 0x51E2344F = some (.setadcxy 15 1 2 3 4 7 0) ∧
  decodeTableWord 32 0x8F000000 = some .sfpnop ∧
  decodeTableWord 32 0xA3F30004 = some (.seminit 1 3 15) ∧
  decodeTableWord 32 0xA6200005 = some (.semwait 1 1 0x40) ∧
  decodeTableWord 32 0xB50FAB03 = some (.rmwcib2 3 0xAB 0x0F) ∧
  decodeTableWord 32 0xFF000000 = none ∧ decodeTableWord 32 0 = none

/-- R84, R85: in whatever order a row lists its arguments, each is the slice from its start bit up to the bit below the
next start bit above it, the highest up to bit 23; the map lists them by ascending start bit and holds nothing else; a
name the row lacks raises `InvalidFieldAccess`; an opcode value no row has is not decoded. The field is bits 31:24 by
D1, the order of arguments is D2 (log entry 25). -/
def Obligations.ArgumentBoundaries : Prop :=
  ∀ (sch : Schema) (w : Word), (sch.ops.map (·.opcode)).Nodup →
    ((∀ r ∈ sch.ops, r.opcode ≠ (w.extractLsb' 24 8).toNat) ↔ sch.decode w = none) ∧
    ∀ r ∈ sch.ops, r.opcode = (w.extractLsb' 24 8).toNat → (r.args.map (·.2)).Nodup → (∀ a ∈ r.args, a.2 ≤ 23) →
      ∃ d, sch.decode w = some d ∧ d.name = r.name ∧ d.tag = r.tag ∧ d.word = w ∧
        d.args.length = r.args.length ∧
        (∀ a ∈ r.args, ∃ e,
          ((∃ b ∈ r.args, a.2 < b.2 ∧ e = b.2 - 1 ∧ ∀ c ∈ r.args, c.2 ≤ a.2 ∨ b.2 ≤ c.2) ∨
            (e = 23 ∧ ∀ c ∈ r.args, c.2 ≤ a.2)) ∧
          (a.1, w.toNat / 2 ^ a.2 % 2 ^ (e + 1 - a.2)) ∈ d.args) ∧
        (∃ l : List (ArgName × Nat), l.Perm r.args ∧ l.Pairwise (·.2 < ·.2) ∧ d.args.map (·.1) = l.map (·.1)) ∧
        ∀ n, (∀ a ∈ r.args, a.1 ≠ n) → d.arg n = .error (.arg n)

/-- R282: each of the three stages that first decode a word ends the run on an opcode no row has, recording the word
and the thread and changing nothing else (the wait gate first re-checks its latch, R131); intake never faults. -/
def Obligations.UnknownOpcodeEndsTheRun : Prop :=
  ∀ (s : State) (t : Thread) (w : Word) (q : List Word),
    (∀ r ∈ s.par.schema.ops, r.opcode ≠ (w.extractLsb' 24 8).toNat) →
    (s.expanding[t] = false → s.mopQ[t] = w :: q →
      s.mopTick t = s.stoppedBy (.fault (.unknownOpcode w)) t (.frontend t)) ∧
    (s.playLeft[t] = 0 → s.replayQ[t] = w :: q →
      s.replayTick t = s.stoppedBy (.fault (.unknownOpcode w)) t (.frontend t)) ∧
    (s.halt = none → s.gateSlot[t] = some w → ∀ r, s.Rechecked t r →
      s.gateTick t = r.stoppedBy (.fault (.unknownOpcode w)) t (.frontend t)) ∧
    (s.intakeWrite t w).halt = s.halt

/-- R88: the value of a named field is `(raw & mask) >> shift` of the word its row names, in the array its row names
(the column `space` is D2); a name the schema lacks raises `InvalidFieldAccess`. R175: the active bank is the issuing
thread's `CFG_STATE_ID`, a value of 2 or more raising `InvalidFieldAccess`; under the default schema (whose place of the
field is G1) it is bit 0 of the thread's own word 0. -/
def Obligations.ConfigStoreLookup : Prop :=
  (∀ s : State, (s.par.schema.cfg.map (·.name)).Nodup →
    (∀ r ∈ s.par.schema.cfg,
      (r.space = .general → ∀ (b : Fin 2) (h : r.addr < 188),
        s.cfgRead r.name b = .ok ((s.cfg[b][r.addr] &&& r.mask).toNat / 2 ^ r.shift)) ∧
      (r.space = .thread → ∀ (t : Thread) (h : r.addr < 57),
        s.tcfgRead r.name t = .ok ((s.tcfg[t][r.addr] &&& r.mask).toNat / 2 ^ r.shift))) ∧
    ∀ n, (∀ r ∈ s.par.schema.cfg, r.name ≠ n) → ∀ (b : Fin 2) (t : Thread),
      s.cfgRead n b = .error (.field n) ∧ s.tcfgRead n t = .error (.field n)) ∧
  ∀ (s : State) (t : Thread),
    (∀ v, s.tcfgRead .cfgStateId t = .ok v →
      (∀ h : v < 2, s.activeBank t = .ok ⟨v, h⟩) ∧ (2 ≤ v → s.activeBank t = .error (.index v))) ∧
    (s.par.schema = schemaDefault → s.activeBank t = .ok (if s.tcfg[t][0].getLsbD 0 then 1 else 0))

/-! ## Macro expander (40_frontend.md) -/

/-- R115 (D32, log entry 25): MOP_CFG completes and only overwrites the thread's high-mask latch with the low 16 bits of
its argument; the macro expander consumes the word and nothing goes downstream (`cur` and `instr` are the model's own
fields, log entry 3). -/
def Obligations.MopCfgSetsHighMask : Prop :=
  (∀ (s : State) (z : Nat), ∃ t, exec (.mopCfg z) s = .next t ∧ t = { s with zmaskHi := t.zmaskHi } ∧
    t.zmaskHi[s.cur].toNat = z % 2 ^ 16 ∧ ∀ u : Thread, u ≠ s.cur → t.zmaskHi[u] = s.zmaskHi[u]) ∧
  ∀ (s : State) (u : Thread) (w : Word) (q : List Word) (d : Decoded) (z : Nat), s.halt = none →
    s.expanding[u] = false → s.mopQ[u] = w :: q → s.par.schema.decode w = some d → d.name = .mopCfg →
    d.arg .zmaskHi16 = .ok z →
    s.mopTick u = { s with
      cur := u
      instr := d
      zmaskHi := s.zmaskHi.set u (BitVec.ofNat 16 z)
      mopQ := s.mopQ.set u q }

/-- R116, R117 (D34, G5): a template-0 MOP completes; for each of `loop_count + 1` positions, from bit 0 of the mask
upward, the output list holds the skip pair where the mask bit is set and the body where it is clear; positions of 32
and above have bit 0; the high-mask latch is cleared. -/
def Obligations.MopTemplateZeroExpansion : Prop :=
  ∀ (s : State) (lo lc : Nat), lo < 2 ^ 16 →
    let cw := s.mopCfg[s.cur]
    let hasB := cw[1].getLsbD 0
    let hasA123 := cw[1].getLsbD 1
    ∃ t, exec (.mop lo lc 0) s = .next t ∧
      t = { s with mopOut := t.mopOut, expanding := t.expanding, zmaskHi := t.zmaskHi } ∧
      (∀ u : Thread, u ≠ s.cur →
        t.mopOut[u] = s.mopOut[u] ∧ t.expanding[u] = s.expanding[u] ∧ t.zmaskHi[u] = s.zmaskHi[u]) ∧
      t.zmaskHi[s.cur] = 0 ∧ t.expanding[s.cur] = true ∧
      t.mopOut[s.cur] = (List.range (lc + 1)).flatMap fun i =>
        if (i < 16 ∧ lo.testBit i = true) ∨ (16 ≤ i ∧ i < 32 ∧ s.zmaskHi[s.cur].getLsbD (i - 16) = true) then
          if hasB then [cw[7], cw[8]] else [cw[7]]
        else
          (if hasA123 then [cw[3], cw[4], cw[5], cw[6]] else [cw[3]]) ++ (if hasB then [cw[2]] else [])

/-- R118 (D35, G6), R114: a template-1 MOP completes; its output is `outer` runs of equal length, and this says the word
at every place of every run: the start instruction unless it is a no-op, the inner words with the last one overridden,
the end pair unless its first is a no-op. `outer` includes the quirk of R119. -/
def Obligations.MopTemplateOneExpansion : Prop :=
  ∀ (s : State) (lo lc ty : Nat), ty ≠ 0 →
    let cw := s.mopCfg[s.cur]
    let nop : Word → Bool := fun w => decide (w.extractLsb' 24 8 = 0x02#8)
    let outer := cw[0].toNat % 128
    let inner := cw[1].toNat % 128
    let outer := if outer = 1 ∧ nop cw[2] ∧ inner = 0 ∧ ¬ nop cw[3] then 129 else outer
    let alt : Bool := match s.par.altRule with
      | .differ => decide (cw[5] ≠ cw[6])
      | .op1NotNop => !nop cw[6]
    let n := if alt then 2 * inner else inner
    let a := if nop cw[2] then 0 else 1
    let b := if nop cw[3] then 0 else if nop cw[4] then 1 else 2
    let len := a + n + b
    ∃ t, exec (.mop lo lc ty) s = .next t ∧ t = { s with mopOut := t.mopOut, expanding := t.expanding } ∧
      (∀ u : Thread, u ≠ s.cur → t.mopOut[u] = s.mopOut[u] ∧ t.expanding[u] = s.expanding[u]) ∧
      (t.expanding[s.cur] = true ↔ 0 < outer * len) ∧ t.mopOut[s.cur].length = outer * len ∧
      ∀ j < outer,
        (¬ nop cw[2] → t.mopOut[s.cur][j * len]? = some cw[2]) ∧
        (∀ i < n, t.mopOut[s.cur][j * len + a + i]? =
          some (if i + 1 = n then (if j + 1 = outer then cw[7] else cw[8])
            else if alt ∧ i % 2 = 1 then cw[6] else cw[5])) ∧
        (¬ nop cw[3] → t.mopOut[s.cur][j * len + a + n]? = some cw[3]) ∧
        (¬ nop cw[3] → ¬ nop cw[4] → t.mopOut[s.cur][j * len + a + n + 1]? = some cw[4])

/-- R119: `outerCount` 1, a no-op start, `innerCount` 0 and a first end instruction that is not a no-op give 129 runs of
the end pair. -/
def Obligations.TemplateOneQuirk : Prop :=
  ∀ (s : State) (lo lc ty : Nat), ty ≠ 0 →
    let cw := s.mopCfg[s.cur]
    slice 6 0 cw[0] = 1 → isnop cw[2] = true → slice 6 0 cw[1] = 0 → isnop cw[3] = false →
    ∃ t, exec (.mop lo lc ty) s = .next t ∧
      t.mopOut[s.cur] =
        (List.replicate 129 (if isnop cw[4] then [cw[3]] else [cw[3], cw[4]])).flatten

/-! ## Replay expander (40_frontend.md) -/

/-- R125, R126 and R127 (b), (c) (D33): outside load mode REPLAY completes and sets the cursors of its mode, `start_idx`
taken modulo 32 and a zero length meaning 64; in load mode it is refused. -/
def Obligations.ReplaySetsItsCursors : Prop :=
  ∀ (s : State) (e len st : Nat),
    let n := if len = 0 then 64 else len
    (s.recLeft[s.cur] = 0 →
      (∃ t, exec (.replay 1 e len st) s = .next t ∧
        t = { s with startIdx := t.startIdx, recCursor := t.recCursor, recLeft := t.recLeft, ewl := t.ewl } ∧
        t.startIdx[s.cur] = st % 32 ∧ t.recCursor[s.cur] = st % 32 ∧ t.recLeft[s.cur] = n ∧
        (t.ewl[s.cur] = true ↔ e = 1) ∧
        ∀ u : Thread, u ≠ s.cur → t.startIdx[u] = s.startIdx[u] ∧ t.recCursor[u] = s.recCursor[u] ∧
          t.recLeft[u] = s.recLeft[u] ∧ t.ewl[u] = s.ewl[u]) ∧
      (∃ t, exec (.replay 0 e len st) s = .next t ∧
        t = { s with startIdx := t.startIdx, playCursor := t.playCursor, playLeft := t.playLeft } ∧
        t.startIdx[s.cur] = st % 32 ∧ t.playCursor[s.cur] = st % 32 ∧ t.playLeft[s.cur] = n ∧
        ∀ u : Thread, u ≠ s.cur → t.startIdx[u] = s.startIdx[u] ∧ t.playCursor[u] = s.playCursor[u] ∧
          t.playLeft[u] = s.playLeft[u])) ∧
    (0 < s.recLeft[s.cur] → ∀ l, exec (.replay l e len st) s = .refused .replayWhileLoading)

/-- R124: the one action of the replay expander in a cycle, for every word but REPLAY: continue a play (an empty slot
being R127 (a)'s refusal), else record the head word in load mode, else pass it on; it waits where the gate slot it
needs is full. -/
def Obligations.ReplayExpanderTick : Prop :=
  ∀ (s : State) (t : Thread),
    (0 < s.playLeft[t] →
      (s.gateSlot[t] ≠ none → s.replayTick t = s) ∧
      (s.gateSlot[t] = none → ∀ k : Fin 32, k.val = s.playCursor[t] % 32 →
        (∀ w, s.rbuf[t][k] = some w → s.replayTick t = { s with
          gateSlot := s.gateSlot.set t (some w)
          playCursor := s.playCursor.set t (s.playCursor[t] + 1)
          playLeft := s.playLeft.set t (s.playLeft[t] - 1) }) ∧
        (s.rbuf[t][k] = none →
          s.replayTick t = s.stoppedBy (.refused (.replayOfEmptySlot k.val)) t (.frontend t)))) ∧
    (s.playLeft[t] = 0 → s.replayQ[t] = [] → s.replayTick t = s) ∧
    (s.playLeft[t] = 0 → ∀ w q d, s.replayQ[t] = w :: q → s.par.schema.decode w = some d → d.name ≠ .replay →
      (s.recLeft[t] = 0 →
        (s.gateSlot[t] ≠ none → s.replayTick t = s) ∧
        (s.gateSlot[t] = none →
          s.replayTick t = { s with gateSlot := s.gateSlot.set t (some w), replayQ := s.replayQ.set t q })) ∧
      (0 < s.recLeft[t] → ∀ k : Fin 32, k.val = s.recCursor[t] % 32 →
        (s.ewl[t] = true → s.gateSlot[t] ≠ none → s.replayTick t = s) ∧
        (s.ewl[t] = false ∨ s.gateSlot[t] = none → s.replayTick t = { s with
          rbuf := s.rbuf.set t (s.rbuf[t].set k (some w))
          recCursor := s.recCursor.set t (s.recCursor[t] + 1)
          recLeft := s.recLeft.set t (s.recLeft[t] - 1)
          gateSlot := if s.ewl[t] then s.gateSlot.set t (some w) else s.gateSlot
          replayQ := s.replayQ.set t q })))

/-- R128, which the spec marks as derived from R124 to R126: loading 1 to 32 words at a start index, with or without
executing them, and then playing as many from the same index gives the words back in order. -/
def Obligations.ReplayRoundTrip : Prop :=
  ∀ (s : State) (t : Thread) (ws : List Word) (start e : Nat),
    s.halt = none → s.playLeft[t] = 0 → s.recLeft[t] = 0 → 1 ≤ ws.length → ws.length ≤ 32 →
    (∀ w ∈ ws, ∃ d, s.par.schema.decode w = some d ∧ d.name ≠ .replay) →
    ∃ a c, exec (.replay 1 e ws.length start) { s with cur := t } = .next a ∧
      exec (.replay 0 0 ws.length start) { ws.foldl (State.feedReplay t) a with cur := t } = .next c ∧
      State.playedWords t ws.length c = ws.map some

/-! ## Wait gate (40_frontend.md) -/

/-- R138 (D8): STALLWAIT completes and latches its two masks for the issuing thread, and changes nothing else. -/
def Obligations.StallwaitLatches : Prop :=
  ∀ (s : State) (waitRes stallRes : Nat), ∃ t, exec (.stallwait waitRes stallRes) s = .next t ∧
    t = { s with latch := t.latch } ∧ t.latch[s.cur] = ⟨.stallwait, waitRes, stallRes, none⟩ ∧
    ∀ u : Thread, u ≠ s.cur → t.latch[u] = s.latch[u]

/-- R139 (D9): SEMWAIT completes and latches its masks and the low 8 bits of its selector for the issuing thread; with a
zero condition mask it latches a STALLWAIT with condition mask 0x7F and its own block mask. -/
def Obligations.SemwaitLatches : Prop :=
  ∀ (s : State) (cond semSel stallRes : Nat), ∃ t, exec (.semwait cond semSel stallRes) s = .next t ∧
    t = { s with latch := t.latch } ∧ (∀ u : Thread, u ≠ s.cur → t.latch[u] = s.latch[u]) ∧
    (cond = 0 → t.latch[s.cur] = ⟨.stallwait, 0x7F, stallRes, none⟩) ∧
    (cond ≠ 0 → ∃ sel : BitVec 8, sel.toNat = semSel % 256 ∧
      t.latch[s.cur] = ⟨.semwait, cond, stallRes, some sel⟩)

/-- R132 (D11, G4), R134: when a latched condition still holds. A STALLWAIT holds while some selected condition is not
met, a SEMWAIT while some selected semaphore meets a selected condition; a STALLWAIT bit with no predicate is refused
(the model's reading of where, log entry 14). -/
def Obligations.WaitHoldsMeaning : Prop :=
  ∀ (s : State) (t : Thread),
    (s.latch[t].kind = .none → s.waitHolds t = .ok false) ∧
    (s.latch[t].kind = .semwait → ∀ sel, s.latch[t].semSel = some sel →
      ∃ b, s.waitHolds t = .ok b ∧ (b = true ↔ ∃ i : Fin 8, sel.getLsbD i = true ∧
        ((s.latch[t].condMask.testBit 0 = true ∧ s.sem[i].value = 0) ∨
          (s.latch[t].condMask.testBit 1 = true ∧ s.sem[i].max ≤ s.sem[i].value)))) ∧
    (s.latch[t].kind = .stallwait →
      ((∀ c, s.latch[t].condMask.testBit c = true → s.condMet c t ≠ none) →
        ∃ b, s.waitHolds t = .ok b ∧
          (b = true ↔ ∃ c, s.latch[t].condMask.testBit c = true ∧ s.condMet c t = some false)) ∧
      ((∃ c, s.latch[t].condMask.testBit c = true ∧ s.condMet c t = none) →
        ∃ c, s.latch[t].condMask.testBit c = true ∧ s.condMet c t = none ∧
          s.waitHolds t = .error (.conditionBitUnmodelled c)))

/-- R133, R134: the default tables (D10, G2, G3). Which block-mask bit holds which unit's instructions, NONE words
never, whatever the table; and what meets each STALLWAIT condition bit, the bits 8 to 11 and 15 and above having no
predicate. -/
def Obligations.DefaultWaitTables : Prop :=
  (∀ (p : Params) (m : Nat), p.blocked m .none = false) ∧
  ∀ s : State, s.par.blockClass = blockClassDefault → s.par.condBit = condBitDefault →
    (∀ m : Nat, s.par.blocked m .misc = m.testBit 0 ∧ s.par.blocked m .sync = m.testBit 1 ∧
      s.par.blocked m .packer = m.testBit 2 ∧ s.par.blocked m .unpacker = m.testBit 3 ∧
      s.par.blocked m .mover = m.testBit 4 ∧ s.par.blocked m .scalar = m.testBit 5 ∧
      s.par.blocked m .matrix = m.testBit 6 ∧ s.par.blocked m .config = m.testBit 7 ∧
      s.par.blocked m .vector = m.testBit 8) ∧
    ∀ t : Thread,
      let idle := fun u : FUnit => ∀ e ∈ s.queueOf u, e.thread ≠ t
      let quiet := fun u : DmaUnit => (∀ e ∈ s.queueOf u.unit, e.thread ≠ t) ∧ s.inflightOf u t = 0
      (s.condMet 0 t = some true ↔ idle .scalar ∧ s.flush[t] = none) ∧
      (s.condMet 1 t = some true ↔ quiet .unpacker0) ∧ (s.condMet 2 t = some true ↔ quiet .unpacker1) ∧
      (∀ c, 3 ≤ c → c ≤ 6 → (s.condMet c t = some true ↔ quiet .packer)) ∧
      (s.condMet 7 t = some true ↔ idle .matrix) ∧ (s.condMet 12 t = some true ↔ idle .mover) ∧
      (s.condMet 13 t = some true ↔ idle .config) ∧ (s.condMet 14 t = some true ↔ idle .vector) ∧
      ∀ c, s.condMet c t = none ↔ (8 ≤ c ∧ c ≤ 11) ∨ 15 ≤ c

/-- R131, R137 to R139: the gate first re-checks its latch, clearing it as soon as it does not hold (R132). Then a word
stays in the slot, and nothing is forwarded or latched, while either flag is set, while a latch is in force and the word
is a STALLWAIT or SEMWAIT, and while a latch is in force and the word's class is in its block mask. A STALLWAIT or
SEMWAIT that nothing holds is executed by the gate, in the tick in which the latch before it clears too, and leaves the
slot. -/
def Obligations.GateHoldsAndRechecks : Prop :=
  (∀ (s : State) (t : Thread) (w : Word) (d : Decoded) (r : State), s.halt = none → s.gateSlot[t] = some w →
    s.par.schema.decode w = some d → s.Rechecked t r →
    (s.mutexWait[t] = true ∨ s.backendStall[t] = true → s.gateTick t = r) ∧
    (r.latch[t].kind ≠ .none → d.name = .stallwait ∨ d.name = .semwait → s.gateTick t = r) ∧
    (r.latch[t].kind ≠ .none → d.name ≠ .stallwait → d.name ≠ .semwait → d.tag ≠ .frontend →
      s.par.blocked r.latch[t].blockMask d.tag = true → s.gateTick t = r) ∧
    (r.latch[t].kind = .none → s.mutexWait[t] = false → s.backendStall[t] = false →
      d.name = .stallwait ∨ d.name = .semwait → ∀ i, d.toInstr = some i → (r.issue t d).missingArg i = none →
      ∀ z, exec i (r.issue t d) = .next z → s.gateTick t = { z with gateSlot := z.gateSlot.set t none })) ∧
  ∀ (s : State) (t : Thread), s.halt = none → s.latch[t].kind ≠ .none →
    (s.waitHolds t = .ok false → s.refreshLatch t = { s with latch := s.latch.set t Latch.clear }) ∧
    (s.waitHolds t = .ok true → s.refreshLatch t = s) ∧
    (s.waitHolds t = .ok false → s.gateSlot[t] = none →
      s.gateTick t = { s with latch := s.latch.set t Latch.clear }) ∧
    ∀ r, s.waitHolds t = .error r → s.gateTick t = s.stoppedBy (.refused r) t (.frontend t)

/-- R283, R141 (D36, log entry 25): a FRONTEND word other than STALLWAIT and SEMWAIT at the gate, and a tag that names
no unit at the dispatcher, end the run with `UnroutableInstruction`, the word and the thread recorded. The FRONTEND
test comes before the block test, so a latch in force does not matter to it. -/
def Obligations.UnroutableEndsTheRun : Prop :=
  ∀ (s : State) (t : Thread) (w : Word) (d : Decoded) (r : State), s.halt = none → s.gateSlot[t] = some w →
    s.par.schema.decode w = some d → s.mutexWait[t] = false → s.backendStall[t] = false → s.Rechecked t r →
    d.name ≠ .stallwait → d.name ≠ .semwait →
    (d.tag = .frontend → s.gateTick t = r.stoppedBy (.fault (.unroutableInstruction w)) t (.frontend t)) ∧
    (∀ n, d.tag = .other n → r.latch[t].kind = .none ∨ s.par.blocked r.latch[t].blockMask d.tag = false →
      s.gateTick t = r.stoppedBy (.fault (.unroutableInstruction w)) t (.frontend t))

/-- R136 (D7, log entry 25): the gate keeps a rejected word and offers it again; with `WAITGATE_REOFFER` false the word
is lost. The gate may have a latch in force that does not block the word, or have cleared one in this tick. -/
def Obligations.RejectedWordIsOfferedAgain : Prop :=
  ∀ (s : State) (t : Thread) (w : Word) (d : Decoded) (r : State), s.GateOpen t w d r →
    d.name ≠ .stallwait → d.name ≠ .semwait → d.tag ≠ .frontend → r.dispatch t d = .rejected →
    (s.par.reoffer = true → s.gateTick t = r) ∧
    (s.par.reoffer = false → s.gateTick t = { r with gateSlot := s.gateSlot.set t none })

/-- R131, R150, R153: a word that its unit accepts stands, with its thread, at the end of that unit's queue, the slot is
empty, the gate waits exactly after an ATGETM, and nothing else changed but a latch that cleared in this tick. The gate
may have a latch in force that does not block the word. -/
def Obligations.AcceptedWordEntersItsQueue : Prop :=
  ∀ (s : State) (t : Thread) (w : Word) (d : Decoded) (u : FUnit) (r a : State), s.GateOpen t w d r →
    d.name ≠ .stallwait → d.name ≠ .semwait → routeOf s.par d.tag w = .unit u → r.offer u t d = .taken a →
    ∃ s', s.gateTick t = s' ∧
      s' = { r with queue := s'.queue, gateSlot := s'.gateSlot, mutexWait := s'.mutexWait } ∧
      s'.queueOf u = s.queueOf u ++ [⟨w, t⟩] ∧ (∀ v, v ≠ u → s'.queueOf v = s.queueOf v) ∧
      s'.gateSlot[t] = none ∧ s'.mutexWait[t] = decide (d.name = .atgetm) ∧
      ∀ v : Thread, v ≠ t → s'.gateSlot[v] = s.gateSlot[v] ∧ s'.mutexWait[v] = s.mutexWait[v]

/-- R140, R220, R273 (D28) and R87: NOP, DMANOP and SFPNOP complete and change nothing; a NOP word leaves the gate in
one tick, whatever latch is in force, and reaches no queue (`cur` and `instr` are the model's own fields); only the
opcode 0x02 is a no-op for `isnop`. -/
def Obligations.NoOperationsChangeNothing : Prop :=
  (∀ s : State, exec .nop s = .next s ∧ exec .dmanop s = .next s ∧ exec .sfpnop s = .next s) ∧
  (∀ (s : State) (t : Thread) (w : Word) (d : Decoded) (r : State), s.GateOpen t w d r → d.name = .nop →
    d.tag = .none → s.gateTick t = { r with cur := t, instr := d, gateSlot := s.gateSlot.set t none }) ∧
  ∀ w : Word, isnop w = true ↔ w.extractLsb' 24 8 = 0x02#8

/-- R112: with room in `replayQ` the macro expander passes a word that is neither MOP nor MOP_CFG on unchanged, and
emits the next word of an expansion; with no room it keeps them. -/
def Obligations.MacroExpanderPassesWords : Prop :=
  ∀ (s : State) (t : Thread),
    (s.expanding[t] = false → ∀ w q d, s.mopQ[t] = w :: q → s.par.schema.decode w = some d →
      d.name ≠ .mop → d.name ≠ .mopCfg →
      (s.replayQ[t].length < s.par.capReplayQ → s.mopTick t = { s with
        replayQ := s.replayQ.set t (s.replayQ[t] ++ [w])
        mopQ := s.mopQ.set t q }) ∧
      (s.par.capReplayQ ≤ s.replayQ[t].length → s.mopTick t = s)) ∧
    (s.expanding[t] = true → ∀ w rest, s.mopOut[t] = w :: rest →
      (s.replayQ[t].length < s.par.capReplayQ → s.mopTick t = { s with
        replayQ := s.replayQ.set t (s.replayQ[t] ++ [w])
        mopOut := s.mopOut.set t rest
        expanding := s.expanding.set t (!rest.isEmpty) }) ∧
      (s.par.capReplayQ ≤ s.replayQ[t].length → s.mopTick t = s)) ∧
    (s.expanding[t] = false → s.mopQ[t] = [] → s.mopTick t = s)

/-! ## Moves of the environment -/

/-- R110 (D37): an intake write is accepted exactly while the thread's first FIFO has room, appending the word there; a
refused one changes nothing but the answer. -/
def Obligations.IntakeWriteAcceptance : Prop :=
  ∀ (s : State) (t : Thread) (w : Word),
    (s.mopQ[t].length < s.par.capMopQ → s.intakeWrite t w = { s with
      mopQ := s.mopQ.set t (s.mopQ[t] ++ [w])
      replies := s.replies ++ [.accepted true] }) ∧
    (s.par.capMopQ ≤ s.mopQ[t].length →
      s.intakeWrite t w = { s with replies := s.replies ++ [.accepted false] })

/-- R204, R205 (D20): a semaphore register write with bit 0 set counts the value down, otherwise up, within 0 to 15, and
leaves `max` and every other semaphore; a read answers the zero-extended value as four little-endian bytes and changes
nothing (the byte order is log entry 24; that an answer stands in `replies` is log entry 29). -/
def Obligations.SemaphoreRegisterPort : Prop :=
  ∀ (s : State) (i : Fin 8) (data : Word),
    (∃ t, s.semRegWrite i data = t ∧ t = { s with sem := t.sem } ∧
      (data.getLsbD 0 = true → (t.sem[i].value : Int) = max ((s.sem[i].value : Int) - 1) 0) ∧
      (data.getLsbD 0 = false → t.sem[i].value = min (s.sem[i].value + 1) 15) ∧
      t.sem[i].max = s.sem[i].max ∧ ∀ j : Fin 8, j ≠ i → t.sem[j] = s.sem[j]) ∧
    (s.sem[i].value ≤ 15 →
      ∃ b : Byte, b.toNat = s.sem[i].value ∧ s.semRegRead i = { s with replies := s.replies ++ [.bytes [b, 0, 0, 0]] })

/-- R113 (D32), R243 (D40): a macro config write changes the one word it names; a THCON poke changes the one register of
the one counter it names, truncated to the counter's width. -/
def Obligations.ConfigPortAndCounterPoke : Prop :=
  (∀ (s : State) (t : Thread) (k : Fin 9) (v : Word), ∃ s', s.mopCfgWrite t k v = s' ∧
    s' = { s with mopCfg := s'.mopCfg } ∧ s'.mopCfg[t][k] = v ∧
    ∀ (u : Thread) (j : Fin 9), u ≠ t ∨ j ≠ k → s'.mopCfg[u][j] = s.mopCfg[u][j]) ∧
  ∀ (s : State) (t : Thread) (g : Group) (c : Fin 2) (d : Dim) (v : Nat),
    let old := s.adc[t].get g c d
    let x := v % 2 ^ s.par.dimWidth d
    (∃ s', s.pokeAdc t g c d .counter v = s' ∧ s' = { s with adc := s'.adc } ∧ s'.adc[t].get g c d = ⟨x, old.cr⟩ ∧
      ∀ (u : Thread) g' c' d', (u, g', c', d') ≠ (t, g, c, d) → s'.adc[u].get g' c' d' = s.adc[u].get g' c' d') ∧
    (∃ s', s.pokeAdc t g c d .shadow v = s' ∧ s' = { s with adc := s'.adc } ∧ s'.adc[t].get g c d = ⟨old.val, x⟩ ∧
      ∀ (u : Thread) g' c' d', (u, g', c', d') ≠ (t, g, c, d) → s'.adc[u].get g' c' d' = s.adc[u].get g' c' d')

/-! ## Config unit (42_config_unit.md) -/

/-- R174 (D18, log entry 25): SETC16 of an index below 57 completes; the whole word of the issuing thread's own array
is the zero-extended 16-bit value, and nothing else changes; any other index raises `InvalidFieldAccess` with the
index. -/
def Obligations.SetcWritesOwnThreadWord : Prop :=
  ∀ (s : State) (v r : Nat),
    (r < 57 → ∃ t, exec (.setc16 v r) s = .next t ∧ t = { s with tcfg := t.tcfg } ∧
      ∀ (u : Thread) (k : Nat) (h : k < 57),
        if u = s.cur ∧ k = r then t.tcfg[u][k].toNat = v % 2 ^ 16 else t.tcfg[u][k] = s.tcfg[u][k]) ∧
    (57 ≤ r → exec (.setc16 v r) s = .fault (.invalidFieldAccess (.index r)))

/-- R176, R177 (D17, log entry 25): WRCFG copies one word, or four with `wr128b` 1, of the issuing thread's registers
into the active bank, and changes nothing else, when every index is in range and the four-word form is aligned;
otherwise, or when the bank is out of range, it raises `InvalidFieldAccess`. The premise is `State.DataLegal.gpr`. -/
def Obligations.WrcfgCopiesRegisters : Prop :=
  ∀ (s : State) (c w r : Nat), s.gpr[s.cur].length = s.par.ngpr →
    let n := if w = 1 then 4 else 1
    (∀ b, s.activeBank s.cur = .ok b →
      (c + n - 1 < 188 → r + n - 1 < s.par.ngpr → (n = 4 → c % 4 = 0 ∧ r % 4 = 0) →
        ∃ t, exec (.wrcfg c w r) s = .next t ∧ t = { s with cfg := t.cfg } ∧
          ∀ (b' : Fin 2) (k : Nat) (h : k < 188),
            if b' = b ∧ c ≤ k ∧ k < c + n then s.gpr[s.cur][r + (k - c)]? = some t.cfg[b'][k]
            else t.cfg[b'][k] = s.cfg[b'][k]) ∧
      (188 ≤ c + n - 1 ∨ s.par.ngpr ≤ r + n - 1 ∨ (n = 4 ∧ (c % 4 ≠ 0 ∨ r % 4 ≠ 0)) →
        ∃ x, exec (.wrcfg c w r) s = .fault (.invalidFieldAccess x))) ∧
    ∀ x, s.activeBank s.cur = .error x → exec (.wrcfg c w r) s = .fault (.invalidFieldAccess x)

/-- R178 (D19, log entry 25): RMWCIB k writes, in the one word it names of the active bank, exactly the bits of byte
lane k whose mask bit is set, and changes nothing else; an index of 188 or more raises `InvalidFieldAccess` with the
index. -/
def Obligations.RmwcibMasksOneByteLane : Prop :=
  ∀ (s : State) (c data mask : Nat),
    let lanes : List (Nat × Instr) :=
      [(0, .rmwcib0 c data mask), (1, .rmwcib1 c data mask), (2, .rmwcib2 c data mask), (3, .rmwcib3 c data mask)]
    ∀ x ∈ lanes,
      (∀ b, s.activeBank s.cur = .ok b →
        (c < 188 → ∃ t, exec x.2 s = .next t ∧ t = { s with cfg := t.cfg } ∧
          ∀ (b' : Fin 2) (k : Nat) (h : k < 188) (j : Nat), j < 32 →
            t.cfg[b'][k].getLsbD j =
              if b' = b ∧ k = c ∧ 8 * x.1 ≤ j ∧ j < 8 * x.1 + 8 ∧ mask.testBit (j - 8 * x.1) = true then
                data.testBit (j - 8 * x.1)
              else s.cfg[b'][k].getLsbD j) ∧
        (188 ≤ c → exec x.2 s = .fault (.invalidFieldAccess (.index c)))) ∧
      ∀ y, s.activeBank s.cur = .error y → exec x.2 s = .fault (.invalidFieldAccess y)

/-- R171 (D15, D16, log entry 25), R173: the Config unit's admission. A SETC16 is taken while fewer than three are queued,
a WRCFG while none is, both whatever else is queued; anything else only if no SETC16 or WRCFG is queued or was drained at
the last tick and the thread has nothing else queued; a taken word is appended. So from an empty queue exactly three
SETC16 and exactly one WRCFG are admitted. -/
def Obligations.ConfigAdmission : Prop :=
  (∀ (s : State) (t : Thread) (d : Decoded),
    let setc := s.entriesNamed .config fun n => decide (n = .setc16)
    let wrcfg := s.entriesNamed .config fun n => decide (n = .wrcfg)
    let ok : Prop :=
      if d.name = .setc16 then setc.length < 3
      else if d.name = .wrcfg then wrcfg.length < 1
      else s.cfgWritePrev = false ∧ setc = [] ∧ wrcfg = [] ∧
        ∀ e ∈ s.queueOf .config, e.thread = t → s.entryName e = some .setc16 ∨ s.entryName e = some .wrcfg
    (ok → s.offer .config t d = .taken (s.pushEntry .config ⟨d.word, t⟩)) ∧
    (¬ ok → s.offer .config t d = .rejected)) ∧
  (∀ (s : State) (t₁ t₂ t₃ t₄ : Thread) (d₁ d₂ d₃ d₄ : Decoded), s.queueOf .config = [] →
    (∀ d ∈ [d₁, d₂, d₃, d₄], s.par.schema.decode d.word = some d ∧ d.name = .setc16) →
    ∃ s₁ s₂ s₃, s.offer .config t₁ d₁ = .taken s₁ ∧ s₁.offer .config t₂ d₂ = .taken s₂ ∧
      s₂.offer .config t₃ d₃ = .taken s₃ ∧ s₃.offer .config t₄ d₄ = .rejected) ∧
  ∀ (s : State) (t₁ t₂ : Thread) (d₁ d₂ : Decoded), s.queueOf .config = [] →
    (∀ d ∈ [d₁, d₂], s.par.schema.decode d.word = some d ∧ d.name = .wrcfg) →
    ∃ s₁, s.offer .config t₁ d₁ = .taken s₁ ∧ s₁.offer .config t₂ d₂ = .rejected

/-- R172 (D16, log entry 25): after a tick of the Config unit that ended without a stop, its queue is empty and
`cfgWritePrev` says whether the entries it drained held a SETC16 or a WRCFG. -/
def Obligations.ConfigHysteresisFlag : Prop :=
  ∀ s : State, (s.unitTick .config).halt = none →
    (s.unitTick .config).queueOf .config = [] ∧
    ((s.unitTick .config).cfgWritePrev = true ↔
      ∃ e ∈ s.queueOf .config, s.entryName e = some .setc16 ∨ s.entryName e = some .wrcfg)

/-! ## Sync unit (43_sync_unit.md) -/

/-- R198 to R201: SEMINIT, SEMPOST and SEMGET complete, change the semaphores the low 8 bits of their selector name, and
nothing else: SEMINIT stores its two 4-bit fields without a clamp, SEMPOST saturates at 15, SEMGET at 0. -/
def Obligations.SemaphoreInstructions : Prop :=
  ∀ (s : State) (sel : Nat),
    (∀ v m : Nat, ∃ t, exec (.seminit sel v m) s = .next t ∧ t = { s with sem := t.sem } ∧
      ∀ i : Fin 8, t.sem[i] = if sel.testBit i then ⟨v % 16, m % 16⟩ else s.sem[i]) ∧
    (∃ t, exec (.sempost sel) s = .next t ∧ t = { s with sem := t.sem } ∧
      ∀ i : Fin 8, t.sem[i].max = s.sem[i].max ∧
        t.sem[i].value = if sel.testBit i then min (s.sem[i].value + 1) 15 else s.sem[i].value) ∧
    ∃ t, exec (.semget sel) s = .next t ∧ t = { s with sem := t.sem } ∧
      ∀ i : Fin 8, t.sem[i].max = s.sem[i].max ∧
        (t.sem[i].value : Int) = if sel.testBit i then max ((s.sem[i].value : Int) - 1) 0 else s.sem[i].value

/-- R193, R194 (D12, D21): ATGETM of an index 1 to 7 completes. Where the mutex is free or the thread's own, the thread
holds it and its gate is informed; otherwise the thread is appended to the waiters. Nothing else changes. Index 0 and
indices above 7 raise `InvalidFieldAccess`. -/
def Obligations.AtgetmAcquiresOrWaits : Prop :=
  ∀ (s : State) (x : Nat),
    (∀ i : Fin 8, i.val = x → 1 ≤ x →
      (s.mutex[i] = none ∨ s.mutex[i] = some s.cur →
        ∃ t, exec (.atgetm x) s = .next t ∧ t = { s with mutex := t.mutex, mutexWait := t.mutexWait } ∧
          t.mutex[i] = some s.cur ∧ (∀ j : Fin 8, j ≠ i → t.mutex[j] = s.mutex[j]) ∧
          t.mutexWait[s.cur] = false ∧ ∀ u : Thread, u ≠ s.cur → t.mutexWait[u] = s.mutexWait[u]) ∧
      (s.mutex[i] ≠ none → s.mutex[i] ≠ some s.cur →
        exec (.atgetm x) s = .next { s with waiters := s.waiters ++ [(s.cur, x)] })) ∧
    (x = 0 ∨ 7 < x → exec (.atgetm x) s = .fault (.invalidFieldAccess (.index x)))

/-- R195, R193 (D21): ATRELM of an index 1 to 7 completes: the holder's release frees the mutex and changes nothing
else, any other thread's changes nothing. Index 0 and indices above 7 raise `InvalidFieldAccess`. -/
def Obligations.AtrelmFreesOwnMutex : Prop :=
  ∀ (s : State) (x : Nat),
    (∀ i : Fin 8, i.val = x → 1 ≤ x →
      (s.mutex[i] = some s.cur →
        ∃ t, exec (.atrelm x) s = .next t ∧ t = { s with mutex := t.mutex } ∧ t.mutex[i] = none ∧
          ∀ j : Fin 8, j ≠ i → t.mutex[j] = s.mutex[j]) ∧
      (s.mutex[i] ≠ some s.cur → exec (.atrelm x) s = .next s)) ∧
    (x = 0 ∨ 7 < x → exec (.atrelm x) s = .fault (.invalidFieldAccess (.index x)))

/-- R196 (D21), R48: the whole effect of the resolution. A held mutex keeps its holder; a free one goes to the oldest
waiter on it; the waiters whose thread now holds the mutex they asked for are informed and removed, the others stay in
order; nothing else changes. The premise holds of every waiter an ATGETM appended (R193). -/
def Obligations.WaiterResolution : Prop :=
  ∀ s : State, (∀ x ∈ s.waiters, 1 ≤ x.2 ∧ x.2 < 8) →
    ∃ t, s.resolveWaiters = t ∧
      t = { s with mutex := t.mutex, mutexWait := t.mutexWait, waiters := t.waiters } ∧
      (∀ (i : Fin 8) (h : Thread), s.mutex[i] = some h → t.mutex[i] = some h) ∧
      (∀ i : Fin 8, s.mutex[i] = none →
        t.mutex[i] = (s.waiters.find? fun x => decide (x.2 = i.val)).map (·.1)) ∧
      (t.waiters = s.waiters.filter fun x => decide (t.mutex[x.2]? ≠ some (some x.1))) ∧
      ∀ u : Thread, t.mutexWait[u] =
        (s.mutexWait[u] && !s.waiters.any fun x => decide (x.1 = u ∧ t.mutex[x.2]? = some (some u)))

/-- R191 (D15, log entry 25): the Sync unit's admission. An ATGETM or ATRELM is taken while fewer than three are queued
and none with its mutex index is, whatever else is queued; anything else only while the queue is empty; a taken word is
appended. The premise is that the
row of an ATGETM or ATRELM has the argument (log entry 16). -/
def Obligations.SyncAdmission : Prop :=
  ∀ (s : State) (t : Thread) (d : Decoded) (x : Nat),
    let mutexOps := (s.queueOf .sync).filter fun e =>
      decide (s.entryName e = some .atgetm ∨ s.entryName e = some .atrelm)
    (d.name = .atgetm ∨ d.name = .atrelm → d.arg .mutexIndex = .ok x →
      (mutexOps.length < 3 ∧ (∀ e ∈ mutexOps, s.entryArg e .mutexIndex ≠ some x) →
        s.offer .sync t d = .taken (s.pushEntry .sync ⟨d.word, t⟩)) ∧
      (¬ (mutexOps.length < 3 ∧ ∀ e ∈ mutexOps, s.entryArg e .mutexIndex ≠ some x) →
        s.offer .sync t d = .rejected)) ∧
    (d.name ≠ .atgetm → d.name ≠ .atrelm →
      (s.queueOf .sync = [] → s.offer .sync t d = .taken (s.pushEntry .sync ⟨d.word, t⟩)) ∧
      (s.queueOf .sync ≠ [] → s.offer .sync t d = .rejected))

/-- R195, R196: while a thread holds a mutex no instruction of any thread gives it to another one, and only the holder's
own ATRELM frees it; the resolution never takes it away. -/
def Obligations.HeldMutexIsKept : Prop :=
  ∀ (s : State) (m : Fin 8) (h : Thread), s.mutex[m] = some h →
    (∀ (i : Instr) (t : State), exec i s = .next t →
      t.mutex[m] = some h ∨ (t.mutex[m] = none ∧ s.cur = h ∧ i = .atrelm m.val)) ∧
    s.resolveWaiters.mutex[m] = some h

/-! ## Scalar/THCON unit (44_thcon_unit.md) -/

/-- R217, R218 (D23): the register move completes when the registers it moves, one or for a 128-bit transfer four
consecutive ones from `RegIndex` (where the row has that argument), exist, and every index of its target does, be the
target written or read. Then it has written words of the general configuration, or counters of the issuing thread or
the thread an override names, or the moved registers of the issuing thread: each of them holds what the last write of
the open function's answer gives it, or what it held; nothing else changes. A register, a configuration bank or word, an
override thread, a counter group, channel or dimension that does not exist raises `InvalidFieldAccess`. What the answer
is, is open (log entry 8); that its writes are made in order, after all checks, and how the counters are numbered is log
entry 9. -/
def Obligations.RegisterMoveAppliesItsWrites : Prop :=
  ∀ (s : State) (r f c b ts sz : Nat), s.gpr[s.cur].length = s.par.ngpr →
    let a := s.thconMove
    let reg := s.thconReg r a
    let n := if a.size = .b128 then 4 else 1
    let inRange : Prop := reg + n ≤ s.par.ngpr ∧
      (∀ ps, a.effect.target = .config ps → ∀ p ∈ ps, p.bank < 2 ∧ p.idx < 188) ∧
      ∀ o ps, a.effect.target = .counters o ps → (∀ v, o = some v → v < 3) ∧
        ∀ p ∈ ps, p.group < 3 ∧ p.chan < 2 ∧ p.dim < 4
    ((∃ x, argValue s.instr.args .regIndex = some x) → reg = r) ∧
    (inRange → ∃ t, exec (.reg2flop r f c b ts sz) s = .next t ∧
      (∀ ws, a.effect = .toConfig ws → t = { s with cfg := t.cfg } ∧
        ∀ (k : Fin 2) (i : Nat) (h : i < 188), t.cfg[k][i] = lastOf (CfgWrite.valueAt k.val i) ws s.cfg[k][i]) ∧
      (∀ o ws, a.effect = .toCounters o ws → t = { s with adc := t.adc } ∧
        ∀ (u : Thread) (g : Group) (k : Fin 2) (d : Dim),
          if u.val = o.getD s.cur.val then
            (t.adc[u].get g k d).val =
              lastOf (fun x => (AdcWrite.valueAt g k d .counter x).map (· % 2 ^ s.par.dimWidth d)) ws
                (s.adc[u].get g k d).val ∧
            (t.adc[u].get g k d).cr =
              lastOf (fun x => (AdcWrite.valueAt g k d .shadow x).map (· % 2 ^ s.par.dimWidth d)) ws
                (s.adc[u].get g k d).cr
          else t.adc[u] = s.adc[u]) ∧
      ∀ src vs, a.effect = .toRegisters src vs → t = { s with gpr := t.gpr } ∧ (∀ u : Thread, u ≠ s.cur → t.gpr[u] = s.gpr[u]) ∧
        t.gpr[s.cur].length = s.par.ngpr ∧
        ∀ i < s.par.ngpr, if reg ≤ i ∧ i < reg + n then t.gpr[s.cur][i]? = vs[i - reg]?
          else t.gpr[s.cur][i]? = s.gpr[s.cur][i]?) ∧
    (¬ inRange → ∃ i, exec (.reg2flop r f c b ts sz) s = .fault (.invalidFieldAccess (.index i)))

/-- R219 (D23; byte order D31, G14): STOREREG of an existing register completes where the memory can serve the write:
the four little-endian bytes of the register stand at `STOREREG_BASE + 4 * RegAddr`, every other byte reads as before
and nothing else changes, at a port's address too (log entry 23). A register that does not exist raises
`InvalidFieldAccess`; an access the memory cannot serve stops (log entry 7). -/
def Obligations.StoreregWritesFourBytes : Prop :=
  ∀ (s : State) (a r : Nat) (v : Word), s.mem.wf = true → s.gpr[s.cur].length = s.par.ngpr →
    let addr := s.storeregAddr a
    addr = s.par.storeregBase + 4 * a ∧ (s.par.storeregBase % 4 = 0 → addr % 4 = 0) ∧
    (s.gpr[s.cur][r]? = some v → addr + 4 ≤ s.par.memSize.toNat →
      ∃ t, exec (.storereg a r) s = .next t ∧ t = { s with mem := t.mem } ∧
        (∀ k < 4, (t.mem.read (addr + k)).toNat = v.toNat / 2 ^ (8 * k) % 256) ∧
        ∀ x, x < addr ∨ addr + 4 ≤ x → t.mem.read x = s.mem.read x) ∧
    (s.par.ngpr ≤ r → exec (.storereg a r) s = .fault (.invalidFieldAccess (.index r))) ∧
    (r < s.par.ngpr → s.par.memSize.toNat < addr + 4 → exec (.storereg a r) s = .fault (.memoryUnserved addr 4))

/-- R221, R222, R223 (D22): FLUSHDMA completes. With work of the issuing thread queued or in flight in a unit that bits
2:0 select, it records those bits for the thread and stalls the thread's gate, and changes nothing else; otherwise it
changes nothing. The re-check before the Scalar unit's drain ends exactly the flushes whose selected units have no work
of the thread left and releases the gates of those threads; nothing else changes. -/
def Obligations.FlushdmaStallsAndClears : Prop :=
  (∀ (s : State) (spec : Nat),
    let busy : Prop := ∃ u : DmaUnit, spec.testBit (dmaIndex u).val = true ∧
      ((∃ e ∈ s.queueOf u.unit, e.thread = s.cur) ∨ 0 < s.inflightOf u s.cur)
    (busy → ∃ t m, exec (.flushdma spec) s = .next t ∧
      t = { s with flush := t.flush, backendStall := t.backendStall } ∧
      t.flush[s.cur] = some m ∧ m.toNat = spec % 8 ∧ t.backendStall[s.cur] = true ∧
      ∀ u : Thread, u ≠ s.cur → t.flush[u] = s.flush[u] ∧ t.backendStall[u] = s.backendStall[u]) ∧
    (¬ busy → exec (.flushdma spec) s = .next s)) ∧
  ∀ s : State, ∃ t, s.preUnit .scalar = t ∧ t = { s with flush := t.flush, backendStall := t.backendStall } ∧
    ∀ u : Thread,
      let done : Prop := ∃ m, s.flush[u] = some m ∧ ∀ v : DmaUnit, m.getLsbD (dmaIndex v) = true →
        (∀ e ∈ s.queueOf v.unit, e.thread ≠ u) ∧ s.inflightOf v u = 0
      (done → t.flush[u] = none ∧ t.backendStall[u] = false) ∧
      (¬ done → t.flush[u] = s.flush[u] ∧ t.backendStall[u] = s.backendStall[u])

/-! ## Misc/ADC unit (45_adc_unit.md) -/

/-- R232 to R236, R241 (D24, G16), R244: SETADCXY and SETADCZW complete when the override names a thread; in the
selected groups of that thread each enabled counter and its shadow take the value truncated to the width, and nothing
else changes. So does SETADC, of channel 0 or 1 and dimension 0 to 3, with the one counter it names. -/
def Obligations.SetAdcCounters : Prop :=
  ∀ (s : State) (u : Thread) (bm a b c d m o : Nat), u.val = (if o = 0 then s.cur.val else o - 1) →
    (∃ t, exec (.setadcxy bm a b c d m o) s = .next t ∧ s.AdcEffect t u m fun ch dim old =>
      let x := 2 ^ s.par.wx
      let y := 2 ^ s.par.wy
      match dim with
      | .x => if ch = 0 then (if bm.testBit 0 then ⟨a % x, a % x⟩ else old)
        else if bm.testBit 2 then ⟨c % x, c % x⟩ else old
      | .y => if ch = 0 then (if bm.testBit 1 then ⟨b % y, b % y⟩ else old)
        else if bm.testBit 3 then ⟨d % y, d % y⟩ else old
      | .z => old
      | .w => old) ∧
    (∃ t, exec (.setadczw bm a b c d m o) s = .next t ∧ s.AdcEffect t u m fun ch dim old =>
      let z := 2 ^ s.par.wz
      let w := 2 ^ s.par.ww
      match dim with
      | .x => old
      | .y => old
      | .z => if ch = 0 then (if bm.testBit 0 then ⟨a % z, a % z⟩ else old)
        else if bm.testBit 2 then ⟨c % z, c % z⟩ else old
      | .w => if ch = 0 then (if bm.testBit 1 then ⟨b % w, b % w⟩ else old)
        else if bm.testBit 3 then ⟨d % w, d % w⟩ else old) ∧
    ∀ v dim ch : Nat, ch < 2 → dim < 4 →
      ∃ t, exec (.setadc v dim ch m o) s = .next t ∧ s.AdcEffect t u m fun c d old =>
        let (place, width) := match d with
          | .x => (0, s.par.wx)
          | .y => (1, s.par.wy)
          | .z => (2, s.par.wz)
          | .w => (3, s.par.ww)
        if c.val = ch ∧ place = dim then ⟨v % 2 ^ width, v % 2 ^ width⟩ else old

/-- R237, R238 (D24), R244: INCADCXY and INCADCZW complete when the override names a thread; in the selected groups of
that thread each of the four counters is incremented by its value, wrapping at its width, the shadow too unless
`INCADC_SHADOW` is `counter_only` (G8); nothing else changes. -/
def Obligations.IncrementAdcPairs : Prop :=
  ∀ (s : State) (u : Thread) (a b c d m o : Nat), u.val = (if o = 0 then s.cur.val else o - 1) →
    let inc := fun (width v : Nat) (old : Counter) =>
      (⟨(old.val + v) % 2 ^ width,
        if s.par.incadcShadow = .counterOnly then old.cr else (old.cr + v) % 2 ^ width⟩ : Counter)
    (∃ t, exec (.incadcxy a b c d m o) s = .next t ∧ s.AdcEffect t u m fun ch dim old =>
      match dim with
      | .x => inc s.par.wx (if ch = 0 then a else c) old
      | .y => inc s.par.wy (if ch = 0 then b else d) old
      | .z => old
      | .w => old) ∧
    ∃ t, exec (.incadczw a b c d m o) s = .next t ∧ s.AdcEffect t u m fun ch dim old =>
      match dim with
      | .x => old
      | .y => old
      | .z => inc s.par.wz (if ch = 0 then a else c) old
      | .w => inc s.par.ww (if ch = 0 then b else d) old

/-- R239, R240 (D24): ADDRCRXY and ADDRCRZW complete when the override names a thread; in the selected groups of that
thread each enabled counter and its shadow become 0, or with `ADDRCR_MODE` = `carriage_return` (G7) the shadow plus the
value; nothing else changes. -/
def Obligations.ClearAdcPairs : Prop :=
  ∀ (s : State) (u : Thread) (bm a b c d m o : Nat), u.val = (if o = 0 then s.cur.val else o - 1) →
    let act := fun (on : Bool) (width v : Nat) (old : Counter) =>
      if on then
        if s.par.addrcrMode = .carriageReturn then
          (⟨(old.cr + v) % 2 ^ width, (old.cr + v) % 2 ^ width⟩ : Counter)
        else ⟨0, 0⟩
      else old
    (∃ t, exec (.addrcrxy bm a b c d m o) s = .next t ∧ s.AdcEffect t u m fun ch dim old =>
      match dim with
      | .x => act (bm.testBit (if ch = 0 then 0 else 2)) s.par.wx (if ch = 0 then a else c) old
      | .y => act (bm.testBit (if ch = 0 then 1 else 3)) s.par.wy (if ch = 0 then b else d) old
      | .z => old
      | .w => old) ∧
    ∃ t, exec (.addrcrzw bm a b c d m o) s = .next t ∧ s.AdcEffect t u m fun ch dim old =>
      match dim with
      | .x => old
      | .y => old
      | .z => act (bm.testBit (if ch = 0 then 0 else 2)) s.par.wz (if ch = 0 then a else c) old
      | .w => act (bm.testBit (if ch = 0 then 1 else 3)) s.par.ww (if ch = 0 then b else d) old

/-- R233 (D24): an override naming no thread makes every instruction of the family raise `InvalidFieldAccess`, with the
id it names. -/
def Obligations.OverrideOfNoThreadFaults : Prop :=
  ∀ (s : State) (k a b c d m o : Nat), o ≠ 0 → 3 ≤ o - 1 →
    ∀ i ∈ [Instr.setadc a b c m o, .setadcxy k a b c d m o, .setadczw k a b c d m o, .incadcxy a b c d m o,
      .incadczw a b c d m o, .addrcrxy k a b c d m o, .addrcrzw k a b c d m o],
      exec i s = .fault (.invalidFieldAccess (.index (o - 1)))

/-- R242: SETADCXX is refused in every state. -/
def Obligations.SetadcxxIsRefused : Prop :=
  ∀ (s : State) (a b m : Nat), exec (.setadcxx a b m) s = .refused .setadcxxValuesNotGiven

/-- R245, which the spec marks as derived: with the default `INCADC_SHADOW` and `ADDRCR_MODE`, every instruction but the
open register move keeps every counter equal to its shadow. -/
def Obligations.CountersEqualTheirShadows : Prop :=
  ∀ (s t : State) (i : Instr), s.par.incadcShadow = .both → s.par.addrcrMode = .clear → i.opName ≠ .reg2flop →
    (∀ (u : Thread) (g : Group) (c : Fin 2) (d : Dim), (s.adc[u].get g c d).val = (s.adc[u].get g c d).cr) →
    exec i s = .next t →
    ∀ (u : Thread) (g : Group) (c : Fin 2) (d : Dim), (t.adc[u].get g c d).val = (t.adc[u].get g c d).cr

/-! ## Matrix unit (46_matrix_unit.md) -/

/-- R254 (D25, G15), R252: SETRWC completes; each enabled counter of the issuing thread and its shadow take the value,
or the shadow plus the value, wrapped at the width; bit 3 clears FidelityPhase; `clear_ab_vld` and `rwc_cr[3]` are
ignored and nothing else changes. -/
def Obligations.SetrwcUpdatesCounters : Prop :=
  ∀ (s : State) (bm a b d cr cl : Nat),
    let old := s.rwc[s.cur]
    let upd := fun (k width v : Nat) (x : Counter) =>
      if bm.testBit k then
        let r := (if cr.testBit k then x.cr + v else v) % 2 ^ width
        (⟨r, r⟩ : Counter)
      else x
    ∃ t, exec (.setrwc bm a b d cr cl) s = .next t ∧ t = { s with rwc := t.rwc } ∧
      (∀ u : Thread, u ≠ s.cur → t.rwc[u] = s.rwc[u]) ∧
      t.rwc[s.cur] =
        { srcA := upd 0 s.par.wsrc a old.srcA
          srcB := upd 1 s.par.wsrc b old.srcB
          dst := upd 2 s.par.wdst d old.dst
          fidelityPhase := if bm.testBit 3 then 0 else old.fidelityPhase
          extraAddrModBit := old.extraAddrModBit }

/-- R255 (D26), R253 (D25), R252: ZEROACC completes in each of its four scopes when the rows its open functions select
exist and, in the single-row and 16-row scopes, the active bank does. If marking is enabled exactly the selected rows
are added to the undefined ones; in the single-row and 16-row scopes the issuing thread's RWC takes the address-mod
function's answer truncated to the widths, enabled or not; nothing else changes. -/
def Obligations.ZeroaccMarksRows : Prop :=
  ∀ (s : State) (dst am cm : Nat) (sc : Scope), [Scope.single, .block16, .half, .whole][cm]? = some sc →
    let rows := s.zeroaccRows sc dst s.mode32
    (s.zeroaccEnabled = true → ∀ r ∈ rows, r < s.par.dstRows) →
    (2 ≤ cm → ∃ t, exec (.zeroacc dst am cm) s = .next t ∧ t = { s with dstUndefined := t.dstUndefined } ∧
      ∀ r, r ∈ t.dstUndefined ↔ r ∈ s.dstUndefined ∨ (s.zeroaccEnabled = true ∧ r ∈ rows)) ∧
    (cm < 2 → ∀ b, s.activeBank s.cur = .ok b →
      ∃ t, exec (.zeroacc dst am cm) s = .next t ∧ t = { s with dstUndefined := t.dstUndefined, rwc := t.rwc } ∧
        (∀ r, r ∈ t.dstUndefined ↔ r ∈ s.dstUndefined ∨ (s.zeroaccEnabled = true ∧ r ∈ rows)) ∧
        (∀ u : Thread, u ≠ s.cur → t.rwc[u] = s.rwc[u]) ∧
        t.rwc[s.cur] = (s.addrModFn b am).trunc s.par ∧ Rwc.Fits s.par t.rwc[s.cur])

/-- R256 (D26, G13), R255, R284: what constrains the rows while the 32-bit mode is off, the whole register in every
mode; a `clear_mode` above 3 is refused; an enabled marking of a row that does not exist, and a bank out of range in
the two address-mod scopes, raise `InvalidFieldAccess`. -/
def Obligations.ZeroaccRowsAndStops : Prop :=
  ∀ (s : State) (dst am cm : Nat),
    (∃ r, s.zeroaccRows .single dst false = [r]) ∧
    (∃ k, s.zeroaccRows .block16 dst false = (List.range 16).map (16 * k + ·)) ∧
    (s.zeroaccRows .half dst false = List.range (s.par.dstRows / 2) ∨
      s.zeroaccRows .half dst false = (List.range (s.par.dstRows / 2)).map (s.par.dstRows / 2 + ·)) ∧
    (∀ mode32, s.zeroaccRows .whole dst mode32 = List.range s.par.dstRows) ∧
    (3 < cm → exec (.zeroacc dst am cm) s = .refused (.zeroaccScopeNotGiven cm)) ∧
    ∀ sc, [Scope.single, .block16, .half, .whole][cm]? = some sc →
      let rows := s.zeroaccRows sc dst s.mode32
      (s.zeroaccEnabled = true → (∃ r ∈ rows, s.par.dstRows ≤ r) →
        ∃ r ∈ rows, s.par.dstRows ≤ r ∧ exec (.zeroacc dst am cm) s = .fault (.invalidFieldAccess (.index r))) ∧
      ((s.zeroaccEnabled = true → ∀ r ∈ rows, r < s.par.dstRows) → cm < 2 →
        ∀ x, s.activeBank s.cur = .error x → exec (.zeroacc dst am cm) s = .fault (.invalidFieldAccess x))

/-! ## Mover (47_mover_and_other_units.md) -/

/-- R265 to R268 (D27): XMOV completes when its ranges lie in the regions of its mode and straddle no 64 KiB boundary,
and the memory can serve its accesses. A copy (L1-sourced) gives the destination the source's bytes as they were, a
zero-fill (L0-sourced) zeros; every other byte reads as before, and nothing else changes, at a port's address too (log
entry 23); a transfer of no bytes changes nothing whatever its operands are. An access the memory cannot serve stops,
the read first (log entry 7). What the operands are, is open (R269, log entry 8). -/
def Obligations.XmovCopiesOrFills : Prop :=
  ∀ (s : State) (l mb : Nat), s.mem.wf = true →
    let x := s.moverOperands
    let inside := fun (r : Region) (a : Nat) => match r with
      | .l1 => s.par.l1Base ≤ a ∧ a + x.n ≤ s.par.l1Base + s.par.l1Size
      | .l0 => s.par.l0Base ≤ a ∧ a + x.n ≤ s.par.l0Base + s.par.l0Size
    let size := s.par.memSize.toNat
    (x.n = 0 → exec (.xmov l mb) s = .next s) ∧
    (0 < x.n → inside x.srcRegion x.src → inside x.dstRegion x.dst →
      x.src / 65536 = (x.src + x.n - 1) / 65536 → x.dst / 65536 = (x.dst + x.n - 1) / 65536 →
      ((x.srcRegion = .l1 → x.src + x.n ≤ size) → x.dst + x.n ≤ size →
        ∃ t, exec (.xmov l mb) s = .next t ∧ t = { s with mem := t.mem } ∧
          (∀ k < x.n, t.mem.read (x.dst + k) = if x.srcRegion = .l1 then s.mem.read (x.src + k) else 0) ∧
          ∀ a, a < x.dst ∨ x.dst + x.n ≤ a → t.mem.read a = s.mem.read a) ∧
      (x.srcRegion = .l1 → size < x.src + x.n → exec (.xmov l mb) s = .fault (.memoryUnserved x.src x.n)) ∧
      ((x.srcRegion = .l1 → x.src + x.n ≤ size) → size < x.dst + x.n →
        exec (.xmov l mb) s = .fault (.memoryUnserved x.dst x.n)))

/-- R285, R266 (D27, log entry 25), R267: a transfer of some bytes that leaves a region of its mode or crosses a 64 KiB
boundary, at its source or its destination, raises `UnsupportedTransfer` with its operands, before any byte moves. -/
def Obligations.XmovRejectsBadRanges : Prop :=
  ∀ (s : State) (l mb : Nat),
    let x := s.moverOperands
    let inside := fun (r : Region) (a : Nat) => match r with
      | .l1 => s.par.l1Base ≤ a ∧ a + x.n ≤ s.par.l1Base + s.par.l1Size
      | .l0 => s.par.l0Base ≤ a ∧ a + x.n ≤ s.par.l0Base + s.par.l0Size
    0 < x.n →
    (¬ inside x.srcRegion x.src ∨ ¬ inside x.dstRegion x.dst ∨ x.src / 65536 ≠ (x.src + x.n - 1) / 65536 ∨
      x.dst / 65536 ≠ (x.dst + x.n - 1) / 65536) →
    exec (.xmov l mb) s = .fault (.unsupportedTransfer x.src x.dst x.n)

/-! ## Dispatch, queues, cycle (41_dispatch_and_queues.md) -/

/-- R150, R151, R152 (D2, D28): where each tag sends a word: NONE is dropped, UNPACKER goes by the selection bit, the
other unit tags to their unit, FRONTEND and unknown tags nowhere. -/
def Obligations.TagsRouteToUnits : Prop :=
  ∀ (p : Params) (w : Word) (n : Nat),
    routeOf p .none w = .dropped ∧ routeOf p .matrix w = .unit .matrix ∧ routeOf p .vector w = .unit .vector ∧
    routeOf p .scalar w = .unit .scalar ∧ routeOf p .config w = .unit .config ∧ routeOf p .sync w = .unit .sync ∧
    routeOf p .mover w = .unit .mover ∧ routeOf p .packer w = .unit .packer ∧ routeOf p .misc w = .unit .misc ∧
    (w.getLsbD p.unpackSelBit = false → routeOf p .unpacker w = .unit .unpacker0) ∧
    (w.getLsbD p.unpackSelBit = true → routeOf p .unpacker w = .unit .unpacker1) ∧
    routeOf p .frontend w = .unroutable ∧ routeOf p (.other n) w = .unroutable

/-- R154, R155 (D14, log entry 25), R216 (D22): generic admission. A unit other than Config and Sync takes a word
exactly when it holds no entry of the thread and, for the Scalar unit, no thread's flush is outstanding; a taken word
is appended. -/
def Obligations.GenericAdmission : Prop :=
  ∀ (s : State) (u : FUnit) (t : Thread) (d : Decoded), u ≠ .config → u ≠ .sync →
    let ok : Prop := (u = .scalar → ∀ v : Thread, s.flush[v] = none) ∧ ∀ e ∈ s.queueOf u, e.thread ≠ t
    (ok → s.offer u t d = .taken (s.pushEntry u ⟨d.word, t⟩)) ∧ (¬ ok → s.offer u t d = .rejected)

/-- R156, R281, R290, R157, R84: a unit's tick runs every entry of its queue, oldest first, each for its own thread,
and then the queue is empty and the unit's own bookkeeping follows. Where an instruction faults or is refused, or its
row lacks an argument its rule reads, the effects of the earlier ones stay, its own are not made, and the run has ended
(at a refusal by the model's choice, log entry 5); an entry the unit has no rule for is refused, leaving only its
occupancy. R271: the bookkeeping of the Packer and the Unpackers counts the in-flight work of every thread with nothing
drained in this tick down by one, not below 0, and changes nothing else. -/
def Obligations.UnitTickRunsItsQueue : Prop :=
  (∀ (s : State) (u : FUnit) (es : List Entry) (is : List Issue) (s' : State), s.halt = none →
    List.Forall₂ (s.Holds u) es is → runAll is (s.preUnit u) = some s' →
    (s.queueOf u = es → s.unitTick u = (s'.setQueue u []).postUnit u es) ∧
    ∀ (e : Entry) (rest : List Entry), s.queueOf u = es ++ e :: rest →
      (∀ x : Issue, s.Holds u e x →
        let z := s'.issue x.thread x.view
        (∀ a, z.missingArg x.instr = some a →
          s.unitTick u = s'.stoppedBy (.fault (.invalidFieldAccess (.arg a))) x.thread (.unit u)) ∧
        (z.missingArg x.instr = none →
          (∀ f, exec x.instr z = .fault f → s.unitTick u = s'.stoppedBy (.fault f) x.thread (.unit u)) ∧
          (∀ r, exec x.instr z = .refused r → s.unitTick u = s'.stoppedBy (.refused r) x.thread (.unit u)))) ∧
      ∀ d, s.par.schema.decode e.word = some d → homeUnit d.name ≠ some u →
        ∃ z : State, s.unitTick u = z.stoppedBy (.refused (.unmodelledAtUnit u e.word)) e.thread (.unit u) ∧
          z = { s' with inflight := z.inflight } ∧
          ∀ (v : DmaUnit) (t : Thread), z.inflightOf v t =
            if v.unit = u ∧ t = e.thread then s.par.latency[dmaIndex v] else s.inflightOf v t) ∧
  ∀ (s : State) (u : DmaUnit) (drained : List Entry), ∃ z, s.postUnit u.unit drained = z ∧
    z = { s with inflight := z.inflight } ∧
    ∀ (v : DmaUnit) (t : Thread),
      (v = u → (∀ e ∈ drained, e.thread ≠ t) → (z.inflightOf v t : Int) = max ((s.inflightOf v t : Int) - 1) 0) ∧
      (v ≠ u ∨ (∃ e ∈ drained, e.thread = t) → z.inflightOf v t = s.inflightOf v t)

/-- R281, R286: once a run has ended no component steps again. Until a reset the state keeps every piece but the
external memory, which the environment still reads and writes (R296, log entry 28), and every later step answers the
same stop (log entry 5): without such an access the memory stays and nothing is answered, a write that the memory can
serve is made, and a read answers. -/
def Obligations.StoppedRunStaysStopped : Prop :=
  ∀ (s : State) (h : Halt), s.halt = some h → (∀ m ∈ s.inputs.head?.getD [], m ≠ EnvMove.reset) →
    ∃ t, s.cycle = t ∧ t = { s with inputs := s.inputs.tail, replies := t.replies, mem := t.mem } ∧
    ((∀ m ∈ s.inputs.head?.getD [], s.isMemoryMove m = false) → t.mem = s.mem ∧ t.replies = []) ∧
    (∀ a bs, s.inputs.head? = some [.memWrite a bs] → a + bs.length ≤ s.par.memSize.toNat →
      t.mem = s.mem.writeBytes a bs) ∧
    (∀ a n, s.inputs.head? = some [.memRead a n] → a + n ≤ s.par.memSize.toNat →
      t.mem = s.mem ∧ t.replies = [.bytes (s.mem.readBytes a n)]) ∧
    (∀ f, h.why = .fault f → step s = .fault f) ∧ (∀ r, h.why = .refused r → step s = .refused r)

/-- R300, R50 (D30, log entry 25): reset gives every piece of state the value of the table, clears the mark of a stopped
run, and leaves the parameters (the schema among them) and the external memory. R301, which the spec marks as derived:
construction leaves the same state, whatever the parameters. -/
def Obligations.ResetTable : Prop :=
  ∀ s : State, ∃ z, s.reboot = z ∧ z.par = s.par ∧ z.mem = s.mem ∧ z.halt = none ∧
    (∀ t : Thread, z.gpr[t] = List.replicate s.par.ngpr 0 ∧ (∀ i (h : i < 57), z.tcfg[t][i] = 0) ∧
      z.mopQ[t] = [] ∧ z.replayQ[t] = [] ∧ z.gateSlot[t] = none ∧ (∀ k : Fin 9, z.mopCfg[t][k] = 0) ∧
      z.zmaskHi[t] = 0 ∧ z.expanding[t] = false ∧ z.mopOut[t] = [] ∧ (∀ k : Fin 32, z.rbuf[t][k] = none) ∧
      z.recCursor[t] = 0 ∧ z.recLeft[t] = 0 ∧ z.startIdx[t] = 0 ∧ z.playCursor[t] = 0 ∧ z.playLeft[t] = 0 ∧
      z.ewl[t] = false ∧ z.latch[t] = ⟨.none, 0, 0, none⟩ ∧ z.mutexWait[t] = false ∧ z.backendStall[t] = false ∧
      z.flush[t] = none ∧ z.rwc[t] = ⟨⟨0, 0⟩, ⟨0, 0⟩, ⟨0, 0⟩, 0, false⟩ ∧
      (∀ g c d, z.adc[t].get g c d = ⟨0, 0⟩) ∧ ∀ u : DmaUnit, z.inflightOf u t = 0) ∧
    (∀ (b : Fin 2) (i : Nat) (h : i < 188), z.cfg[b][i] = 0) ∧ (∀ u : FUnit, z.queueOf u = []) ∧
    z.cfgWritePrev = false ∧ (∀ i : Fin 8, z.sem[i] = ⟨0, 0⟩ ∧ z.mutex[i] = none) ∧ z.waiters = [] ∧
    (∀ r, s.reboot.rowUndefined r = false) ∧ ∀ p : Params, (State.powerOn p).reboot = State.powerOn p

/-- R156, R131, R124, R112: a step of an idle block in which an instruction's word has been placed where its component
takes its next word (log entry 4) is `exec` of that instruction, with the word's decoded view as the one the open
functions read (log entry 3), followed by what the component does after it (`State.consumed`): the stage drops the word,
a unit empties its queue. It holds for every TICK_ORDER (log entry 2). -/
def Obligations.StepRunsThePlacedInstruction : Prop :=
  ∀ (s : State) (i : Instr) (d : Decoded), s.Quiet → i.WellFormed → schemaDefault.decode (encode i) = some d →
    let p := s.withFetchWord 32 (encode i).toNat
    (∀ t, exec i { p with instr := d } = .next t → step p = .next (t.consumed i)) ∧
    (∀ f, exec i { p with instr := d } = .fault f → step p = .fault f) ∧
    (∀ r, exec i { p with instr := d } = .refused r → step p = .refused r)

/-! ## Invariants and frames of the whole machine -/

/-- R22, R39, R202, R42 to R44, R244, R252: every step from a state whose data are legal leaves legal data: semaphores
within 0 to 15, counters within their widths, register files of `NGPR` registers, marked rows that exist, the memory in
its canonical form (log entry 6). -/
def Obligations.StepKeepsDataLegal : Prop :=
  ∀ s t : State, s.DataLegal → step s = .next t → t.DataLegal

/-- R29, R30, R31, R33, R35: every step keeps the frontends legal: FIFOs within their capacities, an expansion in
progress exactly while words are left, no selector without a SEMWAIT. R47, R171, R191, R154: every step keeps the
bounds of the unit queues. R197: where every queued word decodes, every step keeps that, and that a thread has at most
one mutex request under way and its gate waits while it has one. -/
def Obligations.StepKeepsFrontendsAndQueuesLegal : Prop :=
  (∀ s t : State, s.FrontendLegal → step s = .next t → t.FrontendLegal) ∧
  (∀ s t : State, s.QueuesLegal → step s = .next t → t.QueuesLegal) ∧
  ∀ s t : State, s.QueuesDecode → s.RequestsLegal → step s = .next t → t.QueuesDecode ∧ t.RequestsLegal

/-- The invariants hold right after construction, whatever the parameters, and so at reset. -/
def Obligations.ResetIsLegal : Prop :=
  (∀ p : Params, (State.powerOn p).DataLegal ∧ (State.powerOn p).FrontendLegal ∧ (State.powerOn p).QueuesLegal ∧
    (State.powerOn p).QueuesDecode ∧ (State.powerOn p).RequestsLegal) ∧
  State.reset.DataLegal ∧ State.reset.FrontendLegal ∧ State.reset.QueuesLegal ∧ State.reset.QueuesDecode ∧
  State.reset.RequestsLegal

/-- R26, R27, R39, R40, R41, R42, R43, R44, R22, R61, R20: the frame of the whole instruction set. Each piece of state
changes only by the instructions the spec names as its writers, and no instruction changes the parameters, a queue, a
FIFO, an in-flight count or the Config unit's flag; a byte of memory changes only by STOREREG and XMOV, which at
whatever address change no semaphore, FIFO or macro config word (log entry 23); no step changes the parameters. -/
def Obligations.StateChangesOnlyByItsWriters : Prop :=
  (∀ s t : State, step s = .next t → t.par = s.par) ∧
  ∀ (s t : State) (i : Instr), exec i s = .next t →
    t.par = s.par ∧ t.halt = s.halt ∧ t.cur = s.cur ∧ t.instr = s.instr ∧ t.inputs = s.inputs ∧ t.replies = s.replies ∧
    t.mopCfg = s.mopCfg ∧ t.mopQ = s.mopQ ∧ t.replayQ = s.replayQ ∧ t.rbuf = s.rbuf ∧ t.gateSlot = s.gateSlot ∧
    t.queue = s.queue ∧ t.cfgWritePrev = s.cfgWritePrev ∧ t.inflight = s.inflight ∧
    (i.opName ∉ [.wrcfg, .rmwcib0, .rmwcib1, .rmwcib2, .rmwcib3, .reg2flop] → t.cfg = s.cfg) ∧
    (i.opName ≠ .setc16 → t.tcfg = s.tcfg) ∧ (i.opName ≠ .reg2flop → t.gpr = s.gpr) ∧
    (i.opName ∉ [.seminit, .sempost, .semget] → t.sem = s.sem) ∧
    (i.opName ∉ [.atgetm, .atrelm] → t.mutex = s.mutex) ∧
    (i.opName ≠ .atgetm → t.waiters = s.waiters ∧ t.mutexWait = s.mutexWait) ∧
    (i.opName ≠ .flushdma → t.flush = s.flush ∧ t.backendStall = s.backendStall) ∧
    (i.opName ∉ [.setrwc, .zeroacc] → t.rwc = s.rwc) ∧ (i.opName ≠ .zeroacc → t.dstUndefined = s.dstUndefined) ∧
    (i.opName ∉ [.setadc, .setadcxy, .setadczw, .incadcxy, .incadczw, .addrcrxy, .addrcrzw, .reg2flop] →
      t.adc = s.adc) ∧
    (i.opName ∉ [.stallwait, .semwait] → t.latch = s.latch) ∧
    (i.opName ∉ [.mop, .mopCfg] → t.zmaskHi = s.zmaskHi) ∧
    (i.opName ≠ .mop → t.mopOut = s.mopOut ∧ t.expanding = s.expanding) ∧
    (i.opName ≠ .replay → t.startIdx = s.startIdx ∧ t.recCursor = s.recCursor ∧ t.recLeft = s.recLeft ∧
      t.playCursor = s.playCursor ∧ t.playLeft = s.playLeft ∧ t.ewl = s.ewl) ∧
    (i.opName ∉ [.storereg, .xmov] → ∀ a, t.mem.read a = s.mem.read a)

end Statements
end

