-- ==== Sys2Proof/Laws/Memory.lean ====
section
/-! SUPPORT. The laws of the external memory: a read after a write, and that every memory operation keeps the canonical
form (20_memory.md R61, log entry 6). -/

namespace Sys2Proof.Machine

/-- The head of a canonical list lies below every later cell, and its tail is canonical. -/
theorem cellsWf_cons {c : Host.Cell} {l : List Host.Cell} :
    cellsWf (c :: l) = true ↔
      c.2 ≠ Memory.unlisted ∧ (∀ d ∈ l.head?, c.1 < d.1) ∧ cellsWf l = true := by
  cases l with
  | nil => simp [cellsWf]
  | cons d rest => simp [cellsWf, and_assoc]

/-- Below the first address of a canonical list every byte reads as unlisted. -/
theorem readCell_below {l : List Host.Cell} (h : cellsWf l = true) {a : Nat} (ha : ∀ d ∈ l.head?, a < d.1) :
    readCell l a = Memory.unlisted := by
  induction l generalizing a with
  | nil => rfl
  | cons c rest ih =>
    rw [cellsWf_cons] at h
    have hc : a < c.1 := ha c (by simp)
    rw [readCell, if_neg (by omega)]
    exact ih h.2.2 fun d hd => lt_trans hc (h.2.1 d hd)

/-- The first address after a write is the old first address or the address written. -/
theorem head_writeCell {l : List Host.Cell} (h : cellsWf l = true) {a : Nat} {b : Byte} {x : Nat}
    (hx : ∀ d ∈ l.head?, x < d.1) (ha : x < a) : ∀ d ∈ (writeCell l a b).head?, x < d.1 := by
  cases l with
  | nil =>
    by_cases hb : b = Memory.unlisted <;> simp [writeCell, hb, ha]
  | cons c rest =>
    have hc : x < c.1 := hx c (by simp)
    rw [cellsWf_cons] at h
    by_cases h1 : a < c.1
    · by_cases hb : b = Memory.unlisted <;> simp [writeCell, h1, hb, hc, ha]
    · by_cases h2 : a = c.1
      · by_cases hb : b = Memory.unlisted
        · simpa [writeCell, h2, hb] using fun d hd => lt_trans hc (h.2.1 d hd)
        · simp [writeCell, h2, hb, hc]
      · simp [writeCell, h1, h2, hc]

/-- A write keeps the canonical form of the cells. -/
theorem writeCell_wf {l : List Host.Cell} (h : cellsWf l = true) (a : Nat) (b : Byte) :
    cellsWf (writeCell l a b) = true := by
  induction l with
  | nil =>
    by_cases hb : b = Memory.unlisted <;> simp [writeCell, cellsWf, hb]
  | cons c rest ih =>
    have h' := cellsWf_cons.mp h
    by_cases h1 : a < c.1
    · by_cases hb : b = Memory.unlisted
      · simp [writeCell, h1, hb, h]
      · rw [writeCell, if_pos h1, if_neg hb, cellsWf_cons]
        exact ⟨hb, by simp [h1], h⟩
    · by_cases h2 : a = c.1
      · by_cases hb : b = Memory.unlisted
        · simp [writeCell, h2, hb, h'.2.2]
        · rw [writeCell, if_neg h1, if_pos h2, if_neg hb, cellsWf_cons]
          exact ⟨hb, by simpa [h2] using h'.2.1, h'.2.2⟩
      · rw [writeCell, if_neg h1, if_neg h2, cellsWf_cons]
        exact ⟨h'.1, head_writeCell h'.2.2 h'.2.1 (by omega), ih h'.2.2⟩

/-- Read after write on the cells. -/
theorem readCell_writeCell {l : List Host.Cell} (h : cellsWf l = true) (a a' : Nat) (b : Byte) :
    readCell (writeCell l a b) a' = if a' = a then b else readCell l a' := by
  induction l with
  | nil =>
    by_cases hb : b = Memory.unlisted
    · subst hb; by_cases ha : a' = a <;> simp [writeCell, readCell]
    · by_cases ha : a' = a
      · simp [writeCell, readCell, hb, ha]
      · simp [writeCell, readCell, hb, ha, Ne.symm ha]
  | cons c rest ih =>
    have h' := cellsWf_cons.mp h
    by_cases h1 : a < c.1
    · by_cases hb : b = Memory.unlisted
      · rw [writeCell, if_pos h1, if_pos hb]
        split
        · next e => subst e; rw [hb]; exact readCell_below h (by simpa using h1)
        · rfl
      · rw [writeCell, if_pos h1, if_neg hb, readCell]
        by_cases ha : a' = a
        · simp [ha]
        · simp [ha, Ne.symm ha]
    · by_cases h2 : a = c.1
      · by_cases hb : b = Memory.unlisted
        · rw [writeCell, if_neg h1, if_pos h2, if_pos hb]
          by_cases ha : a' = a
          · rw [if_pos ha, hb, ha]
            exact readCell_below h'.2.2 (by simpa [h2] using h'.2.1)
          · rw [if_neg ha, readCell, if_neg (by omega)]
        · rw [writeCell, if_neg h1, if_pos h2, if_neg hb, readCell, readCell]
          by_cases ha : a' = a
          · simp [ha]
          · simp [ha, Ne.symm ha, ← h2]
      · rw [writeCell, if_neg h1, if_neg h2, readCell, readCell, ih h'.2.2]
        by_cases hc : c.1 = a'
        · simp [hc]; intro e; omega
        · simp [hc]

/-- A write of one byte keeps the canonical form. -/
theorem Memory.write_wf {m : Memory} (h : m.wf = true) (a : Nat) (b : Byte) : (m.write a b).wf = true :=
  writeCell_wf h a b

/-- Read after write of one byte. -/
theorem Memory.read_write {m : Memory} (h : m.wf = true) (a a' : Nat) (b : Byte) :
    (m.write a b).read a' = if a' = a then b else m.read a' := readCell_writeCell h a a' b

/-- A write of several bytes keeps the canonical form. -/
theorem Memory.writeBytes_wf {m : Memory} (h : m.wf = true) (a : Nat) (bs : List Byte) :
    (m.writeBytes a bs).wf = true := by
  induction bs generalizing m a with
  | nil => exact h
  | cons b bs ih => exact ih (Memory.write_wf h a b) (a + 1)

/-- What a byte reads after a write of several bytes: the byte written there, or what it read before. -/
theorem Memory.read_writeBytes {m : Memory} (h : m.wf = true) (a a' : Nat) (bs : List Byte) :
    (m.writeBytes a bs).read a' = if a ≤ a' then (bs[a' - a]?).getD (m.read a') else m.read a' := by
  induction bs generalizing m a with
  | nil => simp [Memory.writeBytes]
  | cons b bs ih =>
    rw [Memory.writeBytes, ih (Memory.write_wf h a b), Memory.read_write h]
    rcases lt_trichotomy a' a with hlt | heq | hgt
    · rw [if_neg (by omega), if_neg (by omega), if_neg (by omega)]
    · subst heq; simp
    · rw [if_pos (by omega), if_neg (by omega), if_pos (by omega)]
      obtain ⟨k, rfl⟩ : ∃ k, a' = a + 1 + k := ⟨a' - (a + 1), by omega⟩
      rw [show a + 1 + k - a = k + 1 by omega, show a + 1 + k - (a + 1) = k by omega]
      rfl

/-- Outside the bytes written every byte reads as before. -/
theorem Memory.read_writeBytes_outside {m : Memory} (h : m.wf = true) {a a' : Nat} {bs : List Byte}
    (ha : a' < a ∨ a + bs.length ≤ a') : (m.writeBytes a bs).read a' = m.read a' := by
  rw [Memory.read_writeBytes h]
  split
  · rw [List.getElem?_eq_none (by omega)]; rfl
  · rfl

/-- Each byte written reads back. -/
theorem Memory.read_writeBytes_inside {m : Memory} (h : m.wf = true) {a k : Nat} {bs : List Byte}
    (hk : k < bs.length) : (m.writeBytes a bs).read (a + k) = bs[k] := by
  rw [Memory.read_writeBytes h, if_pos (by omega), show a + k - a = k by omega, List.getElem?_eq_getElem hk]; rfl

/-- The memory right after construction is canonical. -/
theorem powerOn_mem_wf (p : Params) : (State.powerOn p).mem.wf = true := rfl

/-- The memory at reset is canonical. -/
theorem reset_mem_wf : State.reset.mem.wf = true := rfl

end Sys2Proof.Machine
end

