-- ==== Sys2Proof/Laws/State.lean ====
section
/-! SUPPORT. What each named update of State does to each field it does not write: true by rfl, one lemma per field
per update, so that no later proof unfolds a record update. The fields an update writes have their lemmas in
Laws/Ops.lean. -/

namespace Sys2Proof.Machine

variable (s : State)

@[simp] theorem State.stop_par (y : Stop) (t : Thread) (c : Component) : (s.stop y t c).par = s.par := rfl
@[simp] theorem State.stop_cur (y : Stop) (t : Thread) (c : Component) : (s.stop y t c).cur = s.cur := rfl
@[simp] theorem State.stop_instr (y : Stop) (t : Thread) (c : Component) : (s.stop y t c).instr = s.instr := rfl
@[simp] theorem State.stop_inputs (y : Stop) (t : Thread) (c : Component) : (s.stop y t c).inputs = s.inputs := rfl
@[simp] theorem State.stop_replies (y : Stop) (t : Thread) (c : Component) : (s.stop y t c).replies = s.replies := rfl
@[simp] theorem State.stop_gpr (y : Stop) (t : Thread) (c : Component) : (s.stop y t c).gpr = s.gpr := rfl
@[simp] theorem State.stop_cfg (y : Stop) (t : Thread) (c : Component) : (s.stop y t c).cfg = s.cfg := rfl
@[simp] theorem State.stop_tcfg (y : Stop) (t : Thread) (c : Component) : (s.stop y t c).tcfg = s.tcfg := rfl
@[simp] theorem State.stop_mopQ (y : Stop) (t : Thread) (c : Component) : (s.stop y t c).mopQ = s.mopQ := rfl
@[simp] theorem State.stop_replayQ (y : Stop) (t : Thread) (c : Component) : (s.stop y t c).replayQ = s.replayQ := rfl
@[simp] theorem State.stop_mopCfg (y : Stop) (t : Thread) (c : Component) : (s.stop y t c).mopCfg = s.mopCfg := rfl
@[simp] theorem State.stop_zmaskHi (y : Stop) (t : Thread) (c : Component) : (s.stop y t c).zmaskHi = s.zmaskHi := rfl
@[simp] theorem State.stop_expanding (y : Stop) (t : Thread) (c : Component) : (s.stop y t c).expanding = s.expanding := rfl
@[simp] theorem State.stop_mopOut (y : Stop) (t : Thread) (c : Component) : (s.stop y t c).mopOut = s.mopOut := rfl
@[simp] theorem State.stop_rbuf (y : Stop) (t : Thread) (c : Component) : (s.stop y t c).rbuf = s.rbuf := rfl
@[simp] theorem State.stop_recCursor (y : Stop) (t : Thread) (c : Component) : (s.stop y t c).recCursor = s.recCursor := rfl
@[simp] theorem State.stop_recLeft (y : Stop) (t : Thread) (c : Component) : (s.stop y t c).recLeft = s.recLeft := rfl
@[simp] theorem State.stop_startIdx (y : Stop) (t : Thread) (c : Component) : (s.stop y t c).startIdx = s.startIdx := rfl
@[simp] theorem State.stop_playCursor (y : Stop) (t : Thread) (c : Component) : (s.stop y t c).playCursor = s.playCursor := rfl
@[simp] theorem State.stop_playLeft (y : Stop) (t : Thread) (c : Component) : (s.stop y t c).playLeft = s.playLeft := rfl
@[simp] theorem State.stop_ewl (y : Stop) (t : Thread) (c : Component) : (s.stop y t c).ewl = s.ewl := rfl
@[simp] theorem State.stop_gateSlot (y : Stop) (t : Thread) (c : Component) : (s.stop y t c).gateSlot = s.gateSlot := rfl
@[simp] theorem State.stop_latch (y : Stop) (t : Thread) (c : Component) : (s.stop y t c).latch = s.latch := rfl
@[simp] theorem State.stop_mutexWait (y : Stop) (t : Thread) (c : Component) : (s.stop y t c).mutexWait = s.mutexWait := rfl
@[simp] theorem State.stop_backendStall (y : Stop) (t : Thread) (c : Component) : (s.stop y t c).backendStall = s.backendStall := rfl
@[simp] theorem State.stop_queue (y : Stop) (t : Thread) (c : Component) : (s.stop y t c).queue = s.queue := rfl
@[simp] theorem State.stop_cfgWritePrev (y : Stop) (t : Thread) (c : Component) : (s.stop y t c).cfgWritePrev = s.cfgWritePrev := rfl
@[simp] theorem State.stop_sem (y : Stop) (t : Thread) (c : Component) : (s.stop y t c).sem = s.sem := rfl
@[simp] theorem State.stop_mutex (y : Stop) (t : Thread) (c : Component) : (s.stop y t c).mutex = s.mutex := rfl
@[simp] theorem State.stop_waiters (y : Stop) (t : Thread) (c : Component) : (s.stop y t c).waiters = s.waiters := rfl
@[simp] theorem State.stop_flush (y : Stop) (t : Thread) (c : Component) : (s.stop y t c).flush = s.flush := rfl
@[simp] theorem State.stop_rwc (y : Stop) (t : Thread) (c : Component) : (s.stop y t c).rwc = s.rwc := rfl
@[simp] theorem State.stop_adc (y : Stop) (t : Thread) (c : Component) : (s.stop y t c).adc = s.adc := rfl
@[simp] theorem State.stop_dstUndefined (y : Stop) (t : Thread) (c : Component) : (s.stop y t c).dstUndefined = s.dstUndefined := rfl
@[simp] theorem State.stop_inflight (y : Stop) (t : Thread) (c : Component) : (s.stop y t c).inflight = s.inflight := rfl
@[simp] theorem State.stop_mem (y : Stop) (t : Thread) (c : Component) : (s.stop y t c).mem = s.mem := rfl

@[simp] theorem State.stopMove_par (y : Stop) : (s.stopMove y).par = s.par := rfl
@[simp] theorem State.stopMove_cur (y : Stop) : (s.stopMove y).cur = s.cur := rfl
@[simp] theorem State.stopMove_instr (y : Stop) : (s.stopMove y).instr = s.instr := rfl
@[simp] theorem State.stopMove_inputs (y : Stop) : (s.stopMove y).inputs = s.inputs := rfl
@[simp] theorem State.stopMove_replies (y : Stop) : (s.stopMove y).replies = s.replies := rfl
@[simp] theorem State.stopMove_gpr (y : Stop) : (s.stopMove y).gpr = s.gpr := rfl
@[simp] theorem State.stopMove_cfg (y : Stop) : (s.stopMove y).cfg = s.cfg := rfl
@[simp] theorem State.stopMove_tcfg (y : Stop) : (s.stopMove y).tcfg = s.tcfg := rfl
@[simp] theorem State.stopMove_mopQ (y : Stop) : (s.stopMove y).mopQ = s.mopQ := rfl
@[simp] theorem State.stopMove_replayQ (y : Stop) : (s.stopMove y).replayQ = s.replayQ := rfl
@[simp] theorem State.stopMove_mopCfg (y : Stop) : (s.stopMove y).mopCfg = s.mopCfg := rfl
@[simp] theorem State.stopMove_zmaskHi (y : Stop) : (s.stopMove y).zmaskHi = s.zmaskHi := rfl
@[simp] theorem State.stopMove_expanding (y : Stop) : (s.stopMove y).expanding = s.expanding := rfl
@[simp] theorem State.stopMove_mopOut (y : Stop) : (s.stopMove y).mopOut = s.mopOut := rfl
@[simp] theorem State.stopMove_rbuf (y : Stop) : (s.stopMove y).rbuf = s.rbuf := rfl
@[simp] theorem State.stopMove_recCursor (y : Stop) : (s.stopMove y).recCursor = s.recCursor := rfl
@[simp] theorem State.stopMove_recLeft (y : Stop) : (s.stopMove y).recLeft = s.recLeft := rfl
@[simp] theorem State.stopMove_startIdx (y : Stop) : (s.stopMove y).startIdx = s.startIdx := rfl
@[simp] theorem State.stopMove_playCursor (y : Stop) : (s.stopMove y).playCursor = s.playCursor := rfl
@[simp] theorem State.stopMove_playLeft (y : Stop) : (s.stopMove y).playLeft = s.playLeft := rfl
@[simp] theorem State.stopMove_ewl (y : Stop) : (s.stopMove y).ewl = s.ewl := rfl
@[simp] theorem State.stopMove_gateSlot (y : Stop) : (s.stopMove y).gateSlot = s.gateSlot := rfl
@[simp] theorem State.stopMove_latch (y : Stop) : (s.stopMove y).latch = s.latch := rfl
@[simp] theorem State.stopMove_mutexWait (y : Stop) : (s.stopMove y).mutexWait = s.mutexWait := rfl
@[simp] theorem State.stopMove_backendStall (y : Stop) : (s.stopMove y).backendStall = s.backendStall := rfl
@[simp] theorem State.stopMove_queue (y : Stop) : (s.stopMove y).queue = s.queue := rfl
@[simp] theorem State.stopMove_cfgWritePrev (y : Stop) : (s.stopMove y).cfgWritePrev = s.cfgWritePrev := rfl
@[simp] theorem State.stopMove_sem (y : Stop) : (s.stopMove y).sem = s.sem := rfl
@[simp] theorem State.stopMove_mutex (y : Stop) : (s.stopMove y).mutex = s.mutex := rfl
@[simp] theorem State.stopMove_waiters (y : Stop) : (s.stopMove y).waiters = s.waiters := rfl
@[simp] theorem State.stopMove_flush (y : Stop) : (s.stopMove y).flush = s.flush := rfl
@[simp] theorem State.stopMove_rwc (y : Stop) : (s.stopMove y).rwc = s.rwc := rfl
@[simp] theorem State.stopMove_adc (y : Stop) : (s.stopMove y).adc = s.adc := rfl
@[simp] theorem State.stopMove_dstUndefined (y : Stop) : (s.stopMove y).dstUndefined = s.dstUndefined := rfl
@[simp] theorem State.stopMove_inflight (y : Stop) : (s.stopMove y).inflight = s.inflight := rfl
@[simp] theorem State.stopMove_mem (y : Stop) : (s.stopMove y).mem = s.mem := rfl

@[simp] theorem State.reply_par (r : Reply) : (s.reply r).par = s.par := rfl
@[simp] theorem State.reply_cur (r : Reply) : (s.reply r).cur = s.cur := rfl
@[simp] theorem State.reply_instr (r : Reply) : (s.reply r).instr = s.instr := rfl
@[simp] theorem State.reply_inputs (r : Reply) : (s.reply r).inputs = s.inputs := rfl
@[simp] theorem State.reply_halt (r : Reply) : (s.reply r).halt = s.halt := rfl
@[simp] theorem State.reply_gpr (r : Reply) : (s.reply r).gpr = s.gpr := rfl
@[simp] theorem State.reply_cfg (r : Reply) : (s.reply r).cfg = s.cfg := rfl
@[simp] theorem State.reply_tcfg (r : Reply) : (s.reply r).tcfg = s.tcfg := rfl
@[simp] theorem State.reply_mopQ (r : Reply) : (s.reply r).mopQ = s.mopQ := rfl
@[simp] theorem State.reply_replayQ (r : Reply) : (s.reply r).replayQ = s.replayQ := rfl
@[simp] theorem State.reply_mopCfg (r : Reply) : (s.reply r).mopCfg = s.mopCfg := rfl
@[simp] theorem State.reply_zmaskHi (r : Reply) : (s.reply r).zmaskHi = s.zmaskHi := rfl
@[simp] theorem State.reply_expanding (r : Reply) : (s.reply r).expanding = s.expanding := rfl
@[simp] theorem State.reply_mopOut (r : Reply) : (s.reply r).mopOut = s.mopOut := rfl
@[simp] theorem State.reply_rbuf (r : Reply) : (s.reply r).rbuf = s.rbuf := rfl
@[simp] theorem State.reply_recCursor (r : Reply) : (s.reply r).recCursor = s.recCursor := rfl
@[simp] theorem State.reply_recLeft (r : Reply) : (s.reply r).recLeft = s.recLeft := rfl
@[simp] theorem State.reply_startIdx (r : Reply) : (s.reply r).startIdx = s.startIdx := rfl
@[simp] theorem State.reply_playCursor (r : Reply) : (s.reply r).playCursor = s.playCursor := rfl
@[simp] theorem State.reply_playLeft (r : Reply) : (s.reply r).playLeft = s.playLeft := rfl
@[simp] theorem State.reply_ewl (r : Reply) : (s.reply r).ewl = s.ewl := rfl
@[simp] theorem State.reply_gateSlot (r : Reply) : (s.reply r).gateSlot = s.gateSlot := rfl
@[simp] theorem State.reply_latch (r : Reply) : (s.reply r).latch = s.latch := rfl
@[simp] theorem State.reply_mutexWait (r : Reply) : (s.reply r).mutexWait = s.mutexWait := rfl
@[simp] theorem State.reply_backendStall (r : Reply) : (s.reply r).backendStall = s.backendStall := rfl
@[simp] theorem State.reply_queue (r : Reply) : (s.reply r).queue = s.queue := rfl
@[simp] theorem State.reply_cfgWritePrev (r : Reply) : (s.reply r).cfgWritePrev = s.cfgWritePrev := rfl
@[simp] theorem State.reply_sem (r : Reply) : (s.reply r).sem = s.sem := rfl
@[simp] theorem State.reply_mutex (r : Reply) : (s.reply r).mutex = s.mutex := rfl
@[simp] theorem State.reply_waiters (r : Reply) : (s.reply r).waiters = s.waiters := rfl
@[simp] theorem State.reply_flush (r : Reply) : (s.reply r).flush = s.flush := rfl
@[simp] theorem State.reply_rwc (r : Reply) : (s.reply r).rwc = s.rwc := rfl
@[simp] theorem State.reply_adc (r : Reply) : (s.reply r).adc = s.adc := rfl
@[simp] theorem State.reply_dstUndefined (r : Reply) : (s.reply r).dstUndefined = s.dstUndefined := rfl
@[simp] theorem State.reply_inflight (r : Reply) : (s.reply r).inflight = s.inflight := rfl
@[simp] theorem State.reply_mem (r : Reply) : (s.reply r).mem = s.mem := rfl

@[simp] theorem State.setQueue_par (u : FUnit) (q : List Entry) : (s.setQueue u q).par = s.par := rfl
@[simp] theorem State.setQueue_cur (u : FUnit) (q : List Entry) : (s.setQueue u q).cur = s.cur := rfl
@[simp] theorem State.setQueue_instr (u : FUnit) (q : List Entry) : (s.setQueue u q).instr = s.instr := rfl
@[simp] theorem State.setQueue_inputs (u : FUnit) (q : List Entry) : (s.setQueue u q).inputs = s.inputs := rfl
@[simp] theorem State.setQueue_replies (u : FUnit) (q : List Entry) : (s.setQueue u q).replies = s.replies := rfl
@[simp] theorem State.setQueue_halt (u : FUnit) (q : List Entry) : (s.setQueue u q).halt = s.halt := rfl
@[simp] theorem State.setQueue_gpr (u : FUnit) (q : List Entry) : (s.setQueue u q).gpr = s.gpr := rfl
@[simp] theorem State.setQueue_cfg (u : FUnit) (q : List Entry) : (s.setQueue u q).cfg = s.cfg := rfl
@[simp] theorem State.setQueue_tcfg (u : FUnit) (q : List Entry) : (s.setQueue u q).tcfg = s.tcfg := rfl
@[simp] theorem State.setQueue_mopQ (u : FUnit) (q : List Entry) : (s.setQueue u q).mopQ = s.mopQ := rfl
@[simp] theorem State.setQueue_replayQ (u : FUnit) (q : List Entry) : (s.setQueue u q).replayQ = s.replayQ := rfl
@[simp] theorem State.setQueue_mopCfg (u : FUnit) (q : List Entry) : (s.setQueue u q).mopCfg = s.mopCfg := rfl
@[simp] theorem State.setQueue_zmaskHi (u : FUnit) (q : List Entry) : (s.setQueue u q).zmaskHi = s.zmaskHi := rfl
@[simp] theorem State.setQueue_expanding (u : FUnit) (q : List Entry) : (s.setQueue u q).expanding = s.expanding := rfl
@[simp] theorem State.setQueue_mopOut (u : FUnit) (q : List Entry) : (s.setQueue u q).mopOut = s.mopOut := rfl
@[simp] theorem State.setQueue_rbuf (u : FUnit) (q : List Entry) : (s.setQueue u q).rbuf = s.rbuf := rfl
@[simp] theorem State.setQueue_recCursor (u : FUnit) (q : List Entry) : (s.setQueue u q).recCursor = s.recCursor := rfl
@[simp] theorem State.setQueue_recLeft (u : FUnit) (q : List Entry) : (s.setQueue u q).recLeft = s.recLeft := rfl
@[simp] theorem State.setQueue_startIdx (u : FUnit) (q : List Entry) : (s.setQueue u q).startIdx = s.startIdx := rfl
@[simp] theorem State.setQueue_playCursor (u : FUnit) (q : List Entry) : (s.setQueue u q).playCursor = s.playCursor := rfl
@[simp] theorem State.setQueue_playLeft (u : FUnit) (q : List Entry) : (s.setQueue u q).playLeft = s.playLeft := rfl
@[simp] theorem State.setQueue_ewl (u : FUnit) (q : List Entry) : (s.setQueue u q).ewl = s.ewl := rfl
@[simp] theorem State.setQueue_gateSlot (u : FUnit) (q : List Entry) : (s.setQueue u q).gateSlot = s.gateSlot := rfl
@[simp] theorem State.setQueue_latch (u : FUnit) (q : List Entry) : (s.setQueue u q).latch = s.latch := rfl
@[simp] theorem State.setQueue_mutexWait (u : FUnit) (q : List Entry) : (s.setQueue u q).mutexWait = s.mutexWait := rfl
@[simp] theorem State.setQueue_backendStall (u : FUnit) (q : List Entry) : (s.setQueue u q).backendStall = s.backendStall := rfl
@[simp] theorem State.setQueue_cfgWritePrev (u : FUnit) (q : List Entry) : (s.setQueue u q).cfgWritePrev = s.cfgWritePrev := rfl
@[simp] theorem State.setQueue_sem (u : FUnit) (q : List Entry) : (s.setQueue u q).sem = s.sem := rfl
@[simp] theorem State.setQueue_mutex (u : FUnit) (q : List Entry) : (s.setQueue u q).mutex = s.mutex := rfl
@[simp] theorem State.setQueue_waiters (u : FUnit) (q : List Entry) : (s.setQueue u q).waiters = s.waiters := rfl
@[simp] theorem State.setQueue_flush (u : FUnit) (q : List Entry) : (s.setQueue u q).flush = s.flush := rfl
@[simp] theorem State.setQueue_rwc (u : FUnit) (q : List Entry) : (s.setQueue u q).rwc = s.rwc := rfl
@[simp] theorem State.setQueue_adc (u : FUnit) (q : List Entry) : (s.setQueue u q).adc = s.adc := rfl
@[simp] theorem State.setQueue_dstUndefined (u : FUnit) (q : List Entry) : (s.setQueue u q).dstUndefined = s.dstUndefined := rfl
@[simp] theorem State.setQueue_inflight (u : FUnit) (q : List Entry) : (s.setQueue u q).inflight = s.inflight := rfl
@[simp] theorem State.setQueue_mem (u : FUnit) (q : List Entry) : (s.setQueue u q).mem = s.mem := rfl

@[simp] theorem State.pushEntry_par (u : FUnit) (e : Entry) : (s.pushEntry u e).par = s.par := rfl
@[simp] theorem State.pushEntry_cur (u : FUnit) (e : Entry) : (s.pushEntry u e).cur = s.cur := rfl
@[simp] theorem State.pushEntry_instr (u : FUnit) (e : Entry) : (s.pushEntry u e).instr = s.instr := rfl
@[simp] theorem State.pushEntry_inputs (u : FUnit) (e : Entry) : (s.pushEntry u e).inputs = s.inputs := rfl
@[simp] theorem State.pushEntry_replies (u : FUnit) (e : Entry) : (s.pushEntry u e).replies = s.replies := rfl
@[simp] theorem State.pushEntry_halt (u : FUnit) (e : Entry) : (s.pushEntry u e).halt = s.halt := rfl
@[simp] theorem State.pushEntry_gpr (u : FUnit) (e : Entry) : (s.pushEntry u e).gpr = s.gpr := rfl
@[simp] theorem State.pushEntry_cfg (u : FUnit) (e : Entry) : (s.pushEntry u e).cfg = s.cfg := rfl
@[simp] theorem State.pushEntry_tcfg (u : FUnit) (e : Entry) : (s.pushEntry u e).tcfg = s.tcfg := rfl
@[simp] theorem State.pushEntry_mopQ (u : FUnit) (e : Entry) : (s.pushEntry u e).mopQ = s.mopQ := rfl
@[simp] theorem State.pushEntry_replayQ (u : FUnit) (e : Entry) : (s.pushEntry u e).replayQ = s.replayQ := rfl
@[simp] theorem State.pushEntry_mopCfg (u : FUnit) (e : Entry) : (s.pushEntry u e).mopCfg = s.mopCfg := rfl
@[simp] theorem State.pushEntry_zmaskHi (u : FUnit) (e : Entry) : (s.pushEntry u e).zmaskHi = s.zmaskHi := rfl
@[simp] theorem State.pushEntry_expanding (u : FUnit) (e : Entry) : (s.pushEntry u e).expanding = s.expanding := rfl
@[simp] theorem State.pushEntry_mopOut (u : FUnit) (e : Entry) : (s.pushEntry u e).mopOut = s.mopOut := rfl
@[simp] theorem State.pushEntry_rbuf (u : FUnit) (e : Entry) : (s.pushEntry u e).rbuf = s.rbuf := rfl
@[simp] theorem State.pushEntry_recCursor (u : FUnit) (e : Entry) : (s.pushEntry u e).recCursor = s.recCursor := rfl
@[simp] theorem State.pushEntry_recLeft (u : FUnit) (e : Entry) : (s.pushEntry u e).recLeft = s.recLeft := rfl
@[simp] theorem State.pushEntry_startIdx (u : FUnit) (e : Entry) : (s.pushEntry u e).startIdx = s.startIdx := rfl
@[simp] theorem State.pushEntry_playCursor (u : FUnit) (e : Entry) : (s.pushEntry u e).playCursor = s.playCursor := rfl
@[simp] theorem State.pushEntry_playLeft (u : FUnit) (e : Entry) : (s.pushEntry u e).playLeft = s.playLeft := rfl
@[simp] theorem State.pushEntry_ewl (u : FUnit) (e : Entry) : (s.pushEntry u e).ewl = s.ewl := rfl
@[simp] theorem State.pushEntry_gateSlot (u : FUnit) (e : Entry) : (s.pushEntry u e).gateSlot = s.gateSlot := rfl
@[simp] theorem State.pushEntry_latch (u : FUnit) (e : Entry) : (s.pushEntry u e).latch = s.latch := rfl
@[simp] theorem State.pushEntry_mutexWait (u : FUnit) (e : Entry) : (s.pushEntry u e).mutexWait = s.mutexWait := rfl
@[simp] theorem State.pushEntry_backendStall (u : FUnit) (e : Entry) : (s.pushEntry u e).backendStall = s.backendStall := rfl
@[simp] theorem State.pushEntry_cfgWritePrev (u : FUnit) (e : Entry) : (s.pushEntry u e).cfgWritePrev = s.cfgWritePrev := rfl
@[simp] theorem State.pushEntry_sem (u : FUnit) (e : Entry) : (s.pushEntry u e).sem = s.sem := rfl
@[simp] theorem State.pushEntry_mutex (u : FUnit) (e : Entry) : (s.pushEntry u e).mutex = s.mutex := rfl
@[simp] theorem State.pushEntry_waiters (u : FUnit) (e : Entry) : (s.pushEntry u e).waiters = s.waiters := rfl
@[simp] theorem State.pushEntry_flush (u : FUnit) (e : Entry) : (s.pushEntry u e).flush = s.flush := rfl
@[simp] theorem State.pushEntry_rwc (u : FUnit) (e : Entry) : (s.pushEntry u e).rwc = s.rwc := rfl
@[simp] theorem State.pushEntry_adc (u : FUnit) (e : Entry) : (s.pushEntry u e).adc = s.adc := rfl
@[simp] theorem State.pushEntry_dstUndefined (u : FUnit) (e : Entry) : (s.pushEntry u e).dstUndefined = s.dstUndefined := rfl
@[simp] theorem State.pushEntry_inflight (u : FUnit) (e : Entry) : (s.pushEntry u e).inflight = s.inflight := rfl
@[simp] theorem State.pushEntry_mem (u : FUnit) (e : Entry) : (s.pushEntry u e).mem = s.mem := rfl

@[simp] theorem State.informMutexAcquired_par (t : Thread) : (s.informMutexAcquired t).par = s.par := rfl
@[simp] theorem State.informMutexAcquired_cur (t : Thread) : (s.informMutexAcquired t).cur = s.cur := rfl
@[simp] theorem State.informMutexAcquired_instr (t : Thread) : (s.informMutexAcquired t).instr = s.instr := rfl
@[simp] theorem State.informMutexAcquired_inputs (t : Thread) : (s.informMutexAcquired t).inputs = s.inputs := rfl
@[simp] theorem State.informMutexAcquired_replies (t : Thread) : (s.informMutexAcquired t).replies = s.replies := rfl
@[simp] theorem State.informMutexAcquired_halt (t : Thread) : (s.informMutexAcquired t).halt = s.halt := rfl
@[simp] theorem State.informMutexAcquired_gpr (t : Thread) : (s.informMutexAcquired t).gpr = s.gpr := rfl
@[simp] theorem State.informMutexAcquired_cfg (t : Thread) : (s.informMutexAcquired t).cfg = s.cfg := rfl
@[simp] theorem State.informMutexAcquired_tcfg (t : Thread) : (s.informMutexAcquired t).tcfg = s.tcfg := rfl
@[simp] theorem State.informMutexAcquired_mopQ (t : Thread) : (s.informMutexAcquired t).mopQ = s.mopQ := rfl
@[simp] theorem State.informMutexAcquired_replayQ (t : Thread) : (s.informMutexAcquired t).replayQ = s.replayQ := rfl
@[simp] theorem State.informMutexAcquired_mopCfg (t : Thread) : (s.informMutexAcquired t).mopCfg = s.mopCfg := rfl
@[simp] theorem State.informMutexAcquired_zmaskHi (t : Thread) : (s.informMutexAcquired t).zmaskHi = s.zmaskHi := rfl
@[simp] theorem State.informMutexAcquired_expanding (t : Thread) : (s.informMutexAcquired t).expanding = s.expanding := rfl
@[simp] theorem State.informMutexAcquired_mopOut (t : Thread) : (s.informMutexAcquired t).mopOut = s.mopOut := rfl
@[simp] theorem State.informMutexAcquired_rbuf (t : Thread) : (s.informMutexAcquired t).rbuf = s.rbuf := rfl
@[simp] theorem State.informMutexAcquired_recCursor (t : Thread) : (s.informMutexAcquired t).recCursor = s.recCursor := rfl
@[simp] theorem State.informMutexAcquired_recLeft (t : Thread) : (s.informMutexAcquired t).recLeft = s.recLeft := rfl
@[simp] theorem State.informMutexAcquired_startIdx (t : Thread) : (s.informMutexAcquired t).startIdx = s.startIdx := rfl
@[simp] theorem State.informMutexAcquired_playCursor (t : Thread) : (s.informMutexAcquired t).playCursor = s.playCursor := rfl
@[simp] theorem State.informMutexAcquired_playLeft (t : Thread) : (s.informMutexAcquired t).playLeft = s.playLeft := rfl
@[simp] theorem State.informMutexAcquired_ewl (t : Thread) : (s.informMutexAcquired t).ewl = s.ewl := rfl
@[simp] theorem State.informMutexAcquired_gateSlot (t : Thread) : (s.informMutexAcquired t).gateSlot = s.gateSlot := rfl
@[simp] theorem State.informMutexAcquired_latch (t : Thread) : (s.informMutexAcquired t).latch = s.latch := rfl
@[simp] theorem State.informMutexAcquired_backendStall (t : Thread) : (s.informMutexAcquired t).backendStall = s.backendStall := rfl
@[simp] theorem State.informMutexAcquired_queue (t : Thread) : (s.informMutexAcquired t).queue = s.queue := rfl
@[simp] theorem State.informMutexAcquired_cfgWritePrev (t : Thread) : (s.informMutexAcquired t).cfgWritePrev = s.cfgWritePrev := rfl
@[simp] theorem State.informMutexAcquired_sem (t : Thread) : (s.informMutexAcquired t).sem = s.sem := rfl
@[simp] theorem State.informMutexAcquired_mutex (t : Thread) : (s.informMutexAcquired t).mutex = s.mutex := rfl
@[simp] theorem State.informMutexAcquired_waiters (t : Thread) : (s.informMutexAcquired t).waiters = s.waiters := rfl
@[simp] theorem State.informMutexAcquired_flush (t : Thread) : (s.informMutexAcquired t).flush = s.flush := rfl
@[simp] theorem State.informMutexAcquired_rwc (t : Thread) : (s.informMutexAcquired t).rwc = s.rwc := rfl
@[simp] theorem State.informMutexAcquired_adc (t : Thread) : (s.informMutexAcquired t).adc = s.adc := rfl
@[simp] theorem State.informMutexAcquired_dstUndefined (t : Thread) : (s.informMutexAcquired t).dstUndefined = s.dstUndefined := rfl
@[simp] theorem State.informMutexAcquired_inflight (t : Thread) : (s.informMutexAcquired t).inflight = s.inflight := rfl
@[simp] theorem State.informMutexAcquired_mem (t : Thread) : (s.informMutexAcquired t).mem = s.mem := rfl

@[simp] theorem State.grantMutex_par (t : Thread) (i : Fin 8) : (s.grantMutex t i).par = s.par := rfl
@[simp] theorem State.grantMutex_cur (t : Thread) (i : Fin 8) : (s.grantMutex t i).cur = s.cur := rfl
@[simp] theorem State.grantMutex_instr (t : Thread) (i : Fin 8) : (s.grantMutex t i).instr = s.instr := rfl
@[simp] theorem State.grantMutex_inputs (t : Thread) (i : Fin 8) : (s.grantMutex t i).inputs = s.inputs := rfl
@[simp] theorem State.grantMutex_replies (t : Thread) (i : Fin 8) : (s.grantMutex t i).replies = s.replies := rfl
@[simp] theorem State.grantMutex_halt (t : Thread) (i : Fin 8) : (s.grantMutex t i).halt = s.halt := rfl
@[simp] theorem State.grantMutex_gpr (t : Thread) (i : Fin 8) : (s.grantMutex t i).gpr = s.gpr := rfl
@[simp] theorem State.grantMutex_cfg (t : Thread) (i : Fin 8) : (s.grantMutex t i).cfg = s.cfg := rfl
@[simp] theorem State.grantMutex_tcfg (t : Thread) (i : Fin 8) : (s.grantMutex t i).tcfg = s.tcfg := rfl
@[simp] theorem State.grantMutex_mopQ (t : Thread) (i : Fin 8) : (s.grantMutex t i).mopQ = s.mopQ := rfl
@[simp] theorem State.grantMutex_replayQ (t : Thread) (i : Fin 8) : (s.grantMutex t i).replayQ = s.replayQ := rfl
@[simp] theorem State.grantMutex_mopCfg (t : Thread) (i : Fin 8) : (s.grantMutex t i).mopCfg = s.mopCfg := rfl
@[simp] theorem State.grantMutex_zmaskHi (t : Thread) (i : Fin 8) : (s.grantMutex t i).zmaskHi = s.zmaskHi := rfl
@[simp] theorem State.grantMutex_expanding (t : Thread) (i : Fin 8) : (s.grantMutex t i).expanding = s.expanding := rfl
@[simp] theorem State.grantMutex_mopOut (t : Thread) (i : Fin 8) : (s.grantMutex t i).mopOut = s.mopOut := rfl
@[simp] theorem State.grantMutex_rbuf (t : Thread) (i : Fin 8) : (s.grantMutex t i).rbuf = s.rbuf := rfl
@[simp] theorem State.grantMutex_recCursor (t : Thread) (i : Fin 8) : (s.grantMutex t i).recCursor = s.recCursor := rfl
@[simp] theorem State.grantMutex_recLeft (t : Thread) (i : Fin 8) : (s.grantMutex t i).recLeft = s.recLeft := rfl
@[simp] theorem State.grantMutex_startIdx (t : Thread) (i : Fin 8) : (s.grantMutex t i).startIdx = s.startIdx := rfl
@[simp] theorem State.grantMutex_playCursor (t : Thread) (i : Fin 8) : (s.grantMutex t i).playCursor = s.playCursor := rfl
@[simp] theorem State.grantMutex_playLeft (t : Thread) (i : Fin 8) : (s.grantMutex t i).playLeft = s.playLeft := rfl
@[simp] theorem State.grantMutex_ewl (t : Thread) (i : Fin 8) : (s.grantMutex t i).ewl = s.ewl := rfl
@[simp] theorem State.grantMutex_gateSlot (t : Thread) (i : Fin 8) : (s.grantMutex t i).gateSlot = s.gateSlot := rfl
@[simp] theorem State.grantMutex_latch (t : Thread) (i : Fin 8) : (s.grantMutex t i).latch = s.latch := rfl
@[simp] theorem State.grantMutex_backendStall (t : Thread) (i : Fin 8) : (s.grantMutex t i).backendStall = s.backendStall := rfl
@[simp] theorem State.grantMutex_queue (t : Thread) (i : Fin 8) : (s.grantMutex t i).queue = s.queue := rfl
@[simp] theorem State.grantMutex_cfgWritePrev (t : Thread) (i : Fin 8) : (s.grantMutex t i).cfgWritePrev = s.cfgWritePrev := rfl
@[simp] theorem State.grantMutex_sem (t : Thread) (i : Fin 8) : (s.grantMutex t i).sem = s.sem := rfl
@[simp] theorem State.grantMutex_waiters (t : Thread) (i : Fin 8) : (s.grantMutex t i).waiters = s.waiters := rfl
@[simp] theorem State.grantMutex_flush (t : Thread) (i : Fin 8) : (s.grantMutex t i).flush = s.flush := rfl
@[simp] theorem State.grantMutex_rwc (t : Thread) (i : Fin 8) : (s.grantMutex t i).rwc = s.rwc := rfl
@[simp] theorem State.grantMutex_adc (t : Thread) (i : Fin 8) : (s.grantMutex t i).adc = s.adc := rfl
@[simp] theorem State.grantMutex_dstUndefined (t : Thread) (i : Fin 8) : (s.grantMutex t i).dstUndefined = s.dstUndefined := rfl
@[simp] theorem State.grantMutex_inflight (t : Thread) (i : Fin 8) : (s.grantMutex t i).inflight = s.inflight := rfl
@[simp] theorem State.grantMutex_mem (t : Thread) (i : Fin 8) : (s.grantMutex t i).mem = s.mem := rfl

@[simp] theorem State.setBackendEnforcedStall_par (t : Thread) : (s.setBackendEnforcedStall t).par = s.par := rfl
@[simp] theorem State.setBackendEnforcedStall_cur (t : Thread) : (s.setBackendEnforcedStall t).cur = s.cur := rfl
@[simp] theorem State.setBackendEnforcedStall_instr (t : Thread) : (s.setBackendEnforcedStall t).instr = s.instr := rfl
@[simp] theorem State.setBackendEnforcedStall_inputs (t : Thread) : (s.setBackendEnforcedStall t).inputs = s.inputs := rfl
@[simp] theorem State.setBackendEnforcedStall_replies (t : Thread) : (s.setBackendEnforcedStall t).replies = s.replies := rfl
@[simp] theorem State.setBackendEnforcedStall_halt (t : Thread) : (s.setBackendEnforcedStall t).halt = s.halt := rfl
@[simp] theorem State.setBackendEnforcedStall_gpr (t : Thread) : (s.setBackendEnforcedStall t).gpr = s.gpr := rfl
@[simp] theorem State.setBackendEnforcedStall_cfg (t : Thread) : (s.setBackendEnforcedStall t).cfg = s.cfg := rfl
@[simp] theorem State.setBackendEnforcedStall_tcfg (t : Thread) : (s.setBackendEnforcedStall t).tcfg = s.tcfg := rfl
@[simp] theorem State.setBackendEnforcedStall_mopQ (t : Thread) : (s.setBackendEnforcedStall t).mopQ = s.mopQ := rfl
@[simp] theorem State.setBackendEnforcedStall_replayQ (t : Thread) : (s.setBackendEnforcedStall t).replayQ = s.replayQ := rfl
@[simp] theorem State.setBackendEnforcedStall_mopCfg (t : Thread) : (s.setBackendEnforcedStall t).mopCfg = s.mopCfg := rfl
@[simp] theorem State.setBackendEnforcedStall_zmaskHi (t : Thread) : (s.setBackendEnforcedStall t).zmaskHi = s.zmaskHi := rfl
@[simp] theorem State.setBackendEnforcedStall_expanding (t : Thread) : (s.setBackendEnforcedStall t).expanding = s.expanding := rfl
@[simp] theorem State.setBackendEnforcedStall_mopOut (t : Thread) : (s.setBackendEnforcedStall t).mopOut = s.mopOut := rfl
@[simp] theorem State.setBackendEnforcedStall_rbuf (t : Thread) : (s.setBackendEnforcedStall t).rbuf = s.rbuf := rfl
@[simp] theorem State.setBackendEnforcedStall_recCursor (t : Thread) : (s.setBackendEnforcedStall t).recCursor = s.recCursor := rfl
@[simp] theorem State.setBackendEnforcedStall_recLeft (t : Thread) : (s.setBackendEnforcedStall t).recLeft = s.recLeft := rfl
@[simp] theorem State.setBackendEnforcedStall_startIdx (t : Thread) : (s.setBackendEnforcedStall t).startIdx = s.startIdx := rfl
@[simp] theorem State.setBackendEnforcedStall_playCursor (t : Thread) : (s.setBackendEnforcedStall t).playCursor = s.playCursor := rfl
@[simp] theorem State.setBackendEnforcedStall_playLeft (t : Thread) : (s.setBackendEnforcedStall t).playLeft = s.playLeft := rfl
@[simp] theorem State.setBackendEnforcedStall_ewl (t : Thread) : (s.setBackendEnforcedStall t).ewl = s.ewl := rfl
@[simp] theorem State.setBackendEnforcedStall_gateSlot (t : Thread) : (s.setBackendEnforcedStall t).gateSlot = s.gateSlot := rfl
@[simp] theorem State.setBackendEnforcedStall_latch (t : Thread) : (s.setBackendEnforcedStall t).latch = s.latch := rfl
@[simp] theorem State.setBackendEnforcedStall_mutexWait (t : Thread) : (s.setBackendEnforcedStall t).mutexWait = s.mutexWait := rfl
@[simp] theorem State.setBackendEnforcedStall_queue (t : Thread) : (s.setBackendEnforcedStall t).queue = s.queue := rfl
@[simp] theorem State.setBackendEnforcedStall_cfgWritePrev (t : Thread) : (s.setBackendEnforcedStall t).cfgWritePrev = s.cfgWritePrev := rfl
@[simp] theorem State.setBackendEnforcedStall_sem (t : Thread) : (s.setBackendEnforcedStall t).sem = s.sem := rfl
@[simp] theorem State.setBackendEnforcedStall_mutex (t : Thread) : (s.setBackendEnforcedStall t).mutex = s.mutex := rfl
@[simp] theorem State.setBackendEnforcedStall_waiters (t : Thread) : (s.setBackendEnforcedStall t).waiters = s.waiters := rfl
@[simp] theorem State.setBackendEnforcedStall_flush (t : Thread) : (s.setBackendEnforcedStall t).flush = s.flush := rfl
@[simp] theorem State.setBackendEnforcedStall_rwc (t : Thread) : (s.setBackendEnforcedStall t).rwc = s.rwc := rfl
@[simp] theorem State.setBackendEnforcedStall_adc (t : Thread) : (s.setBackendEnforcedStall t).adc = s.adc := rfl
@[simp] theorem State.setBackendEnforcedStall_dstUndefined (t : Thread) : (s.setBackendEnforcedStall t).dstUndefined = s.dstUndefined := rfl
@[simp] theorem State.setBackendEnforcedStall_inflight (t : Thread) : (s.setBackendEnforcedStall t).inflight = s.inflight := rfl
@[simp] theorem State.setBackendEnforcedStall_mem (t : Thread) : (s.setBackendEnforcedStall t).mem = s.mem := rfl

@[simp] theorem State.clearBackendEnforcedStall_par (t : Thread) : (s.clearBackendEnforcedStall t).par = s.par := rfl
@[simp] theorem State.clearBackendEnforcedStall_cur (t : Thread) : (s.clearBackendEnforcedStall t).cur = s.cur := rfl
@[simp] theorem State.clearBackendEnforcedStall_instr (t : Thread) : (s.clearBackendEnforcedStall t).instr = s.instr := rfl
@[simp] theorem State.clearBackendEnforcedStall_inputs (t : Thread) : (s.clearBackendEnforcedStall t).inputs = s.inputs := rfl
@[simp] theorem State.clearBackendEnforcedStall_replies (t : Thread) : (s.clearBackendEnforcedStall t).replies = s.replies := rfl
@[simp] theorem State.clearBackendEnforcedStall_halt (t : Thread) : (s.clearBackendEnforcedStall t).halt = s.halt := rfl
@[simp] theorem State.clearBackendEnforcedStall_gpr (t : Thread) : (s.clearBackendEnforcedStall t).gpr = s.gpr := rfl
@[simp] theorem State.clearBackendEnforcedStall_cfg (t : Thread) : (s.clearBackendEnforcedStall t).cfg = s.cfg := rfl
@[simp] theorem State.clearBackendEnforcedStall_tcfg (t : Thread) : (s.clearBackendEnforcedStall t).tcfg = s.tcfg := rfl
@[simp] theorem State.clearBackendEnforcedStall_mopQ (t : Thread) : (s.clearBackendEnforcedStall t).mopQ = s.mopQ := rfl
@[simp] theorem State.clearBackendEnforcedStall_replayQ (t : Thread) : (s.clearBackendEnforcedStall t).replayQ = s.replayQ := rfl
@[simp] theorem State.clearBackendEnforcedStall_mopCfg (t : Thread) : (s.clearBackendEnforcedStall t).mopCfg = s.mopCfg := rfl
@[simp] theorem State.clearBackendEnforcedStall_zmaskHi (t : Thread) : (s.clearBackendEnforcedStall t).zmaskHi = s.zmaskHi := rfl
@[simp] theorem State.clearBackendEnforcedStall_expanding (t : Thread) : (s.clearBackendEnforcedStall t).expanding = s.expanding := rfl
@[simp] theorem State.clearBackendEnforcedStall_mopOut (t : Thread) : (s.clearBackendEnforcedStall t).mopOut = s.mopOut := rfl
@[simp] theorem State.clearBackendEnforcedStall_rbuf (t : Thread) : (s.clearBackendEnforcedStall t).rbuf = s.rbuf := rfl
@[simp] theorem State.clearBackendEnforcedStall_recCursor (t : Thread) : (s.clearBackendEnforcedStall t).recCursor = s.recCursor := rfl
@[simp] theorem State.clearBackendEnforcedStall_recLeft (t : Thread) : (s.clearBackendEnforcedStall t).recLeft = s.recLeft := rfl
@[simp] theorem State.clearBackendEnforcedStall_startIdx (t : Thread) : (s.clearBackendEnforcedStall t).startIdx = s.startIdx := rfl
@[simp] theorem State.clearBackendEnforcedStall_playCursor (t : Thread) : (s.clearBackendEnforcedStall t).playCursor = s.playCursor := rfl
@[simp] theorem State.clearBackendEnforcedStall_playLeft (t : Thread) : (s.clearBackendEnforcedStall t).playLeft = s.playLeft := rfl
@[simp] theorem State.clearBackendEnforcedStall_ewl (t : Thread) : (s.clearBackendEnforcedStall t).ewl = s.ewl := rfl
@[simp] theorem State.clearBackendEnforcedStall_gateSlot (t : Thread) : (s.clearBackendEnforcedStall t).gateSlot = s.gateSlot := rfl
@[simp] theorem State.clearBackendEnforcedStall_latch (t : Thread) : (s.clearBackendEnforcedStall t).latch = s.latch := rfl
@[simp] theorem State.clearBackendEnforcedStall_mutexWait (t : Thread) : (s.clearBackendEnforcedStall t).mutexWait = s.mutexWait := rfl
@[simp] theorem State.clearBackendEnforcedStall_queue (t : Thread) : (s.clearBackendEnforcedStall t).queue = s.queue := rfl
@[simp] theorem State.clearBackendEnforcedStall_cfgWritePrev (t : Thread) : (s.clearBackendEnforcedStall t).cfgWritePrev = s.cfgWritePrev := rfl
@[simp] theorem State.clearBackendEnforcedStall_sem (t : Thread) : (s.clearBackendEnforcedStall t).sem = s.sem := rfl
@[simp] theorem State.clearBackendEnforcedStall_mutex (t : Thread) : (s.clearBackendEnforcedStall t).mutex = s.mutex := rfl
@[simp] theorem State.clearBackendEnforcedStall_waiters (t : Thread) : (s.clearBackendEnforcedStall t).waiters = s.waiters := rfl
@[simp] theorem State.clearBackendEnforcedStall_flush (t : Thread) : (s.clearBackendEnforcedStall t).flush = s.flush := rfl
@[simp] theorem State.clearBackendEnforcedStall_rwc (t : Thread) : (s.clearBackendEnforcedStall t).rwc = s.rwc := rfl
@[simp] theorem State.clearBackendEnforcedStall_adc (t : Thread) : (s.clearBackendEnforcedStall t).adc = s.adc := rfl
@[simp] theorem State.clearBackendEnforcedStall_dstUndefined (t : Thread) : (s.clearBackendEnforcedStall t).dstUndefined = s.dstUndefined := rfl
@[simp] theorem State.clearBackendEnforcedStall_inflight (t : Thread) : (s.clearBackendEnforcedStall t).inflight = s.inflight := rfl
@[simp] theorem State.clearBackendEnforcedStall_mem (t : Thread) : (s.clearBackendEnforcedStall t).mem = s.mem := rfl

@[simp] theorem State.setInflight_par (v : DmaUnit) (t : Thread) (n : Nat) : (s.setInflight v t n).par = s.par := rfl
@[simp] theorem State.setInflight_cur (v : DmaUnit) (t : Thread) (n : Nat) : (s.setInflight v t n).cur = s.cur := rfl
@[simp] theorem State.setInflight_instr (v : DmaUnit) (t : Thread) (n : Nat) : (s.setInflight v t n).instr = s.instr := rfl
@[simp] theorem State.setInflight_inputs (v : DmaUnit) (t : Thread) (n : Nat) : (s.setInflight v t n).inputs = s.inputs := rfl
@[simp] theorem State.setInflight_replies (v : DmaUnit) (t : Thread) (n : Nat) : (s.setInflight v t n).replies = s.replies := rfl
@[simp] theorem State.setInflight_halt (v : DmaUnit) (t : Thread) (n : Nat) : (s.setInflight v t n).halt = s.halt := rfl
@[simp] theorem State.setInflight_gpr (v : DmaUnit) (t : Thread) (n : Nat) : (s.setInflight v t n).gpr = s.gpr := rfl
@[simp] theorem State.setInflight_cfg (v : DmaUnit) (t : Thread) (n : Nat) : (s.setInflight v t n).cfg = s.cfg := rfl
@[simp] theorem State.setInflight_tcfg (v : DmaUnit) (t : Thread) (n : Nat) : (s.setInflight v t n).tcfg = s.tcfg := rfl
@[simp] theorem State.setInflight_mopQ (v : DmaUnit) (t : Thread) (n : Nat) : (s.setInflight v t n).mopQ = s.mopQ := rfl
@[simp] theorem State.setInflight_replayQ (v : DmaUnit) (t : Thread) (n : Nat) : (s.setInflight v t n).replayQ = s.replayQ := rfl
@[simp] theorem State.setInflight_mopCfg (v : DmaUnit) (t : Thread) (n : Nat) : (s.setInflight v t n).mopCfg = s.mopCfg := rfl
@[simp] theorem State.setInflight_zmaskHi (v : DmaUnit) (t : Thread) (n : Nat) : (s.setInflight v t n).zmaskHi = s.zmaskHi := rfl
@[simp] theorem State.setInflight_expanding (v : DmaUnit) (t : Thread) (n : Nat) : (s.setInflight v t n).expanding = s.expanding := rfl
@[simp] theorem State.setInflight_mopOut (v : DmaUnit) (t : Thread) (n : Nat) : (s.setInflight v t n).mopOut = s.mopOut := rfl
@[simp] theorem State.setInflight_rbuf (v : DmaUnit) (t : Thread) (n : Nat) : (s.setInflight v t n).rbuf = s.rbuf := rfl
@[simp] theorem State.setInflight_recCursor (v : DmaUnit) (t : Thread) (n : Nat) : (s.setInflight v t n).recCursor = s.recCursor := rfl
@[simp] theorem State.setInflight_recLeft (v : DmaUnit) (t : Thread) (n : Nat) : (s.setInflight v t n).recLeft = s.recLeft := rfl
@[simp] theorem State.setInflight_startIdx (v : DmaUnit) (t : Thread) (n : Nat) : (s.setInflight v t n).startIdx = s.startIdx := rfl
@[simp] theorem State.setInflight_playCursor (v : DmaUnit) (t : Thread) (n : Nat) : (s.setInflight v t n).playCursor = s.playCursor := rfl
@[simp] theorem State.setInflight_playLeft (v : DmaUnit) (t : Thread) (n : Nat) : (s.setInflight v t n).playLeft = s.playLeft := rfl
@[simp] theorem State.setInflight_ewl (v : DmaUnit) (t : Thread) (n : Nat) : (s.setInflight v t n).ewl = s.ewl := rfl
@[simp] theorem State.setInflight_gateSlot (v : DmaUnit) (t : Thread) (n : Nat) : (s.setInflight v t n).gateSlot = s.gateSlot := rfl
@[simp] theorem State.setInflight_latch (v : DmaUnit) (t : Thread) (n : Nat) : (s.setInflight v t n).latch = s.latch := rfl
@[simp] theorem State.setInflight_mutexWait (v : DmaUnit) (t : Thread) (n : Nat) : (s.setInflight v t n).mutexWait = s.mutexWait := rfl
@[simp] theorem State.setInflight_backendStall (v : DmaUnit) (t : Thread) (n : Nat) : (s.setInflight v t n).backendStall = s.backendStall := rfl
@[simp] theorem State.setInflight_queue (v : DmaUnit) (t : Thread) (n : Nat) : (s.setInflight v t n).queue = s.queue := rfl
@[simp] theorem State.setInflight_cfgWritePrev (v : DmaUnit) (t : Thread) (n : Nat) : (s.setInflight v t n).cfgWritePrev = s.cfgWritePrev := rfl
@[simp] theorem State.setInflight_sem (v : DmaUnit) (t : Thread) (n : Nat) : (s.setInflight v t n).sem = s.sem := rfl
@[simp] theorem State.setInflight_mutex (v : DmaUnit) (t : Thread) (n : Nat) : (s.setInflight v t n).mutex = s.mutex := rfl
@[simp] theorem State.setInflight_waiters (v : DmaUnit) (t : Thread) (n : Nat) : (s.setInflight v t n).waiters = s.waiters := rfl
@[simp] theorem State.setInflight_flush (v : DmaUnit) (t : Thread) (n : Nat) : (s.setInflight v t n).flush = s.flush := rfl
@[simp] theorem State.setInflight_rwc (v : DmaUnit) (t : Thread) (n : Nat) : (s.setInflight v t n).rwc = s.rwc := rfl
@[simp] theorem State.setInflight_adc (v : DmaUnit) (t : Thread) (n : Nat) : (s.setInflight v t n).adc = s.adc := rfl
@[simp] theorem State.setInflight_dstUndefined (v : DmaUnit) (t : Thread) (n : Nat) : (s.setInflight v t n).dstUndefined = s.dstUndefined := rfl
@[simp] theorem State.setInflight_mem (v : DmaUnit) (t : Thread) (n : Nat) : (s.setInflight v t n).mem = s.mem := rfl

@[simp] theorem State.overSemaphores_par (n : Nat) (f : Semaphore → Semaphore) : (s.overSemaphores n f).par = s.par := rfl
@[simp] theorem State.overSemaphores_cur (n : Nat) (f : Semaphore → Semaphore) : (s.overSemaphores n f).cur = s.cur := rfl
@[simp] theorem State.overSemaphores_instr (n : Nat) (f : Semaphore → Semaphore) : (s.overSemaphores n f).instr = s.instr := rfl
@[simp] theorem State.overSemaphores_inputs (n : Nat) (f : Semaphore → Semaphore) : (s.overSemaphores n f).inputs = s.inputs := rfl
@[simp] theorem State.overSemaphores_replies (n : Nat) (f : Semaphore → Semaphore) : (s.overSemaphores n f).replies = s.replies := rfl
@[simp] theorem State.overSemaphores_halt (n : Nat) (f : Semaphore → Semaphore) : (s.overSemaphores n f).halt = s.halt := rfl
@[simp] theorem State.overSemaphores_gpr (n : Nat) (f : Semaphore → Semaphore) : (s.overSemaphores n f).gpr = s.gpr := rfl
@[simp] theorem State.overSemaphores_cfg (n : Nat) (f : Semaphore → Semaphore) : (s.overSemaphores n f).cfg = s.cfg := rfl
@[simp] theorem State.overSemaphores_tcfg (n : Nat) (f : Semaphore → Semaphore) : (s.overSemaphores n f).tcfg = s.tcfg := rfl
@[simp] theorem State.overSemaphores_mopQ (n : Nat) (f : Semaphore → Semaphore) : (s.overSemaphores n f).mopQ = s.mopQ := rfl
@[simp] theorem State.overSemaphores_replayQ (n : Nat) (f : Semaphore → Semaphore) : (s.overSemaphores n f).replayQ = s.replayQ := rfl
@[simp] theorem State.overSemaphores_mopCfg (n : Nat) (f : Semaphore → Semaphore) : (s.overSemaphores n f).mopCfg = s.mopCfg := rfl
@[simp] theorem State.overSemaphores_zmaskHi (n : Nat) (f : Semaphore → Semaphore) : (s.overSemaphores n f).zmaskHi = s.zmaskHi := rfl
@[simp] theorem State.overSemaphores_expanding (n : Nat) (f : Semaphore → Semaphore) : (s.overSemaphores n f).expanding = s.expanding := rfl
@[simp] theorem State.overSemaphores_mopOut (n : Nat) (f : Semaphore → Semaphore) : (s.overSemaphores n f).mopOut = s.mopOut := rfl
@[simp] theorem State.overSemaphores_rbuf (n : Nat) (f : Semaphore → Semaphore) : (s.overSemaphores n f).rbuf = s.rbuf := rfl
@[simp] theorem State.overSemaphores_recCursor (n : Nat) (f : Semaphore → Semaphore) : (s.overSemaphores n f).recCursor = s.recCursor := rfl
@[simp] theorem State.overSemaphores_recLeft (n : Nat) (f : Semaphore → Semaphore) : (s.overSemaphores n f).recLeft = s.recLeft := rfl
@[simp] theorem State.overSemaphores_startIdx (n : Nat) (f : Semaphore → Semaphore) : (s.overSemaphores n f).startIdx = s.startIdx := rfl
@[simp] theorem State.overSemaphores_playCursor (n : Nat) (f : Semaphore → Semaphore) : (s.overSemaphores n f).playCursor = s.playCursor := rfl
@[simp] theorem State.overSemaphores_playLeft (n : Nat) (f : Semaphore → Semaphore) : (s.overSemaphores n f).playLeft = s.playLeft := rfl
@[simp] theorem State.overSemaphores_ewl (n : Nat) (f : Semaphore → Semaphore) : (s.overSemaphores n f).ewl = s.ewl := rfl
@[simp] theorem State.overSemaphores_gateSlot (n : Nat) (f : Semaphore → Semaphore) : (s.overSemaphores n f).gateSlot = s.gateSlot := rfl
@[simp] theorem State.overSemaphores_latch (n : Nat) (f : Semaphore → Semaphore) : (s.overSemaphores n f).latch = s.latch := rfl
@[simp] theorem State.overSemaphores_mutexWait (n : Nat) (f : Semaphore → Semaphore) : (s.overSemaphores n f).mutexWait = s.mutexWait := rfl
@[simp] theorem State.overSemaphores_backendStall (n : Nat) (f : Semaphore → Semaphore) : (s.overSemaphores n f).backendStall = s.backendStall := rfl
@[simp] theorem State.overSemaphores_queue (n : Nat) (f : Semaphore → Semaphore) : (s.overSemaphores n f).queue = s.queue := rfl
@[simp] theorem State.overSemaphores_cfgWritePrev (n : Nat) (f : Semaphore → Semaphore) : (s.overSemaphores n f).cfgWritePrev = s.cfgWritePrev := rfl
@[simp] theorem State.overSemaphores_mutex (n : Nat) (f : Semaphore → Semaphore) : (s.overSemaphores n f).mutex = s.mutex := rfl
@[simp] theorem State.overSemaphores_waiters (n : Nat) (f : Semaphore → Semaphore) : (s.overSemaphores n f).waiters = s.waiters := rfl
@[simp] theorem State.overSemaphores_flush (n : Nat) (f : Semaphore → Semaphore) : (s.overSemaphores n f).flush = s.flush := rfl
@[simp] theorem State.overSemaphores_rwc (n : Nat) (f : Semaphore → Semaphore) : (s.overSemaphores n f).rwc = s.rwc := rfl
@[simp] theorem State.overSemaphores_adc (n : Nat) (f : Semaphore → Semaphore) : (s.overSemaphores n f).adc = s.adc := rfl
@[simp] theorem State.overSemaphores_dstUndefined (n : Nat) (f : Semaphore → Semaphore) : (s.overSemaphores n f).dstUndefined = s.dstUndefined := rfl
@[simp] theorem State.overSemaphores_inflight (n : Nat) (f : Semaphore → Semaphore) : (s.overSemaphores n f).inflight = s.inflight := rfl
@[simp] theorem State.overSemaphores_mem (n : Nat) (f : Semaphore → Semaphore) : (s.overSemaphores n f).mem = s.mem := rfl

@[simp] theorem State.setGpr_par (t : Thread) (i : Nat) (v : Word) : (s.setGpr t i v).par = s.par := rfl
@[simp] theorem State.setGpr_cur (t : Thread) (i : Nat) (v : Word) : (s.setGpr t i v).cur = s.cur := rfl
@[simp] theorem State.setGpr_instr (t : Thread) (i : Nat) (v : Word) : (s.setGpr t i v).instr = s.instr := rfl
@[simp] theorem State.setGpr_inputs (t : Thread) (i : Nat) (v : Word) : (s.setGpr t i v).inputs = s.inputs := rfl
@[simp] theorem State.setGpr_replies (t : Thread) (i : Nat) (v : Word) : (s.setGpr t i v).replies = s.replies := rfl
@[simp] theorem State.setGpr_halt (t : Thread) (i : Nat) (v : Word) : (s.setGpr t i v).halt = s.halt := rfl
@[simp] theorem State.setGpr_cfg (t : Thread) (i : Nat) (v : Word) : (s.setGpr t i v).cfg = s.cfg := rfl
@[simp] theorem State.setGpr_tcfg (t : Thread) (i : Nat) (v : Word) : (s.setGpr t i v).tcfg = s.tcfg := rfl
@[simp] theorem State.setGpr_mopQ (t : Thread) (i : Nat) (v : Word) : (s.setGpr t i v).mopQ = s.mopQ := rfl
@[simp] theorem State.setGpr_replayQ (t : Thread) (i : Nat) (v : Word) : (s.setGpr t i v).replayQ = s.replayQ := rfl
@[simp] theorem State.setGpr_mopCfg (t : Thread) (i : Nat) (v : Word) : (s.setGpr t i v).mopCfg = s.mopCfg := rfl
@[simp] theorem State.setGpr_zmaskHi (t : Thread) (i : Nat) (v : Word) : (s.setGpr t i v).zmaskHi = s.zmaskHi := rfl
@[simp] theorem State.setGpr_expanding (t : Thread) (i : Nat) (v : Word) : (s.setGpr t i v).expanding = s.expanding := rfl
@[simp] theorem State.setGpr_mopOut (t : Thread) (i : Nat) (v : Word) : (s.setGpr t i v).mopOut = s.mopOut := rfl
@[simp] theorem State.setGpr_rbuf (t : Thread) (i : Nat) (v : Word) : (s.setGpr t i v).rbuf = s.rbuf := rfl
@[simp] theorem State.setGpr_recCursor (t : Thread) (i : Nat) (v : Word) : (s.setGpr t i v).recCursor = s.recCursor := rfl
@[simp] theorem State.setGpr_recLeft (t : Thread) (i : Nat) (v : Word) : (s.setGpr t i v).recLeft = s.recLeft := rfl
@[simp] theorem State.setGpr_startIdx (t : Thread) (i : Nat) (v : Word) : (s.setGpr t i v).startIdx = s.startIdx := rfl
@[simp] theorem State.setGpr_playCursor (t : Thread) (i : Nat) (v : Word) : (s.setGpr t i v).playCursor = s.playCursor := rfl
@[simp] theorem State.setGpr_playLeft (t : Thread) (i : Nat) (v : Word) : (s.setGpr t i v).playLeft = s.playLeft := rfl
@[simp] theorem State.setGpr_ewl (t : Thread) (i : Nat) (v : Word) : (s.setGpr t i v).ewl = s.ewl := rfl
@[simp] theorem State.setGpr_gateSlot (t : Thread) (i : Nat) (v : Word) : (s.setGpr t i v).gateSlot = s.gateSlot := rfl
@[simp] theorem State.setGpr_latch (t : Thread) (i : Nat) (v : Word) : (s.setGpr t i v).latch = s.latch := rfl
@[simp] theorem State.setGpr_mutexWait (t : Thread) (i : Nat) (v : Word) : (s.setGpr t i v).mutexWait = s.mutexWait := rfl
@[simp] theorem State.setGpr_backendStall (t : Thread) (i : Nat) (v : Word) : (s.setGpr t i v).backendStall = s.backendStall := rfl
@[simp] theorem State.setGpr_queue (t : Thread) (i : Nat) (v : Word) : (s.setGpr t i v).queue = s.queue := rfl
@[simp] theorem State.setGpr_cfgWritePrev (t : Thread) (i : Nat) (v : Word) : (s.setGpr t i v).cfgWritePrev = s.cfgWritePrev := rfl
@[simp] theorem State.setGpr_sem (t : Thread) (i : Nat) (v : Word) : (s.setGpr t i v).sem = s.sem := rfl
@[simp] theorem State.setGpr_mutex (t : Thread) (i : Nat) (v : Word) : (s.setGpr t i v).mutex = s.mutex := rfl
@[simp] theorem State.setGpr_waiters (t : Thread) (i : Nat) (v : Word) : (s.setGpr t i v).waiters = s.waiters := rfl
@[simp] theorem State.setGpr_flush (t : Thread) (i : Nat) (v : Word) : (s.setGpr t i v).flush = s.flush := rfl
@[simp] theorem State.setGpr_rwc (t : Thread) (i : Nat) (v : Word) : (s.setGpr t i v).rwc = s.rwc := rfl
@[simp] theorem State.setGpr_adc (t : Thread) (i : Nat) (v : Word) : (s.setGpr t i v).adc = s.adc := rfl
@[simp] theorem State.setGpr_dstUndefined (t : Thread) (i : Nat) (v : Word) : (s.setGpr t i v).dstUndefined = s.dstUndefined := rfl
@[simp] theorem State.setGpr_inflight (t : Thread) (i : Nat) (v : Word) : (s.setGpr t i v).inflight = s.inflight := rfl
@[simp] theorem State.setGpr_mem (t : Thread) (i : Nat) (v : Word) : (s.setGpr t i v).mem = s.mem := rfl

@[simp] theorem State.setCfg_par (b : Fin 2) (i : Nat) (v : Word) : (s.setCfg b i v).par = s.par := rfl
@[simp] theorem State.setCfg_cur (b : Fin 2) (i : Nat) (v : Word) : (s.setCfg b i v).cur = s.cur := rfl
@[simp] theorem State.setCfg_instr (b : Fin 2) (i : Nat) (v : Word) : (s.setCfg b i v).instr = s.instr := rfl
@[simp] theorem State.setCfg_inputs (b : Fin 2) (i : Nat) (v : Word) : (s.setCfg b i v).inputs = s.inputs := rfl
@[simp] theorem State.setCfg_replies (b : Fin 2) (i : Nat) (v : Word) : (s.setCfg b i v).replies = s.replies := rfl
@[simp] theorem State.setCfg_halt (b : Fin 2) (i : Nat) (v : Word) : (s.setCfg b i v).halt = s.halt := rfl
@[simp] theorem State.setCfg_gpr (b : Fin 2) (i : Nat) (v : Word) : (s.setCfg b i v).gpr = s.gpr := rfl
@[simp] theorem State.setCfg_tcfg (b : Fin 2) (i : Nat) (v : Word) : (s.setCfg b i v).tcfg = s.tcfg := rfl
@[simp] theorem State.setCfg_mopQ (b : Fin 2) (i : Nat) (v : Word) : (s.setCfg b i v).mopQ = s.mopQ := rfl
@[simp] theorem State.setCfg_replayQ (b : Fin 2) (i : Nat) (v : Word) : (s.setCfg b i v).replayQ = s.replayQ := rfl
@[simp] theorem State.setCfg_mopCfg (b : Fin 2) (i : Nat) (v : Word) : (s.setCfg b i v).mopCfg = s.mopCfg := rfl
@[simp] theorem State.setCfg_zmaskHi (b : Fin 2) (i : Nat) (v : Word) : (s.setCfg b i v).zmaskHi = s.zmaskHi := rfl
@[simp] theorem State.setCfg_expanding (b : Fin 2) (i : Nat) (v : Word) : (s.setCfg b i v).expanding = s.expanding := rfl
@[simp] theorem State.setCfg_mopOut (b : Fin 2) (i : Nat) (v : Word) : (s.setCfg b i v).mopOut = s.mopOut := rfl
@[simp] theorem State.setCfg_rbuf (b : Fin 2) (i : Nat) (v : Word) : (s.setCfg b i v).rbuf = s.rbuf := rfl
@[simp] theorem State.setCfg_recCursor (b : Fin 2) (i : Nat) (v : Word) : (s.setCfg b i v).recCursor = s.recCursor := rfl
@[simp] theorem State.setCfg_recLeft (b : Fin 2) (i : Nat) (v : Word) : (s.setCfg b i v).recLeft = s.recLeft := rfl
@[simp] theorem State.setCfg_startIdx (b : Fin 2) (i : Nat) (v : Word) : (s.setCfg b i v).startIdx = s.startIdx := rfl
@[simp] theorem State.setCfg_playCursor (b : Fin 2) (i : Nat) (v : Word) : (s.setCfg b i v).playCursor = s.playCursor := rfl
@[simp] theorem State.setCfg_playLeft (b : Fin 2) (i : Nat) (v : Word) : (s.setCfg b i v).playLeft = s.playLeft := rfl
@[simp] theorem State.setCfg_ewl (b : Fin 2) (i : Nat) (v : Word) : (s.setCfg b i v).ewl = s.ewl := rfl
@[simp] theorem State.setCfg_gateSlot (b : Fin 2) (i : Nat) (v : Word) : (s.setCfg b i v).gateSlot = s.gateSlot := rfl
@[simp] theorem State.setCfg_latch (b : Fin 2) (i : Nat) (v : Word) : (s.setCfg b i v).latch = s.latch := rfl
@[simp] theorem State.setCfg_mutexWait (b : Fin 2) (i : Nat) (v : Word) : (s.setCfg b i v).mutexWait = s.mutexWait := rfl
@[simp] theorem State.setCfg_backendStall (b : Fin 2) (i : Nat) (v : Word) : (s.setCfg b i v).backendStall = s.backendStall := rfl
@[simp] theorem State.setCfg_queue (b : Fin 2) (i : Nat) (v : Word) : (s.setCfg b i v).queue = s.queue := rfl
@[simp] theorem State.setCfg_cfgWritePrev (b : Fin 2) (i : Nat) (v : Word) : (s.setCfg b i v).cfgWritePrev = s.cfgWritePrev := rfl
@[simp] theorem State.setCfg_sem (b : Fin 2) (i : Nat) (v : Word) : (s.setCfg b i v).sem = s.sem := rfl
@[simp] theorem State.setCfg_mutex (b : Fin 2) (i : Nat) (v : Word) : (s.setCfg b i v).mutex = s.mutex := rfl
@[simp] theorem State.setCfg_waiters (b : Fin 2) (i : Nat) (v : Word) : (s.setCfg b i v).waiters = s.waiters := rfl
@[simp] theorem State.setCfg_flush (b : Fin 2) (i : Nat) (v : Word) : (s.setCfg b i v).flush = s.flush := rfl
@[simp] theorem State.setCfg_rwc (b : Fin 2) (i : Nat) (v : Word) : (s.setCfg b i v).rwc = s.rwc := rfl
@[simp] theorem State.setCfg_adc (b : Fin 2) (i : Nat) (v : Word) : (s.setCfg b i v).adc = s.adc := rfl
@[simp] theorem State.setCfg_dstUndefined (b : Fin 2) (i : Nat) (v : Word) : (s.setCfg b i v).dstUndefined = s.dstUndefined := rfl
@[simp] theorem State.setCfg_inflight (b : Fin 2) (i : Nat) (v : Word) : (s.setCfg b i v).inflight = s.inflight := rfl
@[simp] theorem State.setCfg_mem (b : Fin 2) (i : Nat) (v : Word) : (s.setCfg b i v).mem = s.mem := rfl

@[simp] theorem State.setTcfg_par (t : Thread) (i : Nat) (v : Word) : (s.setTcfg t i v).par = s.par := rfl
@[simp] theorem State.setTcfg_cur (t : Thread) (i : Nat) (v : Word) : (s.setTcfg t i v).cur = s.cur := rfl
@[simp] theorem State.setTcfg_instr (t : Thread) (i : Nat) (v : Word) : (s.setTcfg t i v).instr = s.instr := rfl
@[simp] theorem State.setTcfg_inputs (t : Thread) (i : Nat) (v : Word) : (s.setTcfg t i v).inputs = s.inputs := rfl
@[simp] theorem State.setTcfg_replies (t : Thread) (i : Nat) (v : Word) : (s.setTcfg t i v).replies = s.replies := rfl
@[simp] theorem State.setTcfg_halt (t : Thread) (i : Nat) (v : Word) : (s.setTcfg t i v).halt = s.halt := rfl
@[simp] theorem State.setTcfg_gpr (t : Thread) (i : Nat) (v : Word) : (s.setTcfg t i v).gpr = s.gpr := rfl
@[simp] theorem State.setTcfg_cfg (t : Thread) (i : Nat) (v : Word) : (s.setTcfg t i v).cfg = s.cfg := rfl
@[simp] theorem State.setTcfg_mopQ (t : Thread) (i : Nat) (v : Word) : (s.setTcfg t i v).mopQ = s.mopQ := rfl
@[simp] theorem State.setTcfg_replayQ (t : Thread) (i : Nat) (v : Word) : (s.setTcfg t i v).replayQ = s.replayQ := rfl
@[simp] theorem State.setTcfg_mopCfg (t : Thread) (i : Nat) (v : Word) : (s.setTcfg t i v).mopCfg = s.mopCfg := rfl
@[simp] theorem State.setTcfg_zmaskHi (t : Thread) (i : Nat) (v : Word) : (s.setTcfg t i v).zmaskHi = s.zmaskHi := rfl
@[simp] theorem State.setTcfg_expanding (t : Thread) (i : Nat) (v : Word) : (s.setTcfg t i v).expanding = s.expanding := rfl
@[simp] theorem State.setTcfg_mopOut (t : Thread) (i : Nat) (v : Word) : (s.setTcfg t i v).mopOut = s.mopOut := rfl
@[simp] theorem State.setTcfg_rbuf (t : Thread) (i : Nat) (v : Word) : (s.setTcfg t i v).rbuf = s.rbuf := rfl
@[simp] theorem State.setTcfg_recCursor (t : Thread) (i : Nat) (v : Word) : (s.setTcfg t i v).recCursor = s.recCursor := rfl
@[simp] theorem State.setTcfg_recLeft (t : Thread) (i : Nat) (v : Word) : (s.setTcfg t i v).recLeft = s.recLeft := rfl
@[simp] theorem State.setTcfg_startIdx (t : Thread) (i : Nat) (v : Word) : (s.setTcfg t i v).startIdx = s.startIdx := rfl
@[simp] theorem State.setTcfg_playCursor (t : Thread) (i : Nat) (v : Word) : (s.setTcfg t i v).playCursor = s.playCursor := rfl
@[simp] theorem State.setTcfg_playLeft (t : Thread) (i : Nat) (v : Word) : (s.setTcfg t i v).playLeft = s.playLeft := rfl
@[simp] theorem State.setTcfg_ewl (t : Thread) (i : Nat) (v : Word) : (s.setTcfg t i v).ewl = s.ewl := rfl
@[simp] theorem State.setTcfg_gateSlot (t : Thread) (i : Nat) (v : Word) : (s.setTcfg t i v).gateSlot = s.gateSlot := rfl
@[simp] theorem State.setTcfg_latch (t : Thread) (i : Nat) (v : Word) : (s.setTcfg t i v).latch = s.latch := rfl
@[simp] theorem State.setTcfg_mutexWait (t : Thread) (i : Nat) (v : Word) : (s.setTcfg t i v).mutexWait = s.mutexWait := rfl
@[simp] theorem State.setTcfg_backendStall (t : Thread) (i : Nat) (v : Word) : (s.setTcfg t i v).backendStall = s.backendStall := rfl
@[simp] theorem State.setTcfg_queue (t : Thread) (i : Nat) (v : Word) : (s.setTcfg t i v).queue = s.queue := rfl
@[simp] theorem State.setTcfg_cfgWritePrev (t : Thread) (i : Nat) (v : Word) : (s.setTcfg t i v).cfgWritePrev = s.cfgWritePrev := rfl
@[simp] theorem State.setTcfg_sem (t : Thread) (i : Nat) (v : Word) : (s.setTcfg t i v).sem = s.sem := rfl
@[simp] theorem State.setTcfg_mutex (t : Thread) (i : Nat) (v : Word) : (s.setTcfg t i v).mutex = s.mutex := rfl
@[simp] theorem State.setTcfg_waiters (t : Thread) (i : Nat) (v : Word) : (s.setTcfg t i v).waiters = s.waiters := rfl
@[simp] theorem State.setTcfg_flush (t : Thread) (i : Nat) (v : Word) : (s.setTcfg t i v).flush = s.flush := rfl
@[simp] theorem State.setTcfg_rwc (t : Thread) (i : Nat) (v : Word) : (s.setTcfg t i v).rwc = s.rwc := rfl
@[simp] theorem State.setTcfg_adc (t : Thread) (i : Nat) (v : Word) : (s.setTcfg t i v).adc = s.adc := rfl
@[simp] theorem State.setTcfg_dstUndefined (t : Thread) (i : Nat) (v : Word) : (s.setTcfg t i v).dstUndefined = s.dstUndefined := rfl
@[simp] theorem State.setTcfg_inflight (t : Thread) (i : Nat) (v : Word) : (s.setTcfg t i v).inflight = s.inflight := rfl
@[simp] theorem State.setTcfg_mem (t : Thread) (i : Nat) (v : Word) : (s.setTcfg t i v).mem = s.mem := rfl

@[simp] theorem State.pokeAdc_par (t : Thread) (g : Group) (c : Fin 2) (d : Dim) (h : Half) (v : Nat) : (s.pokeAdc t g c d h v).par = s.par := rfl
@[simp] theorem State.pokeAdc_cur (t : Thread) (g : Group) (c : Fin 2) (d : Dim) (h : Half) (v : Nat) : (s.pokeAdc t g c d h v).cur = s.cur := rfl
@[simp] theorem State.pokeAdc_instr (t : Thread) (g : Group) (c : Fin 2) (d : Dim) (h : Half) (v : Nat) : (s.pokeAdc t g c d h v).instr = s.instr := rfl
@[simp] theorem State.pokeAdc_inputs (t : Thread) (g : Group) (c : Fin 2) (d : Dim) (h : Half) (v : Nat) : (s.pokeAdc t g c d h v).inputs = s.inputs := rfl
@[simp] theorem State.pokeAdc_replies (t : Thread) (g : Group) (c : Fin 2) (d : Dim) (h : Half) (v : Nat) : (s.pokeAdc t g c d h v).replies = s.replies := rfl
@[simp] theorem State.pokeAdc_halt (t : Thread) (g : Group) (c : Fin 2) (d : Dim) (h : Half) (v : Nat) : (s.pokeAdc t g c d h v).halt = s.halt := rfl
@[simp] theorem State.pokeAdc_gpr (t : Thread) (g : Group) (c : Fin 2) (d : Dim) (h : Half) (v : Nat) : (s.pokeAdc t g c d h v).gpr = s.gpr := rfl
@[simp] theorem State.pokeAdc_cfg (t : Thread) (g : Group) (c : Fin 2) (d : Dim) (h : Half) (v : Nat) : (s.pokeAdc t g c d h v).cfg = s.cfg := rfl
@[simp] theorem State.pokeAdc_tcfg (t : Thread) (g : Group) (c : Fin 2) (d : Dim) (h : Half) (v : Nat) : (s.pokeAdc t g c d h v).tcfg = s.tcfg := rfl
@[simp] theorem State.pokeAdc_mopQ (t : Thread) (g : Group) (c : Fin 2) (d : Dim) (h : Half) (v : Nat) : (s.pokeAdc t g c d h v).mopQ = s.mopQ := rfl
@[simp] theorem State.pokeAdc_replayQ (t : Thread) (g : Group) (c : Fin 2) (d : Dim) (h : Half) (v : Nat) : (s.pokeAdc t g c d h v).replayQ = s.replayQ := rfl
@[simp] theorem State.pokeAdc_mopCfg (t : Thread) (g : Group) (c : Fin 2) (d : Dim) (h : Half) (v : Nat) : (s.pokeAdc t g c d h v).mopCfg = s.mopCfg := rfl
@[simp] theorem State.pokeAdc_zmaskHi (t : Thread) (g : Group) (c : Fin 2) (d : Dim) (h : Half) (v : Nat) : (s.pokeAdc t g c d h v).zmaskHi = s.zmaskHi := rfl
@[simp] theorem State.pokeAdc_expanding (t : Thread) (g : Group) (c : Fin 2) (d : Dim) (h : Half) (v : Nat) : (s.pokeAdc t g c d h v).expanding = s.expanding := rfl
@[simp] theorem State.pokeAdc_mopOut (t : Thread) (g : Group) (c : Fin 2) (d : Dim) (h : Half) (v : Nat) : (s.pokeAdc t g c d h v).mopOut = s.mopOut := rfl
@[simp] theorem State.pokeAdc_rbuf (t : Thread) (g : Group) (c : Fin 2) (d : Dim) (h : Half) (v : Nat) : (s.pokeAdc t g c d h v).rbuf = s.rbuf := rfl
@[simp] theorem State.pokeAdc_recCursor (t : Thread) (g : Group) (c : Fin 2) (d : Dim) (h : Half) (v : Nat) : (s.pokeAdc t g c d h v).recCursor = s.recCursor := rfl
@[simp] theorem State.pokeAdc_recLeft (t : Thread) (g : Group) (c : Fin 2) (d : Dim) (h : Half) (v : Nat) : (s.pokeAdc t g c d h v).recLeft = s.recLeft := rfl
@[simp] theorem State.pokeAdc_startIdx (t : Thread) (g : Group) (c : Fin 2) (d : Dim) (h : Half) (v : Nat) : (s.pokeAdc t g c d h v).startIdx = s.startIdx := rfl
@[simp] theorem State.pokeAdc_playCursor (t : Thread) (g : Group) (c : Fin 2) (d : Dim) (h : Half) (v : Nat) : (s.pokeAdc t g c d h v).playCursor = s.playCursor := rfl
@[simp] theorem State.pokeAdc_playLeft (t : Thread) (g : Group) (c : Fin 2) (d : Dim) (h : Half) (v : Nat) : (s.pokeAdc t g c d h v).playLeft = s.playLeft := rfl
@[simp] theorem State.pokeAdc_ewl (t : Thread) (g : Group) (c : Fin 2) (d : Dim) (h : Half) (v : Nat) : (s.pokeAdc t g c d h v).ewl = s.ewl := rfl
@[simp] theorem State.pokeAdc_gateSlot (t : Thread) (g : Group) (c : Fin 2) (d : Dim) (h : Half) (v : Nat) : (s.pokeAdc t g c d h v).gateSlot = s.gateSlot := rfl
@[simp] theorem State.pokeAdc_latch (t : Thread) (g : Group) (c : Fin 2) (d : Dim) (h : Half) (v : Nat) : (s.pokeAdc t g c d h v).latch = s.latch := rfl
@[simp] theorem State.pokeAdc_mutexWait (t : Thread) (g : Group) (c : Fin 2) (d : Dim) (h : Half) (v : Nat) : (s.pokeAdc t g c d h v).mutexWait = s.mutexWait := rfl
@[simp] theorem State.pokeAdc_backendStall (t : Thread) (g : Group) (c : Fin 2) (d : Dim) (h : Half) (v : Nat) : (s.pokeAdc t g c d h v).backendStall = s.backendStall := rfl
@[simp] theorem State.pokeAdc_queue (t : Thread) (g : Group) (c : Fin 2) (d : Dim) (h : Half) (v : Nat) : (s.pokeAdc t g c d h v).queue = s.queue := rfl
@[simp] theorem State.pokeAdc_cfgWritePrev (t : Thread) (g : Group) (c : Fin 2) (d : Dim) (h : Half) (v : Nat) : (s.pokeAdc t g c d h v).cfgWritePrev = s.cfgWritePrev := rfl
@[simp] theorem State.pokeAdc_sem (t : Thread) (g : Group) (c : Fin 2) (d : Dim) (h : Half) (v : Nat) : (s.pokeAdc t g c d h v).sem = s.sem := rfl
@[simp] theorem State.pokeAdc_mutex (t : Thread) (g : Group) (c : Fin 2) (d : Dim) (h : Half) (v : Nat) : (s.pokeAdc t g c d h v).mutex = s.mutex := rfl
@[simp] theorem State.pokeAdc_waiters (t : Thread) (g : Group) (c : Fin 2) (d : Dim) (h : Half) (v : Nat) : (s.pokeAdc t g c d h v).waiters = s.waiters := rfl
@[simp] theorem State.pokeAdc_flush (t : Thread) (g : Group) (c : Fin 2) (d : Dim) (h : Half) (v : Nat) : (s.pokeAdc t g c d h v).flush = s.flush := rfl
@[simp] theorem State.pokeAdc_rwc (t : Thread) (g : Group) (c : Fin 2) (d : Dim) (h : Half) (v : Nat) : (s.pokeAdc t g c d h v).rwc = s.rwc := rfl
@[simp] theorem State.pokeAdc_dstUndefined (t : Thread) (g : Group) (c : Fin 2) (d : Dim) (h : Half) (v : Nat) : (s.pokeAdc t g c d h v).dstUndefined = s.dstUndefined := rfl
@[simp] theorem State.pokeAdc_inflight (t : Thread) (g : Group) (c : Fin 2) (d : Dim) (h : Half) (v : Nat) : (s.pokeAdc t g c d h v).inflight = s.inflight := rfl
@[simp] theorem State.pokeAdc_mem (t : Thread) (g : Group) (c : Fin 2) (d : Dim) (h : Half) (v : Nat) : (s.pokeAdc t g c d h v).mem = s.mem := rfl

@[simp] theorem State.setRwc_par (t : Thread) (r : Rwc) : (s.setRwc t r).par = s.par := rfl
@[simp] theorem State.setRwc_cur (t : Thread) (r : Rwc) : (s.setRwc t r).cur = s.cur := rfl
@[simp] theorem State.setRwc_instr (t : Thread) (r : Rwc) : (s.setRwc t r).instr = s.instr := rfl
@[simp] theorem State.setRwc_inputs (t : Thread) (r : Rwc) : (s.setRwc t r).inputs = s.inputs := rfl
@[simp] theorem State.setRwc_replies (t : Thread) (r : Rwc) : (s.setRwc t r).replies = s.replies := rfl
@[simp] theorem State.setRwc_halt (t : Thread) (r : Rwc) : (s.setRwc t r).halt = s.halt := rfl
@[simp] theorem State.setRwc_gpr (t : Thread) (r : Rwc) : (s.setRwc t r).gpr = s.gpr := rfl
@[simp] theorem State.setRwc_cfg (t : Thread) (r : Rwc) : (s.setRwc t r).cfg = s.cfg := rfl
@[simp] theorem State.setRwc_tcfg (t : Thread) (r : Rwc) : (s.setRwc t r).tcfg = s.tcfg := rfl
@[simp] theorem State.setRwc_mopQ (t : Thread) (r : Rwc) : (s.setRwc t r).mopQ = s.mopQ := rfl
@[simp] theorem State.setRwc_replayQ (t : Thread) (r : Rwc) : (s.setRwc t r).replayQ = s.replayQ := rfl
@[simp] theorem State.setRwc_mopCfg (t : Thread) (r : Rwc) : (s.setRwc t r).mopCfg = s.mopCfg := rfl
@[simp] theorem State.setRwc_zmaskHi (t : Thread) (r : Rwc) : (s.setRwc t r).zmaskHi = s.zmaskHi := rfl
@[simp] theorem State.setRwc_expanding (t : Thread) (r : Rwc) : (s.setRwc t r).expanding = s.expanding := rfl
@[simp] theorem State.setRwc_mopOut (t : Thread) (r : Rwc) : (s.setRwc t r).mopOut = s.mopOut := rfl
@[simp] theorem State.setRwc_rbuf (t : Thread) (r : Rwc) : (s.setRwc t r).rbuf = s.rbuf := rfl
@[simp] theorem State.setRwc_recCursor (t : Thread) (r : Rwc) : (s.setRwc t r).recCursor = s.recCursor := rfl
@[simp] theorem State.setRwc_recLeft (t : Thread) (r : Rwc) : (s.setRwc t r).recLeft = s.recLeft := rfl
@[simp] theorem State.setRwc_startIdx (t : Thread) (r : Rwc) : (s.setRwc t r).startIdx = s.startIdx := rfl
@[simp] theorem State.setRwc_playCursor (t : Thread) (r : Rwc) : (s.setRwc t r).playCursor = s.playCursor := rfl
@[simp] theorem State.setRwc_playLeft (t : Thread) (r : Rwc) : (s.setRwc t r).playLeft = s.playLeft := rfl
@[simp] theorem State.setRwc_ewl (t : Thread) (r : Rwc) : (s.setRwc t r).ewl = s.ewl := rfl
@[simp] theorem State.setRwc_gateSlot (t : Thread) (r : Rwc) : (s.setRwc t r).gateSlot = s.gateSlot := rfl
@[simp] theorem State.setRwc_latch (t : Thread) (r : Rwc) : (s.setRwc t r).latch = s.latch := rfl
@[simp] theorem State.setRwc_mutexWait (t : Thread) (r : Rwc) : (s.setRwc t r).mutexWait = s.mutexWait := rfl
@[simp] theorem State.setRwc_backendStall (t : Thread) (r : Rwc) : (s.setRwc t r).backendStall = s.backendStall := rfl
@[simp] theorem State.setRwc_queue (t : Thread) (r : Rwc) : (s.setRwc t r).queue = s.queue := rfl
@[simp] theorem State.setRwc_cfgWritePrev (t : Thread) (r : Rwc) : (s.setRwc t r).cfgWritePrev = s.cfgWritePrev := rfl
@[simp] theorem State.setRwc_sem (t : Thread) (r : Rwc) : (s.setRwc t r).sem = s.sem := rfl
@[simp] theorem State.setRwc_mutex (t : Thread) (r : Rwc) : (s.setRwc t r).mutex = s.mutex := rfl
@[simp] theorem State.setRwc_waiters (t : Thread) (r : Rwc) : (s.setRwc t r).waiters = s.waiters := rfl
@[simp] theorem State.setRwc_flush (t : Thread) (r : Rwc) : (s.setRwc t r).flush = s.flush := rfl
@[simp] theorem State.setRwc_adc (t : Thread) (r : Rwc) : (s.setRwc t r).adc = s.adc := rfl
@[simp] theorem State.setRwc_dstUndefined (t : Thread) (r : Rwc) : (s.setRwc t r).dstUndefined = s.dstUndefined := rfl
@[simp] theorem State.setRwc_inflight (t : Thread) (r : Rwc) : (s.setRwc t r).inflight = s.inflight := rfl
@[simp] theorem State.setRwc_mem (t : Thread) (r : Rwc) : (s.setRwc t r).mem = s.mem := rfl

@[simp] theorem State.markRows_par (rows : List Nat) : (s.markRows rows).par = s.par := rfl
@[simp] theorem State.markRows_cur (rows : List Nat) : (s.markRows rows).cur = s.cur := rfl
@[simp] theorem State.markRows_instr (rows : List Nat) : (s.markRows rows).instr = s.instr := rfl
@[simp] theorem State.markRows_inputs (rows : List Nat) : (s.markRows rows).inputs = s.inputs := rfl
@[simp] theorem State.markRows_replies (rows : List Nat) : (s.markRows rows).replies = s.replies := rfl
@[simp] theorem State.markRows_halt (rows : List Nat) : (s.markRows rows).halt = s.halt := rfl
@[simp] theorem State.markRows_gpr (rows : List Nat) : (s.markRows rows).gpr = s.gpr := rfl
@[simp] theorem State.markRows_cfg (rows : List Nat) : (s.markRows rows).cfg = s.cfg := rfl
@[simp] theorem State.markRows_tcfg (rows : List Nat) : (s.markRows rows).tcfg = s.tcfg := rfl
@[simp] theorem State.markRows_mopQ (rows : List Nat) : (s.markRows rows).mopQ = s.mopQ := rfl
@[simp] theorem State.markRows_replayQ (rows : List Nat) : (s.markRows rows).replayQ = s.replayQ := rfl
@[simp] theorem State.markRows_mopCfg (rows : List Nat) : (s.markRows rows).mopCfg = s.mopCfg := rfl
@[simp] theorem State.markRows_zmaskHi (rows : List Nat) : (s.markRows rows).zmaskHi = s.zmaskHi := rfl
@[simp] theorem State.markRows_expanding (rows : List Nat) : (s.markRows rows).expanding = s.expanding := rfl
@[simp] theorem State.markRows_mopOut (rows : List Nat) : (s.markRows rows).mopOut = s.mopOut := rfl
@[simp] theorem State.markRows_rbuf (rows : List Nat) : (s.markRows rows).rbuf = s.rbuf := rfl
@[simp] theorem State.markRows_recCursor (rows : List Nat) : (s.markRows rows).recCursor = s.recCursor := rfl
@[simp] theorem State.markRows_recLeft (rows : List Nat) : (s.markRows rows).recLeft = s.recLeft := rfl
@[simp] theorem State.markRows_startIdx (rows : List Nat) : (s.markRows rows).startIdx = s.startIdx := rfl
@[simp] theorem State.markRows_playCursor (rows : List Nat) : (s.markRows rows).playCursor = s.playCursor := rfl
@[simp] theorem State.markRows_playLeft (rows : List Nat) : (s.markRows rows).playLeft = s.playLeft := rfl
@[simp] theorem State.markRows_ewl (rows : List Nat) : (s.markRows rows).ewl = s.ewl := rfl
@[simp] theorem State.markRows_gateSlot (rows : List Nat) : (s.markRows rows).gateSlot = s.gateSlot := rfl
@[simp] theorem State.markRows_latch (rows : List Nat) : (s.markRows rows).latch = s.latch := rfl
@[simp] theorem State.markRows_mutexWait (rows : List Nat) : (s.markRows rows).mutexWait = s.mutexWait := rfl
@[simp] theorem State.markRows_backendStall (rows : List Nat) : (s.markRows rows).backendStall = s.backendStall := rfl
@[simp] theorem State.markRows_queue (rows : List Nat) : (s.markRows rows).queue = s.queue := rfl
@[simp] theorem State.markRows_cfgWritePrev (rows : List Nat) : (s.markRows rows).cfgWritePrev = s.cfgWritePrev := rfl
@[simp] theorem State.markRows_sem (rows : List Nat) : (s.markRows rows).sem = s.sem := rfl
@[simp] theorem State.markRows_mutex (rows : List Nat) : (s.markRows rows).mutex = s.mutex := rfl
@[simp] theorem State.markRows_waiters (rows : List Nat) : (s.markRows rows).waiters = s.waiters := rfl
@[simp] theorem State.markRows_flush (rows : List Nat) : (s.markRows rows).flush = s.flush := rfl
@[simp] theorem State.markRows_rwc (rows : List Nat) : (s.markRows rows).rwc = s.rwc := rfl
@[simp] theorem State.markRows_adc (rows : List Nat) : (s.markRows rows).adc = s.adc := rfl
@[simp] theorem State.markRows_inflight (rows : List Nat) : (s.markRows rows).inflight = s.inflight := rfl
@[simp] theorem State.markRows_mem (rows : List Nat) : (s.markRows rows).mem = s.mem := rfl

@[simp] theorem State.startExpansion_par (t : Thread) (out : List Word) : (s.startExpansion t out).par = s.par := rfl
@[simp] theorem State.startExpansion_cur (t : Thread) (out : List Word) : (s.startExpansion t out).cur = s.cur := rfl
@[simp] theorem State.startExpansion_instr (t : Thread) (out : List Word) : (s.startExpansion t out).instr = s.instr := rfl
@[simp] theorem State.startExpansion_inputs (t : Thread) (out : List Word) : (s.startExpansion t out).inputs = s.inputs := rfl
@[simp] theorem State.startExpansion_replies (t : Thread) (out : List Word) : (s.startExpansion t out).replies = s.replies := rfl
@[simp] theorem State.startExpansion_halt (t : Thread) (out : List Word) : (s.startExpansion t out).halt = s.halt := rfl
@[simp] theorem State.startExpansion_gpr (t : Thread) (out : List Word) : (s.startExpansion t out).gpr = s.gpr := rfl
@[simp] theorem State.startExpansion_cfg (t : Thread) (out : List Word) : (s.startExpansion t out).cfg = s.cfg := rfl
@[simp] theorem State.startExpansion_tcfg (t : Thread) (out : List Word) : (s.startExpansion t out).tcfg = s.tcfg := rfl
@[simp] theorem State.startExpansion_mopQ (t : Thread) (out : List Word) : (s.startExpansion t out).mopQ = s.mopQ := rfl
@[simp] theorem State.startExpansion_replayQ (t : Thread) (out : List Word) : (s.startExpansion t out).replayQ = s.replayQ := rfl
@[simp] theorem State.startExpansion_mopCfg (t : Thread) (out : List Word) : (s.startExpansion t out).mopCfg = s.mopCfg := rfl
@[simp] theorem State.startExpansion_zmaskHi (t : Thread) (out : List Word) : (s.startExpansion t out).zmaskHi = s.zmaskHi := rfl
@[simp] theorem State.startExpansion_rbuf (t : Thread) (out : List Word) : (s.startExpansion t out).rbuf = s.rbuf := rfl
@[simp] theorem State.startExpansion_recCursor (t : Thread) (out : List Word) : (s.startExpansion t out).recCursor = s.recCursor := rfl
@[simp] theorem State.startExpansion_recLeft (t : Thread) (out : List Word) : (s.startExpansion t out).recLeft = s.recLeft := rfl
@[simp] theorem State.startExpansion_startIdx (t : Thread) (out : List Word) : (s.startExpansion t out).startIdx = s.startIdx := rfl
@[simp] theorem State.startExpansion_playCursor (t : Thread) (out : List Word) : (s.startExpansion t out).playCursor = s.playCursor := rfl
@[simp] theorem State.startExpansion_playLeft (t : Thread) (out : List Word) : (s.startExpansion t out).playLeft = s.playLeft := rfl
@[simp] theorem State.startExpansion_ewl (t : Thread) (out : List Word) : (s.startExpansion t out).ewl = s.ewl := rfl
@[simp] theorem State.startExpansion_gateSlot (t : Thread) (out : List Word) : (s.startExpansion t out).gateSlot = s.gateSlot := rfl
@[simp] theorem State.startExpansion_latch (t : Thread) (out : List Word) : (s.startExpansion t out).latch = s.latch := rfl
@[simp] theorem State.startExpansion_mutexWait (t : Thread) (out : List Word) : (s.startExpansion t out).mutexWait = s.mutexWait := rfl
@[simp] theorem State.startExpansion_backendStall (t : Thread) (out : List Word) : (s.startExpansion t out).backendStall = s.backendStall := rfl
@[simp] theorem State.startExpansion_queue (t : Thread) (out : List Word) : (s.startExpansion t out).queue = s.queue := rfl
@[simp] theorem State.startExpansion_cfgWritePrev (t : Thread) (out : List Word) : (s.startExpansion t out).cfgWritePrev = s.cfgWritePrev := rfl
@[simp] theorem State.startExpansion_sem (t : Thread) (out : List Word) : (s.startExpansion t out).sem = s.sem := rfl
@[simp] theorem State.startExpansion_mutex (t : Thread) (out : List Word) : (s.startExpansion t out).mutex = s.mutex := rfl
@[simp] theorem State.startExpansion_waiters (t : Thread) (out : List Word) : (s.startExpansion t out).waiters = s.waiters := rfl
@[simp] theorem State.startExpansion_flush (t : Thread) (out : List Word) : (s.startExpansion t out).flush = s.flush := rfl
@[simp] theorem State.startExpansion_rwc (t : Thread) (out : List Word) : (s.startExpansion t out).rwc = s.rwc := rfl
@[simp] theorem State.startExpansion_adc (t : Thread) (out : List Word) : (s.startExpansion t out).adc = s.adc := rfl
@[simp] theorem State.startExpansion_dstUndefined (t : Thread) (out : List Word) : (s.startExpansion t out).dstUndefined = s.dstUndefined := rfl
@[simp] theorem State.startExpansion_inflight (t : Thread) (out : List Word) : (s.startExpansion t out).inflight = s.inflight := rfl
@[simp] theorem State.startExpansion_mem (t : Thread) (out : List Word) : (s.startExpansion t out).mem = s.mem := rfl

@[simp] theorem State.clearGate_par (t : Thread) : (s.clearGate t).par = s.par := rfl
@[simp] theorem State.clearGate_cur (t : Thread) : (s.clearGate t).cur = s.cur := rfl
@[simp] theorem State.clearGate_instr (t : Thread) : (s.clearGate t).instr = s.instr := rfl
@[simp] theorem State.clearGate_inputs (t : Thread) : (s.clearGate t).inputs = s.inputs := rfl
@[simp] theorem State.clearGate_replies (t : Thread) : (s.clearGate t).replies = s.replies := rfl
@[simp] theorem State.clearGate_halt (t : Thread) : (s.clearGate t).halt = s.halt := rfl
@[simp] theorem State.clearGate_gpr (t : Thread) : (s.clearGate t).gpr = s.gpr := rfl
@[simp] theorem State.clearGate_cfg (t : Thread) : (s.clearGate t).cfg = s.cfg := rfl
@[simp] theorem State.clearGate_tcfg (t : Thread) : (s.clearGate t).tcfg = s.tcfg := rfl
@[simp] theorem State.clearGate_mopQ (t : Thread) : (s.clearGate t).mopQ = s.mopQ := rfl
@[simp] theorem State.clearGate_replayQ (t : Thread) : (s.clearGate t).replayQ = s.replayQ := rfl
@[simp] theorem State.clearGate_mopCfg (t : Thread) : (s.clearGate t).mopCfg = s.mopCfg := rfl
@[simp] theorem State.clearGate_zmaskHi (t : Thread) : (s.clearGate t).zmaskHi = s.zmaskHi := rfl
@[simp] theorem State.clearGate_expanding (t : Thread) : (s.clearGate t).expanding = s.expanding := rfl
@[simp] theorem State.clearGate_mopOut (t : Thread) : (s.clearGate t).mopOut = s.mopOut := rfl
@[simp] theorem State.clearGate_rbuf (t : Thread) : (s.clearGate t).rbuf = s.rbuf := rfl
@[simp] theorem State.clearGate_recCursor (t : Thread) : (s.clearGate t).recCursor = s.recCursor := rfl
@[simp] theorem State.clearGate_recLeft (t : Thread) : (s.clearGate t).recLeft = s.recLeft := rfl
@[simp] theorem State.clearGate_startIdx (t : Thread) : (s.clearGate t).startIdx = s.startIdx := rfl
@[simp] theorem State.clearGate_playCursor (t : Thread) : (s.clearGate t).playCursor = s.playCursor := rfl
@[simp] theorem State.clearGate_playLeft (t : Thread) : (s.clearGate t).playLeft = s.playLeft := rfl
@[simp] theorem State.clearGate_ewl (t : Thread) : (s.clearGate t).ewl = s.ewl := rfl
@[simp] theorem State.clearGate_latch (t : Thread) : (s.clearGate t).latch = s.latch := rfl
@[simp] theorem State.clearGate_mutexWait (t : Thread) : (s.clearGate t).mutexWait = s.mutexWait := rfl
@[simp] theorem State.clearGate_backendStall (t : Thread) : (s.clearGate t).backendStall = s.backendStall := rfl
@[simp] theorem State.clearGate_queue (t : Thread) : (s.clearGate t).queue = s.queue := rfl
@[simp] theorem State.clearGate_cfgWritePrev (t : Thread) : (s.clearGate t).cfgWritePrev = s.cfgWritePrev := rfl
@[simp] theorem State.clearGate_sem (t : Thread) : (s.clearGate t).sem = s.sem := rfl
@[simp] theorem State.clearGate_mutex (t : Thread) : (s.clearGate t).mutex = s.mutex := rfl
@[simp] theorem State.clearGate_waiters (t : Thread) : (s.clearGate t).waiters = s.waiters := rfl
@[simp] theorem State.clearGate_flush (t : Thread) : (s.clearGate t).flush = s.flush := rfl
@[simp] theorem State.clearGate_rwc (t : Thread) : (s.clearGate t).rwc = s.rwc := rfl
@[simp] theorem State.clearGate_adc (t : Thread) : (s.clearGate t).adc = s.adc := rfl
@[simp] theorem State.clearGate_dstUndefined (t : Thread) : (s.clearGate t).dstUndefined = s.dstUndefined := rfl
@[simp] theorem State.clearGate_inflight (t : Thread) : (s.clearGate t).inflight = s.inflight := rfl
@[simp] theorem State.clearGate_mem (t : Thread) : (s.clearGate t).mem = s.mem := rfl

@[simp] theorem State.fillGate_par (t : Thread) (w : Word) : (s.fillGate t w).par = s.par := rfl
@[simp] theorem State.fillGate_cur (t : Thread) (w : Word) : (s.fillGate t w).cur = s.cur := rfl
@[simp] theorem State.fillGate_instr (t : Thread) (w : Word) : (s.fillGate t w).instr = s.instr := rfl
@[simp] theorem State.fillGate_inputs (t : Thread) (w : Word) : (s.fillGate t w).inputs = s.inputs := rfl
@[simp] theorem State.fillGate_replies (t : Thread) (w : Word) : (s.fillGate t w).replies = s.replies := rfl
@[simp] theorem State.fillGate_halt (t : Thread) (w : Word) : (s.fillGate t w).halt = s.halt := rfl
@[simp] theorem State.fillGate_gpr (t : Thread) (w : Word) : (s.fillGate t w).gpr = s.gpr := rfl
@[simp] theorem State.fillGate_cfg (t : Thread) (w : Word) : (s.fillGate t w).cfg = s.cfg := rfl
@[simp] theorem State.fillGate_tcfg (t : Thread) (w : Word) : (s.fillGate t w).tcfg = s.tcfg := rfl
@[simp] theorem State.fillGate_mopQ (t : Thread) (w : Word) : (s.fillGate t w).mopQ = s.mopQ := rfl
@[simp] theorem State.fillGate_replayQ (t : Thread) (w : Word) : (s.fillGate t w).replayQ = s.replayQ := rfl
@[simp] theorem State.fillGate_mopCfg (t : Thread) (w : Word) : (s.fillGate t w).mopCfg = s.mopCfg := rfl
@[simp] theorem State.fillGate_zmaskHi (t : Thread) (w : Word) : (s.fillGate t w).zmaskHi = s.zmaskHi := rfl
@[simp] theorem State.fillGate_expanding (t : Thread) (w : Word) : (s.fillGate t w).expanding = s.expanding := rfl
@[simp] theorem State.fillGate_mopOut (t : Thread) (w : Word) : (s.fillGate t w).mopOut = s.mopOut := rfl
@[simp] theorem State.fillGate_rbuf (t : Thread) (w : Word) : (s.fillGate t w).rbuf = s.rbuf := rfl
@[simp] theorem State.fillGate_recCursor (t : Thread) (w : Word) : (s.fillGate t w).recCursor = s.recCursor := rfl
@[simp] theorem State.fillGate_recLeft (t : Thread) (w : Word) : (s.fillGate t w).recLeft = s.recLeft := rfl
@[simp] theorem State.fillGate_startIdx (t : Thread) (w : Word) : (s.fillGate t w).startIdx = s.startIdx := rfl
@[simp] theorem State.fillGate_playCursor (t : Thread) (w : Word) : (s.fillGate t w).playCursor = s.playCursor := rfl
@[simp] theorem State.fillGate_playLeft (t : Thread) (w : Word) : (s.fillGate t w).playLeft = s.playLeft := rfl
@[simp] theorem State.fillGate_ewl (t : Thread) (w : Word) : (s.fillGate t w).ewl = s.ewl := rfl
@[simp] theorem State.fillGate_latch (t : Thread) (w : Word) : (s.fillGate t w).latch = s.latch := rfl
@[simp] theorem State.fillGate_mutexWait (t : Thread) (w : Word) : (s.fillGate t w).mutexWait = s.mutexWait := rfl
@[simp] theorem State.fillGate_backendStall (t : Thread) (w : Word) : (s.fillGate t w).backendStall = s.backendStall := rfl
@[simp] theorem State.fillGate_queue (t : Thread) (w : Word) : (s.fillGate t w).queue = s.queue := rfl
@[simp] theorem State.fillGate_cfgWritePrev (t : Thread) (w : Word) : (s.fillGate t w).cfgWritePrev = s.cfgWritePrev := rfl
@[simp] theorem State.fillGate_sem (t : Thread) (w : Word) : (s.fillGate t w).sem = s.sem := rfl
@[simp] theorem State.fillGate_mutex (t : Thread) (w : Word) : (s.fillGate t w).mutex = s.mutex := rfl
@[simp] theorem State.fillGate_waiters (t : Thread) (w : Word) : (s.fillGate t w).waiters = s.waiters := rfl
@[simp] theorem State.fillGate_flush (t : Thread) (w : Word) : (s.fillGate t w).flush = s.flush := rfl
@[simp] theorem State.fillGate_rwc (t : Thread) (w : Word) : (s.fillGate t w).rwc = s.rwc := rfl
@[simp] theorem State.fillGate_adc (t : Thread) (w : Word) : (s.fillGate t w).adc = s.adc := rfl
@[simp] theorem State.fillGate_dstUndefined (t : Thread) (w : Word) : (s.fillGate t w).dstUndefined = s.dstUndefined := rfl
@[simp] theorem State.fillGate_inflight (t : Thread) (w : Word) : (s.fillGate t w).inflight = s.inflight := rfl
@[simp] theorem State.fillGate_mem (t : Thread) (w : Word) : (s.fillGate t w).mem = s.mem := rfl

@[simp] theorem State.popReplayQ_par (t : Thread) : (s.popReplayQ t).par = s.par := rfl
@[simp] theorem State.popReplayQ_cur (t : Thread) : (s.popReplayQ t).cur = s.cur := rfl
@[simp] theorem State.popReplayQ_instr (t : Thread) : (s.popReplayQ t).instr = s.instr := rfl
@[simp] theorem State.popReplayQ_inputs (t : Thread) : (s.popReplayQ t).inputs = s.inputs := rfl
@[simp] theorem State.popReplayQ_replies (t : Thread) : (s.popReplayQ t).replies = s.replies := rfl
@[simp] theorem State.popReplayQ_halt (t : Thread) : (s.popReplayQ t).halt = s.halt := rfl
@[simp] theorem State.popReplayQ_gpr (t : Thread) : (s.popReplayQ t).gpr = s.gpr := rfl
@[simp] theorem State.popReplayQ_cfg (t : Thread) : (s.popReplayQ t).cfg = s.cfg := rfl
@[simp] theorem State.popReplayQ_tcfg (t : Thread) : (s.popReplayQ t).tcfg = s.tcfg := rfl
@[simp] theorem State.popReplayQ_mopQ (t : Thread) : (s.popReplayQ t).mopQ = s.mopQ := rfl
@[simp] theorem State.popReplayQ_mopCfg (t : Thread) : (s.popReplayQ t).mopCfg = s.mopCfg := rfl
@[simp] theorem State.popReplayQ_zmaskHi (t : Thread) : (s.popReplayQ t).zmaskHi = s.zmaskHi := rfl
@[simp] theorem State.popReplayQ_expanding (t : Thread) : (s.popReplayQ t).expanding = s.expanding := rfl
@[simp] theorem State.popReplayQ_mopOut (t : Thread) : (s.popReplayQ t).mopOut = s.mopOut := rfl
@[simp] theorem State.popReplayQ_rbuf (t : Thread) : (s.popReplayQ t).rbuf = s.rbuf := rfl
@[simp] theorem State.popReplayQ_recCursor (t : Thread) : (s.popReplayQ t).recCursor = s.recCursor := rfl
@[simp] theorem State.popReplayQ_recLeft (t : Thread) : (s.popReplayQ t).recLeft = s.recLeft := rfl
@[simp] theorem State.popReplayQ_startIdx (t : Thread) : (s.popReplayQ t).startIdx = s.startIdx := rfl
@[simp] theorem State.popReplayQ_playCursor (t : Thread) : (s.popReplayQ t).playCursor = s.playCursor := rfl
@[simp] theorem State.popReplayQ_playLeft (t : Thread) : (s.popReplayQ t).playLeft = s.playLeft := rfl
@[simp] theorem State.popReplayQ_ewl (t : Thread) : (s.popReplayQ t).ewl = s.ewl := rfl
@[simp] theorem State.popReplayQ_gateSlot (t : Thread) : (s.popReplayQ t).gateSlot = s.gateSlot := rfl
@[simp] theorem State.popReplayQ_latch (t : Thread) : (s.popReplayQ t).latch = s.latch := rfl
@[simp] theorem State.popReplayQ_mutexWait (t : Thread) : (s.popReplayQ t).mutexWait = s.mutexWait := rfl
@[simp] theorem State.popReplayQ_backendStall (t : Thread) : (s.popReplayQ t).backendStall = s.backendStall := rfl
@[simp] theorem State.popReplayQ_queue (t : Thread) : (s.popReplayQ t).queue = s.queue := rfl
@[simp] theorem State.popReplayQ_cfgWritePrev (t : Thread) : (s.popReplayQ t).cfgWritePrev = s.cfgWritePrev := rfl
@[simp] theorem State.popReplayQ_sem (t : Thread) : (s.popReplayQ t).sem = s.sem := rfl
@[simp] theorem State.popReplayQ_mutex (t : Thread) : (s.popReplayQ t).mutex = s.mutex := rfl
@[simp] theorem State.popReplayQ_waiters (t : Thread) : (s.popReplayQ t).waiters = s.waiters := rfl
@[simp] theorem State.popReplayQ_flush (t : Thread) : (s.popReplayQ t).flush = s.flush := rfl
@[simp] theorem State.popReplayQ_rwc (t : Thread) : (s.popReplayQ t).rwc = s.rwc := rfl
@[simp] theorem State.popReplayQ_adc (t : Thread) : (s.popReplayQ t).adc = s.adc := rfl
@[simp] theorem State.popReplayQ_dstUndefined (t : Thread) : (s.popReplayQ t).dstUndefined = s.dstUndefined := rfl
@[simp] theorem State.popReplayQ_inflight (t : Thread) : (s.popReplayQ t).inflight = s.inflight := rfl
@[simp] theorem State.popReplayQ_mem (t : Thread) : (s.popReplayQ t).mem = s.mem := rfl

@[simp] theorem State.popMopQ_par (t : Thread) : (s.popMopQ t).par = s.par := rfl
@[simp] theorem State.popMopQ_cur (t : Thread) : (s.popMopQ t).cur = s.cur := rfl
@[simp] theorem State.popMopQ_instr (t : Thread) : (s.popMopQ t).instr = s.instr := rfl
@[simp] theorem State.popMopQ_inputs (t : Thread) : (s.popMopQ t).inputs = s.inputs := rfl
@[simp] theorem State.popMopQ_replies (t : Thread) : (s.popMopQ t).replies = s.replies := rfl
@[simp] theorem State.popMopQ_halt (t : Thread) : (s.popMopQ t).halt = s.halt := rfl
@[simp] theorem State.popMopQ_gpr (t : Thread) : (s.popMopQ t).gpr = s.gpr := rfl
@[simp] theorem State.popMopQ_cfg (t : Thread) : (s.popMopQ t).cfg = s.cfg := rfl
@[simp] theorem State.popMopQ_tcfg (t : Thread) : (s.popMopQ t).tcfg = s.tcfg := rfl
@[simp] theorem State.popMopQ_replayQ (t : Thread) : (s.popMopQ t).replayQ = s.replayQ := rfl
@[simp] theorem State.popMopQ_mopCfg (t : Thread) : (s.popMopQ t).mopCfg = s.mopCfg := rfl
@[simp] theorem State.popMopQ_zmaskHi (t : Thread) : (s.popMopQ t).zmaskHi = s.zmaskHi := rfl
@[simp] theorem State.popMopQ_expanding (t : Thread) : (s.popMopQ t).expanding = s.expanding := rfl
@[simp] theorem State.popMopQ_mopOut (t : Thread) : (s.popMopQ t).mopOut = s.mopOut := rfl
@[simp] theorem State.popMopQ_rbuf (t : Thread) : (s.popMopQ t).rbuf = s.rbuf := rfl
@[simp] theorem State.popMopQ_recCursor (t : Thread) : (s.popMopQ t).recCursor = s.recCursor := rfl
@[simp] theorem State.popMopQ_recLeft (t : Thread) : (s.popMopQ t).recLeft = s.recLeft := rfl
@[simp] theorem State.popMopQ_startIdx (t : Thread) : (s.popMopQ t).startIdx = s.startIdx := rfl
@[simp] theorem State.popMopQ_playCursor (t : Thread) : (s.popMopQ t).playCursor = s.playCursor := rfl
@[simp] theorem State.popMopQ_playLeft (t : Thread) : (s.popMopQ t).playLeft = s.playLeft := rfl
@[simp] theorem State.popMopQ_ewl (t : Thread) : (s.popMopQ t).ewl = s.ewl := rfl
@[simp] theorem State.popMopQ_gateSlot (t : Thread) : (s.popMopQ t).gateSlot = s.gateSlot := rfl
@[simp] theorem State.popMopQ_latch (t : Thread) : (s.popMopQ t).latch = s.latch := rfl
@[simp] theorem State.popMopQ_mutexWait (t : Thread) : (s.popMopQ t).mutexWait = s.mutexWait := rfl
@[simp] theorem State.popMopQ_backendStall (t : Thread) : (s.popMopQ t).backendStall = s.backendStall := rfl
@[simp] theorem State.popMopQ_queue (t : Thread) : (s.popMopQ t).queue = s.queue := rfl
@[simp] theorem State.popMopQ_cfgWritePrev (t : Thread) : (s.popMopQ t).cfgWritePrev = s.cfgWritePrev := rfl
@[simp] theorem State.popMopQ_sem (t : Thread) : (s.popMopQ t).sem = s.sem := rfl
@[simp] theorem State.popMopQ_mutex (t : Thread) : (s.popMopQ t).mutex = s.mutex := rfl
@[simp] theorem State.popMopQ_waiters (t : Thread) : (s.popMopQ t).waiters = s.waiters := rfl
@[simp] theorem State.popMopQ_flush (t : Thread) : (s.popMopQ t).flush = s.flush := rfl
@[simp] theorem State.popMopQ_rwc (t : Thread) : (s.popMopQ t).rwc = s.rwc := rfl
@[simp] theorem State.popMopQ_adc (t : Thread) : (s.popMopQ t).adc = s.adc := rfl
@[simp] theorem State.popMopQ_dstUndefined (t : Thread) : (s.popMopQ t).dstUndefined = s.dstUndefined := rfl
@[simp] theorem State.popMopQ_inflight (t : Thread) : (s.popMopQ t).inflight = s.inflight := rfl
@[simp] theorem State.popMopQ_mem (t : Thread) : (s.popMopQ t).mem = s.mem := rfl

@[simp] theorem State.pushReplayQ_par (t : Thread) (w : Word) : (s.pushReplayQ t w).par = s.par := rfl
@[simp] theorem State.pushReplayQ_cur (t : Thread) (w : Word) : (s.pushReplayQ t w).cur = s.cur := rfl
@[simp] theorem State.pushReplayQ_instr (t : Thread) (w : Word) : (s.pushReplayQ t w).instr = s.instr := rfl
@[simp] theorem State.pushReplayQ_inputs (t : Thread) (w : Word) : (s.pushReplayQ t w).inputs = s.inputs := rfl
@[simp] theorem State.pushReplayQ_replies (t : Thread) (w : Word) : (s.pushReplayQ t w).replies = s.replies := rfl
@[simp] theorem State.pushReplayQ_halt (t : Thread) (w : Word) : (s.pushReplayQ t w).halt = s.halt := rfl
@[simp] theorem State.pushReplayQ_gpr (t : Thread) (w : Word) : (s.pushReplayQ t w).gpr = s.gpr := rfl
@[simp] theorem State.pushReplayQ_cfg (t : Thread) (w : Word) : (s.pushReplayQ t w).cfg = s.cfg := rfl
@[simp] theorem State.pushReplayQ_tcfg (t : Thread) (w : Word) : (s.pushReplayQ t w).tcfg = s.tcfg := rfl
@[simp] theorem State.pushReplayQ_mopQ (t : Thread) (w : Word) : (s.pushReplayQ t w).mopQ = s.mopQ := rfl
@[simp] theorem State.pushReplayQ_mopCfg (t : Thread) (w : Word) : (s.pushReplayQ t w).mopCfg = s.mopCfg := rfl
@[simp] theorem State.pushReplayQ_zmaskHi (t : Thread) (w : Word) : (s.pushReplayQ t w).zmaskHi = s.zmaskHi := rfl
@[simp] theorem State.pushReplayQ_expanding (t : Thread) (w : Word) : (s.pushReplayQ t w).expanding = s.expanding := rfl
@[simp] theorem State.pushReplayQ_mopOut (t : Thread) (w : Word) : (s.pushReplayQ t w).mopOut = s.mopOut := rfl
@[simp] theorem State.pushReplayQ_rbuf (t : Thread) (w : Word) : (s.pushReplayQ t w).rbuf = s.rbuf := rfl
@[simp] theorem State.pushReplayQ_recCursor (t : Thread) (w : Word) : (s.pushReplayQ t w).recCursor = s.recCursor := rfl
@[simp] theorem State.pushReplayQ_recLeft (t : Thread) (w : Word) : (s.pushReplayQ t w).recLeft = s.recLeft := rfl
@[simp] theorem State.pushReplayQ_startIdx (t : Thread) (w : Word) : (s.pushReplayQ t w).startIdx = s.startIdx := rfl
@[simp] theorem State.pushReplayQ_playCursor (t : Thread) (w : Word) : (s.pushReplayQ t w).playCursor = s.playCursor := rfl
@[simp] theorem State.pushReplayQ_playLeft (t : Thread) (w : Word) : (s.pushReplayQ t w).playLeft = s.playLeft := rfl
@[simp] theorem State.pushReplayQ_ewl (t : Thread) (w : Word) : (s.pushReplayQ t w).ewl = s.ewl := rfl
@[simp] theorem State.pushReplayQ_gateSlot (t : Thread) (w : Word) : (s.pushReplayQ t w).gateSlot = s.gateSlot := rfl
@[simp] theorem State.pushReplayQ_latch (t : Thread) (w : Word) : (s.pushReplayQ t w).latch = s.latch := rfl
@[simp] theorem State.pushReplayQ_mutexWait (t : Thread) (w : Word) : (s.pushReplayQ t w).mutexWait = s.mutexWait := rfl
@[simp] theorem State.pushReplayQ_backendStall (t : Thread) (w : Word) : (s.pushReplayQ t w).backendStall = s.backendStall := rfl
@[simp] theorem State.pushReplayQ_queue (t : Thread) (w : Word) : (s.pushReplayQ t w).queue = s.queue := rfl
@[simp] theorem State.pushReplayQ_cfgWritePrev (t : Thread) (w : Word) : (s.pushReplayQ t w).cfgWritePrev = s.cfgWritePrev := rfl
@[simp] theorem State.pushReplayQ_sem (t : Thread) (w : Word) : (s.pushReplayQ t w).sem = s.sem := rfl
@[simp] theorem State.pushReplayQ_mutex (t : Thread) (w : Word) : (s.pushReplayQ t w).mutex = s.mutex := rfl
@[simp] theorem State.pushReplayQ_waiters (t : Thread) (w : Word) : (s.pushReplayQ t w).waiters = s.waiters := rfl
@[simp] theorem State.pushReplayQ_flush (t : Thread) (w : Word) : (s.pushReplayQ t w).flush = s.flush := rfl
@[simp] theorem State.pushReplayQ_rwc (t : Thread) (w : Word) : (s.pushReplayQ t w).rwc = s.rwc := rfl
@[simp] theorem State.pushReplayQ_adc (t : Thread) (w : Word) : (s.pushReplayQ t w).adc = s.adc := rfl
@[simp] theorem State.pushReplayQ_dstUndefined (t : Thread) (w : Word) : (s.pushReplayQ t w).dstUndefined = s.dstUndefined := rfl
@[simp] theorem State.pushReplayQ_inflight (t : Thread) (w : Word) : (s.pushReplayQ t w).inflight = s.inflight := rfl
@[simp] theorem State.pushReplayQ_mem (t : Thread) (w : Word) : (s.pushReplayQ t w).mem = s.mem := rfl

@[simp] theorem State.issue_par (t : Thread) (d : Decoded) : (s.issue t d).par = s.par := rfl
@[simp] theorem State.issue_inputs (t : Thread) (d : Decoded) : (s.issue t d).inputs = s.inputs := rfl
@[simp] theorem State.issue_replies (t : Thread) (d : Decoded) : (s.issue t d).replies = s.replies := rfl
@[simp] theorem State.issue_gpr (t : Thread) (d : Decoded) : (s.issue t d).gpr = s.gpr := rfl
@[simp] theorem State.issue_cfg (t : Thread) (d : Decoded) : (s.issue t d).cfg = s.cfg := rfl
@[simp] theorem State.issue_tcfg (t : Thread) (d : Decoded) : (s.issue t d).tcfg = s.tcfg := rfl
@[simp] theorem State.issue_mopQ (t : Thread) (d : Decoded) : (s.issue t d).mopQ = s.mopQ := rfl
@[simp] theorem State.issue_replayQ (t : Thread) (d : Decoded) : (s.issue t d).replayQ = s.replayQ := rfl
@[simp] theorem State.issue_mopCfg (t : Thread) (d : Decoded) : (s.issue t d).mopCfg = s.mopCfg := rfl
@[simp] theorem State.issue_zmaskHi (t : Thread) (d : Decoded) : (s.issue t d).zmaskHi = s.zmaskHi := rfl
@[simp] theorem State.issue_expanding (t : Thread) (d : Decoded) : (s.issue t d).expanding = s.expanding := rfl
@[simp] theorem State.issue_mopOut (t : Thread) (d : Decoded) : (s.issue t d).mopOut = s.mopOut := rfl
@[simp] theorem State.issue_rbuf (t : Thread) (d : Decoded) : (s.issue t d).rbuf = s.rbuf := rfl
@[simp] theorem State.issue_recCursor (t : Thread) (d : Decoded) : (s.issue t d).recCursor = s.recCursor := rfl
@[simp] theorem State.issue_recLeft (t : Thread) (d : Decoded) : (s.issue t d).recLeft = s.recLeft := rfl
@[simp] theorem State.issue_startIdx (t : Thread) (d : Decoded) : (s.issue t d).startIdx = s.startIdx := rfl
@[simp] theorem State.issue_playCursor (t : Thread) (d : Decoded) : (s.issue t d).playCursor = s.playCursor := rfl
@[simp] theorem State.issue_playLeft (t : Thread) (d : Decoded) : (s.issue t d).playLeft = s.playLeft := rfl
@[simp] theorem State.issue_ewl (t : Thread) (d : Decoded) : (s.issue t d).ewl = s.ewl := rfl
@[simp] theorem State.issue_gateSlot (t : Thread) (d : Decoded) : (s.issue t d).gateSlot = s.gateSlot := rfl
@[simp] theorem State.issue_latch (t : Thread) (d : Decoded) : (s.issue t d).latch = s.latch := rfl
@[simp] theorem State.issue_mutexWait (t : Thread) (d : Decoded) : (s.issue t d).mutexWait = s.mutexWait := rfl
@[simp] theorem State.issue_backendStall (t : Thread) (d : Decoded) : (s.issue t d).backendStall = s.backendStall := rfl
@[simp] theorem State.issue_queue (t : Thread) (d : Decoded) : (s.issue t d).queue = s.queue := rfl
@[simp] theorem State.issue_cfgWritePrev (t : Thread) (d : Decoded) : (s.issue t d).cfgWritePrev = s.cfgWritePrev := rfl
@[simp] theorem State.issue_sem (t : Thread) (d : Decoded) : (s.issue t d).sem = s.sem := rfl
@[simp] theorem State.issue_mutex (t : Thread) (d : Decoded) : (s.issue t d).mutex = s.mutex := rfl
@[simp] theorem State.issue_waiters (t : Thread) (d : Decoded) : (s.issue t d).waiters = s.waiters := rfl
@[simp] theorem State.issue_flush (t : Thread) (d : Decoded) : (s.issue t d).flush = s.flush := rfl
@[simp] theorem State.issue_rwc (t : Thread) (d : Decoded) : (s.issue t d).rwc = s.rwc := rfl
@[simp] theorem State.issue_adc (t : Thread) (d : Decoded) : (s.issue t d).adc = s.adc := rfl
@[simp] theorem State.issue_dstUndefined (t : Thread) (d : Decoded) : (s.issue t d).dstUndefined = s.dstUndefined := rfl
@[simp] theorem State.issue_inflight (t : Thread) (d : Decoded) : (s.issue t d).inflight = s.inflight := rfl
@[simp] theorem State.issue_mem (t : Thread) (d : Decoded) : (s.issue t d).mem = s.mem := rfl
@[simp] theorem State.issue_halt (t : Thread) (d : Decoded) : (s.issue t d).halt = s.halt := rfl
@[simp] theorem State.issue_cur (t : Thread) (d : Decoded) : (s.issue t d).cur = t := rfl
@[simp] theorem State.issue_instr (t : Thread) (d : Decoded) : (s.issue t d).instr = d := rfl

end Sys2Proof.Machine
end

