-- ==== Sys2Proof/Laws/Ops.lean ====
section
/-! SUPPORT. One lemma per shared operation: what it writes, and everything it can answer. -/

namespace Sys2Proof

/-! ## ADC counters -/

/-- Reading a bank built by `ofFn`. -/
@[simp] theorem AdcThread.get_ofFn (f : Group → Fin 2 → Dim → Counter) (g : Group) (c : Fin 2) (d : Dim) :
    (AdcThread.ofFn f).get g c d = f g c d := by
  have hc : c = 0 ∨ c = 1 := by omega
  rcases hc with rfl | rfl <;> cases g <;> cases d <;> rfl

/-- A bank is determined by its counters. -/
theorem AdcThread.ext_get {a b : AdcThread} (h : ∀ g c d, a.get g c d = b.get g c d) : a = b := by
  obtain ⟨⟨⟨_, _, _, _⟩, ⟨_, _, _, _⟩⟩, ⟨⟨_, _, _, _⟩, ⟨_, _, _, _⟩⟩, ⟨⟨_, _, _, _⟩, ⟨_, _, _, _⟩⟩⟩ := a
  obtain ⟨⟨⟨_, _, _, _⟩, ⟨_, _, _, _⟩⟩, ⟨⟨_, _, _, _⟩, ⟨_, _, _, _⟩⟩, ⟨⟨_, _, _, _⟩, ⟨_, _, _, _⟩⟩⟩ := b
  have e : ∀ g c, (∀ d, _) := fun g c d => h g c d
  have a1 := e .u0 0; have a2 := e .u0 1; have a3 := e .u1 0
  have a4 := e .u1 1; have a5 := e .pk 0; have a6 := e .pk 1
  have x1 := a1 .x; have y1 := a1 .y; have z1 := a1 .z; have w1 := a1 .w
  have x2 := a2 .x; have y2 := a2 .y; have z2 := a2 .z; have w2 := a2 .w
  have x3 := a3 .x; have y3 := a3 .y; have z3 := a3 .z; have w3 := a3 .w
  have x4 := a4 .x; have y4 := a4 .y; have z4 := a4 .z; have w4 := a4 .w
  have x5 := a5 .x; have y5 := a5 .y; have z5 := a5 .z; have w5 := a5 .w
  have x6 := a6 .x; have y6 := a6 .y; have z6 := a6 .z; have w6 := a6 .w
  simp only [AdcThread.get, AdcThread.group, AdcGroup.chan, AdcChannel.get, if_true, Fin.isValue, Fin.one_eq_zero_iff,
    OfNat.ofNat_ne_one, if_false] at *
  subst_vars
  rfl

/-- Truncation fits the width. -/
theorem truncTo_lt (n v : Nat) : truncTo n v < 2 ^ n := Nat.mod_lt _ (Nat.two_pow_pos n)

/-- Truncating what fits changes nothing. -/
theorem truncTo_of_lt {n v : Nat} (h : v < 2 ^ n) : truncTo n v = v := Nat.mod_eq_of_lt h

/-! ## Vectors indexed by a thread, a unit, a semaphore -/

/-- Reading a vector after one of its places was written. -/
theorem vget_set {α : Type} {n : Nat} (v : Vector α n) (t u : Fin n) (x : α) :
    (v.set t x)[u] = if u = t then x else v[u] := by
  simp only [Fin.getElem_fin, Vector.getElem_set, Fin.val_inj, eq_comm (a := t)]

/-- Reading the place that was written. -/
theorem vget_set_self {α : Type} {n : Nat} (v : Vector α n) (t : Fin n) (x : α) : (v.set t x)[t] = x := by
  rw [vget_set, if_pos rfl]

/-- Reading another place. -/
theorem vget_set_ne {α : Type} {n : Nat} (v : Vector α n) {t u : Fin n} (h : u ≠ t) (x : α) :
    (v.set t x)[u] = v[u] := by
  rw [vget_set, if_neg h]

/-- Writing what is there changes nothing. -/
theorem vset_self {α : Type} {n : Nat} {v : Vector α n} {t : Fin n} {x : α} (h : v[t] = x) : v.set t x = v := by
  subst h
  ext i hi
  rw [Vector.getElem_set]
  split
  · next e => subst e; rfl
  · rfl

end Sys2Proof

namespace Sys2Proof.Machine

variable (s : State)

/-! ## Queues -/

/-- `unitIndex` tells units apart. -/
theorem unitIndex_inj {u v : FUnit} : unitIndex u = unitIndex v ↔ u = v := by
  cases u <;> cases v <;> decide

/-- `dmaIndex` tells units apart. -/
theorem dmaIndex_inj {u v : DmaUnit} : dmaIndex u = dmaIndex v ↔ u = v := by
  cases u <;> cases v <;> decide

/-- A queue after a queue is written. -/
theorem State.queueOf_setQueue (u v : FUnit) (q : List Entry) :
    (s.setQueue u q).queueOf v = if v = u then q else s.queueOf v := by
  simp only [State.queueOf, State.setQueue, Fin.getElem_fin, Vector.getElem_set, Fin.val_inj, unitIndex_inj,
    eq_comm (a := u)]

/-- A queue after an entry is appended. -/
theorem State.queueOf_pushEntry (u v : FUnit) (e : Entry) :
    (s.pushEntry u e).queueOf v = if v = u then s.queueOf u ++ [e] else s.queueOf v :=
  s.queueOf_setQueue u v _

/-- An in-flight counter after one is written. -/
theorem State.inflightOf_setInflight (u v : DmaUnit) (t t' : Thread) (n : Nat) :
    (s.setInflight u t n).inflightOf v t' = if v = u ∧ t' = t then n else s.inflightOf v t' := by
  simp only [State.inflightOf, State.setInflight, Fin.getElem_fin, Vector.getElem_set, Fin.val_inj, dmaIndex_inj,
    eq_comm (a := u)]
  by_cases h : v = u
  · subst h; simp [Vector.getElem_set, Fin.val_inj, eq_comm (a := t)]
  · simp [h]

/-! ## Semaphores -/

/-- A semaphore after an operation over a selector (R198). -/
@[simp] theorem State.sem_overSemaphores (sel : Nat) (f : Semaphore → Semaphore) (i : Fin 8) :
    (s.overSemaphores sel f).sem[i] = if sel.testBit i then f s.sem[i] else s.sem[i] := by
  simp [State.overSemaphores]

/-! ## Raising -/

/-- A stopped state has ended. -/
@[simp] theorem State.halted_stop (y : Stop) (t : Thread) (c : Component) : (s.stop y t c).halted = true := rfl

/-- What a stopped state records. -/
@[simp] theorem State.halt_stop (y : Stop) (t : Thread) (c : Component) :
    (s.stop y t c).halt = some ⟨y, some t, some c⟩ := rfl

/-- Everything `absorb` can do: the next state of the meaning, or the state kept and stopped. -/
theorem State.absorb_cases (t : Thread) (c : Component) (r : Result) :
    (∃ s', r = .next s' ∧ s.absorb t c r = s') ∨
    (∃ y, (∀ s', r ≠ .next s') ∧ s.absorb t c r = s.stop y t c) := by
  cases r with
  | next s' => exact .inl ⟨s', rfl, rfl⟩
  | fault f => exact .inr ⟨.fault f, by simp, rfl⟩
  | refused x => exact .inr ⟨.refused x, by simp, rfl⟩

/-- `andThen` on a run that goes on. -/
theorem State.andThen_of_running {f : State → State} (h : s.halted = false) : s.andThen f = f s := by
  simp [State.andThen, h]

/-- `andThen` on a run that has ended. -/
theorem State.andThen_of_halted {f : State → State} (h : s.halted = true) : s.andThen f = s := by
  simp [State.andThen, h]

/-- Everything `andThen` can do. -/
theorem State.andThen_cases (f : State → State) :
    (s.halted = true ∧ s.andThen f = s) ∨ (s.halted = false ∧ s.andThen f = f s) := by
  cases h : s.halted
  · exact .inr ⟨rfl, s.andThen_of_running h⟩
  · exact .inl ⟨rfl, s.andThen_of_halted h⟩

/-- `orFault` answers next only through its continuation. -/
theorem orFault_next {α : Type} {e : Except FieldRef α} {k : α → Result} {t : State}
    (h : orFault e k = .next t) : ∃ a, e = .ok a ∧ k a = .next t := by
  cases e with
  | ok a => exact ⟨a, rfl, h⟩
  | error r => simp [orFault] at h

/-! ## The ADC family's shared operation (R230) -/

/-- Everything `overAdc` can answer as a next state: the target thread's bank, counter by counter. -/
theorem State.overAdc_next {ovr m : Nat} {f : Fin 2 → Dim → Option (Counter → Counter)} {t : State}
    (h : s.overAdc ovr m f = .next t) :
    ∃ t', overrideThread s.cur ovr = .ok t' ∧ t = { s with adc := t.adc } ∧
      (∀ u : Thread, u ≠ t' → t.adc[u] = s.adc[u]) ∧
      ∀ g c d, t.adc[t'].get g c d =
        match f c d with
        | some k => if groupSelected m g then k (s.adc[t'].get g c d) else s.adc[t'].get g c d
        | none => s.adc[t'].get g c d := by
  obtain ⟨t', ht', hk⟩ := orFault_next h
  cases hk
  refine ⟨t', ht', rfl, fun u hu => ?_, fun g c d => ?_⟩
  · have : (t' : Nat) ≠ u := fun e => hu (Fin.ext e.symm)
    simp [this]
  · simp only [Fin.getElem_fin, Vector.getElem_set_self, AdcThread.get_ofFn]
    cases f c d <;> simp

/-! ## Offers (R153) -/

/-- Everything `offerIf` can answer. -/
theorem State.offerIf_cases (u : FUnit) (e : Entry) (ok : Bool) :
    (ok = true ∧ s.offerIf u e ok = .taken (s.pushEntry u e)) ∨ (ok = false ∧ s.offerIf u e ok = .rejected) := by
  cases ok
  · exact .inr ⟨rfl, rfl⟩
  · exact .inl ⟨rfl, rfl⟩

/-- A taken offer had its condition. -/
theorem State.offerIf_taken {u : FUnit} {e : Entry} {ok : Bool} {s' : State} (h : s.offerIf u e ok = .taken s') :
    ok = true := by
  rcases s.offerIf_cases u e ok with ⟨hok, -⟩ | ⟨-, hx⟩
  · exact hok
  · rw [hx] at h; cases h

/-- Everything an offer can take: the entry appended to the unit's queue, nothing else. -/
theorem State.offer_taken {u : FUnit} {t : Thread} {d : Decoded} {s' : State} (h : s.offer u t d = .taken s') :
    s' = s.pushEntry u ⟨d.word, t⟩ := by
  have key : ∀ (u : FUnit) (e : Entry) (ok : Bool), s.offerIf u e ok = .taken s' → s' = s.pushEntry u e := by
    intro u e ok h
    rcases s.offerIf_cases u e ok with ⟨-, hx⟩ | ⟨-, hx⟩
    · rw [hx] at h; cases h; rfl
    · rw [hx] at h; cases h
  cases u
  case config => exact key _ _ _ h
  case sync =>
    simp only [State.offer, State.offerSync] at h
    split at h
    · split at h
      · cases h
      · exact key _ _ _ h
    · exact key _ _ _ h
  all_goals exact key _ _ _ h

/-! ## The step -/

/-- The three outcomes of a step, by what the cycle's state records. -/
theorem step_next_iff {t : State} : step s = .next t ↔ s.cycle = t ∧ t.halt = none := by
  simp only [step, State.outcome]
  rcases h : s.cycle.halt with _ | ⟨_ | _, _, _⟩
  · constructor
    · intro e; cases e; exact ⟨rfl, h⟩
    · rintro ⟨rfl, -⟩; rfl
  all_goals
    constructor
    · intro e; cases e
    · rintro ⟨rfl, h'⟩; rw [h] at h'; cases h'

end Sys2Proof.Machine
end

