-- ==== Sys2Proof/Laws/Exec.lean ====
section
/-! SUPPORT. One lemma per meaning: what a next state of it can differ in. `exec_next` says it of all instructions at
once, so that a proof about a tick needs no case split on the instruction. -/

namespace Sys2Proof.Machine

variable {s t : State}

/-! ## Frontend -/

/-- MOP writes the expansion and the high-mask latch. -/
theorem execMop_next {a b c : Nat} (h : execMop a b c s = .next t) :
    t = { s with mopOut := t.mopOut, expanding := t.expanding, zmaskHi := t.zmaskHi } := by
  simp only [execMop] at h
  split at h <;> (cases h; rfl)

/-- MOP_CFG writes the high-mask latch. -/
theorem execMopCfg_next {a : Nat} (h : execMopCfg a s = .next t) : t = { s with zmaskHi := t.zmaskHi } := by
  cases h; rfl

/-- REPLAY writes the cursors. -/
theorem execReplay_next {a b c d : Nat} (h : execReplay a b c d s = .next t) :
    s.recLeft[s.cur] = 0 ∧
    t = { s with
      startIdx := t.startIdx, recCursor := t.recCursor, recLeft := t.recLeft, ewl := t.ewl,
      playCursor := t.playCursor, playLeft := t.playLeft } := by
  simp only [execReplay] at h
  split at h
  · cases h
  · refine ⟨by omega, ?_⟩
    split at h <;> (cases h; rfl)

/-- STALLWAIT writes the latch. -/
theorem execStallwait_next {a b : Nat} (h : execStallwait a b s = .next t) :
    t = { s with latch := s.latch.set s.cur ⟨.stallwait, a, b, none⟩ } := by
  cases h; rfl

/-- SEMWAIT writes the latch. -/
theorem execSemwait_next {a b c : Nat} (h : execSemwait a b c s = .next t) :
    ∃ l : Latch, l.kind ≠ .none ∧ (l.semSel.isSome = true ↔ l.kind = .semwait) ∧
      t = { s with latch := s.latch.set s.cur l } := by
  simp only [execSemwait] at h
  split at h <;> (cases h; exact ⟨_, by simp, by simp, rfl⟩)

/-! ## Config -/

/-- Copying registers into config words changes nothing else. -/
theorem copyGprToCfg_frame (u : Thread) (b : Fin 2) (r c n : Nat) :
    s.copyGprToCfg u b r c n = { s with cfg := (s.copyGprToCfg u b r c n).cfg } := by
  induction n with
  | zero => rfl
  | succ n ih => rw [State.copyGprToCfg]; conv_lhs => rw [ih]
                 rfl

/-- SETC16 writes the issuing thread's configuration. -/
theorem execSetc16_next {v r : Nat} (h : execSetc16 v r s = .next t) : t = { s with tcfg := t.tcfg } := by
  simp only [execSetc16] at h
  split at h
  · cases h; rfl
  · cases h

/-- WRCFG writes the general configuration. -/
theorem execWrcfg_next {a b c : Nat} (h : execWrcfg a b c s = .next t) : t = { s with cfg := t.cfg } := by
  obtain ⟨k, -, h⟩ := orFault_next h
  obtain ⟨-, -, h⟩ := orFault_next h
  cases h
  exact copyGprToCfg_frame _ _ _ _ _

/-- RMWCIB writes the general configuration. -/
theorem rmwLane_next {k a b c : Nat} (h : s.rmwLane k a b c = .next t) : t = { s with cfg := t.cfg } := by
  obtain ⟨k, -, h⟩ := orFault_next h
  dsimp only at h
  split at h
  · cases h; rfl
  · cases h

/-! ## Sync -/

/-- ATGETM grants the mutex and informs the gate, or appends the thread to the waiters. -/
theorem execAtgetm_next {i : Nat} (h : execAtgetm i s = .next t) :
    ∃ j : Fin 8, mutexIndex i = .ok j ∧
      ((s.mutexGrantable s.cur j = true ∧
          t = { s with mutex := s.mutex.set j (some s.cur), mutexWait := s.mutexWait.set s.cur false }) ∨
       (s.mutexGrantable s.cur j = false ∧ t = { s with waiters := s.waiters ++ [(s.cur, j.val)] })) := by
  obtain ⟨j, hj, h⟩ := orFault_next h
  refine ⟨j, hj, ?_⟩
  split at h
  · next hg => cases h; exact .inl ⟨hg, rfl⟩
  · next hg => cases h; exact .inr ⟨by simpa using hg, rfl⟩

/-- ATRELM frees the mutex of its holder, or does nothing. -/
theorem execAtrelm_next {i : Nat} (h : execAtrelm i s = .next t) :
    ∃ j : Fin 8, mutexIndex i = .ok j ∧
      ((s.mutex[j] = some s.cur ∧ t = { s with mutex := s.mutex.set j none }) ∨
       (s.mutex[j] ≠ some s.cur ∧ t = s)) := by
  obtain ⟨j, hj, h⟩ := orFault_next h
  refine ⟨j, hj, ?_⟩
  split at h
  · next hg => cases h; exact .inl ⟨hg, rfl⟩
  · next hg => cases h; exact .inr ⟨hg, rfl⟩

/-! ## Scalar -/

/-- Writing a list of configuration words reaches the general configuration only. -/
theorem cfgWrites_frame (ws : List CfgWrite) (s : State) : ∃ c, ws.foldl State.cfgWrite s = { s with cfg := c } := by
  induction ws generalizing s with
  | nil => exact ⟨_, rfl⟩
  | cons w ws ih =>
    rw [List.foldl_cons, State.cfgWrite]
    split
    · obtain ⟨c, h⟩ := ih (s.setCfg ⟨w.bank, ‹_›⟩ w.idx w.value)
      exact ⟨c, h⟩
    · exact ih s

/-- A write of a counter field reaches the counters only. -/
theorem counterWrite_frame (s : State) (u : Thread) (w : AdcWrite) : ∃ a, s.counterWrite u w = { s with adc := a } := by
  unfold State.counterWrite
  split <;> exact ⟨_, rfl⟩

/-- Writing a list of counter fields reaches the counters only. -/
theorem adcWrites_frame (u : Thread) (ws : List AdcWrite) (s : State) :
    ∃ a, ws.foldl (fun s' w => s'.counterWrite u w) s = { s with adc := a } := by
  induction ws generalizing s with
  | nil => exact ⟨_, rfl⟩
  | cons w ws ih =>
    obtain ⟨b, e⟩ := counterWrite_frame s u w
    obtain ⟨a, h⟩ := ih (s.counterWrite u w)
    exact ⟨a, by rw [List.foldl_cons, h, e]⟩

/-- Loading consecutive registers reaches the general registers only. -/
theorem loadRegisters_frame (reg n : Nat) (vs : Vector Word 4) :
    ∃ g, s.loadRegisters reg vs n = { s with gpr := g } := by
  induction n with
  | zero => exact ⟨_, rfl⟩
  | succ n ih =>
    obtain ⟨g, h⟩ := ih
    exact ⟨_, by rw [State.loadRegisters, h]; rfl⟩

/-- REG2FLOP writes configuration words, counters or registers, one of the three kinds. -/
theorem execReg2flop_next {a b c d e f : Nat} (h : execReg2flop a b c d e f s = .next t) :
    thconBadIndex s.par.ngpr (s.thconReg a s.thconMove) s.thconMove = none ∧
    t = s.thconApply (s.thconReg a s.thconMove) s.thconMove.size s.thconMove.effect := by
  simp only [execReg2flop] at h
  split at h
  · cases h
  · next hb => cases h; exact ⟨hb, rfl⟩

/-- The writes of a THCON move reach configuration words, counters or registers only. -/
theorem thconApply_frame (reg : Nat) (n : MoveSize) (x : MoveEffect) :
    ∃ g c a, s.thconApply reg n x = { s with gpr := g, cfg := c, adc := a } := by
  cases x with
  | toConfig ws => obtain ⟨c, h⟩ := cfgWrites_frame ws s; exact ⟨_, c, _, h⟩
  | toCounters o ws => obtain ⟨a, h⟩ := adcWrites_frame (s.thconTarget o) ws s; exact ⟨_, _, a, h⟩
  | toRegisters _ vs => obtain ⟨g, h⟩ := loadRegisters_frame reg (moveRegisters n) vs (s := s); exact ⟨g, _, _, h⟩

/-- STOREREG writes the external memory. -/
theorem execStorereg_next {a r : Nat} (h : execStorereg a r s = .next t) :
    t = { s with mem := s.mem.writeBytes (s.storeregAddr a) (le32 (s.gprOf s.cur r)) } := by
  simp only [execStorereg] at h
  split at h
  · split at h
    · cases h; rfl
    · cases h
  · cases h

/-- FLUSHDMA stalls the Scalar unit and the thread, or does nothing. -/
theorem execFlushdma_next {m : Nat} (h : execFlushdma m s = .next t) :
    t = { s with flush := t.flush, backendStall := t.backendStall } := by
  simp only [execFlushdma] at h
  split at h <;> (cases h; rfl)

/-! ## ADC -/

/-- The ADC family writes counters. -/
theorem overAdc_frame {ovr m : Nat} {f : Fin 2 → Dim → Option (Counter → Counter)}
    (h : s.overAdc ovr m f = .next t) : t = { s with adc := t.adc } := by
  obtain ⟨-, -, ht, -⟩ := s.overAdc_next h
  exact ht

/-- SETADC writes counters. -/
theorem execSetadc_next {a b c d e : Nat} (h : execSetadc a b c d e s = .next t) : t = { s with adc := t.adc } := by
  obtain ⟨u, -, h⟩ := orFault_next h
  obtain ⟨c', -, h⟩ := orFault_next h
  obtain ⟨d', -, h⟩ := orFault_next h
  exact overAdc_frame h

/-! ## Matrix and Mover -/

/-- SETRWC writes the issuing thread's RWC set. -/
theorem execSetrwc_next {a b c d e f : Nat} (h : execSetrwc a b c d e f s = .next t) :
    t = { s with rwc := t.rwc } := by
  cases h; rfl

/-- ZEROACC writes row marks and the issuing thread's RWC set. -/
theorem execZeroacc_next {a b c : Nat} (h : execZeroacc a b c s = .next t) :
    ∃ rows : List Nat, (∀ r ∈ rows, r < s.par.dstRows) ∧
      (t = s.markRows rows ∨ ∃ bank, t = (s.markRows rows).applyAddrMod bank b) := by
  simp only [execZeroacc] at h
  split at h
  · cases h
  · split at h
    · cases h
    · next hrows =>
      have hr := List.find?_eq_none.mp hrows
      obtain ⟨k, -, h⟩ := orFault_next h
      cases k with
      | none => cases h; exact ⟨_, by simpa using hr, .inl rfl⟩
      | some k => cases h; exact ⟨_, by simpa using hr, .inr ⟨k, rfl⟩⟩

/-- XMOV writes the external memory, or does nothing. -/
theorem execXmov_next {a b : Nat} (h : execXmov a b s = .next t) :
    t = s ∨ ∃ addr bs, t = { s with mem := s.mem.writeBytes addr bs } := by
  simp only [execXmov] at h
  split at h
  · split at h
    · cases h; exact .inl rfl
    · split at h
      · cases h
      · cases h; exact .inr ⟨_, _, rfl⟩
  · cases h

/-! ## All instructions -/

/-- No instruction's meaning touches the parameters, the model's own fields, the FIFOs and queues, the macro words,
the replay slots, the in-flight counters or the Config unit's hysteresis flag. -/
theorem exec_next {i : Instr} (h : exec i s = .next t) :
    t = { s with
      gpr := t.gpr, cfg := t.cfg, tcfg := t.tcfg, zmaskHi := t.zmaskHi, expanding := t.expanding,
      mopOut := t.mopOut, recCursor := t.recCursor, recLeft := t.recLeft, startIdx := t.startIdx,
      playCursor := t.playCursor, playLeft := t.playLeft, ewl := t.ewl, latch := t.latch,
      mutexWait := t.mutexWait, backendStall := t.backendStall, sem := t.sem, mutex := t.mutex,
      waiters := t.waiters, flush := t.flush, rwc := t.rwc, adc := t.adc, dstUndefined := t.dstUndefined,
      mem := t.mem } := by
  cases i <;> simp only [exec] at h
  case mop => rw [execMop_next h]
  case nop => cases h; rfl
  case mopCfg => rw [execMopCfg_next h]
  case replay => rw [(execReplay_next h).2]
  case zeroacc =>
    obtain ⟨rows, -, rfl | ⟨bank, rfl⟩⟩ := execZeroacc_next h <;> rfl
  case setrwc => rw [execSetrwc_next h]
  case xmov => obtain rfl | ⟨addr, bs, rfl⟩ := execXmov_next h <;> rfl
  case flushdma => rw [execFlushdma_next h]
  case reg2flop =>
    obtain ⟨-, rfl⟩ := execReg2flop_next h
    obtain ⟨g, c, a, e⟩ := thconApply_frame (s.thconReg _ s.thconMove) s.thconMove.size s.thconMove.effect (s := s)
    rw [e]
  case setadc => rw [execSetadc_next h]
  case setadcxx => cases h
  case dmanop => cases h; rfl
  case storereg => rw [execStorereg_next h]
  case sfpnop => cases h; rfl
  case atgetm => obtain ⟨j, -, ⟨-, rfl⟩ | ⟨-, rfl⟩⟩ := execAtgetm_next h <;> rfl
  case atrelm => obtain ⟨j, -, ⟨-, rfl⟩ | ⟨-, rfl⟩⟩ := execAtrelm_next h <;> rfl
  case stallwait => rw [execStallwait_next h]
  case seminit => cases h; rfl
  case sempost => cases h; rfl
  case semget => cases h; rfl
  case semwait => obtain ⟨l, -, -, rfl⟩ := execSemwait_next h; rfl
  case wrcfg => rw [execWrcfg_next h]
  case setc16 => rw [execSetc16_next h]
  case rmwcib0 => rw [rmwLane_next h]
  case rmwcib1 => rw [rmwLane_next h]
  case rmwcib2 => rw [rmwLane_next h]
  case rmwcib3 => rw [rmwLane_next h]
  all_goals rw [overAdc_frame h]

/-- What `exec_next` says, field by field. -/
theorem exec_par {i : Instr} (h : exec i s = .next t) : t.par = s.par := by rw [exec_next h]

theorem exec_cur {i : Instr} (h : exec i s = .next t) : t.cur = s.cur := by rw [exec_next h]

theorem exec_instr {i : Instr} (h : exec i s = .next t) : t.instr = s.instr := by rw [exec_next h]

theorem exec_halt {i : Instr} (h : exec i s = .next t) : t.halt = s.halt := by rw [exec_next h]

theorem exec_queue {i : Instr} (h : exec i s = .next t) : t.queue = s.queue := by rw [exec_next h]

theorem exec_inflight {i : Instr} (h : exec i s = .next t) : t.inflight = s.inflight := by rw [exec_next h]

theorem exec_gateSlot {i : Instr} (h : exec i s = .next t) : t.gateSlot = s.gateSlot := by rw [exec_next h]

theorem exec_mopQ {i : Instr} (h : exec i s = .next t) : t.mopQ = s.mopQ := by rw [exec_next h]

theorem exec_replayQ {i : Instr} (h : exec i s = .next t) : t.replayQ = s.replayQ := by rw [exec_next h]

theorem exec_cfgWritePrev {i : Instr} (h : exec i s = .next t) : t.cfgWritePrev = s.cfgWritePrev := by
  rw [exec_next h]

end Sys2Proof.Machine
end

