-- ==== Sys2Proof/Laws/Cycle.lean ====
section
/-! SUPPORT. The induction of the cycle, packaged once: what every primitive write of a stage keeps, the stage keeps,
and what every stage and every move keeps, a step keeps. A predicate `P` is an invariant when the hypotheses of
`step_keeps` hold of it. -/

namespace Sys2Proof.Machine

variable {P : State → Prop}

/-- `andThen` keeps what both parts keep. -/
theorem andThen_keeps {s : State} {f : State → State} (h : P s) (hf : s.halted = false → P (f s)) :
    P (s.andThen f) := by
  rcases s.andThen_cases f with ⟨-, e⟩ | ⟨hr, e⟩ <;> rw [e]
  · exact h
  · exact hf hr

/-- An instruction built from a name has that name. -/
theorem build_opName {n : OpName} {look : ArgName → Nat} {o : Nat} {i : Instr}
    (h : Instr.build n look o = some i) : i.opName = n := by
  cases n <;> cases h <;> rfl

/-- The instruction of a decoded word has the word's name. -/
theorem toInstr_opName {d : Decoded} {i : Instr} (h : d.toInstr = some i) : i.opName = d.name := build_opName h

/-- Everything executing an instruction can do: its next state, or the state kept and stopped. -/
theorem runInstr_cases (s : State) (c : Component) (t : Thread) (d : Decoded) (i : Instr) :
    (∃ s', (s.issue t d).missingArg i = none ∧ exec i (s.issue t d) = .next s' ∧ s.runInstr c t d i = s') ∨
    (∃ y, s.runInstr c t d i = s.stop y t c) := by
  unfold State.runInstr
  split
  · exact .inr ⟨_, rfl⟩
  · next hm =>
    rcases s.absorb_cases t c (exec i (s.issue t d)) with ⟨s', hs, e⟩ | ⟨y, -, e⟩
    · exact .inl ⟨s', hm, hs, e⟩
    · exact .inr ⟨y, e⟩

/-- Executing an instruction keeps what `exec` and a stop keep. -/
theorem runInstr_keeps (hstop : ∀ s y t c, P s → P (s.stop y t c))
    (hissue : ∀ s t d, P s → P (s.issue t d)) {i : Instr}
    (hexec : ∀ s t, P s → exec i s = .next t → P t) {s : State} (h : P s) (c : Component) (t : Thread) (d : Decoded) :
    P (s.runInstr c t d i) := by
  rcases runInstr_cases s c t d i with ⟨s', -, hs, e⟩ | ⟨y, e⟩ <;> rw [e]
  · exact hexec _ _ (hissue _ _ _ h) hs
  · exact hstop _ _ _ _ h

/-- Executing a decoded word keeps what `exec` of an instruction of its name and a stop keep. -/
theorem runDecoded_keeps (hstop : ∀ s y t c, P s → P (s.stop y t c))
    (hissue : ∀ s t d, P s → P (s.issue t d)) {d : Decoded}
    (hexec : ∀ s t i, i.opName = d.name → P s → exec i s = .next t → P t)
    {s u : State} (h : P s) (hu : P u) (c : Component) (t : Thread) :
    P (s.runDecoded c t d u) := by
  unfold State.runDecoded
  split
  · exact hu
  · next i hi => exact runInstr_keeps hstop hissue (fun s t => hexec s t i (toInstr_opName hi)) h _ _ _

/-- The wait gate keeps what its primitive writes keep. -/
theorem gateTick_keeps (hstop : ∀ s y t c, P s → P (s.stop y t c))
    (hissue : ∀ s t d, P s → P (s.issue t d))
    (hexec : ∀ s t i, i.opName = .stallwait ∨ i.opName = .semwait → P s → exec i s = .next t → P t)
    (hlatch : ∀ s (t : Thread), P s → P { s with latch := s.latch.set t Latch.clear })
    (hclear : ∀ s t, P s → P (s.clearGate t))
    (hforward : ∀ s s' t w d, P s → s.halted = false → s.mutexWait[t] = false → s.gateSlot[t] = some w →
      s.par.schema.decode w = some d → s.dispatch t d = .taken s' → P (s'.forwarded t d.name))
    {s : State} (h : P s) (t : Thread) : P (s.gateTick t) := by
  have h1 : P (s.refreshLatch t) := by
    unfold State.refreshLatch
    split
    · exact h
    · split
      · exact hstop _ _ _ _ h
      · exact h
      · exact hlatch _ _ h
  refine andThen_keeps h1 fun hr1 => ?_
  generalize s.refreshLatch t = s1 at h1 hr1
  unfold State.gateForward
  split
  · exact h1
  · next w hw =>
    split
    · exact hstop _ _ _ _ h1
    · next d hd =>
      unfold State.gateWord
      split
      · exact h1
      · next hheld =>
        split
        · next hn =>
          split
          · exact h1
          · have hx := runDecoded_keeps hstop hissue (fun s t i hi => hexec s t i (hi ▸ hn)) h1 h1 (.frontend t) t
            exact andThen_keeps hx fun _ => hclear _ _ hx
        · split
          · exact hstop _ _ _ _ h1
          · split
            · exact h1
            · split
              · next s' hs' =>
                exact hforward _ _ _ _ _ h1 hr1 (by simpa using hheld : _ ∧ _).1 hw hd hs'
              · split
                · exact h1
                · exact hclear _ _ h1
              · exact hstop _ _ _ _ h1

/-- The replay expander keeps what its primitive writes keep. -/
theorem replayTick_keeps (hstop : ∀ s y t c, P s → P (s.stop y t c))
    (hissue : ∀ s t d, P s → P (s.issue t d))
    (hexec : ∀ s t i, i.opName = .replay → P s → exec i s = .next t → P t)
    (hplay : ∀ s (t : Thread) w, P s → s.gateSlot[t] = none → 0 < s.playLeft[t] →
      P { s.fillGate t w with
        playCursor := s.playCursor.set t (s.playCursor[t] + 1)
        playLeft := s.playLeft.set t (s.playLeft[t] - 1) })
    (hpop : ∀ s t, P s → P (s.popReplayQ t))
    (hfill : ∀ s (t : Thread) w, P s → s.gateSlot[t] = none → P (s.fillGate t w))
    (hrec : ∀ s (t : Thread) w, P s → P { s with
      rbuf := s.rbuf.set t (s.rbuf[t].setIfInBounds (s.recCursor[t] % replaySlots) (some w))
      recCursor := s.recCursor.set t (s.recCursor[t] + 1)
      recLeft := s.recLeft.set t (s.recLeft[t] - 1) })
    {s : State} (h : P s) (t : Thread) : P (s.replayTick t) := by
  unfold State.replayTick
  split
  · next hp =>
    unfold State.playTick
    split
    · exact h
    · next hg =>
      dsimp only
      split
      · exact hstop _ _ _ _ h
      · exact hplay _ _ _ h hg hp
  · split
    · exact h
    · split
      · exact hstop _ _ _ _ h
      · unfold State.replayWord
        split
        · next hn =>
          have hx := runDecoded_keeps hstop hissue (fun s t i hi => hexec s t i (hi.trans hn)) h h (.frontend t) t
          exact andThen_keeps hx fun _ => hpop _ _ hx
        · split
          · unfold State.recordTick
            split
            · exact h
            · next hw =>
              dsimp only
              split
              · next he =>
                refine hpop _ _ (hfill _ _ _ (hrec _ _ _ h) ?_)
                simpa [he] using hw
              · exact hpop _ _ (hrec _ _ _ h)
          · split
            · next hg => exact hpop _ _ (hfill _ _ _ h hg)
            · exact h

/-- The macro expander keeps what its primitive writes keep. -/
theorem mopTick_keeps (hstop : ∀ s y t c, P s → P (s.stop y t c))
    (hissue : ∀ s t d, P s → P (s.issue t d))
    (hexec : ∀ s t i, i.opName = .mop ∨ i.opName = .mopCfg → P s → exec i s = .next t → P t)
    (hpop : ∀ s t, P s → P (s.popMopQ t))
    (hpush : ∀ s (t : Thread) w, P s → s.replayQ[t].length < s.par.capReplayQ → P (s.pushReplayQ t w))
    (hemit : ∀ s t, P s → P (s.mopEmit t)) {s : State} (h : P s) (t : Thread) : P (s.mopTick t) := by
  unfold State.mopTick
  split
  · exact hemit _ _ h
  · split
    · exact h
    · split
      · exact hstop _ _ _ _ h
      · unfold State.mopWord
        split
        · next hn =>
          have hx := runDecoded_keeps hstop hissue (fun s t i hi => hexec s t i (.inr (hi.trans hn))) h h (.frontend t) t
          exact andThen_keeps hx fun _ => hpop _ _ hx
        · split
          · next hn =>
            have hx := runDecoded_keeps hstop hissue (fun s t i hi => hexec s t i (.inl (hi.trans hn))) h h
              (.frontend t) t
            exact andThen_keeps hx fun _ => hemit _ _ (hpop _ _ hx)
          · split
            · next hl => exact hpop _ _ (hpush _ _ _ h hl)
            · exact h

/-- The drain loop keeps what executing an entry keeps. -/
theorem drainLoop_keeps {u : FUnit} (hstop : ∀ s y t c, P s → P (s.stop y t c))
    (hissue : ∀ s t d, P s → P (s.issue t d))
    (hexec : ∀ s t i, homeUnit i.opName = some u → P s → exec i s = .next t → P t)
    (hinf : ∀ s v t n, P s → P (s.setInflight v t n)) (q : List Entry) {s : State} (h : P s) :
    P (State.drainLoop u q s) := by
  unfold State.drainLoop
  induction q generalizing s with
  | nil => exact h
  | cons e q ih =>
    refine ih (andThen_keeps h fun _ => ?_)
    unfold State.execEntry
    split
    · exact hstop _ _ _ _ h
    · have h2 : P (s.occupy u e.thread) := by
        unfold State.occupy
        split
        · exact hinf _ _ _ _ h
        · exact h
      dsimp only
      split
      · next hn =>
        exact runDecoded_keeps hstop hissue (fun s t i hi => hexec s t i (hi ▸ hn)) h2 (hstop _ _ _ _ h2) _ _
      · exact hstop _ _ _ _ h2

/-- A unit keeps what its primitive writes keep. -/
theorem unitTick_keeps {u : FUnit} (hstop : ∀ s y t c, P s → P (s.stop y t c))
    (hissue : ∀ s t d, P s → P (s.issue t d))
    (hexec : ∀ s t i, homeUnit i.opName = some u → P s → exec i s = .next t → P t)
    (hinf : ∀ s v t n, P s → P (s.setInflight v t n)) (hflush : ∀ s t, P s → P (s.recheckFlush t))
    (hempty : ∀ s, P s → P (s.setQueue u []))
    (hprev : ∀ s b, P s → P { s with cfgWritePrev := b }) (hresolve : ∀ s, u = .sync → P s → P s.resolveWaiters)
    {s : State} (h : P s) : P (s.unitTick u) := by
  unfold State.unitTick
  dsimp only
  have h1 : P (s.preUnit u) := by
    unfold State.preUnit
    split
    · exact hflush _ _ (hflush _ _ (hflush _ _ h))
    · exact h
  have hd := drainLoop_keeps hstop hissue hexec hinf ((s.preUnit u).queueOf u) h1
  refine andThen_keeps hd fun _ => ?_
  have h2 := hempty _ hd
  have hcd : ∀ (s : State) v q t, P s → P (s.countDown v q t) := by
    intro s v q t h
    unfold State.countDown
    split
    · exact h
    · exact hinf _ _ _ _ h
  unfold State.postUnit
  cases u
  case config => exact hprev _ _ h2
  case sync => exact hresolve _ rfl h2
  case packer => exact hcd _ _ _ _ (hcd _ _ _ _ (hcd _ _ _ _ h2))
  case unpacker0 => exact hcd _ _ _ _ (hcd _ _ _ _ (hcd _ _ _ _ h2))
  case unpacker1 => exact hcd _ _ _ _ (hcd _ _ _ _ (hcd _ _ _ _ h2))
  all_goals exact h2

/-- A frontend tick keeps what its three stages keep. -/
theorem frontendTick_keeps {t : Thread} (hgate : ∀ s, P s → s.halted = false → P (s.gateTick t))
    (hreplay : ∀ s, P s → s.halted = false → P (s.replayTick t))
    (hmop : ∀ s, P s → s.halted = false → P (s.mopTick t)) {s : State} (h : P s) (hr : s.halted = false) :
    P (s.frontendTick t) := by
  unfold State.frontendTick
  have h1 := andThen_keeps (f := fun s => s.replayTick t) (hgate _ h hr) (hreplay _ (hgate _ h hr))
  exact andThen_keeps h1 (hmop _ h1)

/-- The environment's moves keep what each of them keeps; `hmark` is for an access of the memory after the run has ended,
which leaves the mark as it was. -/
theorem beginCycle_keeps (hin : ∀ s x y, P s → P { s with inputs := x, replies := y })
    (hmove : ∀ s m, P s → P (s.makeMove m)) (hmark : ∀ s h, P s → P { s with halt := h })
    (hreset : ∀ s, P s → P s.reboot) {s : State} (h : P s) : P s.beginCycle := by
  unfold State.beginCycle
  split
  · exact hin s s.inputs [] h
  · next ms rest _ =>
    have hms : ∀ ms : List EnvMove, ∀ u, P u → P (ms.foldl State.envMove u) := by
      intro ms
      induction ms with
      | nil => exact fun u hu => hu
      | cons m ms ih =>
        intro u hu
        refine ih _ ?_
        unfold State.envMove
        split
        · unfold State.moveAfterStop
          split
          · exact hreset _ hu
          · split
            · exact hmark _ _ (hmove _ _ hu)
            · exact hu
        · exact hmove _ _ hu
    exact hms _ _ (hin s _ _ h)

/-- Ticking components in order keeps what each tick keeps. -/
theorem ticks_keep (htick : ∀ s c, P s → s.halted = false → P (s.tick c)) (cs : List Component) {s : State}
    (h : P s) :
    P (cs.foldl (fun s c => s.andThen fun s => s.tick c) s) := by
  induction cs generalizing s with
  | nil => exact h
  | cons c cs ih => exact ih (andThen_keeps h (htick _ _ h))

/-- A step keeps what the moves and the ticks keep. -/
theorem step_keeps (hin : ∀ s x y, P s → P { s with inputs := x, replies := y })
    (hmove : ∀ s m, P s → P (s.makeMove m)) (hmark : ∀ s h, P s → P { s with halt := h })
    (hreset : ∀ s, P s → P s.reboot)
    (htick : ∀ s c, P s → s.halted = false → P (s.tick c)) {s t : State} (h : P s) (hs : step s = .next t) : P t := by
  rw [← (step_next_iff s |>.mp hs).1]
  exact ticks_keep htick _ (beginCycle_keeps hin hmove hmark hreset h)

/-! ## Frames of what a tick does beside `exec` -/

/-- Resolving waiters writes mutexes and the gates' mutex flags. -/
theorem resolveScan_frame : ∀ (ws : List (Thread × Nat)) (s : State),
    ∃ m mw, (resolveScan ws s).1 = { s with mutex := m, mutexWait := mw }
  | [], s => ⟨_, _, rfl⟩
  | w :: ws, s => by
    unfold resolveScan
    split
    · split
      · next i _ _ =>
        obtain ⟨m, mw, h⟩ := resolveScan_frame ws (s.grantMutex w.1 i)
        exact ⟨m, mw, by rw [h]; rfl⟩
      · exact resolveScan_frame ws s
    · exact resolveScan_frame ws s

/-- Everything one step of the scan can do: grant the waiter, or keep it. -/
theorem resolveScan_cons (w : Thread × Nat) (ws : List (Thread × Nat)) (s : State) :
    (∃ i, mutexIndex w.2 = .ok i ∧ s.mutexGrantable w.1 i = true ∧
      resolveScan (w :: ws) s = resolveScan ws (s.grantMutex w.1 i)) ∨
    ((∀ i, mutexIndex w.2 = .ok i → s.mutexGrantable w.1 i = false) ∧
      resolveScan (w :: ws) s = ((resolveScan ws s).1, w :: (resolveScan ws s).2)) := by
  rw [resolveScan]
  rcases h : mutexIndex w.2 with r | i <;> dsimp only
  · exact .inr ⟨fun i hi => (by cases hi), rfl⟩
  · by_cases hg : s.mutexGrantable w.1 i = true
    · exact .inl ⟨i, rfl, hg, if_pos hg⟩
    · refine .inr ⟨fun j hj => ?_, if_neg hg⟩
      cases hj
      simpa using hg

/-- The resolution writes mutexes, the gates' mutex flags and the waiter list. -/
theorem resolve_frame (s : State) :
    ∃ m mw w, s.resolveWaiters = { s with mutex := m, mutexWait := mw, waiters := w } := by
  obtain ⟨m, mw, h⟩ := resolveScan_frame s.waiters s
  exact ⟨m, mw, (resolveScan s.waiters s).2, by unfold State.resolveWaiters; simp only [h]⟩

/-- Forwarding empties the gate slot and, after an ATGETM, sets the mutex flag. -/
theorem forwarded_frame (s : State) (t n) : ∃ g m, s.forwarded t n = { s with gateSlot := g, mutexWait := m } := by
  unfold State.forwarded; split <;> exact ⟨_, _, rfl⟩

/-- Everything a taken dispatch can do: append to the queue of the unit the tag names, or drop the word. -/
theorem dispatch_taken {s s' : State} {t d} (h : s.dispatch t d = .taken s') :
    (∃ u, s' = s.pushEntry u ⟨d.word, t⟩ ∧ routeOf s.par d.tag d.word = .unit u ∧ s.offer u t d = .taken s') ∨
    (routeOf s.par d.tag d.word = .dropped ∧ (s' = s ∨ s' = s.issue t d)) := by
  unfold State.dispatch at h
  split at h
  · next hr =>
    right; refine ⟨hr, ?_⟩
    split at h
    · cases h; right; rfl
    · cases h; left; rfl
  · next u hu => exact .inl ⟨u, s.offer_taken h, hu, h⟩
  · cases h

end Sys2Proof.Machine
end

