-- ==== Sys2Proof/Laws/PerInstr.lean ====
section
/-! SUPPORT. Per-instruction families. `EncodesOpcode`: whatever its arguments, the word of an instruction carries its
row's opcode value in bits 31:24, so no argument reaches the opcode field (30_encoding.md R81, R91, R99). -/

namespace Sys2Proof.Laws

set_option linter.unusedSimpArgs false

/-- A word that is an opcode in bits 31:24 and arguments below bit 24 has that opcode. -/
theorem opcodeOf_ofNat (op x : Nat) (hop : op < 256) (hx : x < 2 ^ 24) :
    opcodeOf (BitVec.ofNat 32 (2 ^ 24 * op + x)) = op := by
  simp only [opcodeOf, slice, BitVec.toNat_ofNat]
  omega

namespace EncodesOpcode

/-- The word of the instruction has the opcode of the default schema's row of its name. -/
def Statement (i : Instr) : Prop :=
  ∀ r, schemaDefault.rowNamed i.opName = some r → opcodeOf (encode i) = r.opcode

/-- What is left of a `Statement` when the row and the arguments are known. -/
theorem of_row {i : Instr} {r : OpRow} (hr : schemaDefault.rowNamed i.opName = some r) (hop : r.opcode < 256)
    (hx : (r.bounds.map (placeArg i.args)).sum < 2 ^ 24) : Statement i := by
  intro r' hr'
  rw [hr] at hr'
  cases hr'
  have he : encode i = BitVec.ofNat 32 (2 ^ 24 * r.opcode + (r.bounds.map (placeArg i.args)).sum) := by
    simp only [encode, Instr.encodeWith, Schema.encode, Schema.encodeNat, hr, Option.map_some, Option.getD_some]
  rw [he]
  exact opcodeOf_ofNat _ _ hop hx

theorem mop (zmaskLo16 loopCount mopType : Nat) : Statement (.mop zmaskLo16 loopCount mopType) :=
  of_row (r := ⟨0x01, .mop, [(.zmaskLo16, 0), (.loopCount, 16), (.mopType, 23)], .frontend⟩)
    rfl (by decide) (by simp [OpRow.bounds, sortArgs, insertArg, argBounds, placeArg, Instr.args, argValue, argTop]; omega)

theorem nop : Statement (.nop) :=
  of_row (r := ⟨0x02, .nop, [], .none⟩)
    rfl (by decide) (by simp [OpRow.bounds, sortArgs, insertArg, argBounds, placeArg, Instr.args, argValue, argTop])

theorem mopCfg (zmaskHi16 : Nat) : Statement (.mopCfg zmaskHi16) :=
  of_row (r := ⟨0x03, .mopCfg, [(.zmaskHi16, 0)], .frontend⟩)
    rfl (by decide) (by simp [OpRow.bounds, sortArgs, insertArg, argBounds, placeArg, Instr.args, argValue, argTop]; omega)

theorem replay (loadMode executeWhileLoading len startIdx : Nat) : Statement (.replay loadMode executeWhileLoading len startIdx) :=
  of_row (r := ⟨0x04, .replay, [(.loadMode, 0), (.executeWhileLoading, 1), (.len, 4), (.startIdx, 14)], .frontend⟩)
    rfl (by decide) (by simp [OpRow.bounds, sortArgs, insertArg, argBounds, placeArg, Instr.args, argValue, argTop]; omega)

theorem zeroacc (dst addrMode clearMode : Nat) : Statement (.zeroacc dst addrMode clearMode) :=
  of_row (r := ⟨0x10, .zeroacc, [(.dst, 0), (.addrMode, 15), (.clearMode, 19)], .matrix⟩)
    rfl (by decide) (by simp [OpRow.bounds, sortArgs, insertArg, argBounds, placeArg, Instr.args, argValue, argTop]; omega)

theorem setrwc (bitMask rwcA rwcB rwcD rwcCr clearAbVld : Nat) : Statement (.setrwc bitMask rwcA rwcB rwcD rwcCr clearAbVld) :=
  of_row (r := ⟨0x37, .setrwc, [(.bitMask, 0), (.rwcA, 6), (.rwcB, 10), (.rwcD, 14), (.rwcCr, 18), (.clearAbVld, 22)], .matrix⟩)
    rfl (by decide) (by simp [OpRow.bounds, sortArgs, insertArg, argBounds, placeArg, Instr.args, argValue, argTop]; omega)

theorem xmov (last movBlockSelection : Nat) : Statement (.xmov last movBlockSelection) :=
  of_row (r := ⟨0x40, .xmov, [(.last, 0), (.movBlockSelection, 23)], .mover⟩)
    rfl (by decide) (by simp [OpRow.bounds, sortArgs, insertArg, argBounds, placeArg, Instr.args, argValue, argTop]; omega)

theorem flushdma (flushSpec : Nat) : Statement (.flushdma flushSpec) :=
  of_row (r := ⟨0x46, .flushdma, [(.flushSpec, 0)], .scalar⟩)
    rfl (by decide) (by simp [OpRow.bounds, sortArgs, insertArg, argBounds, placeArg, Instr.args, argValue, argTop]; omega)

theorem reg2flop (regIndex flopIndex contextId2 byteOffset targetSel sizeSel : Nat) : Statement (.reg2flop regIndex flopIndex contextId2 byteOffset targetSel sizeSel) :=
  of_row (r := ⟨0x48, .reg2flop, [(.regIndex, 0), (.flopIndex, 6), (.contextId2, 16), (.byteOffset, 18), (.targetSel, 20), (.sizeSel, 22)], .scalar⟩)
    rfl (by decide) (by simp [OpRow.bounds, sortArgs, insertArg, argBounds, placeArg, Instr.args, argValue, argTop]; omega)

theorem setadc (value dimensionIndex channelIndex cntSetMask ovr : Nat) : Statement (.setadc value dimensionIndex channelIndex cntSetMask ovr) :=
  of_row (r := ⟨0x50, .setadc, [(.value, 0), (.dimensionIndex, 18), (.channelIndex, 20), (.cntSetMask, 21)], .misc⟩)
    rfl (by decide) (by simp [OpRow.bounds, sortArgs, insertArg, argBounds, placeArg, Instr.args, argValue, argTop]; omega)

theorem setadcxy (bitMask ch0X ch0Y ch1X ch1Y cntSetMask ovr : Nat) : Statement (.setadcxy bitMask ch0X ch0Y ch1X ch1Y cntSetMask ovr) :=
  of_row (r := ⟨0x51, .setadcxy, [(.bitMask, 0), (.ch0X, 6), (.ch0Y, 9), (.ch1X, 12), (.ch1Y, 15), (.cntSetMask, 21)], .misc⟩)
    rfl (by decide) (by simp [OpRow.bounds, sortArgs, insertArg, argBounds, placeArg, Instr.args, argValue, argTop]; omega)

theorem incadcxy (ch0X ch0Y ch1X ch1Y cntSetMask ovr : Nat) : Statement (.incadcxy ch0X ch0Y ch1X ch1Y cntSetMask ovr) :=
  of_row (r := ⟨0x52, .incadcxy, [(.ch0X, 6), (.ch0Y, 9), (.ch1X, 12), (.ch1Y, 15), (.cntSetMask, 21)], .misc⟩)
    rfl (by decide) (by simp [OpRow.bounds, sortArgs, insertArg, argBounds, placeArg, Instr.args, argValue, argTop]; omega)

theorem addrcrxy (bitMask ch0X ch0Y ch1X ch1Y cntSetMask ovr : Nat) : Statement (.addrcrxy bitMask ch0X ch0Y ch1X ch1Y cntSetMask ovr) :=
  of_row (r := ⟨0x53, .addrcrxy, [(.bitMask, 0), (.ch0X, 6), (.ch0Y, 9), (.ch1X, 12), (.ch1Y, 15), (.cntSetMask, 21)], .misc⟩)
    rfl (by decide) (by simp [OpRow.bounds, sortArgs, insertArg, argBounds, placeArg, Instr.args, argValue, argTop]; omega)

theorem setadczw (bitMask ch0Z ch0W ch1Z ch1W cntSetMask ovr : Nat) : Statement (.setadczw bitMask ch0Z ch0W ch1Z ch1W cntSetMask ovr) :=
  of_row (r := ⟨0x54, .setadczw, [(.bitMask, 0), (.ch0Z, 6), (.ch0W, 9), (.ch1Z, 12), (.ch1W, 15), (.cntSetMask, 21)], .misc⟩)
    rfl (by decide) (by simp [OpRow.bounds, sortArgs, insertArg, argBounds, placeArg, Instr.args, argValue, argTop]; omega)

theorem incadczw (ch0Z ch0W ch1Z ch1W cntSetMask ovr : Nat) : Statement (.incadczw ch0Z ch0W ch1Z ch1W cntSetMask ovr) :=
  of_row (r := ⟨0x55, .incadczw, [(.ch0Z, 6), (.ch0W, 9), (.ch1Z, 12), (.ch1W, 15), (.cntSetMask, 21)], .misc⟩)
    rfl (by decide) (by simp [OpRow.bounds, sortArgs, insertArg, argBounds, placeArg, Instr.args, argValue, argTop]; omega)

theorem addrcrzw (bitMask ch0Z ch0W ch1Z ch1W cntSetMask ovr : Nat) : Statement (.addrcrzw bitMask ch0Z ch0W ch1Z ch1W cntSetMask ovr) :=
  of_row (r := ⟨0x56, .addrcrzw, [(.bitMask, 0), (.ch0Z, 6), (.ch0W, 9), (.ch1Z, 12), (.ch1W, 15), (.cntSetMask, 21)], .misc⟩)
    rfl (by decide) (by simp [OpRow.bounds, sortArgs, insertArg, argBounds, placeArg, Instr.args, argValue, argTop]; omega)

theorem setadcxx (xStart xEnd2 cntSetMask : Nat) : Statement (.setadcxx xStart xEnd2 cntSetMask) :=
  of_row (r := ⟨0x5E, .setadcxx, [(.xStart, 0), (.xEnd2, 10), (.cntSetMask, 21)], .misc⟩)
    rfl (by decide) (by simp [OpRow.bounds, sortArgs, insertArg, argBounds, placeArg, Instr.args, argValue, argTop]; omega)

theorem dmanop : Statement (.dmanop) :=
  of_row (r := ⟨0x60, .dmanop, [], .scalar⟩)
    rfl (by decide) (by simp [OpRow.bounds, sortArgs, insertArg, argBounds, placeArg, Instr.args, argValue, argTop])

theorem storereg (regAddr tdmaDataRegIndex : Nat) : Statement (.storereg regAddr tdmaDataRegIndex) :=
  of_row (r := ⟨0x67, .storereg, [(.regAddr, 0), (.tdmaDataRegIndex, 18)], .scalar⟩)
    rfl (by decide) (by simp [OpRow.bounds, sortArgs, insertArg, argBounds, placeArg, Instr.args, argValue, argTop]; omega)

theorem sfpnop : Statement (.sfpnop) :=
  of_row (r := ⟨0x8F, .sfpnop, [], .vector⟩)
    rfl (by decide) (by simp [OpRow.bounds, sortArgs, insertArg, argBounds, placeArg, Instr.args, argValue, argTop])

theorem atgetm (mutexIndex : Nat) : Statement (.atgetm mutexIndex) :=
  of_row (r := ⟨0xA0, .atgetm, [(.mutexIndex, 0)], .sync⟩)
    rfl (by decide) (by simp [OpRow.bounds, sortArgs, insertArg, argBounds, placeArg, Instr.args, argValue, argTop]; omega)

theorem atrelm (mutexIndex : Nat) : Statement (.atrelm mutexIndex) :=
  of_row (r := ⟨0xA1, .atrelm, [(.mutexIndex, 0)], .sync⟩)
    rfl (by decide) (by simp [OpRow.bounds, sortArgs, insertArg, argBounds, placeArg, Instr.args, argValue, argTop]; omega)

theorem stallwait (waitRes stallRes : Nat) : Statement (.stallwait waitRes stallRes) :=
  of_row (r := ⟨0xA2, .stallwait, [(.waitRes, 0), (.stallRes, 15)], .frontend⟩)
    rfl (by decide) (by simp [OpRow.bounds, sortArgs, insertArg, argBounds, placeArg, Instr.args, argValue, argTop]; omega)

theorem seminit (semSel initValue maxValue : Nat) : Statement (.seminit semSel initValue maxValue) :=
  of_row (r := ⟨0xA3, .seminit, [(.semSel, 2), (.initValue, 16), (.maxValue, 20)], .sync⟩)
    rfl (by decide) (by simp [OpRow.bounds, sortArgs, insertArg, argBounds, placeArg, Instr.args, argValue, argTop]; omega)

theorem sempost (semSel : Nat) : Statement (.sempost semSel) :=
  of_row (r := ⟨0xA4, .sempost, [(.semSel, 2)], .sync⟩)
    rfl (by decide) (by simp [OpRow.bounds, sortArgs, insertArg, argBounds, placeArg, Instr.args, argValue, argTop]; omega)

theorem semget (semSel : Nat) : Statement (.semget semSel) :=
  of_row (r := ⟨0xA5, .semget, [(.semSel, 2)], .sync⟩)
    rfl (by decide) (by simp [OpRow.bounds, sortArgs, insertArg, argBounds, placeArg, Instr.args, argValue, argTop]; omega)

theorem semwait (waitSemCond semSel stallRes : Nat) : Statement (.semwait waitSemCond semSel stallRes) :=
  of_row (r := ⟨0xA6, .semwait, [(.waitSemCond, 0), (.semSel, 2), (.stallRes, 15)], .frontend⟩)
    rfl (by decide) (by simp [OpRow.bounds, sortArgs, insertArg, argBounds, placeArg, Instr.args, argValue, argTop]; omega)

theorem wrcfg (cfgReg wr128b gprAddress : Nat) : Statement (.wrcfg cfgReg wr128b gprAddress) :=
  of_row (r := ⟨0xB0, .wrcfg, [(.cfgReg, 0), (.wr128b, 15), (.gprAddress, 16)], .config⟩)
    rfl (by decide) (by simp [OpRow.bounds, sortArgs, insertArg, argBounds, placeArg, Instr.args, argValue, argTop]; omega)

theorem setc16 (setc16Value setc16Reg : Nat) : Statement (.setc16 setc16Value setc16Reg) :=
  of_row (r := ⟨0xB2, .setc16, [(.setc16Value, 0), (.setc16Reg, 16)], .config⟩)
    rfl (by decide) (by simp [OpRow.bounds, sortArgs, insertArg, argBounds, placeArg, Instr.args, argValue, argTop]; omega)

theorem rmwcib0 (cfgRegAddr data mask : Nat) : Statement (.rmwcib0 cfgRegAddr data mask) :=
  of_row (r := ⟨0xB3, .rmwcib0, [(.cfgRegAddr, 0), (.data, 8), (.mask, 16)], .config⟩)
    rfl (by decide) (by simp [OpRow.bounds, sortArgs, insertArg, argBounds, placeArg, Instr.args, argValue, argTop]; omega)

theorem rmwcib1 (cfgRegAddr data mask : Nat) : Statement (.rmwcib1 cfgRegAddr data mask) :=
  of_row (r := ⟨0xB4, .rmwcib1, [(.cfgRegAddr, 0), (.data, 8), (.mask, 16)], .config⟩)
    rfl (by decide) (by simp [OpRow.bounds, sortArgs, insertArg, argBounds, placeArg, Instr.args, argValue, argTop]; omega)

theorem rmwcib2 (cfgRegAddr data mask : Nat) : Statement (.rmwcib2 cfgRegAddr data mask) :=
  of_row (r := ⟨0xB5, .rmwcib2, [(.cfgRegAddr, 0), (.data, 8), (.mask, 16)], .config⟩)
    rfl (by decide) (by simp [OpRow.bounds, sortArgs, insertArg, argBounds, placeArg, Instr.args, argValue, argTop]; omega)

theorem rmwcib3 (cfgRegAddr data mask : Nat) : Statement (.rmwcib3 cfgRegAddr data mask) :=
  of_row (r := ⟨0xB6, .rmwcib3, [(.cfgRegAddr, 0), (.data, 8), (.mask, 16)], .config⟩)
    rfl (by decide) (by simp [OpRow.bounds, sortArgs, insertArg, argBounds, placeArg, Instr.args, argValue, argTop]; omega)

end EncodesOpcode

end Sys2Proof.Laws
end

