-- ==== Sys2Proof/Laws/Reads.lean ====
section
/-! SUPPORT. What the argument reads of Machine/Reads.lean can be: a rule reads arguments of its own instruction only, so
a row with all the arguments of the default schema lacks none that a rule reads. -/

namespace Sys2Proof.Machine

/-- The fields of the enabled pairs are among the fields. -/
theorem mem_of_mem_enabledFields {m : Nat} {l : List ArgName} {a : ArgName} (h : a ∈ enabledFields m l) : a ∈ l := by
  obtain ⟨x, hx, rfl⟩ := List.mem_map.mp h
  exact (List.mem_zipIdx (List.mem_filter.mp hx).1).2.2 ▸ List.getElem_mem _

/-- What ADDRCRXY and ADDRCRZW use is among the value fields. -/
theorem mem_of_mem_addrcrFields {s : State} {m : Nat} {l : List ArgName} {a : ArgName} (h : a ∈ s.addrcrFields m l) :
    a ∈ l := by
  unfold State.addrcrFields at h
  split at h
  · cases h
  · exact mem_of_mem_enabledFields h

/-- What a two-dimension instruction of the ADC family reads. -/
theorem pairReads_cases {s : State} {ovr cnt : Nat} {en vs : List ArgName} {a : ArgName}
    (h : a ∈ s.pairReads ovr cnt en vs) : a = .cntSetMask ∨ a ∈ en ∨ a ∈ vs := by
  unfold State.pairReads at h
  split at h
  · cases h
  · split at h <;> simp only [List.mem_cons, List.mem_append, List.not_mem_nil, or_false] at h
    · exact .inl h
    · exact h

/-- A rule reads arguments of its own instruction only, and never requires the optional override (45_adc_unit.md R233). -/
theorem argsRead_subset (s : State) (i : Instr) :
    ∀ a ∈ s.argsRead i, a ∈ i.args.map (·.1) ∧ a ≠ .threadOverride := by
  intro a h
  have pair : ∀ {ovr cnt en vs}, a ∈ s.pairReads ovr cnt en vs →
      (∀ b, b = .cntSetMask ∨ b ∈ en ∨ b ∈ vs → b ∈ i.args.map (·.1) ∧ b ≠ .threadOverride) →
      a ∈ i.args.map (·.1) ∧ a ≠ .threadOverride := fun h k => k a (pairReads_cases h)
  have xy : ∀ b ∈ fieldsXY, b = .ch0X ∨ b = .ch0Y ∨ b = .ch1X ∨ b = .ch1Y := by simp [fieldsXY]
  have zw : ∀ b ∈ fieldsZW, b = .ch0Z ∨ b = .ch0W ∨ b = .ch1Z ∨ b = .ch1W := by simp [fieldsZW]
  cases i
  case setadcxy =>
    refine pair h fun b hb => ?_
    have := hb.imp_right (·.imp_right fun h => xy b (mem_of_mem_enabledFields h))
    simp only [List.mem_singleton] at this
    rcases this with rfl | rfl | rfl | rfl | rfl | rfl <;> simp [Instr.args]
  case setadczw =>
    refine pair h fun b hb => ?_
    have := hb.imp_right (·.imp_right fun h => zw b (mem_of_mem_enabledFields h))
    simp only [List.mem_singleton] at this
    rcases this with rfl | rfl | rfl | rfl | rfl | rfl <;> simp [Instr.args]
  case incadcxy =>
    refine pair h fun b hb => ?_
    have := hb.imp_right (·.imp_right (xy b))
    simp only [List.not_mem_nil, false_or] at this
    rcases this with rfl | rfl | rfl | rfl | rfl <;> simp [Instr.args]
  case incadczw =>
    refine pair h fun b hb => ?_
    have := hb.imp_right (·.imp_right (zw b))
    simp only [List.not_mem_nil, false_or] at this
    rcases this with rfl | rfl | rfl | rfl | rfl <;> simp [Instr.args]
  case addrcrxy =>
    refine pair h fun b hb => ?_
    have := hb.imp_right (·.imp_right fun h => xy b (mem_of_mem_addrcrFields h))
    simp only [List.mem_singleton] at this
    rcases this with rfl | rfl | rfl | rfl | rfl | rfl <;> simp [Instr.args]
  case addrcrzw =>
    refine pair h fun b hb => ?_
    have := hb.imp_right (·.imp_right fun h => zw b (mem_of_mem_addrcrFields h))
    simp only [List.mem_singleton] at this
    rcases this with rfl | rfl | rfl | rfl | rfl | rfl <;> simp [Instr.args]
  all_goals
    clear pair
    revert a
    simp only [State.argsRead, State.zeroaccReads, State.setadcReads, State.rmwReads, setrwcReads]
    repeat' split
    all_goals simp [Instr.args]

/-- A decoded word with a value for every argument of its instruction but the override lacks none that the rule reads. -/
theorem missingArg_none {s : State} {i : Instr}
    (h : ∀ a ∈ i.args.map (·.1), a ≠ .threadOverride → (argValue s.instr.args a).isSome = true) :
    s.missingArg i = none := by
  unfold State.missingArg
  rw [List.find?_eq_none]
  intro a ha
  rw [Option.isNone_iff_eq_none]
  exact Option.isSome_iff_ne_none.mp (h a (argsRead_subset s i a ha).1 (argsRead_subset s i a ha).2)

end Sys2Proof.Machine
end

