-- ==== Sys2Proof/Laws/Units.lean ====
section
/-! SUPPORT. Lemmas about the operations of the units, the decoder and the wait gate, in the words the statements use. -/

namespace Sys2Proof

/-- The opcode field of a word as a number (30_encoding.md R81). -/
theorem opcodeField_toNat (w : Word) : (w.extractLsb' 24 8).toNat = opcodeOf w := by
  simp only [BitVec.extractLsb'_toNat, opcodeOf, slice, Nat.shiftRight_eq_div_pow]

/-- No row is found exactly when no row has the opcode. -/
theorem rowOf_none {sch : Schema} {o : Nat} : sch.rowOf o = none ↔ ∀ r ∈ sch.ops, r.opcode ≠ o := by
  simp [Schema.rowOf]

/-- A word is not decoded exactly when no row has its opcode (R84). -/
theorem decode_none {sch : Schema} {w : Word} : sch.decode w = none ↔ ∀ r ∈ sch.ops,
    r.opcode ≠ (w.extractLsb' 24 8).toNat := by
  rw [opcodeField_toNat, ← rowOf_none]; unfold Schema.decode; cases sch.rowOf (opcodeOf w) <;> simp

/-- A row of a schema with distinct opcodes is found by its opcode. -/
theorem rowOf_mem {sch : Schema} (hn : (sch.ops.map (·.opcode)).Nodup) {r} (hr : r ∈ sch.ops) :
    sch.rowOf r.opcode = some r := by
  unfold Schema.rowOf
  generalize sch.ops = l at *
  induction l with
  | nil => cases hr
  | cons x xs ih =>
    rw [List.map_cons, List.nodup_cons] at hn
    rw [List.find?_cons]
    rcases List.mem_cons.mp hr with rfl | hr
    · simp
    · have : x.opcode ≠ r.opcode := fun e => hn.1 (List.mem_map.mpr ⟨r, hr, e.symm⟩)
      simp only [this, decide_false]
      exact ih hn.2 hr

/-- Inserting an argument adds it. -/
theorem insertArg_perm (a) (l) : (insertArg a l).Perm (a :: l) := by
  induction l with
  | nil => exact .refl _
  | cons b l ih =>
    unfold insertArg; split
    · exact .refl _
    · exact (ih.cons b).trans (.swap ..)

/-- Sorting keeps the arguments. -/
theorem sortArgs_perm (l) : (sortArgs l).Perm l := by
  induction l with
  | nil => exact .refl _
  | cons a l ih => exact (insertArg_perm a _).trans (ih.cons a)

/-- Inserting keeps the order of start bits. -/
theorem insertArg_sorted {a : ArgName × Nat} {l : List (ArgName × Nat)} (h : l.Pairwise (·.2 < ·.2))
    (hn : ∀ b ∈ l, b.2 ≠ a.2) : (insertArg a l).Pairwise (·.2 < ·.2) := by
  induction l with
  | nil => simp [insertArg]
  | cons b l ih =>
    unfold insertArg
    rw [List.pairwise_cons] at h
    split
    · next hab => refine List.pairwise_cons.mpr ⟨fun c hc => ?_, List.pairwise_cons.mpr h⟩
                  rcases List.mem_cons.mp hc with rfl | hc
                  · exact hab
                  · exact lt_trans hab (h.1 c hc)
    · next hab => refine List.pairwise_cons.mpr ⟨fun c hc => ?_, ih h.2 fun c hc => hn c (by simp [hc])⟩
                  have hc := (insertArg_perm a l).mem_iff.mp hc
                  rcases List.mem_cons.mp hc with rfl | hc
                  · have := hn b (by simp); omega
                  · exact h.1 c hc

/-- Sorting gives rising start bits (R85). -/
theorem sortArgs_sorted {l : List (ArgName × Nat)} (h : (l.map (·.2)).Nodup) : (sortArgs l).Pairwise (·.2 < ·.2) := by
  induction l with
  | nil => simp [sortArgs]
  | cons a l ih =>
    rw [List.map_cons, List.nodup_cons] at h
    refine insertArg_sorted (ih h.2) fun b hb e => h.1 ?_
    exact List.mem_map.mpr ⟨b, (sortArgs_perm l).mem_iff.mp hb, e⟩

/-- The end bit of each argument of a sorted row (R84). -/
theorem argBounds_spec : ∀ {l : List (ArgName × Nat)}, l.Pairwise (·.2 < ·.2) → 
   (argBounds l).map (·.1) = l.map (·.1) ∧ ∀ a ∈ l, ∃ e, (a.1, a.2, e) ∈ argBounds l ∧ ((∃ b ∈ l, a.2 < b.2 ∧
       e = b.2 - 1 ∧ ∀ c ∈ l, c.2 ≤ a.2 ∨ b.2 ≤ c.2) ∨ (e = 23 ∧ ∀ c ∈ l, c.2 ≤ a.2))
  | [], _ => ⟨rfl, fun a h => by cases h⟩
  | [(n, s)], _ =>
    ⟨rfl, fun a h => by simp at h; subst h; exact ⟨23, by simp [argBounds, argTop], .inr ⟨rfl, by simp⟩⟩⟩
  | (n, s) :: (m, s') :: rest, h => by
    rw [List.pairwise_cons] at h
    obtain ⟨e1, e2⟩ := argBounds_spec h.2
    have hs : ∀ c ∈ rest, s' < c.2 := (List.pairwise_cons.mp h.2).1
    have h1 : s < s' := h.1 (m, s') (by simp)
    refine ⟨by rw [argBounds]; simp only [List.map_cons] at e1 ⊢; rw [e1], fun a ha => ?_⟩
    rw [argBounds]
    rcases List.mem_cons.mp ha with rfl | ha
    · refine ⟨s' - 1, by simp, .inl ⟨(m, s'), by simp, h1, rfl, fun c hc => ?_⟩⟩
      simp only [List.mem_cons] at hc
      rcases hc with rfl | rfl | hc
      · exact .inl le_rfl
      · exact .inr le_rfl
      · exact .inr (hs c hc).le
    · obtain ⟨e, he, hx⟩ := e2 a ha
      have hsa : s < a.2 := h.1 a ha
      refine ⟨e, List.mem_cons_of_mem _ he, ?_⟩
      rcases hx with ⟨b, hb, h1, h2, h3⟩ | ⟨h1, h2⟩
      · refine .inl ⟨b, List.mem_cons_of_mem _ hb, h1, h2, fun c hc => ?_⟩
        rcases List.mem_cons.mp hc with rfl | hc
        · exact .inl hsa.le
        · exact h3 c hc
      · refine .inr ⟨h1, fun c hc => ?_⟩
        rcases List.mem_cons.mp hc with rfl | hc
        · exact hsa.le
        · exact h2 c hc

/-- A name that is not listed has no value. -/
theorem argValue_none {l : List (ArgName × Nat)} {n} (h : n ∉ l.map (·.1)) : argValue l n = none := by
  induction l with
  | nil => rfl
  | cons a l ih =>
    obtain ⟨m, v⟩ := a
    simp only [List.map_cons, List.mem_cons, not_or] at h
    rw [argValue, if_neg h.1]; exact ih h.2

/-- A configuration row is found by its name and space. -/
theorem findCfgRow_mem {l : List CfgRow} {sp} (hn : (l.map (·.name)).Nodup) {r} (hr : r ∈ l) (hs : r.space =
    sp) : l.find? (fun x => decide (x.name = r.name) && decide (x.space = sp)) = some r := by
  induction l with
  | nil => cases hr
  | cons x xs ih =>
    rw [List.map_cons, List.nodup_cons] at hn
    rw [List.find?_cons]
    rcases List.mem_cons.mp hr with rfl | hr
    · simp [hs]
    · have : x.name ≠ r.name := fun e => hn.1 (List.mem_map.mpr ⟨r, hr, e.symm⟩)
      simp only [this, decide_false, Bool.false_and]
      exact ih hn.2 hr

/-- A decoded view keeps the raw word. -/
theorem decoded_word {sch : Schema} {w d} (h : sch.decode w = some d) : d.word = w := by
  unfold Schema.decode at h; split at h
  · cases h
  · cases h; rfl

end Sys2Proof

namespace Sys2Proof.Machine

/-- The set bits of a mask. -/
theorem mem_bitsOf {m c : Nat} : c ∈ bitsOf m ↔ m.testBit c = true := by
  unfold bitsOf
  rw [List.mem_filter, List.mem_range]
  refine ⟨fun h => h.2, fun h => ⟨?_, h⟩⟩
  have h2 : 2 ^ c ≤ m := Nat.ge_two_pow_of_testBit h
  have hm : m ≠ 0 := by rintro rfl; simp at h
  have := (Nat.le_log2 hm).mpr h2
  omega

/-- A queue with no entry of a thread. -/
theorem queued_false {s : State} {u t} : s.queued u t = false ↔ ∀ e ∈ s.queueOf u, e.thread ≠ t := by
  simp [State.queued]

/-- Re-checking the latch changes the latch alone. -/
theorem rechecked_frame {s r : State} {t} (h : s.Rechecked t r) : ∃ l, r = { s with latch := l } := by
  rcases h with ⟨-, rfl⟩ | ⟨-, -, rfl⟩ | ⟨-, -, rfl⟩ <;> exact ⟨_, rfl⟩

/-- What the re-check of the latch leaves (40_frontend.md R131). -/
theorem refreshLatch_of_rechecked {s r : State} {t} (h : s.Rechecked t r) : s.refreshLatch t = r := by
  unfold State.refreshLatch
  rcases h with ⟨hk, rfl⟩ | ⟨hk, hw, rfl⟩ | ⟨hk, hw, rfl⟩
  · rw [if_pos hk]
  · rw [if_neg hk, hw]
  · rw [if_neg hk, hw]

/-- What the gate does with the word in its slot, after the re-check. -/
theorem gateTick_of_rechecked {s r : State} {t w} (h : s.Rechecked t r) (hh : s.halt = none)
    (hw : s.gateSlot[t] = some w) :
    s.gateTick t = match s.par.schema.decode w with
      | none => r.stop (.fault (.unknownOpcode w)) t (.frontend t)
      | some d => r.gateWord t d := by
  obtain ⟨l, e⟩ := rechecked_frame h
  unfold State.gateTick
  rw [refreshLatch_of_rechecked h, r.andThen_of_running (by rw [e]; simp [State.halted, hh])]
  unfold State.gateForward
  have e1 : r.gateSlot = s.gateSlot := by rw [e]
  have e2 : r.par = s.par := by rw [e]
  cases hd : s.par.schema.decode w <;> simp only [e1, e2, hw, hd]

/-- What an open gate does with its word. -/
theorem gateTick_of_open {s r : State} {t w d} (h : s.GateOpen t w d r) : s.gateTick t = r.gateWord t d := by
  rw [gateTick_of_rechecked h.rechecked h.halt h.slot, h.decoded]

/-- Reading a place of a vector of vectors after one of its vectors was written. -/
theorem vget2_set {α : Type} {n m : Nat} (v : Vector (Vector α m) n) (b b' : Fin n) (w : Vector α m) (k : Nat)
    (h : k < m) :
    (v.set b w)[b'][k] = if b' = b then w[k] else v[b'][k] := by
  have := congrArg (fun x : Vector α m => x[k]) (vget_set v b b' w)
  refine this.trans ?_
  split <;> rfl

/-- A configuration word after one was written. -/
theorem setCfg_get (s : State) (b b' : Fin 2) (i k : Nat) (v : Word) (h : k < 188) :
    (s.setCfg b i v).cfg[b'][k] = if b' = b ∧ k = i then v else s.cfg[b'][k] := by
  refine (vget2_set _ _ _ _ _ h).trans ?_
  by_cases e : b' = b
  · subst e
    rw [if_pos rfl, Vector.getElem_setIfInBounds]
    simp only [eq_comm, true_and]
  · rw [if_neg e, if_neg (fun x => e x.1)]

/-- A configuration word after the copy of WRCFG (42_config_unit.md R176). -/
theorem copyGprToCfg_get (s : State) (t : Thread) (b b' : Fin 2) (r c k : Nat) (hk : k < 188) : ∀ n,
   (s.copyGprToCfg t b r c n).cfg[b'][k] = if b' = b ∧ c ≤ k ∧
       k < c + n then s.gprOf t (r + (k - c)) else s.cfg[b'][k] := by
  intro n
  induction n with
  | zero =>
    unfold State.copyGprToCfg; rw [if_neg (by omega)]
  | succ n ih =>
    unfold State.copyGprToCfg
    rw [setCfg_get, ih]
    by_cases e : b' = b ∧ k = c + n
    · rw [if_pos e, if_pos ⟨e.1, by omega, by omega⟩]; rw [e.2]; congr 1; omega
    · rw [if_neg e]
      by_cases e2 : b' = b ∧ c ≤ k ∧ k < c + n
      · rw [if_pos e2, if_pos ⟨e2.1, e2.2.1, by omega⟩]
      · rw [if_neg e2, if_neg]; rintro ⟨a1, a2, a3⟩
        by_cases k = c+n
        · exact e ⟨a1, by omega⟩
        · exact e2 ⟨a1, a2, by omega⟩

/-- The bits of a word after a masked write of one byte lane (R178). -/
theorem byteLane_bits (w : Word) (k j : Nat) (d m : Byte) (hj : j < 32) :
  (setByteLane w k (maskedByte (byteLane w k) d m)).getLsbD j =
    if 8 * k ≤ j ∧ j < 8 * k + 8 ∧ m.getLsbD (j - 8*k) = true then d.getLsbD (j - 8*k) else w.getLsbD j := by
  unfold setByteLane maskedByte byteLane
  have hff : ∀ i, (0xFF#32).getLsbD i = decide (i < 8) := by
    intro i
    by_cases hi : i < 32
    · revert i; decide
    · rw [BitVec.getLsbD_of_ge _ _ (by omega)]; symm; rw [decide_eq_false]; omega
  simp only [BitVec.getLsbD_or, BitVec.getLsbD_and, BitVec.getLsbD_not, BitVec.getLsbD_shiftLeft,
      BitVec.getLsbD_setWidth, BitVec.getLsbD_extractLsb', hff]
  by_cases h1 : 8 * k ≤ j
  · by_cases h2 : j < 8 * k + 8
    · have h3 : j - 8*k < 8 := by omega
      have e : 8 * k + (j - 8*k) = j := by omega
      have h4 : ¬ j < 8 * k := by omega
      have h5 : j - 8 * k < 32 := by omega
      rw [e]
      generalize m.getLsbD (j - 8*k) = mm
      generalize d.getLsbD (j - 8*k) = dd
      generalize w.getLsbD j = ww
      simp only [h1, h2, h3, h4, hj, h5, decide_true, decide_false, Bool.not_false]
      cases mm <;> cases dd <;> cases ww <;> rfl
    · have h3 : ¬ j - 8*k < 8 := by omega
      have h6 : d.getLsbD (j - 8*k) = false := BitVec.getLsbD_of_ge _ _ (by omega)
      have h7 : m.getLsbD (j - 8*k) = false := BitVec.getLsbD_of_ge _ _ (by omega)
      simp [h1, h2, h3, hj, h6, h7]
  · have : j < 8 * k := by omega
    simp [h1, this, hj]

/-- An offer whose condition is equivalent to a proposition. -/
theorem offerIf_iff (s : State) (u e) (b : Bool) (p : Prop) (h : b = true ↔ p) :
  (p → s.offerIf u e b = .taken (s.pushEntry u e)) ∧ (¬ p → s.offerIf u e b = .rejected) := by
  unfold State.offerIf
  refine ⟨fun hp => if_pos (h.2 hp), fun hp => if_neg (fun x => hp (h.1 x))⟩

/-- How many entries of a name a queue has after one is appended. -/
theorem countNamed_pushEntry (s : State) (u : FUnit) (e : Entry) (n : OpName) :
  (s.pushEntry u e).countNamed u n = s.countNamed u n + if s.entryName e = some n then 1 else 0 := by
  unfold State.countNamed
  rw [State.queueOf_pushEntry, if_pos rfl, List.filter_append, List.length_append]
  congr 1
  have : (s.pushEntry u e).entryName e = s.entryName e := rfl
  by_cases h : s.entryName e = some n <;> simp [this, h]

/-- The usable mutex indices (43_sync_unit.md R193). -/
theorem mutexIndex_ok (i : Fin 8) (h : 1 ≤ i.val) : mutexIndex i.val = .ok i := by
  unfold mutexIndex; rw [dif_pos ⟨h, i.2⟩]

/-- A unit with rules of its own has no occupancy effect. -/
theorem occupy_of_home {n : OpName} {u : FUnit} (h : homeUnit n = some u) (s : State) (t : Thread) :
    s.occupy u t = s := by
  unfold State.occupy
  have : dmaOf u = none := by
    cases n <;> cases h <;> rfl
  rw [this]

/-- Executing an entry that holds an instruction of the unit. -/
theorem execEntry_of_holds {s : State} {u e x} (h : s.Holds u e x) : s.execEntry u e =
    s.runInstr (.unit u) x.thread x.view x.instr := by
  obtain ⟨h1, h2, hd, hi⟩ := h
  have hn := toInstr_opName hi
  unfold State.execEntry; rw [hd]; dsimp only
  rw [if_pos (hn ▸ h2), occupy_of_home h2]
  unfold State.runDecoded; rw [hi, h1]

/-- What the work before a drain can change. -/
theorem preUnit_frame (s : State) (u) : ∃ f b, s.preUnit u = { s with flush := f, backendStall := b } := by
  have rc : ∀ (s : State) t, ∃ f b, s.recheckFlush t = { s with flush := f, backendStall := b } := by
    intro s t; unfold State.recheckFlush; split
    · split
      · exact ⟨_, _, rfl⟩
      · exact ⟨_, _, rfl⟩
    · exact ⟨_, _, rfl⟩
  unfold State.preUnit; split
  · unfold State.recheckFlushes
    obtain ⟨f, b, h⟩ := rc s 0; rw [h]
    obtain ⟨f, b, h⟩ := rc { s with flush := f, backendStall := b } 1; rw [h]
    obtain ⟨f, b, h⟩ := rc { s with flush := f, backendStall := b } 2; rw [h]
    exact ⟨_, _, rfl⟩
  · exact ⟨_, _, rfl⟩

/-- No entry is executed after the run has ended. -/
theorem drainLoop_of_halted (u) : ∀ (q : List Entry) (s : State), s.halted = true → State.drainLoop u q s = s := by
  intro q; induction q with
  | nil => intros; rfl
  | cons e q ih =>
    intro s h; unfold State.drainLoop; rw [List.foldl_cons, s.andThen_of_halted h]; exact ih s h

/-- The thread an override names (45_adc_unit.md R233). -/
theorem overrideThread_ok (s : State) (u : Thread) (o : Nat)
    (h : u.val = (if o = 0 then s.cur.val else o - 1)) : overrideThread s.cur o = .ok u := by
  rw [overrideThread]
  split at h
  · next e => rw [if_pos e]; congr; exact Fin.ext h.symm
  · next e =>
    rw [if_neg e, dif_pos (by omega)]; congr; exact h.symm

/-- The shared operation of the ADC family in the words of the statements. -/
theorem overAdc_effect (s : State) (u : Thread) (o m : Nat) (f : Fin 2 → Dim → Option (Counter → Counter))
    (F : Fin 2 → Dim → Counter → Counter)
    (h : overrideThread s.cur o = .ok u) (hF : ∀ c d x, F c d x = match f c d with | some k => k x | none => x) :
    ∃ t, s.overAdc o m f = .next t ∧ s.AdcEffect t u m F := by
  refine ⟨_, by rw [State.overAdc, h]; rfl, rfl, fun v hv => vget_set_ne _ hv _, fun g c d => ?_⟩
  dsimp only
  rw [vget_set_self, AdcThread.get_ofFn, hF]
  have : groupSelected m g = m.testBit (groupBit g) := by cases g <;> rfl
  rw [this]
  all_goals rfl

/-- When a flush mask still selects work of a thread (44_thcon_unit.md R221, R222). -/
theorem anyInFlight_iff (s : State) (m : BitVec 3) (t : Thread) : s.anyInFlight m t = true ↔ ∃ u : DmaUnit,
    m.getLsbD (dmaIndex u) = true ∧ ((∃ e ∈ s.queueOf u.unit, e.thread = t) ∨ 0 < s.inflightOf u t) := by
  simp only [State.anyInFlight, State.inFlight, State.queued, flushSelects, List.any_cons, List.any_nil,
      Bool.or_false, Bool.or_eq_true, Bool.and_eq_true, decide_eq_true_eq, List.any_eq_true]
  constructor
  · rintro (h | h | h)
    · exact ⟨.unpacker0, h⟩
    · exact ⟨.unpacker1, h⟩
    · exact ⟨.packer, h⟩
  · rintro ⟨u, h⟩
    cases u
    · exact .inl h
    · exact .inr (.inl h)
    · exact .inr (.inr h)

/-- Inserting a row adds it. -/
theorem mem_insertRow (r x : Nat) (l : List Nat) : x ∈ insertRow r l ↔ x = r ∨ x ∈ l := by
  induction l with
  | nil => simp [insertRow]
  | cons y l ih =>
    rw [insertRow]
    split
    · simp
    · split
      · next h => subst h; simp
      · simp [ih]; tauto

/-- The rows that are undefined after marking some (46_matrix_unit.md R255). -/
theorem mem_markRows (rows : List Nat) (s : State) (x : Nat) : x ∈ (s.markRows rows).dstUndefined ↔
    x ∈ s.dstUndefined ∨ x ∈ rows := by
  simp only [State.markRows]
  induction rows with
  | nil => simp
  | cons r rows ih => simp [mem_insertRow, ih]; tauto

/-- The checks of a transfer of some bytes (47_mover_and_other_units.md R266, R267). -/
theorem transferOk_iff (s : State) (x : Transfer) (hn : 0 < x.n) : s.transferOk x = true ↔
   ((match x.srcRegion with
      | .l1 => s.par.l1Base ≤ x.src ∧ x.src + x.n ≤ s.par.l1Base + s.par.l1Size
      | .l0 => s.par.l0Base ≤ x.src ∧ x.src + x.n ≤ s.par.l0Base + s.par.l0Size) ∧
    (match x.dstRegion with
      | .l1 => s.par.l1Base ≤ x.dst ∧ x.dst + x.n ≤ s.par.l1Base + s.par.l1Size
      | .l0 => s.par.l0Base ≤ x.dst ∧ x.dst + x.n ≤ s.par.l0Base + s.par.l0Size) ∧
    x.src / 65536 = (x.src + x.n - 1) / 65536 ∧ x.dst / 65536 = (x.dst + x.n - 1) / 65536) := by
  have h0 : x.n ≠ 0 := by omega
  simp only [State.transferOk, h0, decide_false, Bool.false_or, Bool.and_eq_true, State.inRegion, straddles,
      moverRegion, Bool.not_eq_true', Bool.and_eq_false_iff, decide_eq_false_iff_not, bne_eq_false_iff_eq, hn,
      not_true, false_or, and_assoc]
  cases x.srcRegion <;> cases x.dstRegion <;> simp [and_assoc]

/-- Configuration words have no bad index exactly when all their indices exist. -/
theorem cfgBadIndex_none (ps : List CfgPlace) : cfgBadIndex ps = none ↔ ∀ p ∈ ps, p.bank < 2 ∧ p.idx < 188 := by
  induction ps with
  | nil => simp [cfgBadIndex]
  | cons p ps ih =>
    rw [List.forall_mem_cons, ← ih, cfgBadIndex]
    split
    · simp; omega
    · split
      · simp; omega
      · next h1 h2 => exact ⟨fun h => ⟨⟨by omega, by omega⟩, h⟩, fun h => h.2⟩

/-- A write of a counter field whose indices exist writes the field they number (44_thcon_unit.md R217). -/
theorem counterWrite_place (s : State) (u : Thread) {w : AdcWrite} (hg : w.group < 3) (hc : w.chan < 2)
    (hd : w.dim < 4) : ∃ (g : Group) (c : Fin 2) (d : Dim), w.group = groupBit g ∧ w.chan = c.val ∧
      w.dim = dimNumber d ∧ s.counterWrite u w = s.pokeAdc u g c d w.half w.value := by
  obtain ⟨⟨n, c, m, h⟩, v⟩ := w
  dsimp only at hg hc hd
  obtain ⟨g, rfl, eg⟩ : ∃ g, n = groupBit g ∧ groupOfIndex n = .ok g := by
    interval_cases n
    exacts [⟨.u0, rfl, rfl⟩, ⟨.u1, rfl, rfl⟩, ⟨.pk, rfl, rfl⟩]
  obtain ⟨d, rfl, ed⟩ : ∃ d, m = dimNumber d ∧ dimOfIndex m = .ok d := by
    interval_cases m
    exacts [⟨.x, rfl, rfl⟩, ⟨.y, rfl, rfl⟩, ⟨.z, rfl, rfl⟩, ⟨.w, rfl, rfl⟩]
  have ec : chanOfIndex c = .ok ⟨c, hc⟩ := dif_pos hc
  exact ⟨g, ⟨c, hc⟩, d, rfl, rfl, rfl, by simp only [State.counterWrite, eg, ec, ed]⟩

/-- Counter fields have no bad index exactly when all its indices exist (10_state.md R43). -/
theorem adcBadIndex_none (ps : List AdcPlace) :
    adcBadIndex ps = none ↔ ∀ p ∈ ps, p.group < 3 ∧ p.chan < 2 ∧ p.dim < 4 := by
  induction ps with
  | nil => simp [adcBadIndex]
  | cons p ps ih =>
    rw [List.forall_mem_cons, ← ih, adcBadIndex]
    split
    · simp; omega
    · split
      · simp; omega
      · split
        · simp; omega
        · exact ⟨fun h => ⟨⟨by omega, by omega, by omega⟩, h⟩, fun h => h.2⟩

/-- A target has no bad index exactly when every index of it exists (44_thcon_unit.md R217). -/
theorem targetBadIndex_none (x : MoveTarget) : targetBadIndex x = none ↔
    (∀ ps, x = .config ps → ∀ p ∈ ps, p.bank < 2 ∧ p.idx < 188) ∧
    ∀ o ps, x = .counters o ps → (∀ v, o = some v → v < 3) ∧ ∀ p ∈ ps, p.group < 3 ∧ p.chan < 2 ∧ p.dim < 4 := by
  cases x with
  | config ps => simp [targetBadIndex, cfgBadIndex_none]
  | counters o ps =>
    cases o with
    | none => simp [targetBadIndex, adcBadIndex_none]
    | some v =>
      by_cases hv : 3 ≤ v
      · simp [targetBadIndex, hv]
      · simpa [targetBadIndex, hv, adcBadIndex_none] using fun _ => by omega

/-- A move has no bad index exactly when the registers it moves and every index of its target exist
(44_thcon_unit.md R217). -/
theorem thconBadIndex_none (ngpr reg : Nat) (a : ThconAnswer) : thconBadIndex ngpr reg a = none ↔
    reg + moveRegisters a.size ≤ ngpr ∧
    (∀ ps, a.effect.target = .config ps → ∀ p ∈ ps, p.bank < 2 ∧ p.idx < 188) ∧
    ∀ o ps, a.effect.target = .counters o ps → (∀ v, o = some v → v < 3) ∧
      ∀ p ∈ ps, p.group < 3 ∧ p.chan < 2 ∧ p.dim < 4 := by
  have hr : ((List.range' reg (moveRegisters a.size)).find? fun i => decide (ngpr ≤ i)) = none ↔
      reg + moveRegisters a.size ≤ ngpr := by
    rw [List.find?_eq_none]
    have h1 : 1 ≤ moveRegisters a.size := by cases a.size <;> decide
    constructor
    · intro h
      have := h (reg + moveRegisters a.size - 1) (by rw [List.mem_range'_1]; omega)
      simp only [decide_eq_true_eq] at this
      omega
    · intro h i hi
      rw [List.mem_range'_1] at hi
      simp only [decide_eq_true_eq]
      omega
  rw [← hr, ← targetBadIndex_none, thconBadIndex]
  split
  · next h => rw [h]; simp
  · next h => rw [h]; simp

/-- The last value that a longer list of writes leaves. -/
theorem lastOf_cons {α β : Type} (f : α → Option β) (w : α) (ws : List α) (old : β) :
    lastOf f (w :: ws) old = lastOf f ws ((f w).getD old) := by
  simp only [lastOf, List.filterMap_cons]
  cases hw : f w with
  | none => rfl
  | some b =>
    dsimp only
    rw [List.getLast?_cons]
    rfl

/-- The in-flight work of a thread after a count-down (47_mover_and_other_units.md R271). -/
theorem inflightOf_countDown (s : State) (v v' : DmaUnit) (drained : List Entry) (t t' : Thread) :
    (s.countDown v drained t).inflightOf v' t' =
      if v' = v ∧ t' = t ∧ ¬ (drained.any fun e => decide (e.thread = t)) = true then s.inflightOf v' t' - 1
      else s.inflightOf v' t' := by
  unfold State.countDown
  split
  · next h => simp [h]
  · next h =>
    rw [State.inflightOf_setInflight]
    by_cases e : v' = v ∧ t' = t
    · obtain ⟨rfl, rfl⟩ := e; simp [h]
    · rw [if_neg e, if_neg fun x => e ⟨x.1, x.2.1⟩]

/-- An access that touches no port starts at no port. -/
theorem portAt_of_untouched {s : State} {a n : Nat} (hn : 0 < n) (h : s.portTouched a n = false) :
    s.portAt a = none := by
  unfold State.portAt
  rw [List.find?_eq_none]
  intro p hp hh
  unfold State.portTouched at h
  rw [List.any_eq_false] at h
  refine h p hp ?_
  unfold portTouch
  rw [Bool.and_eq_true, Bool.and_eq_true, decide_eq_true_eq, decide_eq_true_eq, decide_eq_true_eq]
  cases p <;> simp only [portHit, Bool.and_eq_true, decide_eq_true_eq] at hh <;> dsimp only [State.portSpan] <;> omega

/-- A move after a stop, other than a reset, changes the answers and the external memory alone, and neither unless it is
an access of that memory (log entry 28). -/
theorem moveAfterStop_frame (s : State) {m : EnvMove} (hm : m ≠ .reset) :
    ∃ r M, s.moveAfterStop m = { s with replies := r, mem := M } ∧
      (s.isMemoryMove m = false → r = s.replies ∧ M = s.mem) := by
  unfold State.moveAfterStop
  rw [if_neg hm]
  by_cases hmm : s.isMemoryMove m = true
  · rw [if_pos hmm]
    have write : ∀ a bs, ∃ r M, { s.memWrite a bs with halt := s.halt } = { s with replies := r, mem := M } := by
      intro a bs; unfold State.memWrite State.stopMove; split <;> exact ⟨_, _, rfl⟩
    have read : ∀ a n, ∃ r M, { s.memRead a n with halt := s.halt } = { s with replies := r, mem := M } := by
      intro a n; unfold State.memRead State.stopMove State.reply; split <;> exact ⟨_, _, rfl⟩
    have stop : ∀ y, ∃ r M, { s.stopMove y with halt := s.halt } = { s with replies := r, mem := M } :=
      fun y => ⟨_, _, rfl⟩
    suffices ∃ r M, { s.makeMove m with halt := s.halt } = { s with replies := r, mem := M } by
      obtain ⟨r, M, e⟩ := this; exact ⟨r, M, e, fun hf => by rw [hmm] at hf; cases hf⟩
    cases m <;> simp only [State.isMemoryMove, Bool.false_eq_true, Bool.not_eq_true'] at hmm <;>
      simp only [State.makeMove]
    · exact write _ _
    · exact read _ _
    · unfold State.busWrite State.elsewhere
      rw [hmm]
      dsimp only
      split
      · next e =>
        subst e
        rw [portAt_of_untouched (by decide) hmm]
        dsimp only
        split
        · exact stop _
        · exact write _ _
      · split
        · exact stop _
        · split
          · exact write _ _
          · exact stop _
    · unfold State.busRead State.elsewhere
      rw [hmm]
      dsimp only
      split
      · next e => subst e; rw [portAt_of_untouched (by decide) hmm]; exact read _ _
      · exact read _ _
  · rw [if_neg hmm]; exact ⟨_, _, rfl, fun _ => ⟨rfl, rfl⟩⟩

end Sys2Proof.Machine
end

