-- ==== Sys2Proof/Tests/Slice0.lean ====
section
/-! SUPPORT. Tests. The expected results are those of spec/95_test_vectors.md (the vector is named where there is one)
or are worked out by hand from the rule named. The first section refuses ill-formed instructions, the second decodes
one hand-written word per constructor, the third runs single instructions and single component ticks, the last shows
that what each statement assumes can be met. -/

namespace Sys2Proof.Tests

open Sys2Proof Sys2Proof.Machine

set_option Elab.async false

/-! ## Ill-formed instructions are refused (R91: one argument too wide, for each check) -/

theorem test_illformed_mop : ¬ (Instr.mop 65536 0 0).WellFormed ∧ ¬ (Instr.mop 0 128 0).WellFormed ∧
    ¬ (Instr.mop 0 0 2).WellFormed := by decide

theorem test_illformed_mopCfg : ¬ (Instr.mopCfg (2 ^ 24)).WellFormed := by decide

theorem test_illformed_replay : ¬ (Instr.replay 2 0 0 0).WellFormed ∧ ¬ (Instr.replay 0 8 0 0).WellFormed ∧
    ¬ (Instr.replay 0 0 1024 0).WellFormed ∧ ¬ (Instr.replay 0 0 0 1024).WellFormed := by decide

theorem test_illformed_zeroacc : ¬ (Instr.zeroacc 32768 0 0).WellFormed ∧ ¬ (Instr.zeroacc 0 16 0).WellFormed ∧
    ¬ (Instr.zeroacc 0 0 32).WellFormed := by decide

theorem test_illformed_setrwc : ¬ (Instr.setrwc 64 0 0 0 0 0).WellFormed ∧
    ¬ (Instr.setrwc 0 16 0 0 0 0).WellFormed ∧ ¬ (Instr.setrwc 0 0 16 0 0 0).WellFormed ∧
    ¬ (Instr.setrwc 0 0 0 16 0 0).WellFormed ∧ ¬ (Instr.setrwc 0 0 0 0 16 0).WellFormed ∧
    ¬ (Instr.setrwc 0 0 0 0 0 4).WellFormed := by decide

theorem test_illformed_xmov_flushdma : ¬ (Instr.xmov (2 ^ 23) 0).WellFormed ∧ ¬ (Instr.xmov 0 2).WellFormed ∧
    ¬ (Instr.flushdma (2 ^ 24)).WellFormed := by decide

theorem test_illformed_reg2flop : ¬ (Instr.reg2flop 64 0 0 0 0 0).WellFormed ∧
    ¬ (Instr.reg2flop 0 1024 0 0 0 0).WellFormed ∧ ¬ (Instr.reg2flop 0 0 4 0 0 0).WellFormed ∧
    ¬ (Instr.reg2flop 0 0 0 4 0 0).WellFormed ∧ ¬ (Instr.reg2flop 0 0 0 0 4 0).WellFormed ∧
    ¬ (Instr.reg2flop 0 0 0 0 0 4).WellFormed := by decide

theorem test_illformed_setadc : ¬ (Instr.setadc (2 ^ 18) 0 0 0 0).WellFormed ∧
    ¬ (Instr.setadc 0 4 0 0 0).WellFormed ∧ ¬ (Instr.setadc 0 0 2 0 0).WellFormed ∧
    ¬ (Instr.setadc 0 0 0 8 0).WellFormed ∧ ¬ (Instr.setadc 0 0 0 0 1).WellFormed := by decide

theorem test_illformed_set_and_clear_pairs :
    ∀ f ∈ [Instr.setadcxy, Instr.setadczw, Instr.addrcrxy, Instr.addrcrzw],
      ¬ (f 64 0 0 0 0 0 0).WellFormed ∧ ¬ (f 0 8 0 0 0 0 0).WellFormed ∧ ¬ (f 0 0 8 0 0 0 0).WellFormed ∧
      ¬ (f 0 0 0 8 0 0 0).WellFormed ∧ ¬ (f 0 0 0 0 64 0 0).WellFormed ∧ ¬ (f 0 0 0 0 0 8 0).WellFormed ∧
      ¬ (f 0 0 0 0 0 0 1).WellFormed := by
  simp [Instr.WellFormed]

theorem test_illformed_increment_pairs :
    ∀ f ∈ [Instr.incadcxy, Instr.incadczw],
      ¬ (f 8 0 0 0 0 0).WellFormed ∧ ¬ (f 0 8 0 0 0 0).WellFormed ∧ ¬ (f 0 0 8 0 0 0).WellFormed ∧
      ¬ (f 0 0 0 64 0 0).WellFormed ∧ ¬ (f 0 0 0 0 8 0).WellFormed ∧ ¬ (f 0 0 0 0 0 1).WellFormed := by
  simp [Instr.WellFormed]

theorem test_illformed_setadcxx : ¬ (Instr.setadcxx 1024 0 0).WellFormed ∧
    ¬ (Instr.setadcxx 0 2048 0).WellFormed ∧ ¬ (Instr.setadcxx 0 0 8).WellFormed := by decide

theorem test_illformed_storereg_and_mutex : ¬ (Instr.storereg (2 ^ 18) 0).WellFormed ∧
    ¬ (Instr.storereg 0 64).WellFormed ∧ ¬ (Instr.atgetm (2 ^ 24)).WellFormed ∧
    ¬ (Instr.atrelm (2 ^ 24)).WellFormed := by decide

theorem test_illformed_waits : ¬ (Instr.stallwait 32768 0).WellFormed ∧ ¬ (Instr.stallwait 0 512).WellFormed ∧
    ¬ (Instr.semwait 4 0 0).WellFormed ∧ ¬ (Instr.semwait 0 8192 0).WellFormed ∧
    ¬ (Instr.semwait 0 0 512).WellFormed := by decide

theorem test_illformed_semaphores : ¬ (Instr.seminit 16384 0 0).WellFormed ∧
    ¬ (Instr.seminit 0 16 0).WellFormed ∧ ¬ (Instr.seminit 0 0 16).WellFormed ∧
    ¬ (Instr.sempost (2 ^ 22)).WellFormed ∧ ¬ (Instr.semget (2 ^ 22)).WellFormed := by decide

theorem test_illformed_config : ¬ (Instr.wrcfg 32768 0 0).WellFormed ∧ ¬ (Instr.wrcfg 0 2 0).WellFormed ∧
    ¬ (Instr.wrcfg 0 0 256).WellFormed ∧ ¬ (Instr.setc16 65536 0).WellFormed ∧ ¬ (Instr.setc16 0 256).WellFormed := by
  decide

theorem test_illformed_rmwcib :
    ∀ f ∈ [Instr.rmwcib0, Instr.rmwcib1, Instr.rmwcib2, Instr.rmwcib3],
      ¬ (f 256 0 0).WellFormed ∧ ¬ (f 0 256 0).WellFormed ∧ ¬ (f 0 0 256).WellFormed := by
  simp [Instr.WellFormed]

/-- R83: a schema with an opcode value twice, or a start bit or an argument name twice in one row, is not well-formed;
the default one is. -/
theorem test_schema_wf : schemaDefault.wf = true ∧
    (Schema.mk [⟨2, .nop, [], .none⟩, ⟨2, .dmanop, [], .scalar⟩] []).wf = false ∧
    (Schema.mk [⟨2, .nop, [(.len, 3), (.data, 3)], .none⟩] []).wf = false ∧
    (Schema.mk [⟨2, .nop, [(.len, 3), (.len, 4)], .none⟩] []).wf = false ∧ Params.default.wf = true := by
  decide

/-! ## Every constructor's word, bit by bit from R91: opcode, then the fields from bit 23 down -/

theorem test_decode_mop :
    decodeTableWord 32 (0x01#8 ++ 1#1 ++ 100#7 ++ 0xABCD#16 : BitVec 32).toNat = some (.mop 0xABCD 100 1) := by decide

theorem test_decode_nop : decodeTableWord 32 (0x02#8 ++ 0xABCDEF#24 : BitVec 32).toNat = some .nop := by decide

theorem test_decode_mopCfg :
    decodeTableWord 32 (0x03#8 ++ 0x123456#24 : BitVec 32).toNat = some (.mopCfg 0x123456) := by decide

theorem test_decode_replay :
    decodeTableWord 32 (0x04#8 ++ 30#10 ++ 4#10 ++ 5#3 ++ 1#1 : BitVec 32).toNat = some (.replay 1 5 4 30) := by decide

theorem test_decode_zeroacc :
    decodeTableWord 32 (0x10#8 ++ 3#5 ++ 9#4 ++ 77#15 : BitVec 32).toNat = some (.zeroacc 77 9 3) := by decide

theorem test_decode_setrwc :
    decodeTableWord 32 (0x37#8 ++ 2#2 ++ 5#4 ++ 7#4 ++ 9#4 ++ 11#4 ++ 33#6 : BitVec 32).toNat =
      some (.setrwc 33 11 9 7 5 2) := by decide

theorem test_decode_xmov :
    decodeTableWord 32 (0x40#8 ++ 1#1 ++ 0x123456#23 : BitVec 32).toNat = some (.xmov 0x123456 1) := by decide

theorem test_decode_flushdma :
    decodeTableWord 32 (0x46#8 ++ 6#24 : BitVec 32).toNat = some (.flushdma 6) := by decide

theorem test_decode_reg2flop :
    decodeTableWord 32 (0x48#8 ++ 1#2 ++ 2#2 ++ 3#2 ++ 1#2 ++ 513#10 ++ 37#6 : BitVec 32).toNat =
      some (.reg2flop 37 513 1 3 2 1) := by decide

theorem test_decode_setadc :
    decodeTableWord 32 (0x50#8 ++ 4#3 ++ 1#1 ++ 2#2 ++ 7#18 : BitVec 32).toNat = some (.setadc 7 2 1 4 0) := by decide

theorem test_decode_setadcxy :
    decodeTableWord 32 (0x51#8 ++ 7#3 ++ 44#6 ++ 3#3 ++ 2#3 ++ 1#3 ++ 15#6 : BitVec 32).toNat =
      some (.setadcxy 15 1 2 3 44 7 0) := by decide

theorem test_decode_incadcxy :
    decodeTableWord 32 (0x52#8 ++ 2#3 ++ 44#6 ++ 3#3 ++ 2#3 ++ 1#3 ++ 63#6 : BitVec 32).toNat =
      some (.incadcxy 1 2 3 44 2 0) := by decide

theorem test_decode_addrcrxy :
    decodeTableWord 32 (0x53#8 ++ 4#3 ++ 44#6 ++ 3#3 ++ 2#3 ++ 1#3 ++ 9#6 : BitVec 32).toNat =
      some (.addrcrxy 9 1 2 3 44 4 0) := by decide

theorem test_decode_setadczw :
    decodeTableWord 32 (0x54#8 ++ 4#3 ++ 44#6 ++ 3#3 ++ 2#3 ++ 1#3 ++ 8#6 : BitVec 32).toNat =
      some (.setadczw 8 1 2 3 44 4 0) := by decide

theorem test_decode_incadczw :
    decodeTableWord 32 (0x55#8 ++ 1#3 ++ 44#6 ++ 3#3 ++ 2#3 ++ 1#3 ++ 0#6 : BitVec 32).toNat =
      some (.incadczw 1 2 3 44 1 0) := by decide

theorem test_decode_addrcrzw :
    decodeTableWord 32 (0x56#8 ++ 5#3 ++ 44#6 ++ 3#3 ++ 2#3 ++ 1#3 ++ 6#6 : BitVec 32).toNat =
      some (.addrcrzw 6 1 2 3 44 5 0) := by decide

theorem test_decode_setadcxx :
    decodeTableWord 32 (0x5E#8 ++ 1#3 ++ 2#11 ++ 1#10 : BitVec 32).toNat = some (.setadcxx 1 2 1) := by decide

theorem test_decode_dmanop : decodeTableWord 32 (0x60#8 ++ 5#24 : BitVec 32).toNat = some .dmanop := by decide

theorem test_decode_storereg :
    decodeTableWord 32 (0x67#8 ++ 3#6 ++ 2#18 : BitVec 32).toNat = some (.storereg 2 3) := by decide

theorem test_decode_sfpnop : decodeTableWord 32 (0x8F#8 ++ 5#24 : BitVec 32).toNat = some .sfpnop := by decide

theorem test_decode_atgetm : decodeTableWord 32 (0xA0#8 ++ 2#24 : BitVec 32).toNat = some (.atgetm 2) := by decide

theorem test_decode_atrelm : decodeTableWord 32 (0xA1#8 ++ 7#24 : BitVec 32).toNat = some (.atrelm 7) := by decide

theorem test_decode_stallwait :
    decodeTableWord 32 (0xA2#8 ++ 2#9 ++ 0x100#15 : BitVec 32).toNat = some (.stallwait 0x100 2) := by decide

theorem test_decode_seminit :
    decodeTableWord 32 (0xA3#8 ++ 15#4 ++ 3#4 ++ 1#14 ++ 0#2 : BitVec 32).toNat = some (.seminit 1 3 15) := by decide

/-- V-D5: bits 1:0 belong to no argument. -/
theorem test_decode_sempost :
    decodeTableWord 32 (0xA4#8 ++ 1#22 ++ 3#2 : BitVec 32).toNat = some (.sempost 1) := by decide

theorem test_decode_semget :
    decodeTableWord 32 (0xA5#8 ++ 0x81#22 ++ 0#2 : BitVec 32).toNat = some (.semget 0x81) := by decide

theorem test_decode_semwait :
    decodeTableWord 32 (0xA6#8 ++ 0x40#9 ++ 1#13 ++ 2#2 : BitVec 32).toNat = some (.semwait 2 1 0x40) := by decide

theorem test_decode_wrcfg :
    decodeTableWord 32 (0xB0#8 ++ 4#8 ++ 1#1 ++ 8#15 : BitVec 32).toNat = some (.wrcfg 8 1 4) := by decide

theorem test_decode_setc16 :
    decodeTableWord 32 (0xB2#8 ++ 56#8 ++ 0xFFFE#16 : BitVec 32).toNat = some (.setc16 0xFFFE 56) := by decide

theorem test_decode_rmwcib :
    decodeTableWord 32 (0xB3#8 ++ 0x0F#8 ++ 0xAB#8 ++ 3#8 : BitVec 32).toNat = some (.rmwcib0 3 0xAB 0x0F) ∧
    decodeTableWord 32 (0xB4#8 ++ 0x0F#8 ++ 0xAB#8 ++ 3#8 : BitVec 32).toNat = some (.rmwcib1 3 0xAB 0x0F) ∧
    decodeTableWord 32 (0xB5#8 ++ 0x0F#8 ++ 0xAB#8 ++ 3#8 : BitVec 32).toNat = some (.rmwcib2 3 0xAB 0x0F) ∧
    decodeTableWord 32 (0xB6#8 ++ 0x0F#8 ++ 0xAB#8 ++ 3#8 : BitVec 32).toNat = some (.rmwcib3 3 0xAB 0x0F) := by decide

/-- V-D7: the encoder gives the word of the vector. -/
theorem test_encode_setadcxy : encode (.setadcxy 15 1 2 3 4 7 0) = 0x51E2344F := by decide

/-- V-D3, R94. -/
theorem test_decode_unknown : decodeTableWord 32 0xFF000000 = none ∧ decodeTableWord 32 0 = none := by decide

/-- V-D4, R87. -/
theorem test_isnop : [0x02000000, 0x02ABCDEF, 0x60000000, 0x8F000000, 0x00000002].map isnop =
    [true, true, false, false, false] := by decide

/-! ## Single instructions and ticks -/

/-- A small machine: 8 registers a thread, 32 rows of the Destination register, the rest as at reset. -/
def base : State := State.powerOn { Params.default with ngpr := 8, dstRows := 32 }

/-- What a meaning's next state shows. -/
def after {α : Type} (r : Result) (f : State → α) : Option α :=
  match r with
  | .next s => some (f s)
  | .fault _ => none
  | .refused _ => none

/-- The fault of a meaning. -/
def faultOf : Result → Option Fault
  | .next _ => none
  | .fault f => some f
  | .refused _ => none

/-- The refusal of a meaning. -/
def refusalOf : Result → Option Refusal
  | .next _ => none
  | .fault _ => none
  | .refused r => some r

/-- Thread 0's macro config words. -/
def withMop (cw : Vector Word 9) : State := { base with mopCfg := base.mopCfg.set 0 cw }

/-- V-M1. -/
theorem test_mop_skip : after (exec (.mop 1 1 0) (withMop #v[0, 0, 12, 20, 21, 22, 23, 30, 31]))
    (fun t => t.mopOut[0]) = some [30, 20] := by decide +kernel

/-- V-M2. -/
theorem test_mop_body : after (exec (.mop 2 1 0) (withMop #v[0, 3, 12, 20, 21, 22, 23, 30, 31]))
    (fun t => (t.mopOut[0], t.expanding[0])) = some ([20, 21, 22, 23, 12, 30, 31], true) := by decide +kernel

/-- V-M4. -/
theorem test_mop_loop :
    after (exec (.mop 0 0 1) (withMop #v[2, 2, 0x02000000, 0x02000000, 0x02000000, 5, 5, 7, 8]))
      (fun t => t.mopOut[0]) = some [5, 8, 5, 7] := by decide +kernel

/-- V-M8. -/
theorem test_mop_alternation : after (exec (.mop 0 0 1) (withMop #v[1, 2, 1, 3, 4, 5, 6, 7, 8]))
    (fun t => t.mopOut[0]) = some [1, 5, 6, 5, 7, 3, 4] := by decide +kernel

/-- R115: the low 16 bits of the argument. -/
theorem test_mopCfg : after (exec (.mopCfg 0x123456) base) (fun t => (t.zmaskHi[0], t.zmaskHi[1])) =
    some (0x3456, 0) := by decide +kernel

/-- V-R3, V-R4: length 0 is 64, the start index is taken modulo 32. -/
theorem test_replay_load : after (exec (.replay 1 0 0 33) base)
    (fun t => (t.startIdx[0], t.recCursor[0], t.recLeft[0], t.playLeft[0], t.ewl[0])) = some (1, 1, 64, 0, false) := by
  decide +kernel

/-- V-R5: a play of a slot that was never recorded. -/
theorem test_replay_of_empty_slot :
    ({ base with playLeft := base.playLeft.set 0 1 }.replayTick 0).halt =
      some ⟨.refused (.replayOfEmptySlot 0), some 0, some (.frontend 0)⟩ := by decide +kernel

/-- V-G1. -/
theorem test_stallwait : after (exec (.stallwait 0 2) base) (fun t => (t.latch[0], t.latch[1])) =
    some (⟨.stallwait, 0, 2, none⟩, Latch.clear) := by decide +kernel

/-- V-G3 and V-G4. -/
theorem test_semwait : after (exec (.semwait 0 1 0x40) base) (fun t => t.latch[0]) =
      some ⟨.stallwait, 0x7F, 0x40, none⟩ ∧
    after (exec (.semwait 1 1 0x40) base) (fun t => t.latch[0]) = some ⟨.semwait, 1, 0x40, some 1⟩ := by decide +kernel

/-- A machine with a word in the gate slot of thread 0. -/
def atGate (w : Word) : State := { base with gateSlot := base.gateSlot.set 0 (some w) }

/-- V-G5: `sem[0]` = (2, 2) and condition bit 1 hold; (1, 2) does not. -/
theorem test_semwait_at_max :
    let waiting : State := { base with latch := base.latch.set 0 ⟨.semwait, 2, 2, some 1⟩ }
    { waiting with sem := base.sem.set 0 ⟨2, 2⟩ }.waitHolds 0 = .ok true ∧
    { waiting with sem := base.sem.set 0 ⟨1, 2⟩ }.waitHolds 0 = .ok false := by decide +kernel

/-- V-G2. -/
theorem test_stallwait_without_predicate :
    ({ base with latch := base.latch.set 0 ⟨.stallwait, 0x100, 2, none⟩ }.gateTick 0).halt =
      some ⟨.refused (.conditionBitUnmodelled 8), some 0, some (.frontend 0)⟩ := by decide +kernel

/-- V-G7, V-X1. -/
theorem test_nop_at_gate : (atGate 0x02000000).gateTick 0 = base := by decide +kernel

/-- V-M11, R141: a MOP word at the gate. -/
theorem test_unroutable : ((atGate 0x01800000).gateTick 0).halt =
    some ⟨.fault (.unroutableInstruction 0x01800000), some 0, some (.frontend 0)⟩ := by decide +kernel

/-- V-C6, V-C7. -/
theorem test_setc16 :
    after (exec (.setc16 1 0) { base with cur := 1 }) (fun t => (t.tcfg[1][0], t.tcfg[0][0], t.activeBank 1)) =
      some (1, 0, .ok 1) ∧
    after (exec (.setc16 0xFFFF 56) { base with tcfg := base.tcfg.set 0 (base.tcfg[0].set 56 0xFFFFFFFF) })
      (fun t => t.tcfg[0][56]) = some 0x0000FFFF := by decide +kernel

/-- V-C8. -/
theorem test_setc16_out_of_range : faultOf (exec (.setc16 0 57) base) = some (.invalidFieldAccess (.index 57)) := by
  decide +kernel

/-- A machine whose thread 0 holds 0 to 3, 0x11 to 0x44 in its registers. -/
def withRegs : State := { base with gpr := base.gpr.set 0 [0, 1, 2, 0xDEADBEEF, 0x11, 0x22, 0x33, 0x44] }

/-- V-C10. -/
theorem test_wrcfg_four : after (exec (.wrcfg 184 1 4) withRegs)
    (fun t => [t.cfg[0][183], t.cfg[0][184], t.cfg[0][185], t.cfg[0][186], t.cfg[0][187], t.cfg[1][187]]) =
      some [0, 0x11, 0x22, 0x33, 0x44, 0] := by decide +kernel

/-- V-C11, V-C12. -/
theorem test_wrcfg_rejected :
    faultOf (exec (.wrcfg 8 1 5) withRegs) = some (.invalidFieldAccess (.index 5)) ∧
    faultOf (exec (.wrcfg 188 0 0) withRegs) = some (.invalidFieldAccess (.index 188)) := by decide +kernel

/-- V-C14, V-C15, V-C16. -/
theorem test_rmwcib :
    let s : State := { base with cfg := base.cfg.set 0 (base.cfg[0].set 3 0x11223344) }
    after (exec (.rmwcib0 3 0xAB 0x0F) s) (fun t => t.cfg[0][3]) = some 0x1122334B ∧
    after (exec (.rmwcib1 3 0xAB 0xF0) s) (fun t => t.cfg[0][3]) = some 0x1122A344 ∧
    after (exec (.rmwcib2 3 0xAB 0x0F) s) (fun t => t.cfg[0][3]) = some 0x112B3344 ∧
    after (exec (.rmwcib3 3 0xFF 0) s) (fun t => t.cfg[0][3]) = some 0x11223344 ∧
    faultOf (exec (.rmwcib0 200 0 0) s) = some (.invalidFieldAccess (.index 200)) := by decide +kernel

/-- A machine whose mutex 2 is held by thread 0. -/
def held : State := { base with mutex := base.mutex.set 2 (some 0) }

/-- V-Y1, V-Y2. -/
theorem test_atgetm :
    after (exec (.atgetm 2) { base with mutexWait := base.mutexWait.set 0 true })
      (fun t => (t.mutex[2], t.mutexWait[0], t.waiters)) = some (some 0, false, []) ∧
    after (exec (.atgetm 2) { held with cur := 1 }) (fun t => (t.mutex[2], t.waiters)) =
      some (some 0, [(1, 2)]) := by decide +kernel

/-- V-Y3, V-Y4, V-Y5. -/
theorem test_atrelm :
    after (exec (.atrelm 2) { held with cur := 1 }) (fun t => t.mutex[2]) = some (some 0) ∧
    after (exec (.atrelm 2) held) (fun t => t.mutex[2]) = some none ∧
    faultOf (exec (.atgetm 0) base) = some (.invalidFieldAccess (.index 0)) := by decide +kernel

/-- V-Y14. -/
theorem test_resolution :
    let t := { base with waiters := [(1, 2), (2, 2)], mutexWait := #v[false, true, true] }.resolveWaiters
    t.mutex[2] = some 1 ∧ t.waiters = [(2, 2)] ∧ t.mutexWait[1] = false ∧ t.mutexWait[2] = true := by decide +kernel

/-- V-Y6. -/
theorem test_seminit : after (exec (.seminit 3 9 4) base) (fun t => [t.sem[0], t.sem[1], t.sem[2]]) =
    some [⟨9, 4⟩, ⟨9, 4⟩, ⟨0, 0⟩] := by decide +kernel

/-- V-Y7, V-Y8: saturation at 15 and at 0. -/
theorem test_sempost_semget :
    after (exec (.sempost 1) { base with sem := base.sem.set 0 ⟨15, 4⟩ }) (fun t => t.sem[0]) = some ⟨15, 4⟩ ∧
    after (exec (.semget 3) { base with sem := base.sem.set 1 ⟨3, 4⟩ }) (fun t => [t.sem[0], t.sem[1]]) =
      some [⟨0, 0⟩, ⟨2, 4⟩] := by decide +kernel

/-- V-Y10, its last write. -/
theorem test_semaphore_register : ({ base with sem := base.sem.set 3 ⟨15, 0⟩ }.semRegWrite 3 0xFFFFFFFF).sem[3] =
    ⟨14, 0⟩ := by decide +kernel

/-- V-T1, with `STOREREG_BASE` = 0x100. -/
theorem test_storereg :
    after (exec (.storereg 2 3) { withRegs with par := { withRegs.par with storeregBase := 0x100 } })
      (fun t => t.mem.cells) = some [(0x108, 0xEF), (0x109, 0xBE), (0x10A, 0xAD), (0x10B, 0xDE)] := by decide +kernel

/-- V-T2, V-T3: with and without work of the thread in flight. -/
theorem test_flushdma :
    after (exec (.flushdma 4) base) (fun t => (t.flush[0], t.backendStall[0])) = some (none, false) ∧
    after (exec (.flushdma 4) (base.setInflight .packer 0 2)) (fun t => (t.flush[0], t.backendStall[0])) =
      some (some 4, true) := by decide +kernel

/-- R223: the re-check ends a flush whose unit is idle. -/
theorem test_flush_recheck :
    let t := { base with flush := base.flush.set 1 (some 4), backendStall := base.backendStall.set 1 true }.preUnit
      .scalar
    t.flush[1] = none ∧ t.backendStall[1] = false := by decide +kernel

/-- V-T5, R273. -/
theorem test_dmanop_sfpnop : exec .dmanop base = .next base ∧ exec .sfpnop base = .next base := ⟨rfl, rfl⟩

/-- A register move's answer supplied, and the decoded view of a REG2FLOP word of register `r`. -/
def withAnswer (r : Nat) (a : ThconAnswer) : State := { base with
  par := { base.par with supplied := { Supplied.absent with thconMove := some a } }
  instr := ⟨.reg2flop, [(.regIndex, r)], .scalar, 0⟩ }

/-- R217 with a supplied answer: a configuration word; a counter of the thread the override names, truncated to 18 bits. -/
theorem test_reg2flop :
    after (exec (.reg2flop 7 0 0 0 0 0) (withAnswer 7 ⟨.b32, 0, .toConfig [⟨⟨1, 187⟩, 5⟩]⟩)) (fun t => t.cfg[1][187]) =
      some 5 ∧
    after (exec (.reg2flop 7 0 0 0 0 0) (withAnswer 7 ⟨.b8, 0, .toCounters (some 1) [⟨⟨2, 1, 0, .shadow⟩, 2 ^ 18 + 3⟩]⟩))
      (fun t => t.adc[1].get .pk 1 .x) = some ⟨0, 3⟩ := by decide +kernel

/-- R217: a 128-bit transfer moves four consecutive registers, and raises where the last of them does not exist; a
target index out of range raises too, written or read. -/
theorem test_reg2flop_four_registers :
    after (exec (.reg2flop 4 0 0 0 0 0) (withAnswer 4 ⟨.b128, 0, .toRegisters (.counters none []) #v[1, 2, 3, 9]⟩)) (fun t => t.gpr[0]) =
      some [0, 0, 0, 0, 1, 2, 3, 9] ∧
    (∀ x ∈ [MoveEffect.toCounters none [⟨⟨0, 0, 0, .counter⟩, 1⟩, ⟨⟨0, 3, 0, .counter⟩, 1⟩],
        .toRegisters (.counters (some 3) []) #v[1, 2, 3, 9], .toRegisters (.config [⟨3, 0⟩]) #v[1, 2, 3, 9]],
      faultOf (exec (.reg2flop 4 0 0 0 0 0) (withAnswer 4 ⟨.b8, 0, x⟩)) =
        some (.invalidFieldAccess (.index 3))) ∧
    faultOf (exec (.reg2flop 5 0 0 0 0 0) (withAnswer 5 ⟨.b128, 0, .toConfig []⟩)) =
      some (.invalidFieldAccess (.index 8)) := by decide +kernel

/-- V-A1, V-A2. -/
theorem test_setadcxy :
    after (exec (.setadcxy 1 5 2 3 4 1 0) base)
      (fun t => [t.adc[0].get .u0 0 .x, t.adc[0].get .u0 0 .y, t.adc[0].get .u1 0 .x]) =
      some [⟨5, 5⟩, ⟨0, 0⟩, ⟨0, 0⟩] ∧
    after (exec (.setadcxy 15 1 2 3 4 7 0) base)
      (fun t => [t.adc[0].get .pk 0 .x, t.adc[0].get .pk 0 .y, t.adc[0].get .pk 1 .x, t.adc[0].get .pk 1 .y]) =
      some [⟨1, 1⟩, ⟨2, 2⟩, ⟨3, 3⟩, ⟨4, 4⟩] := by decide +kernel

/-- V-A3. -/
theorem test_setadczw : after (exec (.setadczw 8 0 0 0 3 4 0) { base with cur := 2 })
    (fun t => [t.adc[2].get .pk 1 .w, t.adc[2].get .pk 1 .z, t.adc[0].get .pk 1 .w]) =
      some [⟨3, 3⟩, ⟨0, 0⟩, ⟨0, 0⟩] := by decide +kernel

/-- V-A7, V-A10. -/
theorem test_setadc :
    after (exec (.setadc 7 2 1 4 0) base) (fun t => [t.adc[0].get .pk 1 .z, t.adc[0].get .pk 0 .z]) =
      some [⟨7, 7⟩, ⟨0, 0⟩] ∧
    after (exec (.setadc 7 2 1 4 2) base) (fun t => [t.adc[0].get .pk 1 .z, t.adc[1].get .pk 1 .z]) =
      some [⟨0, 0⟩, ⟨7, 7⟩] := by decide +kernel

/-- A counter of thread 0's Unpacker1 group, channel 0. -/
def withY : State := (base.pokeAdc 0 .u1 0 .y .counter 7).pokeAdc 0 .u1 0 .y .shadow 7

/-- V-A4 and its `counter_only` variant. -/
theorem test_incadcxy :
    after (exec (.incadcxy 0 2 0 0 2 0) withY) (fun t => t.adc[0].get .u1 0 .y) = some ⟨9, 9⟩ ∧
    after (exec (.incadcxy 0 2 0 0 2 0) { withY with par.incadcShadow := .counterOnly })
      (fun t => t.adc[0].get .u1 0 .y) = some ⟨9, 7⟩ := by decide +kernel

/-- R238, R244: the 8-bit counter Z wraps. -/
theorem test_incadczw : after (exec (.incadczw 1 0 0 0 1 0) (base.pokeAdc 0 .u0 0 .z .counter 255))
    (fun t => [t.adc[0].get .u0 0 .z, t.adc[0].get .u0 0 .w]) = some [⟨0, 1⟩, ⟨0, 0⟩] := by decide +kernel

/-- V-A6 and its `carriage_return` variant. -/
theorem test_addrcrxy :
    let s := (base.pokeAdc 0 .pk 0 .x .counter 9).pokeAdc 0 .pk 0 .x .shadow 4
    after (exec (.addrcrxy 1 0 0 0 0 4 0) s) (fun t => t.adc[0].get .pk 0 .x) = some ⟨0, 0⟩ ∧
    after (exec (.addrcrxy 1 0 0 0 0 4 0) { s with par.addrcrMode := .carriageReturn })
      (fun t => t.adc[0].get .pk 0 .x) = some ⟨4, 4⟩ := by decide +kernel

/-- R240: only the enabled pair of channel 1 is cleared. -/
theorem test_addrcrzw :
    let s := ((base.pokeAdc 0 .u0 1 .z .counter 9).pokeAdc 0 .u0 1 .w .counter 8)
    after (exec (.addrcrzw 4 0 0 0 0 1 0) s) (fun t => [t.adc[0].get .u0 1 .z, t.adc[0].get .u0 1 .w]) =
      some [⟨0, 0⟩, ⟨8, 0⟩] := by decide +kernel

/-- V-A9. -/
theorem test_setadcxx : refusalOf (exec (.setadcxx 1 2 1) base) = some .setadcxxValuesNotGiven := by decide

/-- V-Z1, V-Z2. -/
theorem test_setrwc :
    after (exec (.setrwc 4 0 0 4 4 0) { base with rwc := base.rwc.set 0 ⟨⟨0, 0⟩, ⟨0, 0⟩, ⟨0, 8⟩, 3, false⟩ })
      (fun t => t.rwc[0]) = some ⟨⟨0, 0⟩, ⟨0, 0⟩, ⟨12, 12⟩, 3, false⟩ ∧
    after (exec (.setrwc 9 3 0 0 0 0) { base with rwc := base.rwc.set 0 ⟨⟨0, 0⟩, ⟨1, 2⟩, ⟨0, 8⟩, 3, false⟩ })
      (fun t => t.rwc[0]) = some ⟨⟨3, 3⟩, ⟨1, 2⟩, ⟨0, 8⟩, 0, false⟩ := by decide +kernel

/-- The answers of the Matrix unit's open functions supplied: marking enabled, block 1 of the 16-row scope. -/
def withRows : State := { base with par := { base.par with supplied := { Supplied.absent with
  zeroaccEnabled := some true, mode32 := some false, zeroaccPick := some 1, addrMod := some Rwc.zero } } }

/-- V-Z3, R256: the whole register; rows 16 to 31. -/
theorem test_zeroacc :
    after (exec (.zeroacc 0 0 3) withRows) (fun t => t.dstUndefined) = some (List.range 32) ∧
    after (exec (.zeroacc 0 0 1) withRows) (fun t => t.dstUndefined) = some (List.range' 16 16) ∧
    refusalOf (exec (.zeroacc 0 0 4) withRows) = some (.zeroaccScopeNotGiven 4) := by decide +kernel

/-- A Mover operand tuple supplied, and two bytes in memory. -/
def withMove (x : Transfer) : State := { base with
  par := { base.par with supplied := { Supplied.absent with moverOperands := some x } }
  mem := ⟨[(0x100, 1), (0x10F, 2)]⟩ }

/-- V-V1, V-V4 (overlap: the bytes as they were before the write). -/
theorem test_xmov_copy :
    after (exec (.xmov 0 0) (withMove ⟨.l1, .l1, 0x100, 0x200, 16⟩)) (fun t => t.mem.cells) =
      some [(0x100, 1), (0x10F, 2), (0x200, 1), (0x20F, 2)] ∧
    after (exec (.xmov 0 0) (withMove ⟨.l1, .l1, 0x100, 0x108, 16⟩)) (fun t => t.mem.cells) =
      some [(0x100, 1), (0x108, 1), (0x117, 2)] := by decide +kernel

/-- V-V2, V-V3 (with the destination at 0x100), V-V5. -/
theorem test_xmov_checks :
    faultOf (exec (.xmov 0 0) (withMove ⟨.l1, .l1, 0xFFF8, 0x20000, 16⟩)) =
      some (.unsupportedTransfer 0xFFF8 0x20000 16) ∧
    after (exec (.xmov 0 0) (withMove ⟨.l0, .l1, 0xFFB00000, 0x100, 8⟩)) (fun t => t.mem.cells) =
      some [(0x10F, 2)] ∧
    faultOf (exec (.xmov 0 0) (withMove ⟨.l1, .l0, 0x17FFF8, 0xFFB00000, 16⟩)) =
      some (.unsupportedTransfer 0x17FFF8 0xFFB00000 16) := by decide +kernel

/-- A row lacking arguments: its name and those it has. -/
def row (n : OpName) (args : List ArgName) : State := base.issue 0 ⟨n, args.map fun a => (a, 0), .none, 0⟩

/-- R84, R96: an argument that the rule does not read in this case may be absent (R116, R174, R254, R255, R268). -/
theorem test_unread_arguments_may_be_absent :
    (row .xmov []).missingArg (.xmov 0 0) = none ∧
    (row .setrwc [.bitMask, .rwcCr, .rwcA]).missingArg (.setrwc 1 0 0 0 0 0) = none ∧
    (row .mop [.mopType]).missingArg (.mop 0 0 1) = none ∧
    (row .setc16 [.setc16Reg]).missingArg (.setc16 0 57) = none ∧
    (row .zeroacc [.clearMode]).missingArg (.zeroacc 0 0 4) = none := by decide +kernel

/-- R84, R284: one that it reads may not. -/
theorem test_read_arguments_must_be_present :
    (row .mop [.mopType]).missingArg (.mop 0 0 0) = some .zmaskLo16 ∧
    (row .setc16 [.setc16Reg]).missingArg (.setc16 0 56) = some .setc16Value ∧
    (row .setrwc [.bitMask, .rwcCr]).missingArg (.setrwc 4 0 0 0 0 0) = some .rwcD ∧
    (row .wrcfg [.cfgReg]).missingArg (.wrcfg 0 0 0) = some .gprAddress := by decide +kernel

/-- V-X4 and V-C4: the answers of `offer`. -/
def taken : Offer → Bool
  | .taken _ => true
  | .rejected => false
  | .fault _ => false

/-- The decoded view of a word of the default schema. -/
def view (w : Word) : Decoded := (schemaDefault.decode w).getD ⟨.nop, [], .none, 0⟩

theorem test_generic_admission :
    let s := base.pushEntry .misc ⟨0x51200141, 1⟩
    taken (s.offer .misc 1 (view 0x51200141)) = false ∧ taken (s.offer .misc 2 (view 0x51200141)) = true := by
  decide +kernel

theorem test_config_admission :
    let s := base.pushEntry .config ⟨0xB30F0003, 0⟩
    taken (s.offer .config 1 (view 0xB2000001)) = true ∧
    taken ((s.pushEntry .config ⟨0xB2000001, 1⟩).offer .config 1 (view 0xB40F0003)) = false := by decide +kernel

/-- V-Y11. -/
theorem test_sync_admission :
    let s := base.pushEntry .sync ⟨0xA0000002, 0⟩
    taken (s.offer .sync 1 (view 0xA4000004)) = false ∧ taken (s.offer .sync 1 (view 0xA0000002)) = false ∧
    taken (s.offer .sync 1 (view 0xA1000003)) = true := by decide +kernel

/-- V-F1: the word is accepted, and the cycle ends in the fault. -/
theorem test_unknown_opcode :
    faultOf (step { State.reset with inputs := [[.intakeWrite 0 0xFF000000]] }) =
      some (.unknownOpcode 0xFF000000) := by decide +kernel

/-- V-F2: success, then failure. -/
theorem test_intake : ((base.intakeWrite 0 0xA4000004).intakeWrite 0 0xA5000004).replies =
    [.accepted true, .accepted false] := by decide +kernel

/-- R64, R66: an access inside a port register, one across its end and one that ends in it are no port accesses. -/
theorem test_partial_port_access : ∀ x ∈ [(0xFFE80001, 1), (0xFFE80002, 4), (0xFFE7FFFE, 4), (0xFFE9001F, 4)],
    (base.busWrite x.1 x.2 0).halt = some ⟨.refused (.portAccessNotGiven x.1 x.2), none, none⟩ := by decide +kernel

/-- R64, R204: the semaphore register of index 1; beside the ports, plain memory. -/
theorem test_port_access : (base.busWrite 0xFFE80004 4 0).sem[1] = ⟨1, 0⟩ ∧
    (base.busWrite 0x10 2 0xBEEF).mem.cells = [(0x10, 0xEF), (0x11, 0xBE)] := by decide +kernel

/-- R296, R284: a register index of `NGPR`. -/
theorem test_register_write : (base.gprWrite 0 8 1).halt =
    some ⟨.fault (.invalidFieldAccess (.index 8)), none, none⟩ ∧ (base.gprWrite 1 7 5).gprOf 1 7 = 5 := by decide +kernel

/-- Program P1, cycle 4: the drain of SEMINIT. -/
theorem test_step_seminit : after (step (State.reset.withFetchWord 32 0xA3F30004))
    (fun t => (t.sem[0], t.queueOf .sync)) = some (⟨3, 15⟩, []) := by decide +kernel

/-- Program P5, cycle 1: the MOP is expanded and its first word goes on in the same tick. -/
theorem test_step_mop :
    after (step ({ State.reset with mopCfg := State.reset.mopCfg.set 0 #v[2, 2, 0x02000000, 0x02000000, 0x02000000,
        0xA4000004, 0xA4000004, 0xA5000004, 0xA4000008] }.withFetchWord 32 0x01800000))
      (fun t => (t.mopQ[0], t.replayQ[0], t.mopOut[0], t.expanding[0])) =
      some ([], [0xA4000004], [0xA4000008, 0xA4000004, 0xA5000004], true) := by decide +kernel

/-- Program P3, cycle 6: with nothing drained the hysteresis flag clears. -/
theorem test_hysteresis : ({ base with cfgWritePrev := true }.unitTick .config).cfgWritePrev = false := by
  decide +kernel

/-- V-T3, the Packer's `post`: the count goes down, and an idle count stays 0. -/
theorem test_inflight_countdown : ((base.setInflight .packer 1 2).unitTick .packer).inflightOf .packer 1 = 1 := by
  decide +kernel

/-- V-Z5, R157: a word with no rule at the unit it is routed to. -/
theorem test_unmodelled_at_unit : ((base.pushEntry .matrix ⟨0x8F000000, 2⟩).unitTick .matrix).halt =
    some ⟨.refused (.unmodelledAtUnit .matrix 0x8F000000), some 2, some (.unit .matrix)⟩ := by decide +kernel

/-- R300, R311: the reset state is final. -/
theorem test_reset_final : State.reset.final = true := by decide +kernel

/-! ## What each statement assumes can be met

A witness is a concrete state and operands that meet the premises of the statement it is named after, one conjunct per
clause, at boundary values where a clause has a range. Statements without premises have none. -/

/-- A meaning that shows something answers a next state. -/
theorem next_of_after {r : Result} (h : (after r fun _ => ()) = some ()) : ∃ t, r = .next t := by
  cases r with
  | next t => exact ⟨t, rfl⟩
  | fault f => exact absurd h (by simp [after])
  | refused f => exact absurd h (by simp [after])

theorem witness_DecodeOfEncodeIsIdentity : (Instr.setadcxy 63 7 7 7 63 7 0).WellFormed ∧
    (Instr.mop 0xFFFF 127 1).WellFormed := by decide

/-- A schema whose first row lists its arguments in no order, the highest starting at bit 23. -/
def unordered : Schema :=
  ⟨[⟨0x30, .other 1, [(.value, 8), (.mask, 23), (.data, 0)], .misc⟩, ⟨0xFF, .other 2, [], .other 0⟩],
    [⟨.cfgStateId, .thread, 0, 0, 3⟩, ⟨.other 0, .general, 187, 4, 0xF0⟩, ⟨.other 1, .thread, 56, 0, 0xFFFF⟩]⟩

theorem witness_ArgumentBoundaries : (unordered.ops.map (·.opcode)).Nodup ∧
    (∃ r ∈ unordered.ops, r.opcode = ((0x30ABCDEF : Word).extractLsb' 24 8).toNat ∧ (r.args.map (·.2)).Nodup ∧
      (∀ a ∈ r.args, a.2 ≤ 23) ∧ ∀ a ∈ r.args, a.1 ≠ .len) ∧
    ∀ r ∈ unordered.ops, r.opcode ≠ ((0x31000000 : Word).extractLsb' 24 8).toNat := by decide

/-- R99 over any schema: the word of the row `other 1`. -/
theorem test_encode_other_row : unordered.encode (.other 1) [(.data, 0xEF), (.value, 0x2BCD), (.mask, 1)] =
    some 0x30ABCDEF := by decide

/-- R133: a NONE word is never blocked, even where the table has a row for it. -/
theorem test_none_is_not_blocked :
    (Params.blocked { Params.default with blockClass := [(.none, 0)] } 0x1FF .none) = false := by decide

/-- A machine with a word at the head of thread 0's two FIFOs and in its gate slot. -/
def withWord (w : Word) : State :=
  { atGate w with mopQ := base.mopQ.set 0 [w], replayQ := base.replayQ.set 0 [w] }

theorem witness_UnknownOpcodeEndsTheRun :
    (∀ r ∈ (withWord 0xFF000000).par.schema.ops, r.opcode ≠ ((0xFF000000 : Word).extractLsb' 24 8).toNat) ∧
    (withWord 0xFF000000).expanding[0] = false ∧ (withWord 0xFF000000).mopQ[0] = [0xFF000000] ∧
    (withWord 0xFF000000).playLeft[0] = 0 ∧ (withWord 0xFF000000).replayQ[0] = [0xFF000000] ∧
    (withWord 0xFF000000).halt = none ∧ (withWord 0xFF000000).gateSlot[0] = some 0xFF000000 ∧
    (withWord 0xFF000000).Rechecked 0 (withWord 0xFF000000) :=
  ⟨by decide +kernel, by decide +kernel, by decide +kernel, by decide +kernel, by decide +kernel, by decide +kernel,
    by decide +kernel, .inl ⟨by decide +kernel, rfl⟩⟩

/-- The machine under the schema above, its thread 0 reading `v` as its `CFG_STATE_ID`. -/
def withStateId (v : Word) : State := { base with
  par := { base.par with schema := unordered }
  tcfg := base.tcfg.set 0 (base.tcfg[0].set 0 v) }

theorem witness_ConfigStoreLookup :
    ((withStateId 0).par.schema.cfg.map (·.name)).Nodup ∧
    (∃ r ∈ (withStateId 0).par.schema.cfg, r.space = .general ∧ r.addr = 187) ∧
    (∃ r ∈ (withStateId 0).par.schema.cfg, r.space = .thread ∧ r.addr = 56) ∧
    (∀ r ∈ (withStateId 0).par.schema.cfg, r.name ≠ .other 2) ∧
    (withStateId 1).tcfgRead .cfgStateId 0 = .ok 1 ∧ (withStateId 2).tcfgRead .cfgStateId 0 = .ok 2 ∧
    base.par.schema = schemaDefault := by decide +kernel

theorem witness_MopCfgSetsHighMask :
    (withWord 0x03FFFFFF).halt = none ∧ (withWord 0x03FFFFFF).expanding[0] = false ∧
    (withWord 0x03FFFFFF).mopQ[0] = [0x03FFFFFF] ∧
    (withWord 0x03FFFFFF).par.schema.decode 0x03FFFFFF = some (view 0x03FFFFFF) ∧
    (view 0x03FFFFFF).name = .mopCfg ∧ (view 0x03FFFFFF).arg .zmaskHi16 = .ok 0xFFFFFF := by decide +kernel

theorem witness_MopTemplateZeroExpansion : (0xFFFF : Nat) < 2 ^ 16 := by decide

theorem witness_MopTemplateOneExpansion : (1 : Nat) ≠ 0 := by decide

/-- V-M5. -/
theorem witness_TemplateOneQuirk :
    let s := withMop #v[1, 0, 0x02000000, 0x60000000, 0x02000000, 5, 5, 7, 8]
    slice 6 0 s.mopCfg[s.cur][0] = 1 ∧ isnop s.mopCfg[s.cur][2] = true ∧ slice 6 0 s.mopCfg[s.cur][1] = 0 ∧
      isnop s.mopCfg[s.cur][3] = false ∧ (1 : Nat) ≠ 0 := by decide +kernel

theorem witness_ReplaySetsItsCursors : base.recLeft[base.cur] = 0 ∧
    0 < { base with recLeft := base.recLeft.set 0 1 }.recLeft[base.cur] := by decide +kernel

/-- A machine in the middle of a play of thread 0, slot 31 recorded and next. -/
def playing : State := { base with
  playLeft := base.playLeft.set 0 2
  playCursor := base.playCursor.set 0 63
  rbuf := base.rbuf.set 0 (base.rbuf[0].set 31 (some 0xA4000004)) }

/-- A machine in the middle of a load of thread 0. -/
def loading (ewl : Bool) (w : Word) : State := { base with
  recLeft := base.recLeft.set 0 1
  recCursor := base.recCursor.set 0 32
  ewl := base.ewl.set 0 ewl
  replayQ := base.replayQ.set 0 [w] }

theorem witness_ReplayExpanderTick :
    (0 < playing.playLeft[0] ∧ playing.gateSlot[0] = none ∧ (31 : Fin 32).val = playing.playCursor[0] % 32 ∧
      playing.rbuf[0][31] = some 0xA4000004 ∧ (playing.fillGate 0 1).gateSlot[0] ≠ none ∧
      { playing with playCursor := playing.playCursor.set 0 64 }.rbuf[0][0] = none) ∧
    (base.playLeft[0] = 0 ∧ base.replayQ[0] = []) ∧
    ((withWord 0xA4000004).playLeft[0] = 0 ∧ (withWord 0xA4000004).replayQ[0] = [0xA4000004] ∧
      (withWord 0xA4000004).par.schema.decode 0xA4000004 = some (view 0xA4000004) ∧
      (view 0xA4000004).name ≠ .replay ∧ (withWord 0xA4000004).recLeft[0] = 0 ∧
      (withWord 0xA4000004).gateSlot[0] ≠ none ∧ ((withWord 0xA4000004).clearGate 0).gateSlot[0] = none) ∧
    ((loading true 0xA4000004).playLeft[0] = 0 ∧ (loading true 0xA4000004).replayQ[0] = [0xA4000004] ∧
      0 < (loading true 0xA4000004).recLeft[0] ∧ (0 : Fin 32).val = (loading true 0xA4000004).recCursor[0] % 32 ∧
      (loading true 0xA4000004).ewl[0] = true ∧ (loading true 0xA4000004).gateSlot[0] = none ∧
      ((loading true 0xA4000004).fillGate 0 1).gateSlot[0] ≠ none ∧
      (loading false 0xA4000004).ewl[0] = false) := by decide +kernel

theorem witness_ReplayRoundTrip :
    base.halt = none ∧ base.playLeft[0] = 0 ∧ base.recLeft[0] = 0 ∧
    (∀ n ∈ [1, 32], 1 ≤ (List.replicate n (0xA4000004 : Word)).length ∧
      (List.replicate n (0xA4000004 : Word)).length ≤ 32) ∧
    (∀ w ∈ List.replicate 32 (0xA4000004 : Word), ∃ d, base.par.schema.decode w = some d ∧ d.name ≠ .replay) := by
  refine ⟨by decide, by decide, by decide, by decide, fun w hw => ?_⟩
  rw [List.eq_of_mem_replicate hw]
  exact ⟨view 0xA4000004, by decide +kernel, by decide +kernel⟩

/-- A machine with a latched condition of thread 0. -/
def waiting (l : Latch) : State := { base with latch := base.latch.set 0 l }

theorem witness_WaitHoldsMeaning :
    base.latch[0].kind = .none ∧
    ((waiting ⟨.semwait, 3, 2, some 0xFF⟩).latch[0].kind = .semwait ∧
      (waiting ⟨.semwait, 3, 2, some 0xFF⟩).latch[0].semSel = some 0xFF) ∧
    ((waiting ⟨.stallwait, 0x7080, 2, none⟩).latch[0].kind = .stallwait ∧
      (∀ c < 15, (waiting ⟨.stallwait, 0x7080, 2, none⟩).latch[0].condMask.testBit c = true →
        (waiting ⟨.stallwait, 0x7080, 2, none⟩).condMet c 0 ≠ none)) ∧
    ((waiting ⟨.stallwait, 0x100, 2, none⟩).latch[0].condMask.testBit 8 = true ∧
      (waiting ⟨.stallwait, 0x100, 2, none⟩).condMet 8 0 = none) := by decide +kernel

/-- The premise about every condition bit is met: the mask 0x7080 has no bit of 15 or above. -/
theorem witness_WaitHoldsMeaning_all_bits (c : Nat)
    (h : (waiting ⟨.stallwait, 0x7080, 2, none⟩).latch[0].condMask.testBit c = true) :
    (waiting ⟨.stallwait, 0x7080, 2, none⟩).condMet c 0 ≠ none := by
  by_cases hc : c < 15
  · exact witness_WaitHoldsMeaning.2.2.1.2 c hc h
  · have : Nat.testBit 0x7080 c = false :=
      Nat.testBit_lt_two_pow (Nat.lt_of_lt_of_le (by decide : 0x7080 < 2 ^ 15)
        (Nat.pow_le_pow_right (by decide) (Nat.le_of_not_lt hc)))
    exact absurd (h.symm.trans this) (by decide)

theorem witness_DefaultWaitTables : base.par.blockClass = blockClassDefault ∧ base.par.condBit = condBitDefault ∧
    (3 ≤ 3 ∧ 3 ≤ 6) ∧ (3 ≤ 6 ∧ 6 ≤ 6) := by decide +kernel

/-- A machine with a word in the gate slot, a condition that holds latched, and the flags set as said. -/
def gated (w : Word) (l : Latch) (mw bs : Bool) : State := { atGate w with
  latch := base.latch.set 0 l
  mutexWait := base.mutexWait.set 0 mw
  backendStall := base.backendStall.set 0 bs }

/-- A SEMWAIT on semaphore 0 being 0, which holds at reset, with all nine block bits set. -/
def semLatch : Latch := ⟨.semwait, 1, 0x1FF, some 1⟩

/-- What a latched SEMWAIT waits for depends on the semaphores alone (R132). -/
theorem gated_waitHolds (w : Word) (mw bs : Bool) (m : Nat) (i : BitVec 8) :
    (gated w ⟨.semwait, 1, m, some i⟩ mw bs).waitHolds 0 =
      .ok ((List.finRange 8).any fun j => i.getLsbD j && base.sem[j].holds 1) := rfl

/-- The three ways a latch is re-checked: none in force, one that holds, one that clears. -/
theorem rechecked_none (w : Word) (mw bs : Bool) :
    (gated w Latch.clear mw bs).Rechecked 0 (gated w Latch.clear mw bs) := .inl ⟨rfl, rfl⟩

theorem rechecked_holding (w : Word) (mw bs : Bool) :
    (gated w semLatch mw bs).Rechecked 0 (gated w semLatch mw bs) :=
  .inr (.inl ⟨(by decide : LatchKind.semwait ≠ .none),
    (gated_waitHolds w mw bs 0x1FF 1).trans (by decide +kernel), rfl⟩)

/-- A SEMWAIT whose selector is 0 never holds (R132). -/
def idleLatch : Latch := ⟨.semwait, 1, 0x1FF, some 0⟩

theorem rechecked_clearing (w : Word) : (gated w idleLatch false false).Rechecked 0
    { gated w idleLatch false false with latch := (gated w idleLatch false false).latch.set 0 Latch.clear } :=
  .inr (.inr ⟨(by decide : LatchKind.semwait ≠ .none),
    (gated_waitHolds w false false 0x1FF 0).trans (by decide +kernel), rfl⟩)

theorem witness_GateHoldsAndRechecks :
    (∀ f ∈ [(true, false), (false, true)],
      (gated 0xA4000004 Latch.clear f.1 f.2).halt = none ∧
      (gated 0xA4000004 Latch.clear f.1 f.2).gateSlot[0] = some 0xA4000004 ∧
      (gated 0xA4000004 Latch.clear f.1 f.2).par.schema.decode 0xA4000004 = some (view 0xA4000004) ∧
      ((gated 0xA4000004 Latch.clear f.1 f.2).mutexWait[0] = true ∨
        (gated 0xA4000004 Latch.clear f.1 f.2).backendStall[0] = true)) ∧
    ((gated 0xA2010000 semLatch false false).latch[0].kind ≠ .none ∧ (view 0xA2010000).name = .stallwait ∧
      (gated 0xA2010000 semLatch false false).par.schema.decode 0xA2010000 = some (view 0xA2010000) ∧
      (view 0xA6200005).name = .semwait) ∧
    ((gated 0xA4000004 semLatch false false).latch[0].kind ≠ .none ∧
      (view 0xA4000004).name ≠ .stallwait ∧ (view 0xA4000004).name ≠ .semwait ∧ (view 0xA4000004).tag ≠ .frontend ∧
      (gated 0xA4000004 semLatch false false).par.blocked
        (gated 0xA4000004 semLatch false false).latch[0].blockMask (view 0xA4000004).tag = true) ∧
    ((view 0xA2010000).toInstr = some (.stallwait 0 2) ∧
      ((gated 0xA2010000 Latch.clear false false).issue 0 (view 0xA2010000)).missingArg (.stallwait 0 2) = none) ∧
    ((waiting ⟨.semwait, 1, 2, some 0⟩).halt = none ∧ (waiting ⟨.semwait, 1, 2, some 0⟩).latch[0].kind ≠ .none ∧
      (waiting ⟨.semwait, 1, 2, some 0⟩).waitHolds 0 = .ok false ∧
      (waiting ⟨.semwait, 1, 2, some 0⟩).gateSlot[0] = none) ∧
    (waiting semLatch).waitHolds 0 = .ok true ∧
    (waiting ⟨.stallwait, 0x8000, 2, none⟩).waitHolds 0 = .error (.conditionBitUnmodelled 15) := by decide +kernel

/-- The machine under the schema with a word of an unknown tag. -/
def oddTag : State := { atGate 0xFF000000 with par := { base.par with schema := unordered } }

theorem witness_UnroutableEndsTheRun :
    ((atGate 0x01800000).halt = none ∧ (atGate 0x01800000).gateSlot[0] = some 0x01800000 ∧
      (atGate 0x01800000).par.schema.decode 0x01800000 = some (view 0x01800000) ∧
      (atGate 0x01800000).mutexWait[0] = false ∧ (atGate 0x01800000).backendStall[0] = false ∧
      (view 0x01800000).name ≠ .stallwait ∧ (view 0x01800000).name ≠ .semwait ∧ (view 0x01800000).tag = .frontend) ∧
    (oddTag.halt = none ∧ oddTag.gateSlot[0] = some 0xFF000000 ∧
      oddTag.par.schema.decode 0xFF000000 = some ⟨.other 2, [], .other 0, 0xFF000000⟩ ∧
      oddTag.mutexWait[0] = false ∧ oddTag.backendStall[0] = false ∧ oddTag.latch[0].kind = .none) ∧
    { oddTag with latch := base.latch.set 0 semLatch }.latch[0].kind ≠ .none ∧
    oddTag.par.blocked 0x1FF (.other 0) = false := by decide +kernel

/-- Its re-checks: with no latch, with one that holds, with one that clears in the tick. -/
theorem witness_UnroutableEndsTheRun_rechecked :
    oddTag.Rechecked 0 oddTag ∧
    { oddTag with latch := base.latch.set 0 semLatch }.Rechecked 0 { oddTag with latch := base.latch.set 0 semLatch } ∧
    (gated 0x01800000 idleLatch false false).Rechecked 0
      { gated 0x01800000 idleLatch false false with
        latch := (gated 0x01800000 idleLatch false false).latch.set 0 Latch.clear } :=
  ⟨.inl ⟨rfl, rfl⟩, .inr (.inl ⟨by decide, by decide +kernel, rfl⟩), rechecked_clearing _⟩

/-- An open gate with no latch in force. -/
theorem atGate_open (w : Word) (d : Decoded) (h : schemaDefault.decode w = some d) :
    (atGate w).GateOpen 0 w d (atGate w) :=
  ⟨rfl, rfl, h, rfl, rfl, .inl ⟨rfl, rfl⟩, .inl rfl⟩

/-- A latch in force that blocks Matrix instructions only. -/
def matrixLatch : Latch := ⟨.semwait, 1, 0x40, some 1⟩

/-- An open gate with a latch in force that does not block the word. -/
theorem latched_open (w : Word) (d : Decoded) (h : schemaDefault.decode w = some d)
    (hb : Params.default.blocked 0x40 d.tag = false) :
    (gated w matrixLatch false false).GateOpen 0 w d (gated w matrixLatch false false) :=
  ⟨rfl, rfl, h, rfl, rfl, .inr (.inl ⟨(by decide : LatchKind.semwait ≠ .none),
    (gated_waitHolds w false false 0x40 1).trans (by decide +kernel), rfl⟩), .inr hb⟩

/-- An open gate whose latch clears in the tick. -/
theorem clearing_open (w : Word) (d : Decoded) (h : schemaDefault.decode w = some d) :
    (gated w idleLatch false false).GateOpen 0 w d
      { gated w idleLatch false false with latch := (gated w idleLatch false false).latch.set 0 Latch.clear } :=
  ⟨rfl, rfl, h, rfl, rfl, rechecked_clearing w, .inl rfl⟩

/-- A full Sync unit behind an open gate. -/
def syncFull (reoffer : Bool) : State := { (atGate 0xA4000004).pushEntry .sync ⟨0xA4000004, 1⟩ with
  par := { base.par with reoffer := reoffer } }

theorem witness_RejectedWordIsOfferedAgain (reoffer : Bool) :
    (syncFull reoffer).GateOpen 0 0xA4000004 (view 0xA4000004) (syncFull reoffer) ∧
    (view 0xA4000004).name ≠ .stallwait ∧ (view 0xA4000004).name ≠ .semwait ∧ (view 0xA4000004).tag ≠ .frontend ∧
    (syncFull reoffer).dispatch 0 (view 0xA4000004) = .rejected ∧ (syncFull reoffer).par.reoffer = reoffer := by
  refine ⟨⟨rfl, rfl, ?_, rfl, rfl, .inl ⟨rfl, rfl⟩, .inl rfl⟩, ?_⟩
  · cases reoffer <;> decide +kernel
  · cases reoffer <;> decide +kernel

/-- The same under a latch that does not block the word. -/
theorem witness_RejectedWordIsOfferedAgain_latched :
    ((gated 0xA4000004 matrixLatch false false).pushEntry .sync ⟨0xA4000004, 1⟩).GateOpen 0 0xA4000004
      (view 0xA4000004) ((gated 0xA4000004 matrixLatch false false).pushEntry .sync ⟨0xA4000004, 1⟩) ∧
    ((gated 0xA4000004 matrixLatch false false).pushEntry .sync ⟨0xA4000004, 1⟩).dispatch 0 (view 0xA4000004) =
      .rejected :=
  ⟨⟨rfl, rfl, by decide +kernel, rfl, rfl, .inr (.inl ⟨by decide, by decide +kernel, rfl⟩), .inr (by decide +kernel)⟩,
    by decide +kernel⟩

theorem witness_AcceptedWordEntersItsQueue : ∀ w ∈ [(0xA4000004 : Word), 0xA0000002],
    (atGate w).GateOpen 0 w (view w) (atGate w) ∧ (view w).name ≠ .stallwait ∧ (view w).name ≠ .semwait ∧
    routeOf (atGate w).par (view w).tag w = .unit .sync ∧ ∃ a, (atGate w).offer .sync 0 (view w) = .taken a := by
  intro w hw
  simp only [List.mem_cons, List.not_mem_nil, or_false] at hw
  obtain rfl | rfl := hw
  · exact ⟨atGate_open _ _ (by decide +kernel), by decide +kernel, by decide +kernel, by decide +kernel,
      (atGate 0xA4000004).pushEntry .sync ⟨0xA4000004, 0⟩, by decide +kernel⟩
  · exact ⟨atGate_open _ _ (by decide +kernel), by decide +kernel, by decide +kernel, by decide +kernel,
      (atGate 0xA0000002).pushEntry .sync ⟨0xA0000002, 0⟩, by decide +kernel⟩

/-- The same under a latch that does not block the word, and in the tick in which a latch that does clears (P6, cycle 9). -/
theorem witness_AcceptedWordEntersItsQueue_latched :
    ((gated 0xA4000004 matrixLatch false false).GateOpen 0 0xA4000004 (view 0xA4000004)
      (gated 0xA4000004 matrixLatch false false) ∧
      ∃ a, (gated 0xA4000004 matrixLatch false false).offer .sync 0 (view 0xA4000004) = .taken a) ∧
    ∃ r, (gated 0xA4000004 idleLatch false false).GateOpen 0 0xA4000004 (view 0xA4000004) r ∧
      ∃ a, r.offer .sync 0 (view 0xA4000004) = .taken a :=
  ⟨⟨latched_open _ _ (by decide +kernel) (by decide +kernel), _, rfl⟩,
    _, clearing_open _ _ (by decide +kernel), _, rfl⟩

theorem witness_NoOperationsChangeNothing :
    (atGate 0x02000000).GateOpen 0 0x02000000 (view 0x02000000) (atGate 0x02000000) ∧
    (gated 0x02000000 matrixLatch false false).GateOpen 0 0x02000000 (view 0x02000000)
      (gated 0x02000000 matrixLatch false false) ∧
    (view 0x02000000).name = .nop ∧ (view 0x02000000).tag = .none :=
  ⟨atGate_open _ _ (by decide +kernel), latched_open _ _ (by decide +kernel) (by decide +kernel), by decide +kernel,
    by decide +kernel⟩

/-- A machine in the middle of an expansion of thread 0, the next FIFO full or not. -/
def emitting (full : Bool) : State := { base with
  expanding := base.expanding.set 0 true
  mopOut := base.mopOut.set 0 [0xA4000004]
  replayQ := base.replayQ.set 0 (if full then [0xA4000004] else []) }

theorem witness_MacroExpanderPassesWords :
    ((withWord 0xA4000004).expanding[0] = false ∧ (withWord 0xA4000004).mopQ[0] = [0xA4000004] ∧
      (withWord 0xA4000004).par.schema.decode 0xA4000004 = some (view 0xA4000004) ∧
      (view 0xA4000004).name ≠ .mop ∧ (view 0xA4000004).name ≠ .mopCfg ∧
      (withWord 0xA4000004).par.capReplayQ ≤ (withWord 0xA4000004).replayQ[0].length ∧
      ((withWord 0xA4000004).popReplayQ 0).replayQ[0].length < (withWord 0xA4000004).par.capReplayQ) ∧
    ((emitting false).expanding[0] = true ∧ (emitting false).mopOut[0] = [0xA4000004] ∧
      (emitting false).replayQ[0].length < (emitting false).par.capReplayQ ∧
      (emitting true).par.capReplayQ ≤ (emitting true).replayQ[0].length) ∧
    base.expanding[0] = false ∧ base.mopQ[0] = [] := by decide +kernel

theorem witness_IntakeWriteAcceptance : base.mopQ[0].length < base.par.capMopQ ∧
    (withWord 0x02000000).par.capMopQ ≤ (withWord 0x02000000).mopQ[0].length := by decide +kernel

theorem witness_SemaphoreRegisterPort : ({ base with sem := base.sem.set 7 ⟨15, 15⟩ }.sem[7].value ≤ 15) ∧
    (0xFFFFFFFF : Word).getLsbD 0 = true ∧ (0 : Word).getLsbD 0 = false := by decide +kernel

theorem witness_SetcWritesOwnThreadWord : (56 : Nat) < 57 ∧ (57 : Nat) ≤ 57 := by decide

theorem witness_WrcfgCopiesRegisters :
    withRegs.gpr[withRegs.cur].length = withRegs.par.ngpr ∧ withRegs.activeBank withRegs.cur = .ok 0 ∧
    (184 + 4 - 1 < 188 ∧ 4 + 4 - 1 < withRegs.par.ngpr ∧ 184 % 4 = 0 ∧ 4 % 4 = 0) ∧
    (187 + 1 - 1 < 188 ∧ 7 + 1 - 1 < withRegs.par.ngpr) ∧ 188 ≤ 185 + 4 - 1 ∧ 188 ≤ 188 + 1 - 1 ∧
    withRegs.par.ngpr ≤ 5 + 4 - 1 ∧ withRegs.par.ngpr ≤ 8 + 1 - 1 ∧ 184 % 4 = 0 ∧ 3 % 4 ≠ 0 ∧
    (withStateId 2).gpr[(withStateId 2).cur].length = (withStateId 2).par.ngpr ∧
    (withStateId 2).activeBank (withStateId 2).cur = .error (.index 2) := by decide +kernel

theorem witness_RmwcibMasksOneByteLane : base.activeBank base.cur = .ok 0 ∧ (187 : Nat) < 188 ∧ (188 : Nat) ≤ 188 ∧
    (withStateId 3).activeBank (withStateId 3).cur = .error (.index 3) := by decide +kernel

theorem witness_ConfigAdmission : base.queueOf .config = [] ∧
    (∀ d ∈ [view 0xB2000001, view 0xB2010001, view 0xB238FFFF, view 0xB2000000],
      base.par.schema.decode d.word = some d ∧ d.name = .setc16) ∧
    ∀ d ∈ [view 0xB0080005, view 0xB0080006], base.par.schema.decode d.word = some d ∧ d.name = .wrcfg := by
  decide +kernel

theorem witness_ConfigHysteresisFlag :
    ((base.pushEntry .config ⟨0xB2000001, 1⟩).unitTick .config).halt = none ∧ (base.unitTick .config).halt = none := by
  decide +kernel

theorem witness_AtgetmAcquiresOrWaits :
    (∀ i ∈ [(1 : Fin 8), 7], 1 ≤ i.val ∧ base.mutex[i] = none) ∧
    (held.mutex[2] = some held.cur ∧ (2 : Fin 8).val = 2) ∧
    ({ held with cur := 1 }.mutex[2] ≠ none ∧ { held with cur := 1 }.mutex[2] ≠ some 1) ∧ 7 < 8 := by decide +kernel

theorem witness_AtrelmFreesOwnMutex : held.mutex[2] = some held.cur ∧ (∀ i ∈ [(1 : Fin 8), 7],
    1 ≤ i.val ∧ base.mutex[i] ≠ some base.cur) ∧ 7 < 8 := by decide +kernel

theorem witness_WaiterResolution : (∀ x ∈ { held with waiters := [(1, 1), (2, 7), (1, 2)] }.waiters, 1 ≤ x.2 ∧ x.2 < 8) ∧
    held.mutex[2] = some 0 ∧ held.mutex[7] = none := by decide +kernel

theorem witness_SyncAdmission :
    ((view 0xA0000002).name = .atgetm ∧ (view 0xA0000002).arg .mutexIndex = .ok 2) ∧
    ((view 0xA1000007).name = .atrelm ∧ (view 0xA1000007).arg .mutexIndex = .ok 7) ∧
    ((view 0xA4000004).name ≠ .atgetm ∧ (view 0xA4000004).name ≠ .atrelm) ∧ base.queueOf .sync = [] ∧
    (base.pushEntry .sync ⟨0xA0000002, 0⟩).queueOf .sync ≠ [] ∧
    (let s := ((base.pushEntry .sync ⟨0xA0000002, 0⟩).pushEntry .sync ⟨0xA1000003, 1⟩)
     let full := s.pushEntry .sync ⟨0xA0000004, 2⟩
     let mutexOps := fun x : State => (x.queueOf .sync).filter fun e =>
      decide (x.entryName e = some .atgetm ∨ x.entryName e = some .atrelm)
     (mutexOps s).length = 2 ∧ (∀ e ∈ mutexOps s, s.entryArg e .mutexIndex ≠ some 7) ∧
     (∃ e ∈ mutexOps s, s.entryArg e .mutexIndex = some 2) ∧ (mutexOps full).length = 3) := by decide +kernel

theorem witness_HeldMutexIsKept : held.mutex[2] = some 0 ∧ ∃ t, exec (.atrelm 2) held = .next t :=
  ⟨by decide +kernel, next_of_after (by decide +kernel)⟩

/-- For each kind of target, a move whose indices are the last ones that exist; and moves with one index past them. -/
theorem witness_RegisterMoveAppliesItsWrites :
    (∀ a ∈ [(⟨.b128, 0, .toRegisters (.config [⟨1, 187⟩]) #v[1, 2, 3, 4]⟩ : ThconAnswer),
        ⟨.b128, 0, .toRegisters (.counters (some 2) [⟨2, 1, 3, .shadow⟩]) #v[1, 2, 3, 4]⟩,
        ⟨.b128, 0, .toConfig [⟨⟨1, 187⟩, 5⟩]⟩,
        ⟨.b128, 0, .toCounters (some 2) [⟨⟨2, 1, 3, .shadow⟩, 3⟩]⟩, ⟨.b128, 0, .toCounters none []⟩],
      (withAnswer 4 a).gpr[(withAnswer 4 a).cur].length = (withAnswer 4 a).par.ngpr ∧
      argValue (withAnswer 4 a).instr.args .regIndex = some 4 ∧ (withAnswer 4 a).thconMove = a ∧
      (withAnswer 4 a).thconReg 4 a + moveRegisters a.size ≤ (withAnswer 4 a).par.ngpr ∧
      targetBadIndex a.effect.target = none) ∧
    (1 < 2 ∧ 187 < 188 ∧ 2 < 3 ∧ 3 < 4) ∧
    (withAnswer 5 ⟨.b128, 0, .toConfig []⟩).par.ngpr <
      (withAnswer 5 ⟨.b128, 0, .toConfig []⟩).thconReg 5 ⟨.b128, 0, .toConfig []⟩ + 4 ∧ ¬ 188 < 188 ∧ ¬ 3 < 3 := by
  decide +kernel

theorem witness_StoreregWritesFourBytes :
    withRegs.mem.wf = true ∧ withRegs.gpr[withRegs.cur].length = withRegs.par.ngpr ∧
    withRegs.gpr[withRegs.cur][7]? = some 0x44 ∧ withRegs.storeregAddr 2 + 4 ≤ withRegs.par.memSize.toNat ∧
    withRegs.par.storeregBase % 4 = 0 ∧ withRegs.par.ngpr ≤ 8 ∧
    { withRegs with par := { withRegs.par with memSize := 11 } }.par.memSize.toNat < withRegs.storeregAddr 2 + 4 := by
  decide +kernel

theorem witness_FlushdmaStallsAndClears :
    ((4 : Nat).testBit (dmaIndex .packer).val = true ∧ 0 < (base.setInflight .packer 0 1).inflightOf .packer base.cur) ∧
    (¬ 0 < base.inflightOf .packer base.cur ∧ base.queueOf .packer = []) ∧
    ({ base with flush := base.flush.set 2 (some 4) }.flush[2] = some 4 ∧ base.inflightOf .packer 2 = 0) ∧
    base.flush[0] = none := by decide +kernel

theorem witness_SetAdcCounters : (base.cur.val = if 0 = 0 then base.cur.val else 0 - 1) ∧
    ((2 : Thread).val = if 3 = 0 then base.cur.val else 3 - 1) ∧ 1 < 2 ∧ 3 < 4 := by decide

theorem witness_IncrementAdcPairs : (2 : Thread).val = if 3 = 0 then base.cur.val else 3 - 1 := by decide

theorem witness_ClearAdcPairs : (0 : Thread).val = if 1 = 0 then base.cur.val else 1 - 1 := by decide

theorem witness_OverrideOfNoThreadFaults : (4 : Nat) ≠ 0 ∧ 3 ≤ 4 - 1 := by decide

theorem witness_CountersEqualTheirShadows :
    base.par.incadcShadow = .both ∧ base.par.addrcrMode = .clear ∧ (Instr.setadcxy 1 5 0 0 0 1 0).opName ≠ .reg2flop ∧
    (∀ (u : Thread) (g : Group) (c : Fin 2) (d : Dim), (base.adc[u].get g c d).val = (base.adc[u].get g c d).cr) ∧
    ∃ t, exec (.setadcxy 1 5 0 0 0 1 0) base = .next t := by
  refine ⟨rfl, rfl, by decide, fun u g c d => ?_, next_of_after (by decide +kernel)⟩
  revert u c
  cases g <;> cases d <;> decide +kernel

theorem witness_ZeroaccMarksRows :
    (∀ cm ∈ [0, 1, 2, 3], ∃ sc, [Scope.single, .block16, .half, .whole][cm]? = some sc ∧
      (withRows.zeroaccEnabled = true ∧
        ∀ r ∈ withRows.zeroaccRows sc 0 withRows.mode32, r < withRows.par.dstRows)) ∧
    2 ≤ 2 ∧ 1 < 2 ∧ withRows.activeBank withRows.cur = .ok 0 := by
  refine ⟨fun cm h => ?_, by decide, by decide, by decide +kernel⟩
  simp only [List.mem_cons, List.not_mem_nil, or_false] at h
  obtain rfl | rfl | rfl | rfl := h
  · exact ⟨.single, by decide +kernel⟩
  · exact ⟨.block16, by decide +kernel⟩
  · exact ⟨.half, by decide +kernel⟩
  · exact ⟨.whole, by decide +kernel⟩

/-- Marking enabled, the single-row scope picking the row after the last. -/
def badRow : State := { base with par := { base.par with supplied := { Supplied.absent with
  zeroaccEnabled := some true, mode32 := some false, zeroaccPick := some 32 } } }

/-- Marking not enabled, the bank out of range. -/
def badBank : State := { withStateId 2 with par := { (withStateId 2).par with supplied := { Supplied.absent with
  zeroaccEnabled := some false, mode32 := some false, zeroaccPick := some 0 } } }

theorem witness_ZeroaccRowsAndStops : 3 < 4 ∧
    ([Scope.single, .block16, .half, .whole][0]? = some .single ∧ badRow.zeroaccEnabled = true ∧
      ∃ r ∈ badRow.zeroaccRows .single 0 badRow.mode32, badRow.par.dstRows ≤ r) ∧
    ([Scope.single, .block16, .half, .whole][1]? = some .block16 ∧ badBank.zeroaccEnabled = false ∧ 1 < 2 ∧
      badBank.activeBank badBank.cur = .error (.index 2)) := by decide +kernel

theorem witness_XmovCopiesOrFills :
    let s := withMove ⟨.l1, .l0, 0x17FFF0, 0xFFB0FFF0, 16⟩
    let z := withMove ⟨.l0, .l1, 0xFFB00000, 0, 65536⟩
    s.mem.wf = true ∧ z.mem.wf = true ∧ (withMove ⟨.l1, .l1, 1, 2, 0⟩).mem.wf = true ∧
    (withMove ⟨.l1, .l1, 1, 2, 0⟩).moverOperands = ⟨.l1, .l1, 1, 2, 0⟩ ∧
    s.moverOperands = ⟨.l1, .l0, 0x17FFF0, 0xFFB0FFF0, 16⟩ ∧
    z.moverOperands = ⟨.l0, .l1, 0xFFB00000, 0, 65536⟩ ∧
    (s.par.l1Base ≤ 0x17FFF0 ∧ 0x17FFF0 + 16 ≤ s.par.l1Base + s.par.l1Size ∧ s.par.l0Base ≤ 0xFFB0FFF0 ∧
      0xFFB0FFF0 + 16 ≤ s.par.l0Base + s.par.l0Size ∧ 0x17FFF0 / 65536 = (0x17FFF0 + 16 - 1) / 65536 ∧
      0xFFB0FFF0 / 65536 = (0xFFB0FFF0 + 16 - 1) / 65536 ∧ 0x17FFF0 + 16 ≤ s.par.memSize.toNat ∧
      0xFFB0FFF0 + 16 ≤ s.par.memSize.toNat) ∧
    (z.par.l0Base ≤ 0xFFB00000 ∧ 0xFFB00000 + 65536 ≤ z.par.l0Base + z.par.l0Size ∧ z.par.l1Base ≤ 0 ∧
      0 + 65536 ≤ z.par.l1Base + z.par.l1Size ∧ 0xFFB00000 / 65536 = (0xFFB00000 + 65536 - 1) / 65536 ∧
      0 / 65536 = (0 + 65536 - 1) / 65536 ∧ 0 + 65536 ≤ z.par.memSize.toNat) := by decide +kernel

/-- A memory that ends before the source, and one that serves a zero-filling write's source only. -/
theorem witness_XmovCopiesOrFills_unserved :
    { withMove ⟨.l1, .l1, 0x100, 0x200, 16⟩ with par.memSize := 0x10F }.par.memSize.toNat < 0x100 + 16 ∧
    (0x100 + 16 ≤ { withMove ⟨.l1, .l1, 0x100, 0x200, 16⟩ with par.memSize := 0x110 }.par.memSize.toNat ∧
      { withMove ⟨.l1, .l1, 0x100, 0x200, 16⟩ with par.memSize := 0x110 }.par.memSize.toNat < 0x200 + 16) := by
  decide +kernel

/-- A source one byte past its region, a destination across a 64 KiB boundary, a source across one, a destination one byte
past its region. -/
theorem witness_XmovRejectsBadRanges :
    let a := withMove ⟨.l1, .l0, 0x17FFF1, 0xFFB00000, 16⟩
    let b := withMove ⟨.l1, .l1, 0x100, 0xFFF1, 16⟩
    let c := withMove ⟨.l1, .l1, 0xFFF1, 0x20000, 16⟩
    let e := withMove ⟨.l0, .l0, 0xFFB00000, 0xFFB0FFF8, 16⟩
    (a.moverOperands.n = 16 ∧ ¬ (a.par.l1Base ≤ 0x17FFF1 ∧ 0x17FFF1 + 16 ≤ a.par.l1Base + a.par.l1Size)) ∧
    (b.moverOperands.dst = 0xFFF1 ∧ 0xFFF1 / 65536 ≠ (0xFFF1 + 16 - 1) / 65536) ∧
    (c.moverOperands.src = 0xFFF1 ∧ 0 < c.moverOperands.n) ∧
    (e.moverOperands.n = 16 ∧ e.moverOperands.dst = 0xFFB0FFF8 ∧ e.moverOperands.dstRegion = .l0 ∧
      ¬ (e.par.l0Base ≤ 0xFFB0FFF8 ∧ 0xFFB0FFF8 + 16 ≤ e.par.l0Base + e.par.l0Size)) := by decide +kernel

theorem witness_TagsRouteToUnits : (0x00800000 : Word).getLsbD Params.default.unpackSelBit = true ∧
    (0 : Word).getLsbD Params.default.unpackSelBit = false := by decide

theorem witness_GenericAdmission : FUnit.scalar ≠ .config ∧ FUnit.scalar ≠ .sync ∧
    ((∀ v : Thread, base.flush[v] = none) ∧ ∀ e ∈ base.queueOf .scalar, e.thread ≠ 0) ∧
    ¬ (∀ v : Thread, { base with flush := base.flush.set 2 (some 4) }.flush[v] = none) := by decide +kernel

/-- Two SETC16 of threads 0 and 2 in the Config unit's queue, and one entry more. -/
def configQueue (last : Entry) : State := base.setQueue .config [⟨0xB2000001, 0⟩, ⟨0xB2010002, 2⟩, last]

/-- A decoded word of the default schema on its way to execution. -/
def issued (t : Thread) (w : Word) (i : Instr) : Issue := ⟨t, view w, i⟩

theorem configQueue_holds (last : Entry) : List.Forall₂ ((configQueue last).Holds .config)
    [⟨0xB2000001, 0⟩, ⟨0xB2010002, 2⟩] [issued 0 0xB2000001 (.setc16 1 0), issued 2 0xB2010002 (.setc16 2 1)] :=
  .cons ⟨rfl, rfl, (by decide +kernel : schemaDefault.decode 0xB2000001 = _), by decide +kernel⟩
    (.cons ⟨rfl, rfl, (by decide +kernel : schemaDefault.decode 0xB2010002 = _), by decide +kernel⟩ .nil)

/-- Two entries run; the third one faults (R174), or has no rule at the unit (R157). -/
theorem witness_UnitTickRunsItsQueue :
    (configQueue ⟨0xB2390000, 1⟩).halt = none ∧
    (runAll [issued 0 0xB2000001 (.setc16 1 0), issued 2 0xB2010002 (.setc16 2 1)]
      ((configQueue ⟨0xB2390000, 1⟩).preUnit .config)).isSome = true ∧
    (configQueue ⟨0xB2390000, 1⟩).queueOf .config =
      [⟨0xB2000001, 0⟩, ⟨0xB2010002, 2⟩] ++ [⟨0xB2390000, 1⟩] ∧
    (configQueue ⟨0xB2390000, 1⟩).Holds .config ⟨0xB2390000, 1⟩ (issued 1 0xB2390000 (.setc16 0 57)) ∧
    (∀ s' : State, (s'.issue 1 (view 0xB2390000)).missingArg (.setc16 0 57) = none ∧
      exec (.setc16 0 57) (s'.issue 1 (view 0xB2390000)) = .fault (.invalidFieldAccess (.index 57))) ∧
    (configQueue ⟨0x8F000000, 1⟩).par.schema.decode 0x8F000000 = some (view 0x8F000000) ∧
    homeUnit (view 0x8F000000).name ≠ some .config :=
  ⟨rfl, by decide +kernel, by decide +kernel,
    ⟨rfl, rfl, (by decide +kernel : schemaDefault.decode 0xB2390000 = _), by decide +kernel⟩,
    fun _ => ⟨by rw [(by decide +kernel : view 0xB2390000 =
      ⟨.setc16, [(.setc16Value, 0), (.setc16Reg, 57)], .config, 0xB2390000⟩)]; rfl, rfl⟩,
    by decide +kernel, by decide +kernel⟩

/-- A SETADCXX in the Misc unit's queue: its rule is read from no argument, and refuses (R242). -/
def miscQueue : State := base.setQueue .misc [⟨0x5E200801, 1⟩]

theorem witness_UnitTickRunsItsQueue_refused :
    miscQueue.halt = none ∧ (runAll [] (miscQueue.preUnit .misc)).isSome = true ∧
    miscQueue.queueOf .misc = [] ++ [⟨0x5E200801, 1⟩] ∧
    miscQueue.Holds .misc ⟨0x5E200801, 1⟩ (issued 1 0x5E200801 (.setadcxx 1 2 1)) ∧
    (∀ s' : State, (s'.issue 1 (view 0x5E200801)).missingArg (.setadcxx 1 2 1) = none ∧
      exec (.setadcxx 1 2 1) (s'.issue 1 (view 0x5E200801)) = .refused .setadcxxValuesNotGiven) :=
  ⟨rfl, by decide +kernel, by decide +kernel,
    ⟨rfl, rfl, (by decide +kernel : schemaDefault.decode 0x5E200801 = _), by decide +kernel⟩, fun _ => ⟨rfl, rfl⟩⟩

/-- A schema whose FLUSHDMA row has no argument. -/
def bare : State := { base.setQueue .scalar [⟨0x46000000, 2⟩] with
  par := { base.par with schema := ⟨[⟨0x46, .flushdma, [], .scalar⟩], []⟩ } }

theorem witness_UnitTickRunsItsQueue_lacking :
    bare.halt = none ∧ bare.queueOf .scalar = [] ++ [⟨0x46000000, 2⟩] ∧
    bare.Holds .scalar ⟨0x46000000, 2⟩ ⟨2, ⟨.flushdma, [], .scalar, 0x46000000⟩, .flushdma 0⟩ ∧
    ∀ s' : State, (s'.issue 2 ⟨.flushdma, [], .scalar, 0x46000000⟩).missingArg (.flushdma 0) = some .flushSpec :=
  ⟨rfl, by decide +kernel, ⟨rfl, rfl, by decide +kernel, rfl⟩, fun _ => rfl⟩

/-- A drained entry of thread 1, and none of thread 0. -/
theorem witness_UnitTickRunsItsQueue_countdown :
    (∀ e ∈ [(⟨0, 1⟩ : Entry)], e.thread ≠ 0) ∧ (∃ e ∈ [(⟨0, 1⟩ : Entry)], e.thread = 1) ∧
    (base.setInflight .packer 0 2).inflightOf .packer 0 = 2 ∧ base.inflightOf .packer 0 = 0 := by decide +kernel

/-- A run that a fault has ended, the environment still moving. -/
def ended : State := { base with
  halt := some ⟨.fault (.unknownOpcode 0xFF000000), some 0, some (.frontend 0)⟩
  inputs := [[.semRegWrite 0 0]] }

theorem witness_StoppedRunStaysStopped :
    ended.halt = some ⟨.fault (.unknownOpcode 0xFF000000), some 0, some (.frontend 0)⟩ ∧
    (∀ m ∈ ended.inputs.head?.getD [], m ≠ EnvMove.reset) ∧
    (∀ m ∈ ended.inputs.head?.getD [], ended.isMemoryMove m = false) ∧
    (∀ m ∈ [EnvMove.memWrite 7 [1, 2], .memRead 7 2], m ≠ EnvMove.reset) ∧ 7 + 2 ≤ ended.par.memSize.toNat := by
  decide +kernel

/-- R296, R300: the environment writes its own memory between a stop and the reset, and the reset does not touch it. -/
theorem test_memory_after_stop :
    (ended.envMove (.memWrite 7 [1, 2])).mem.cells = [(7, 1), (8, 2)] ∧
    (ended.envMove (.memWrite 7 [1, 2])).halt = ended.halt ∧
    ((ended.envMove (.memWrite 7 [1, 2])).envMove .reset).mem.cells = [(7, 1), (8, 2)] ∧
    ended.envMove (.semRegWrite 0 0) = ended := by decide +kernel

/-- The reset state is idle. -/
theorem reset_quiet : State.reset.Quiet where
  schema := rfl
  orderNodup := by decide
  orderAll := by
    intro c
    cases c with
    | unit u => cases u <;> decide
    | frontend t => revert t; decide
  capReplay := by decide
  halt := rfl
  inputs := rfl
  replies := rfl
  mopQ := by decide
  replayQ := by decide
  mopOut := by decide
  expanding := by decide
  playLeft := by decide
  gateSlot := by decide
  latch := by decide
  mutexWait := by decide
  backendStall := by decide
  queue := by intro u; cases u <;> decide
  cfgWritePrev := rfl
  waiters := rfl
  flush := by decide
  inflight := by intro u; cases u <;> decide

theorem witness_StepRunsThePlacedInstruction : State.reset.Quiet ∧ (Instr.setc16 1 0).WellFormed ∧
    ∃ d, schemaDefault.decode (encode (.setc16 1 0)) = some d ∧ ∃ t,
      exec (.setc16 1 0) { State.reset.withFetchWord 32 (encode (.setc16 1 0)).toNat with instr := d } = .next t :=
  ⟨reset_quiet, by decide, view 0xB2000001, by decide +kernel, next_of_after (by decide +kernel)⟩

/-- Legal data that is not the data of reset. -/
def busy : State := { withRegs with
  sem := base.sem.set 0 ⟨15, 3⟩
  rwc := base.rwc.set 0 ⟨⟨63, 1⟩, ⟨0, 0⟩, ⟨1023, 0⟩, 3, true⟩
  dstUndefined := [0, 31]
  mem := ⟨[(0, 1), (7, 2)]⟩
  mopQ := base.mopQ.set 1 [0xA0000002]
  mutexWait := base.mutexWait.set 0 true
  queue := base.queue.set (unitIndex .sync) [⟨0xA0000002, 0⟩] }

theorem witness_StepKeepsDataLegal : busy.DataLegal ∧ ∃ t, step busy = .next t := by
  refine ⟨⟨by decide +kernel, by decide +kernel, ?_, ?_, by decide +kernel, by decide +kernel, by decide +kernel⟩,
    next_of_after (by decide +kernel)⟩
  · unfold Rwc.Fits
    decide +kernel
  · intro t g c d
    revert t c
    cases g <;> cases d <;> decide +kernel

theorem witness_StepKeepsFrontendsAndQueuesLegal :
    busy.FrontendLegal ∧ busy.QueuesLegal ∧ busy.QueuesDecode ∧ busy.RequestsLegal ∧ ∃ t, step busy = .next t := by
  refine ⟨⟨by decide +kernel, by decide +kernel, by decide +kernel, by decide +kernel, by decide +kernel,
    by decide +kernel⟩, ⟨?_, by decide +kernel, by decide +kernel, by decide +kernel, by decide +kernel,
    by decide +kernel, by decide +kernel⟩, ?_, by unfold State.RequestsLegal; decide +kernel,
    next_of_after (by decide +kernel)⟩
  · intro u _ _
    cases u <;> decide +kernel
  · intro u
    cases u <;> decide +kernel

theorem witness_StateChangesOnlyByItsWriters : (∃ t, step base = .next t) ∧
    (∃ t, exec (.setc16 1 0) base = .next t) ∧ (Instr.setc16 1 0).opName ≠ .reg2flop :=
  ⟨next_of_after (by decide +kernel), next_of_after (by decide +kernel), by decide⟩

/-- R301: after reset the block is idle until something is written to it (log entry 4). -/
theorem test_reset_is_idle : step State.reset = .next State.reset := by rfl

end Sys2Proof.Tests
end

section
/-! PROOFS. The Sync unit (43_sync_unit.md): the saturating steps of a semaphore and the instructions that apply them
over a selector (R198 to R201). -/

namespace Sys2Proof.Machine

/-! ## One semaphore -/

/-- SEMPOST's step saturates at 15 (R200). -/
@[simp] theorem Semaphore.post_value (x : Semaphore) : x.post.value = min (x.value + 1) 15 := rfl

@[simp] theorem Semaphore.post_max (x : Semaphore) : x.post.max = x.max := rfl

@[simp] theorem Semaphore.get_max (x : Semaphore) : x.get.max = x.max := rfl

/-- SEMGET's step saturates at 0 (R201): the natural subtraction of the model is the rule's maximum over the integers. -/
@[simp] theorem Semaphore.get_value_int (x : Semaphore) : (x.get.value : Int) = Max.max ((x.value : Int) - 1) 0 := by
  have : x.get.value = x.value - 1 := rfl
  omega

/-! ## The selected semaphores -/

variable (s : State) (sel : Nat)

/-- An operation over a selector changes the semaphores only (R198). -/
theorem State.overSemaphores_frame (f : Semaphore → Semaphore) :
    s.overSemaphores sel f = { s with sem := (s.overSemaphores sel f).sem } := rfl

/-- SEMPOST and SEMGET keep every `max` field: an operation that keeps it on one semaphore keeps it over a selector. -/
theorem State.overSemaphores_max {f : Semaphore → Semaphore} (hf : ∀ x, (f x).max = x.max) (i : Fin 8) :
    (s.overSemaphores sel f).sem[i].max = s.sem[i].max := by
  rw [State.sem_overSemaphores]
  split
  · exact hf _
  · rfl

/-! ## The instructions -/

/-- SEMINIT stores the low four bits of its two operands (R199). -/
theorem exec_seminit (v m : Nat) :
    exec (.seminit sel v m) s = .next (s.overSemaphores sel fun _ => ⟨v % 16, m % 16⟩) := rfl

theorem exec_sempost : exec (.sempost sel) s = .next (s.overSemaphores sel Semaphore.post) := rfl

theorem exec_semget : exec (.semget sel) s = .next (s.overSemaphores sel Semaphore.get) := rfl

/-- Settles O31: each instruction is its step over the selector, so the frame is that of `overSemaphores` and each
semaphore is read off by `sem_overSemaphores`. -/
theorem semaphoreInstructions : Obligations.SemaphoreInstructions := by
  intro s sel
  refine ⟨fun v m => ⟨_, exec_seminit s sel v m, s.overSemaphores_frame sel _, fun i => ?_⟩,
    ⟨_, exec_sempost s sel, s.overSemaphores_frame sel _, fun i =>
      ⟨s.overSemaphores_max sel Semaphore.post_max i, ?_⟩⟩,
    ⟨_, exec_semget s sel, s.overSemaphores_frame sel _, fun i =>
      ⟨s.overSemaphores_max sel Semaphore.get_max i, ?_⟩⟩⟩
  case refine_1 => exact s.sem_overSemaphores sel _ i
  case refine_2 =>
    rw [State.sem_overSemaphores]
    split
    · exact Semaphore.post_value _
    · rfl
  case refine_3 =>
    rw [State.sem_overSemaphores]
    split
    · exact Semaphore.get_value_int _
    · rfl

end Sys2Proof.Machine
end

section
/-! PROOFS. The ADC unit (45_adc_unit.md): the instruction the rules give no meaning (R242). -/

namespace Sys2Proof.Machine

/-- Settles O44: `execSetadcxx` tests neither its operands nor the state before it answers, so no case split is needed
and the refusal is the instruction's only outcome. -/
theorem setadcxxIsRefused : Obligations.SetadcxxIsRefused := by
  intro s a b m
  calc exec (.setadcxx a b m) s
    _ = execSetadcxx a b m s := rfl
    _ = .refused .setadcxxValuesNotGiven := rfl

end Sys2Proof.Machine
end

section
/-! PROOFS. The unknown opcode (60_exceptions.md R282): the stages of the frontend on a word that does not decode. -/

namespace Sys2Proof.Machine

variable {s : State} {t : Thread} {w : Word}

/-- The macro expander at rest stops on an undecodable head word (R112). -/
theorem mopTick_of_undecoded {q : List Word} (hd : s.par.schema.decode w = none) (he : s.expanding[t] = false)
    (hq : s.mopQ[t] = w :: q) : s.mopTick t = s.stop (.fault (.unknownOpcode w)) t (.frontend t) := by
  simp [State.mopTick, he, hq, hd]

/-- The replay expander outside a play stops on an undecodable head word (R124). -/
theorem replayTick_of_undecoded {q : List Word} (hd : s.par.schema.decode w = none) (hp : s.playLeft[t] = 0)
    (hq : s.replayQ[t] = w :: q) : s.replayTick t = s.stop (.fault (.unknownOpcode w)) t (.frontend t) := by
  simp [State.replayTick, hp, hq, hd]

/-- The wait gate stops on an undecodable word in its slot, in the state that the re-check of the latch left (R131). -/
theorem gateTick_of_undecoded {r : State} (hd : s.par.schema.decode w = none) (hh : s.halt = none)
    (hw : s.gateSlot[t] = some w) (hr : s.Rechecked t r) :
    s.gateTick t = r.stop (.fault (.unknownOpcode w)) t (.frontend t) := by
  rw [gateTick_of_rechecked hr hh hw, hd]

/-- Intake does not look at the word: accepted or not, the run goes on as before (R110). -/
@[simp] theorem State.intakeWrite_halt (s : State) (t : Thread) (w : Word) : (s.intakeWrite t w).halt = s.halt := by
  unfold State.intakeWrite
  split
  case isTrue => rfl
  case isFalse => rfl

/-- Settles O4: an opcode no row has is one that does not decode (`decode_none`), and each stage has one lemma for that
case. -/
theorem unknownOpcodeEndsTheRun : Obligations.UnknownOpcodeEndsTheRun := by
  intro s t w q hop
  have hd : s.par.schema.decode w = none := decode_none.mpr hop
  exact ⟨mopTick_of_undecoded hd, replayTick_of_undecoded hd, fun hh hw _ hr => gateTick_of_undecoded hd hh hw hr,
    s.intakeWrite_halt t w⟩

end Sys2Proof.Machine
end

section
/-! PROOFS. The decoder reads back what the encoder wrote (30_encoding.md R84, R99): first over every well-formed
schema, then the instructions of the default one. -/

namespace Sys2Proof

/-! ## The fields of a row -/

/-- The number of bits of a field with the given bounds (R84). -/
def fieldWidth (b : ArgName × Nat × Nat) : Nat := b.2.2 + 1 - b.2.1

/-- The value a field holds after encoding: the argument, 0 where it is omitted (R98), truncated to the field (R99). -/
def fieldValue (as : List (ArgName × Nat)) (b : ArgName × Nat × Nat) : Nat :=
  (argValue as b.1).getD 0 % 2 ^ fieldWidth b

/-- The fields of an ascending row add up to a number of 24 bits whose bits below the first field are 0. -/
theorem argBounds_sum (as : List (ArgName × Nat)) : ∀ {l : List (ArgName × Nat)}, l.Pairwise (·.2 < ·.2) →
    (∀ a ∈ l, a.2 ≤ argTop) →
    ((argBounds l).map (placeArg as)).sum < 2 ^ 24 ∧
    ∀ a ∈ l.head?, 2 ^ a.2 ∣ ((argBounds l).map (placeArg as)).sum
  | [], _, _ => by simp [argBounds]
  | [(n, s)], _, htop => by
    have hs : s ≤ 23 := htop (n, s) (by simp)
    have hv : (argValue as n).getD 0 % 2 ^ (24 - s) < 2 ^ (24 - s) := Nat.mod_lt _ (by positivity)
    have hp : 2 ^ s * 2 ^ (24 - s) = 2 ^ 24 := by rw [← pow_add]; congr 1; omega
    refine ⟨?_, by simp [argBounds, placeArg]⟩
    simp only [argBounds, argTop, placeArg, List.map_cons, List.map_nil, List.sum_cons, List.sum_nil, add_zero]
    exact hp ▸ (Nat.mul_lt_mul_left (by positivity)).mpr hv
  | (n, s) :: (m, s') :: rest, hl, htop => by
    rw [List.pairwise_cons] at hl
    obtain ⟨hlt, hdvd⟩ := argBounds_sum as hl.2 fun a ha => htop a (by simp [ha])
    have hss : s < s' := hl.1 (m, s') (by simp)
    have hs' : s' ≤ 23 := htop (m, s') (by simp)
    obtain ⟨k, hk⟩ := hdvd (m, s') (by simp)
    dsimp only at hk
    have hv : (argValue as n).getD 0 % 2 ^ (s' - s) < 2 ^ (s' - s) := Nat.mod_lt _ (by positivity)
    have hp : 2 ^ s * 2 ^ (s' - s) = 2 ^ s' := by rw [← pow_add]; congr 1; omega
    have hq : 2 ^ s' * 2 ^ (24 - s') = 2 ^ 24 := by rw [← pow_add]; congr 1; omega
    have hk24 : k < 2 ^ (24 - s') := by
      rw [hk, ← hq] at hlt
      exact (Nat.mul_lt_mul_left (by positivity)).mp hlt
    rw [argBounds, List.map_cons, List.sum_cons, hk, placeArg]
    dsimp only
    rw [show s' - 1 + 1 - s = s' - s by omega]
    refine ⟨?_, fun a ha => ?_⟩
    · calc 2 ^ s * ((argValue as n).getD 0 % 2 ^ (s' - s)) + 2 ^ s' * k
        _ < 2 ^ s * 2 ^ (s' - s) + 2 ^ s' * k := by gcongr
        _ = 2 ^ s' * (k + 1) := by rw [hp]; ring
        _ ≤ 2 ^ s' * 2 ^ (24 - s') := by gcongr; omega
        _ = 2 ^ 24 := hq
    · cases ha
      exact dvd_add (Nat.dvd_mul_right _ _) (Nat.dvd_mul_right_of_dvd (pow_dvd_pow 2 hss.le) k)

/-- A field is read back from a number that holds multiples of the power above it and less than the power below it. -/
theorem field_of_sum {s e v k lo : Nat} (hse : s ≤ e) (hlo : lo < 2 ^ s) :
    (lo + 2 ^ s * (v % 2 ^ (e - s)) + 2 ^ e * k) / 2 ^ s % 2 ^ (e - s) = v % 2 ^ (e - s) := by
  have hp : 2 ^ e = 2 ^ s * 2 ^ (e - s) := by rw [← pow_add]; congr 1; omega
  rw [hp, show lo + 2 ^ s * (v % 2 ^ (e - s)) + 2 ^ s * 2 ^ (e - s) * k =
      lo + 2 ^ s * (v % 2 ^ (e - s) + 2 ^ (e - s) * k) by ring, Nat.add_mul_div_left _ _ (by positivity),
    Nat.div_eq_of_lt hlo, zero_add, Nat.add_mul_mod_self_left, Nat.mod_mod]

/-- Each field of an ascending row is read back from the sum of the fields, whatever stands in the opcode field and in
the bits below the row. -/
theorem slice_argBounds (as : List (ArgName × Nat)) (op : Nat) : ∀ {l : List (ArgName × Nat)},
    l.Pairwise (·.2 < ·.2) → (∀ a ∈ l, a.2 ≤ argTop) → ∀ lo, (∀ a ∈ l.head?, lo < 2 ^ a.2) → ∀ b ∈ argBounds l,
    (lo + ((argBounds l).map (placeArg as)).sum + 2 ^ 24 * op) / 2 ^ b.2.1 % 2 ^ fieldWidth b = fieldValue as b
  | [], _, _, _, _, b, hb => by simp [argBounds] at hb
  | [(n, s)], _, htop, lo, hlo, b, hb => by
    obtain rfl : b = (n, s, argTop) := by simpa [argBounds] using hb
    have hs : s ≤ 23 := htop (n, s) (by simp)
    simpa [argBounds, placeArg, fieldWidth, fieldValue, argTop] using
      field_of_sum (e := 24) (v := (argValue as n).getD 0) (k := op) (by omega) (hlo (n, s) (by simp))
  | (n, s) :: (m, s') :: rest, hl, htop, lo, hlo, b, hb => by
    rw [List.pairwise_cons] at hl
    have hss : s < s' := hl.1 (m, s') (by simp)
    have htop' : ∀ a ∈ (m, s') :: rest, a.2 ≤ argTop := fun a ha => htop a (by simp [ha])
    have hs' : s' ≤ 23 := htop' (m, s') (by simp)
    obtain ⟨k, hk⟩ := (argBounds_sum as hl.2 htop').2 (m, s') (by simp)
    have hlos : lo < 2 ^ s := hlo (n, s) (by simp)
    have hw : s' - 1 + 1 - s = s' - s := by omega
    rw [argBounds, List.mem_cons] at hb
    rw [argBounds, List.map_cons, List.sum_cons]
    rcases hb with rfl | hb
    · dsimp only at hk ⊢
      have hq : 2 ^ 24 = 2 ^ s' * 2 ^ (24 - s') := by rw [← pow_add]; congr 1; omega
      rw [hk, fieldValue, fieldWidth, placeArg, hq]
      dsimp only
      rw [hw]
      refine Eq.trans ?_ (field_of_sum (k := k + 2 ^ (24 - s') * op) hss.le hlos)
      congr 2
      ring
    · have hv : (argValue as n).getD 0 % 2 ^ (s' - s) < 2 ^ (s' - s) := Nat.mod_lt _ (by positivity)
      rw [← slice_argBounds as op hl.2 htop' (lo + placeArg as (n, s, s' - 1)) ?_ b hb, ← add_assoc lo]
      rintro a ⟨⟩
      rw [placeArg]
      dsimp only
      rw [hw]
      calc lo + 2 ^ s * ((argValue as n).getD 0 % 2 ^ (s' - s))
        _ < 2 ^ s * (1 + (argValue as n).getD 0 % 2 ^ (s' - s)) := by rw [mul_add]; omega
        _ ≤ 2 ^ s * 2 ^ (s' - s) := by gcongr; omega
        _ = 2 ^ s' := by rw [← pow_add]; congr 1; omega

/-! ## Decoding an encoded word -/

/-- What a well-formed schema says of one of its rows. -/
theorem Schema.wf_row {sch : Schema} (hwf : sch.wf = true) {r : OpRow} (hr : r ∈ sch.ops) :
    r.opcode < 256 ∧ (r.args.map (·.2)).Nodup ∧ ∀ a ∈ r.args, a.2 ≤ argTop := by
  simp only [Schema.wf, Bool.and_eq_true, List.all_eq_true, decide_eq_true_eq] at hwf
  obtain ⟨⟨-, hrows⟩, -⟩ := hwf
  obtain ⟨⟨⟨hop, -⟩, hnodup⟩, htop⟩ := hrows r hr
  exact ⟨hop, hnodup, htop⟩

/-- Opcode values of a well-formed schema are distinct. -/
theorem Schema.wf_opcodes {sch : Schema} (hwf : sch.wf = true) : (sch.ops.map (·.opcode)).Nodup := by
  simp only [Schema.wf, Bool.and_eq_true, decide_eq_true_eq] at hwf
  obtain ⟨⟨⟨hopcodes, -⟩, -⟩, -⟩ := hwf
  exact hopcodes

/-- Under a schema with distinct opcodes a word of a row's opcode decodes to that row, its arguments the slices of its
bounds (R84). -/
theorem Schema.decode_of_row {sch : Schema} (hn : (sch.ops.map (·.opcode)).Nodup) {r : OpRow} (hr : r ∈ sch.ops)
    {w : Word} (hop : opcodeOf w = r.opcode) :
    sch.decode w = some ⟨r.name, r.bounds.map fun b => (b.1, slice b.2.2 b.2.1 w), r.tag, w⟩ := by
  rw [Schema.decode, hop, rowOf_mem hn hr]

/-- Under a well-formed schema the word of a name decodes to its row, with every argument truncated to its field. -/
theorem Schema.decode_encode {sch : Schema} (hwf : sch.wf = true) {n : OpName} {r : OpRow} (hr : sch.rowNamed n = some r)
    {as : List (ArgName × Nat)} {w : Word} (hw : sch.encode n as = some w) :
    sch.decode w = some ⟨r.name, r.bounds.map fun b => (b.1, fieldValue as b), r.tag, w⟩ := by
  have hmem : r ∈ sch.ops := List.mem_of_find?_eq_some hr
  obtain ⟨hop, hnodup, htop⟩ := Schema.wf_row hwf hmem
  have hsorted := sortArgs_sorted hnodup
  have htop' : ∀ a ∈ sortArgs r.args, a.2 ≤ argTop := fun a ha => htop a ((sortArgs_perm _).mem_iff.mp ha)
  have hsum : (r.bounds.map (placeArg as)).sum < 2 ^ 24 := (argBounds_sum as hsorted htop').1
  obtain rfl : BitVec.ofNat 32 (2 ^ 24 * r.opcode + (r.bounds.map (placeArg as)).sum) = w := by
    simpa [Schema.encode, Schema.encodeNat, hr] using hw
  have hnat : (BitVec.ofNat 32 (2 ^ 24 * r.opcode + (r.bounds.map (placeArg as)).sum)).toNat =
      0 + (r.bounds.map (placeArg as)).sum + 2 ^ 24 * r.opcode := by
    rw [BitVec.toNat_ofNat]; omega
  rw [Schema.decode_of_row (Schema.wf_opcodes hwf) hmem (Laws.opcodeOf_ofNat _ _ hop hsum)]
  refine congrArg some (Decoded.mk.injEq .. |>.mpr ⟨rfl, List.map_congr_left fun b hb => ?_, rfl, rfl⟩)
  rw [slice, hnat]
  exact congrArg _ (slice_argBounds as r.opcode hsorted htop' 0 (fun a _ => by positivity) b hb)

/-! ## The default schema -/

/-- The default schema is well-formed (R83). -/
theorem schemaDefault_wf : schemaDefault.wf = true := by decide

/-- The decoder reads a table word of 32 bits as the word itself (R65, R80). -/
theorem decodeTableWord_toNat (w : Word) : decodeTableWord 32 w.toNat = schemaDefault.decodeInstr w := by
  have hlt : w.toNat % 2 ^ 32 = w.toNat := Nat.mod_eq_of_lt w.isLt
  have hbytes : wordOfBytes (BitVec.ofNat 8 w.toNat) (BitVec.ofNat 8 (w.toNat / 2 ^ 8))
      (BitVec.ofNat 8 (w.toNat / 2 ^ 16)) (BitVec.ofNat 8 (w.toNat / 2 ^ 24)) = w := by
    refine BitVec.eq_of_getLsbD_eq fun i hi => ?_
    simp only [wordOfBytes, BitVec.getLsbD_append, BitVec.getLsbD_ofNat, Nat.testBit_div_two_pow]
    split
    case isTrue h => rw [decide_eq_true h]; rfl
    case isFalse h =>
      split
      case isTrue h' => rw [decide_eq_true h', show i - 8 + 8 = i by omega]; rfl
      case isFalse h' =>
        split
        case isTrue h'' => rw [decide_eq_true h'', show i - 8 - 8 + 16 = i by omega]; rfl
        case isFalse h'' => rw [decide_eq_true (by omega), show i - 8 - 8 - 8 + 24 = i by omega]; rfl
  simp only [decodeTableWord, tableBytes, hlt, w.isLt, if_true, decodeBytes, hbytes]

/-- Every instruction has a row in the default schema (R91). -/
theorem rowNamed_opName (i : Instr) : ∃ r, schemaDefault.rowNamed i.opName = some r := by
  cases i <;> exact ⟨_, rfl⟩

/-- The decoded view of the word of an instruction, its arguments truncated to their fields. -/
def Instr.view (i : Instr) (r : OpRow) : Decoded :=
  ⟨r.name, r.bounds.map fun b => (b.1, fieldValue i.args b), r.tag, encode i⟩

/-- The word of an instruction decodes to its view. -/
theorem decode_encode {i : Instr} {r : OpRow} (hr : schemaDefault.rowNamed i.opName = some r) :
    schemaDefault.decode (encode i) = some (i.view r) := by
  refine Schema.decode_encode schemaDefault_wf hr ?_
  simp [encode, Instr.encodeWith, Schema.encode, Schema.encodeNat, hr]

/-- The view of a well-formed instruction stands for it: no argument is truncated. -/
theorem toInstr_view {i : Instr} (hwf : i.WellFormed) {r : OpRow} (hr : schemaDefault.rowNamed i.opName = some r) :
    (i.view r).toInstr = some i := by
  cases i <;> cases hr <;>
    simp_all [Decoded.toInstr, Instr.view, Instr.build, Decoded.override, OpRow.bounds, sortArgs, insertArg, argBounds,
      argTop, argValue, Instr.args, fieldValue, fieldWidth, fits, Instr.WellFormed, Nat.mod_eq_of_lt]

end Sys2Proof

namespace Sys2Proof.Machine

/-- Settles O1: decoding an encoded word gives the row and the truncated arguments (`decode_encode`), and a well-formed
instruction's arguments are not truncated (`toInstr_view`). -/
theorem decodeOfEncodeIsIdentity : Obligations.DecodeOfEncodeIsIdentity := by
  intro i hwf
  obtain ⟨r, hr⟩ := rowNamed_opName i
  have hname : r.name = i.opName := by simpa using List.find?_some hr
  rw [decodeTableWord_toNat, Schema.decodeInstr, Schema.nameOf, decode_encode hr]
  exact ⟨toInstr_view hwf hr, congrArg some hname⟩

/-- Settles O3: the bounds are those of the sorted row (`argBounds_spec`), so each argument is the slice of its bounds,
the names come in the sorted order, and a name the row lacks is not among them. -/
theorem argumentBoundaries : Obligations.ArgumentBoundaries := by
  intro sch w hn
  refine ⟨decode_none.symm, fun r hr hop hnodup htop => ?_⟩
  have hsorted := sortArgs_sorted hnodup
  have hmem : ∀ {a}, a ∈ sortArgs r.args ↔ a ∈ r.args := (sortArgs_perm r.args).mem_iff
  obtain ⟨hnames, hends⟩ := argBounds_spec hsorted
  have hkeys : (r.bounds.map fun b => (b.1, slice b.2.2 b.2.1 w)).map (·.1) = (sortArgs r.args).map (·.1) := by
    rw [← hnames, List.map_map]; rfl
  refine ⟨_, Schema.decode_of_row hn hr (hop ▸ opcodeField_toNat w).symm, rfl, rfl, rfl, ?_, fun a ha => ?_,
    ⟨sortArgs r.args, sortArgs_perm _, hsorted, hkeys⟩, fun n hne => ?_⟩
  · simpa [(sortArgs_perm r.args).length_eq] using congrArg List.length hkeys
  · obtain ⟨e, hb, he⟩ := hends a (hmem.mpr ha)
    simp only [hmem] at he
    exact ⟨e, he, List.mem_map.mpr ⟨_, hb, rfl⟩⟩
  · have hnot : n ∉ (r.bounds.map fun b => (b.1, slice b.2.2 b.2.1 w)).map (·.1) := by
      rw [hkeys]
      rintro hin
      obtain ⟨a, ha, rfl⟩ := List.mem_map.mp hin
      exact hne a (hmem.mp ha) rfl
    rw [Decoded.arg, argValue_none hnot]

/-- Settles O2: the decoder runs on each word. -/
theorem sampleWordsDecode : Obligations.SampleWordsDecode := by
  unfold Obligations.SampleWordsDecode
  decide

end Sys2Proof.Machine
end

section
/-! PROOFS. What a move of the environment, a tick of the macro expander and a re-check of a flush can do, said once:
an invariant's proof names the writes and splits no port access again. -/

namespace Sys2Proof.Machine

variable {P : State → Prop}

/-- An access of the memory map that is no port access keeps what its plain access and a stop keep. -/
theorem elsewhere_keeps (hstop : ∀ s y, P s → P (s.stopMove y)) {s plain : State} (h : P s) (hp : P plain) (a n : Nat) :
    P (s.elsewhere a n plain) := by
  unfold State.elsewhere
  split
  · exact hstop _ _ h
  · exact hp

/-- A move of the environment keeps what its primitive writes keep. -/
theorem makeMove_keeps (hstop : ∀ s y, P s → P (s.stopMove y)) (hreply : ∀ s r, P s → P (s.reply r))
    (hintake : ∀ (s : State) (t : Thread) w, P s → s.mopQ[t].length < s.par.capMopQ →
      P { s with mopQ := s.mopQ.set t (s.mopQ[t] ++ [w]) })
    (hsem : ∀ s i w, P s → P (s.semRegWrite i w)) (hmop : ∀ s t k v, P s → P (s.mopCfgWrite t k v))
    (hadc : ∀ s t g c d x v, P s → P (s.pokeAdc t g c d x v)) (hgpr : ∀ s t i v, P s → P (s.setGpr t i v))
    (hmem : ∀ s a bs, P s → P { s with mem := s.mem.writeBytes a bs }) (hreset : ∀ s, P s → P s.reboot)
    {s : State} (h : P s) (m : EnvMove) : P (s.makeMove m) := by
  have intake (t : Thread) (w : Word) : P (s.intakeWrite t w) := by
    unfold State.intakeWrite
    split
    · next hl => exact hreply _ _ (hintake _ _ _ h hl)
    · exact hreply _ _ h
  have write (a : Nat) (bs : List Byte) : P (s.memWrite a bs) := by
    unfold State.memWrite
    split
    · exact hmem _ _ _ h
    · exact hstop _ _ h
  have read (a n : Nat) : P (s.memRead a n) := by
    unfold State.memRead
    split
    · exact hreply _ _ h
    · exact hstop _ _ h
  cases m with
  | intakeWrite t w => exact intake t w
  | semRegWrite i w => exact hsem _ _ _ h
  | semRegRead i => exact hreply _ _ h
  | mopCfgWrite t k v => exact hmop _ _ _ _ h
  | adcPoke t g c d x v => exact hadc _ _ _ _ _ _ _ h
  | gprWrite t i v =>
    rw [State.makeMove, State.gprWrite]
    split
    · exact hgpr _ _ _ _ h
    · exact hstop _ _ h
  | memWrite a bs => exact write a bs
  | memRead a n => exact read a n
  | busWrite a n w =>
    have plain : P (s.elsewhere a n (if n ≤ 4 then s.memWrite a (lowBytes n w)
        else s.stopMove (.refused (.portAccessNotGiven a n)))) := by
      refine elsewhere_keeps hstop h ?_ a n
      split
      · exact write _ _
      · exact hstop _ _ h
    rw [State.makeMove, State.busWrite]
    split
    · split
      · exact intake _ _
      · exact hsem _ _ _ h
      · exact hmop _ _ _ _ h
      · exact plain
    · exact plain
  | busRead a n =>
    have plain := elsewhere_keeps hstop h (read a n) a n
    rw [State.makeMove, State.busRead]
    split
    · split
      · exact hreply _ _ h
      · exact plain
      · exact plain
      · exact plain
    · exact plain
  | reset => exact hreset _ h

/-- Everything an emission can do: wait, end the expansion, or move its next word on (40_frontend.md R112). -/
theorem mopEmit_cases (s : State) (t : Thread) :
    s.mopEmit t = s ∨
    (s.mopOut[t] = [] ∧ s.mopEmit t = { s with expanding := s.expanding.set t false }) ∨
    ∃ w rest, s.mopOut[t] = w :: rest ∧ s.replayQ[t].length < s.par.capReplayQ ∧ s.mopEmit t = { s with
      replayQ := s.replayQ.set t (s.replayQ[t] ++ [w])
      mopOut := s.mopOut.set t rest
      expanding := s.expanding.set t (!rest.isEmpty) } := by
  unfold State.mopEmit
  split
  · next hroom =>
    rw [Bool.and_eq_true, decide_eq_true_eq] at hroom
    split
    · next hout => exact .inr (.inl ⟨hout, rfl⟩)
    · next w rest hout => exact .inr (.inr ⟨w, rest, hout, hroom.2, rfl⟩)
  · exact .inl rfl

/-- Re-checking a flush writes the flushes and the gates' stall flags (44_thcon_unit.md R223). -/
theorem recheckFlush_frame (s : State) (t : Thread) :
    ∃ f b, s.recheckFlush t = { s with flush := f, backendStall := b } := by
  unfold State.recheckFlush
  split
  · split <;> exact ⟨_, _, rfl⟩
  · exact ⟨_, _, rfl⟩

end Sys2Proof.Machine
end

section
/-! PROOFS. The data a state holds stays legal (10_state.md R22, R39, R42 to R44; 20_memory.md R61): what each
operation on registers, semaphores, counters, rows and memory keeps, then the instructions, the moves and the step. -/

namespace Sys2Proof

/-- A counter and its shadow fit a width (R43, R244). -/
def Counter.Fits (w : Nat) (x : Counter) : Prop := x.val < 2 ^ w ∧ x.cr < 2 ^ w

theorem Counter.setTo_fits (w v : Nat) (x : Counter) : (Counter.setTo w v x).Fits w := ⟨truncTo_lt w v, truncTo_lt w v⟩

/-- An increment keeps the width; the shadow is either kept or wrapped (R237). -/
theorem Counter.inc_fits (mode : IncadcShadow) {w : Nat} (v : Nat) {x : Counter} (h : x.Fits w) :
    (x.inc mode w v).Fits w := by
  cases mode with
  | both => exact ⟨truncTo_lt w _, truncTo_lt w _⟩
  | counterOnly => exact ⟨truncTo_lt w _, h.2⟩

theorem Counter.addrcr_fits (mode : AddrcrMode) (w v : Nat) (x : Counter) : (x.addrcr mode w v).Fits w := by
  cases mode with
  | clear => exact ⟨Nat.two_pow_pos w, Nat.two_pow_pos w⟩
  | carriageReturn => exact ⟨truncTo_lt w _, truncTo_lt w _⟩

theorem Counter.setRelative_fits (w : Nat) (cr : Bool) (v : Nat) (x : Counter) : (x.setRelative w cr v).Fits w :=
  ⟨truncTo_lt w _, truncTo_lt w _⟩

/-- Every counter of a bank after construction is 0 (R50). -/
@[simp] theorem AdcThread.get_zero (g : Group) (c : Fin 2) (d : Dim) : AdcThread.zero.get g c d = ⟨0, 0⟩ := by
  have hc : c = 0 ∨ c = 1 := by omega
  rcases hc with rfl | rfl <;> cases g <;> cases d <;> rfl

/-- A pair operation is one on a counter of its own dimension's width (R234). -/
theorem pairOps_eq_some {p : Params} {pair : DimPair} {en : Nat} {v : PairValues} {f : Nat → Nat → Counter → Counter}
    {c : Fin 2} {d : Dim} {k : Counter → Counter} (h : pairOps p pair en v f c d = some k) :
    ∃ x, k = f (p.dimWidth d) x := by
  unfold pairOps at h
  split at h
  · split at h
    · cases h; exact ⟨_, rfl⟩
    · cases h
  · cases h

end Sys2Proof

namespace Sys2Proof.Machine

variable {s t : State}

/-! ## Pieces -/

theorem Semaphore.post_le (x : Semaphore) : x.post.value ≤ 15 := by
  rw [Semaphore.post_value]; exact min_le_right _ _

theorem Semaphore.get_le {x : Semaphore} (h : x.value ≤ 15) : x.get.value ≤ 15 := (Nat.sub_le _ _).trans h

theorem Rwc.trunc_fits (p : Params) (r : Rwc) : Rwc.Fits p (r.trunc p) :=
  ⟨truncTo_lt _ _, truncTo_lt _ _, truncTo_lt _ _, truncTo_lt _ _, truncTo_lt _ _, truncTo_lt _ _, truncTo_lt _ _⟩

/-- Inserting a row keeps the list rising (R44). -/
theorem insertRow_rising {l : List Nat} (h : l.Pairwise (· < ·)) (r : Nat) : (insertRow r l).Pairwise (· < ·) := by
  induction l with
  | nil => simp [insertRow]
  | cons x rest ih =>
    rw [List.pairwise_cons] at h
    obtain ⟨hx, hrest⟩ := h
    rw [insertRow]
    split
    · next hr =>
      refine List.pairwise_cons.mpr ⟨fun y hy => ?_, List.pairwise_cons.mpr ⟨hx, hrest⟩⟩
      rcases List.mem_cons.mp hy with rfl | hy
      · exact hr
      · exact hr.trans (hx y hy)
    · split
      · exact List.pairwise_cons.mpr ⟨hx, hrest⟩
      · refine List.pairwise_cons.mpr ⟨fun y hy => ?_, ih hrest⟩
        rcases (mem_insertRow r y rest).mp hy with rfl | hy
        · omega
        · exact hx y hy

/-- Marking rows keeps the list rising. -/
theorem markRows_rising (rows : List Nat) (h : s.dstUndefined.Pairwise (· < ·)) :
    (s.markRows rows).dstUndefined.Pairwise (· < ·) := by
  unfold State.markRows
  dsimp only
  induction rows with
  | nil => exact h
  | cons r rows ih => exact insertRow_rising ih r

/-! ## What keeps the data legal -/

namespace State.DataLegal

/-- Legality depends on the parameters and the six pieces of data only. -/
theorem congr (h : s.DataLegal) (par : t.par = s.par := by rfl) (gpr : t.gpr = s.gpr := by rfl)
    (sem : t.sem = s.sem := by rfl) (rwc : t.rwc = s.rwc := by rfl) (adc : t.adc = s.adc := by rfl)
    (rows : t.dstUndefined = s.dstUndefined := by rfl) (mem : t.mem = s.mem := by rfl) : t.DataLegal where
  gpr := by rw [par, gpr]; exact h.gpr
  sem := by rw [sem]; exact h.sem
  rwc := by rw [par, rwc]; exact h.rwc
  adc := by rw [par, adc]; exact h.adc
  rising := by rw [rows]; exact h.rising
  rows := by rw [par, rows]; exact h.rows
  mem := by rw [mem]; exact h.mem

theorem setGpr (h : s.DataLegal) (u : Thread) (i : Nat) (v : Word) : (s.setGpr u i v).DataLegal where
  gpr t := by
    rw [State.setGpr_par, State.setGpr, vget_set]
    split
    · next e => rw [List.length_set]; exact h.gpr u
    · exact h.gpr t
  sem := h.sem
  rwc := h.rwc
  adc := h.adc
  rising := h.rising
  rows := h.rows
  mem := h.mem

/-- New semaphores are legal where each is. -/
theorem withSem (h : s.DataLegal) {v : Vector Semaphore 8} (hv : ∀ i : Fin 8, v[i].value ≤ 15 ∧ v[i].max ≤ 15) :
    { s with sem := v }.DataLegal where
  gpr := h.gpr
  sem := hv
  rwc := h.rwc
  adc := h.adc
  rising := h.rising
  rows := h.rows
  mem := h.mem

theorem overSemaphores (h : s.DataLegal) (sel : Nat) {f : Semaphore → Semaphore}
    (hf : ∀ x : Semaphore, x.value ≤ 15 ∧ x.max ≤ 15 → (f x).value ≤ 15 ∧ (f x).max ≤ 15) :
    (s.overSemaphores sel f).DataLegal :=
  h.withSem fun i => by
    have hi := s.sem_overSemaphores sel f i
    rw [State.overSemaphores] at hi
    rw [hi]
    split
    · exact hf _ (h.sem i)
    · exact h.sem i

theorem setRwc (h : s.DataLegal) (u : Thread) {r : Rwc} (hr : Rwc.Fits s.par r) : (s.setRwc u r).DataLegal where
  gpr := h.gpr
  sem := h.sem
  rwc t := by
    rw [State.setRwc, vget_set]
    split
    · exact hr
    · exact h.rwc t
  adc := h.adc
  rising := h.rising
  rows := h.rows
  mem := h.mem

/-- A new counter bank of a thread is legal where each of its counters is. -/
theorem setAdc (h : s.DataLegal) (u : Thread) {a : AdcThread}
    (ha : ∀ g c d, (a.get g c d).Fits (s.par.dimWidth d)) : { s with adc := s.adc.set u a }.DataLegal where
  gpr := h.gpr
  sem := h.sem
  rwc := h.rwc
  adc t g c d := by
    rw [vget_set]
    split
    · exact ha g c d
    · exact h.adc t g c d
  rising := h.rising
  rows := h.rows
  mem := h.mem

theorem pokeAdc (h : s.DataLegal) (u : Thread) (g : Group) (c : Fin 2) (d : Dim) (x : Half) (v : Nat) :
    (s.pokeAdc u g c d x v).DataLegal :=
  h.setAdc u fun g' c' d' => by
    rw [AdcThread.get_ofFn]
    dsimp only
    have old := h.adc u g' c' d'
    split
    · next e =>
      obtain ⟨-, -, rfl⟩ := e
      cases x with
      | counter => exact ⟨truncTo_lt _ _, old.2⟩
      | shadow => exact ⟨old.1, truncTo_lt _ _⟩
    · exact old

/-- The shared operation of the ADC family keeps the data legal where its operations keep the widths. -/
theorem overAdc (h : s.DataLegal) {o m : Nat} {f : Fin 2 → Dim → Option (Counter → Counter)}
    (hf : ∀ c d k x, f c d = some k → x.Fits (s.par.dimWidth d) → (k x).Fits (s.par.dimWidth d))
    (hx : s.overAdc o m f = .next t) : t.DataLegal := by
  obtain ⟨u, -, hx⟩ := orFault_next hx
  cases hx
  refine h.setAdc u fun g c d => ?_
  rw [AdcThread.get_ofFn]
  dsimp only
  have old := h.adc u g c d
  split
  · split
    · next k hk => exact hf c d k _ hk old
    · exact old
  · exact old

/-- A two-dimension instruction keeps the data legal where its operation keeps every width. -/
theorem overPairs (h : s.DataLegal) {o m en : Nat} {pair : DimPair} {v : PairValues}
    {f : Nat → Nat → Counter → Counter} (hf : ∀ w v x, Counter.Fits w x → (f w v x).Fits w)
    (hx : s.overAdc o m (pairOps s.par pair en v f) = .next t) : t.DataLegal :=
  h.overAdc (fun c d k x hk old => by obtain ⟨v, rfl⟩ := pairOps_eq_some hk; exact hf _ v x old) hx

theorem markRows (h : s.DataLegal) {rows : List Nat} (hr : ∀ r ∈ rows, r < s.par.dstRows) :
    (s.markRows rows).DataLegal where
  gpr := h.gpr
  sem := h.sem
  rwc := h.rwc
  adc := h.adc
  rising := markRows_rising rows h.rising
  rows r hmem := ((mem_markRows rows s r).mp hmem).elim (h.rows r) (hr r)
  mem := h.mem

theorem writeBytes (h : s.DataLegal) (a : Nat) (bs : List Byte) : { s with mem := s.mem.writeBytes a bs }.DataLegal where
  gpr := h.gpr
  sem := h.sem
  rwc := h.rwc
  adc := h.adc
  rising := h.rising
  rows := h.rows
  mem := Memory.writeBytes_wf h.mem a bs

/-! ## The register move (44_thcon_unit.md R217) -/

theorem loadRegisters (h : s.DataLegal) (reg : Nat) (vs : Vector Word 4) (n : Nat) :
    (s.loadRegisters reg vs n).DataLegal := by
  induction n with
  | zero => exact h
  | succ n ih => exact ih.setGpr _ _ _

theorem counterWrite (h : s.DataLegal) (u : Thread) (w : AdcWrite) : (s.counterWrite u w).DataLegal := by
  unfold State.counterWrite
  split
  · exact h.pokeAdc _ _ _ _ _ _
  · exact h

theorem counterWrites (u : Thread) (ws : List AdcWrite) :
    ∀ {s : State}, s.DataLegal → (ws.foldl (fun s' w => s'.counterWrite u w) s).DataLegal := by
  induction ws with
  | nil => exact id
  | cons w ws ih => exact fun h => ih (h.counterWrite u w)

theorem thconApply (h : s.DataLegal) (reg : Nat) (n : MoveSize) (x : MoveEffect) : (s.thconApply reg n x).DataLegal := by
  cases x with
  | toConfig ws =>
    obtain ⟨c, e⟩ := cfgWrites_frame ws s
    rw [State.thconApply, e]
    exact h.congr
  | toCounters o ws => exact counterWrites _ ws h
  | toRegisters src vs => exact h.loadRegisters reg vs _

/-! ## Instructions, moves, reset -/

/-- Every instruction keeps the data legal. -/
theorem exec {i : Instr} (h : s.DataLegal) (hx : exec i s = .next t) : t.DataLegal := by
  cases i <;> simp only [Machine.exec] at hx
  case mop => rw [execMop_next hx]; exact h.congr
  case nop => cases hx; exact h
  case mopCfg => rw [execMopCfg_next hx]; exact h.congr
  case replay => rw [(execReplay_next hx).2]; exact h.congr
  case zeroacc =>
    obtain ⟨rows, hr, rfl | ⟨bank, rfl⟩⟩ := execZeroacc_next hx
    · exact h.markRows hr
    · exact (h.markRows hr).setRwc _ (Rwc.trunc_fits _ _)
  case setrwc bm _ _ _ _ _ =>
    obtain ⟨hav, hac, hbv, hbc, hdv, hdc, hf⟩ := h.rwc s.cur
    cases hx
    have fits : ∀ {w : Nat} {b cr : Bool} {v : Nat} {x : Counter}, x.Fits w →
        (if b then x.setRelative w cr v else x).Fits w := by
      intro w b cr v x hx
      split
      · exact Counter.setRelative_fits w cr v x
      · exact hx
    obtain ⟨hav, hac⟩ := fits ⟨hav, hac⟩
    obtain ⟨hbv, hbc⟩ := fits ⟨hbv, hbc⟩
    obtain ⟨hdv, hdc⟩ := fits ⟨hdv, hdc⟩
    have phase : (if bm.testBit 3 then 0 else s.rwc[s.cur].fidelityPhase) < 2 ^ s.par.wfid := by
      split
      · exact Nat.two_pow_pos _
      · exact hf
    exact h.setRwc _ ⟨hav, hac, hbv, hbc, hdv, hdc, phase⟩
  case xmov =>
    obtain rfl | ⟨a, bs, rfl⟩ := execXmov_next hx
    · exact h
    · exact h.writeBytes a bs
  case flushdma => rw [execFlushdma_next hx]; exact h.congr
  case reg2flop => obtain ⟨-, rfl⟩ := execReg2flop_next hx; exact h.thconApply _ _ _
  case setadc =>
    obtain ⟨-, -, hx⟩ := orFault_next hx
    obtain ⟨c, -, hx⟩ := orFault_next hx
    obtain ⟨d, -, hx⟩ := orFault_next hx
    refine h.overAdc (fun c' d' k x hk _ => ?_) hx
    split at hk
    · next e => obtain ⟨-, rfl⟩ := e; cases hk; exact Counter.setTo_fits _ _ _
    · cases hk
  case setadcxy => exact h.overPairs (fun w v x _ => Counter.setTo_fits w v x) hx
  case setadczw => exact h.overPairs (fun w v x _ => Counter.setTo_fits w v x) hx
  case incadcxy => exact h.overPairs (fun w v x old => Counter.inc_fits _ v old) hx
  case incadczw => exact h.overPairs (fun w v x old => Counter.inc_fits _ v old) hx
  case addrcrxy => exact h.overPairs (fun w v x _ => Counter.addrcr_fits _ w v x) hx
  case addrcrzw => exact h.overPairs (fun w v x _ => Counter.addrcr_fits _ w v x) hx
  case setadcxx => cases hx
  case dmanop => cases hx; exact h
  case storereg => rw [execStorereg_next hx]; exact h.writeBytes _ _
  case sfpnop => cases hx; exact h
  case atgetm => obtain ⟨j, -, ⟨-, rfl⟩ | ⟨-, rfl⟩⟩ := execAtgetm_next hx <;> exact h.congr
  case atrelm =>
    obtain ⟨j, -, ⟨-, rfl⟩ | ⟨-, rfl⟩⟩ := execAtrelm_next hx
    · exact h.congr
    · exact h
  case stallwait => rw [execStallwait_next hx]; exact h.congr
  case seminit =>
    cases hx
    have low (v : Nat) : truncTo 4 v ≤ 15 := Nat.le_of_lt_succ (truncTo_lt 4 v)
    exact h.overSemaphores _ fun _ _ => ⟨low _, low _⟩
  case sempost => cases hx; exact h.overSemaphores _ fun x hx => ⟨x.post_le, hx.2⟩
  case semget => cases hx; exact h.overSemaphores _ fun x hx => ⟨Semaphore.get_le hx.1, hx.2⟩
  case semwait => obtain ⟨l, -, -, rfl⟩ := execSemwait_next hx; exact h.congr
  case wrcfg => rw [execWrcfg_next hx]; exact h.congr
  case setc16 => rw [execSetc16_next hx]; exact h.congr
  case rmwcib0 => rw [rmwLane_next hx]; exact h.congr
  case rmwcib1 => rw [rmwLane_next hx]; exact h.congr
  case rmwcib2 => rw [rmwLane_next hx]; exact h.congr
  case rmwcib3 => rw [rmwLane_next hx]; exact h.congr

/-- The data right after construction are legal. -/
theorem powerOn (p : Params) : (State.powerOn p).DataLegal where
  gpr t := by simp [State.powerOn]
  sem i := by simp [State.powerOn]
  rwc t := by simp [State.powerOn, Rwc.Fits, Rwc.zero]
  adc t g c d := by
    have ht : (State.powerOn p).adc[t] = AdcThread.zero := by simp [State.powerOn]
    rw [ht, AdcThread.get_zero]
    exact ⟨Nat.two_pow_pos _, Nat.two_pow_pos _⟩
  rising := List.Pairwise.nil
  rows := by simp [State.powerOn]
  mem := rfl

theorem reboot (h : s.DataLegal) : s.reboot.DataLegal where
  gpr := (powerOn s.par).gpr
  sem := (powerOn s.par).sem
  rwc := (powerOn s.par).rwc
  adc := (powerOn s.par).adc
  rising := (powerOn s.par).rising
  rows := (powerOn s.par).rows
  mem := h.mem

theorem semRegWrite (h : s.DataLegal) (i : Fin 8) (w : Word) : (s.semRegWrite i w).DataLegal := by
  refine h.withSem fun j => ?_
  obtain ⟨hv, hm⟩ := h.sem i
  rw [vget_set]
  split
  · split
    · exact ⟨Semaphore.get_le hv, hm⟩
    · exact ⟨s.sem[i].post_le, hm⟩
  · exact h.sem j

/-- Every move of the environment keeps the data legal. -/
theorem makeMove (h : s.DataLegal) (m : EnvMove) : (s.makeMove m).DataLegal :=
  makeMove_keeps (fun _ _ h => h.congr) (fun _ _ h => h.congr) (fun _ _ _ h _ => h.congr)
    (fun _ i w h => h.semRegWrite i w) (fun _ _ _ _ h => h.congr) (fun _ u g c d x v h => h.pokeAdc u g c d x v)
    (fun _ u i v h => h.setGpr u i v) (fun _ a bs h => h.writeBytes a bs) (fun _ h => h.reboot) h m

/-! ## Components -/

theorem forwarded (h : s.DataLegal) {u : Thread} {d : Decoded} (hd : s.dispatch u d = .taken t) :
    (t.forwarded u d.name).DataLegal := by
  obtain ⟨g, m, e⟩ := forwarded_frame t u d.name
  rw [e]
  rcases dispatch_taken hd with ⟨v, rfl, -⟩ | ⟨-, rfl | rfl⟩ <;> exact h.congr

theorem mopEmit (h : s.DataLegal) (u : Thread) : (s.mopEmit u).DataLegal := by
  rcases mopEmit_cases s u with e | ⟨-, e⟩ | ⟨w, rest, -, -, e⟩ <;> rw [e] <;> exact h.congr

theorem recheckFlush (h : s.DataLegal) (u : Thread) : (s.recheckFlush u).DataLegal := by
  obtain ⟨f, b, e⟩ := recheckFlush_frame s u
  rw [e]; exact h.congr

/-- Every component keeps the data legal: beside `exec` it writes no data. -/
theorem tick (h : s.DataLegal) (c : Component) (hr : s.halted = false) : (s.tick c).DataLegal := by
  have stop : ∀ (s : State) y t c, s.DataLegal → (s.stop y t c).DataLegal := fun _ _ _ _ h => h.congr
  have issue : ∀ (s : State) t d, s.DataLegal → (s.issue t d).DataLegal := fun _ _ _ h => h.congr
  cases c with
  | unit u =>
    exact unitTick_keeps stop issue (fun _ _ _ _ h hx => h.exec hx) (fun _ _ _ _ h => h.congr)
      (fun _ u h => h.recheckFlush u) (fun _ h => h.congr) (fun _ _ h => h.congr)
      (fun s _ h => by obtain ⟨m, mw, w, e⟩ := resolve_frame s; rw [e]; exact h.congr) h
  | frontend u =>
    refine frontendTick_keeps (fun s h _ => ?_) (fun s h _ => ?_) (fun s h _ => ?_) h hr
    · exact gateTick_keeps stop issue (fun _ _ _ _ h hx => h.exec hx) (fun _ _ h => h.congr) (fun _ _ h => h.congr)
        (fun _ _ _ _ _ h _ _ _ _ hd => h.forwarded hd) h u
    · exact replayTick_keeps stop issue (fun _ _ _ _ h hx => h.exec hx) (fun _ _ _ h _ _ => h.congr)
        (fun _ _ h => h.congr) (fun _ _ _ h _ => h.congr) (fun _ _ _ h => h.congr) h u
    · exact mopTick_keeps stop issue (fun _ _ _ _ h hx => h.exec hx) (fun _ _ h => h.congr)
        (fun _ _ _ h _ => h.congr) (fun _ u h => h.mopEmit u) h u

end State.DataLegal

/-- Settles O57: the invariant is carried by the instructions (`DataLegal.exec`), the moves (`DataLegal.makeMove`) and
the components (`DataLegal.tick`), and `step_keeps` puts them together. -/
theorem stepKeepsDataLegal : Obligations.StepKeepsDataLegal := fun _ _ h hs =>
  step_keeps (fun _ _ _ h => h.congr) (fun _ m h => h.makeMove m) (fun _ _ h => h.congr) (fun _ h => h.reboot)
    (fun _ c h hr => h.tick c hr) h hs

end Sys2Proof.Machine
end

section
/-! PROOFS. The frame of the instruction set (10_state.md sections 2 to 5): which instructions write a piece of state. -/

namespace Sys2Proof.Machine

variable {s t : State} {i : Instr}

/-- The pieces of state that some instruction writes, each with the names of its writers. -/
structure ExecFrame (i : Instr) (s t : State) : Prop where
  cfg : i.opName ∉ [.wrcfg, .rmwcib0, .rmwcib1, .rmwcib2, .rmwcib3, .reg2flop] → t.cfg = s.cfg
  tcfg : i.opName ≠ .setc16 → t.tcfg = s.tcfg
  gpr : i.opName ≠ .reg2flop → t.gpr = s.gpr
  sem : i.opName ∉ [.seminit, .sempost, .semget] → t.sem = s.sem
  mutex : i.opName ∉ [.atgetm, .atrelm] → t.mutex = s.mutex
  waiters : i.opName ≠ .atgetm → t.waiters = s.waiters ∧ t.mutexWait = s.mutexWait
  flush : i.opName ≠ .flushdma → t.flush = s.flush ∧ t.backendStall = s.backendStall
  rwc : i.opName ∉ [.setrwc, .zeroacc] → t.rwc = s.rwc
  rows : i.opName ≠ .zeroacc → t.dstUndefined = s.dstUndefined
  adc : i.opName ∉ [.setadc, .setadcxy, .setadczw, .incadcxy, .incadczw, .addrcrxy, .addrcrzw, .reg2flop] →
    t.adc = s.adc
  latch : i.opName ∉ [.stallwait, .semwait] → t.latch = s.latch
  zmaskHi : i.opName ∉ [.mop, .mopCfg] → t.zmaskHi = s.zmaskHi
  expansion : i.opName ≠ .mop → t.mopOut = s.mopOut ∧ t.expanding = s.expanding
  replay : i.opName ≠ .replay → t.startIdx = s.startIdx ∧ t.recCursor = s.recCursor ∧ t.recLeft = s.recLeft ∧
    t.playCursor = s.playCursor ∧ t.playLeft = s.playLeft ∧ t.ewl = s.ewl
  mem : i.opName ∉ [.storereg, .xmov] → t.mem = s.mem

/-- An instruction that changes nothing has every frame. -/
theorem ExecFrame.refl (i : Instr) (s : State) : ExecFrame i s s := by constructor <;> simp

/-- Each piece of state changes only by its writers. -/
theorem exec_frame (h : exec i s = .next t) : ExecFrame i s t := by
  cases i <;> simp only [exec] at h
  case nop => cases h; exact .refl _ _
  case dmanop => cases h; exact .refl _ _
  case sfpnop => cases h; exact .refl _ _
  case setadcxx => cases h
  case mop => rw [execMop_next h]; constructor <;> simp [Instr.opName]
  case mopCfg => rw [execMopCfg_next h]; constructor <;> simp [Instr.opName]
  case replay => rw [(execReplay_next h).2]; constructor <;> simp [Instr.opName]
  case zeroacc => obtain ⟨rows, -, rfl | ⟨b, rfl⟩⟩ := execZeroacc_next h <;>
    constructor <;> simp [Instr.opName, State.applyAddrMod]
  case setrwc => rw [execSetrwc_next h]; constructor <;> simp [Instr.opName]
  case xmov => obtain rfl | ⟨a, bs, rfl⟩ := execXmov_next h <;> constructor <;> simp [Instr.opName]
  case flushdma => rw [execFlushdma_next h]; constructor <;> simp [Instr.opName]
  case reg2flop =>
    obtain ⟨-, rfl⟩ := execReg2flop_next h
    obtain ⟨g, c, a, e⟩ := thconApply_frame (s.thconReg _ s.thconMove) s.thconMove.size s.thconMove.effect (s := s)
    rw [e]; constructor <;> simp [Instr.opName]
  case storereg => rw [execStorereg_next h]; constructor <;> simp [Instr.opName]
  case atgetm => obtain ⟨j, -, ⟨-, rfl⟩ | ⟨-, rfl⟩⟩ := execAtgetm_next h <;> constructor <;> simp [Instr.opName]
  case atrelm => obtain ⟨j, -, ⟨-, rfl⟩ | ⟨-, rfl⟩⟩ := execAtrelm_next h <;> constructor <;> simp [Instr.opName]
  case stallwait => rw [execStallwait_next h]; constructor <;> simp [Instr.opName]
  case semwait => obtain ⟨l, -, -, rfl⟩ := execSemwait_next h; constructor <;> simp [Instr.opName]
  case seminit => cases h; constructor <;> simp [Instr.opName]
  case sempost => cases h; constructor <;> simp [Instr.opName]
  case semget => cases h; constructor <;> simp [Instr.opName]
  case wrcfg => rw [execWrcfg_next h]; constructor <;> simp [Instr.opName]
  case setc16 => rw [execSetc16_next h]; constructor <;> simp [Instr.opName]
  case setadc => rw [execSetadc_next h]; constructor <;> simp [Instr.opName]
  case rmwcib0 => rw [rmwLane_next h]; constructor <;> simp [Instr.opName]
  case rmwcib1 => rw [rmwLane_next h]; constructor <;> simp [Instr.opName]
  case rmwcib2 => rw [rmwLane_next h]; constructor <;> simp [Instr.opName]
  case rmwcib3 => rw [rmwLane_next h]; constructor <;> simp [Instr.opName]
  all_goals rw [overAdc_frame h]; constructor <;> simp [Instr.opName]

/-! ## The parameters -/

theorem mopEmit_par (s : State) (u : Thread) : (s.mopEmit u).par = s.par := by
  rcases mopEmit_cases s u with e | ⟨-, e⟩ | ⟨w, rest, -, -, e⟩ <;> rw [e]

/-- A component leaves the parameters. -/
theorem tick_par (s : State) (c : Component) (hr : s.halted = false) : (s.tick c).par = s.par := by
  have main : ∀ p, s.par = p → (s.tick c).par = p := by
    intro p h
    cases c with
    | unit u =>
      exact unitTick_keeps (P := fun s => s.par = p) (fun _ _ _ _ => id) (fun _ _ _ => id)
        (fun _ _ _ _ h hx => (exec_par hx).trans h) (fun _ _ _ _ => id)
        (fun s u h => by obtain ⟨f, b, e⟩ := recheckFlush_frame s u; rw [e]; exact h) (fun _ => id) (fun _ _ => id)
        (fun s _ h => by obtain ⟨m, mw, w, e⟩ := resolve_frame s; rw [e]; exact h) h
    | frontend u =>
      refine frontendTick_keeps (P := fun s => s.par = p) (fun s h _ => ?_) (fun s h _ => ?_) (fun s h _ => ?_) h hr
      · refine gateTick_keeps (P := fun s => s.par = p) (fun _ _ _ _ => id) (fun _ _ _ => id)
          (fun _ _ _ _ h hx => (exec_par hx).trans h) (fun _ _ => id) (fun _ _ => id) ?_ h u
        intro s s' u w d h _ _ _ _ hd
        obtain ⟨g, m, e⟩ := forwarded_frame s' u d.name
        rw [e]
        rcases dispatch_taken hd with ⟨v, rfl, -⟩ | ⟨-, rfl | rfl⟩ <;> exact h
      · exact replayTick_keeps (P := fun s => s.par = p) (fun _ _ _ _ => id) (fun _ _ _ => id)
          (fun _ _ _ _ h hx => (exec_par hx).trans h) (fun _ _ _ h _ _ => h) (fun _ _ => id) (fun _ _ _ h _ => h)
          (fun _ _ _ => id) h u
      · exact mopTick_keeps (P := fun s => s.par = p) (fun _ _ _ _ => id) (fun _ _ _ => id)
          (fun _ _ _ _ h hx => (exec_par hx).trans h) (fun _ _ => id) (fun _ _ _ h _ => h)
          (fun s u h => (mopEmit_par s u).trans h) h u
  exact main _ rfl

/-- A move leaves the parameters. -/
theorem makeMove_par (s : State) (m : EnvMove) : (s.makeMove m).par = s.par := by
  have main : ∀ p, s.par = p → (s.makeMove m).par = p := fun p h =>
    makeMove_keeps (P := fun s => s.par = p) (fun _ _ => id) (fun _ _ => id) (fun _ _ _ h _ => h) (fun _ _ _ => id)
      (fun _ _ _ _ => id) (fun _ _ _ _ _ _ _ => id) (fun _ _ _ _ => id) (fun _ _ _ => id) (fun _ => id) h m
  exact main _ rfl

/-- Settles O60: no move and no component writes the parameters, and the rest is the frame of each instruction
(`exec_next` for the pieces no instruction writes, `exec_frame` for the others). -/
theorem stateChangesOnlyByItsWriters : Obligations.StateChangesOnlyByItsWriters := by
  refine ⟨fun s t hs => ?_, fun s t i hx => ?_⟩
  · exact step_keeps (P := fun z => z.par = s.par) (fun _ _ _ => id) (fun z m h => (makeMove_par z m).trans h)
      (fun _ _ => id) (fun _ => id) (fun z c h hr => (tick_par z c hr).trans h) rfl hs
  · have f := exec_frame hx
    have e := exec_next hx
    exact ⟨exec_par hx, exec_halt hx, exec_cur hx, exec_instr hx, by rw [e], by rw [e], by rw [e], exec_mopQ hx,
      exec_replayQ hx, by rw [e], exec_gateSlot hx, exec_queue hx, exec_cfgWritePrev hx, exec_inflight hx, f.cfg, f.tcfg,
      f.gpr, f.sem, f.mutex, f.waiters, f.flush, f.rwc, f.rows, f.adc, f.latch, f.zmaskHi, f.expansion, f.replay,
      fun h a => by rw [f.mem h]⟩

end Sys2Proof.Machine
end

section
/-! PROOFS. The frontends stay legal (10_state.md R29 to R31, R33, R35): FIFO bounds, the expansion flag, the start
index and the shape of a latch. -/

namespace Sys2Proof.Machine

variable {s t : State}

/-- The shape of a latch (R35): with no kind it holds nothing, and it has a selector exactly as a SEMWAIT. -/
def Latch.Legal (l : Latch) : Prop := (l.kind = .none → l = Latch.clear) ∧ (l.semSel.isSome = true ↔ l.kind = .semwait)

theorem Latch.clear_legal : Latch.clear.Legal := ⟨fun _ => rfl, by decide⟩

namespace State.FrontendLegal

theorem latch (h : s.FrontendLegal) (u : Thread) : s.latch[u].Legal := ⟨h.latchNone u, h.latchSel u⟩

/-- Legality depends on the two capacities and on six pieces of the frontends. -/
theorem congr (h : s.FrontendLegal) (par : t.par = s.par := by rfl) (mopQ : t.mopQ = s.mopQ := by rfl)
    (replayQ : t.replayQ = s.replayQ := by rfl) (expanding : t.expanding = s.expanding := by rfl)
    (mopOut : t.mopOut = s.mopOut := by rfl) (startIdx : t.startIdx = s.startIdx := by rfl)
    (latch : t.latch = s.latch := by rfl) : t.FrontendLegal where
  mopQ := by rw [par, mopQ]; exact h.mopQ
  replayQ := by rw [par, replayQ]; exact h.replayQ
  expanding := by rw [expanding, mopOut]; exact h.expanding
  startIdx := by rw [startIdx]; exact h.startIdx
  latchNone := by rw [latch]; exact h.latchNone
  latchSel := by rw [latch]; exact h.latchSel

theorem setMopQ (h : s.FrontendLegal) (u : Thread) {q : List Word} (hq : q.length ≤ s.par.capMopQ) :
    { s with mopQ := s.mopQ.set u q }.FrontendLegal where
  mopQ v := by
    rw [vget_set]
    split
    · exact hq
    · exact h.mopQ v
  replayQ := h.replayQ
  expanding := h.expanding
  startIdx := h.startIdx
  latchNone := h.latchNone
  latchSel := h.latchSel

theorem setReplayQ (h : s.FrontendLegal) (u : Thread) {q : List Word} (hq : q.length ≤ s.par.capReplayQ) :
    { s with replayQ := s.replayQ.set u q }.FrontendLegal where
  mopQ := h.mopQ
  replayQ v := by
    rw [vget_set]
    split
    · exact hq
    · exact h.replayQ v
  expanding := h.expanding
  startIdx := h.startIdx
  latchNone := h.latchNone
  latchSel := h.latchSel

/-- An expansion's output and flag written together. -/
theorem startExpansion (h : s.FrontendLegal) (u : Thread) (out : List Word) : (s.startExpansion u out).FrontendLegal where
  mopQ := h.mopQ
  replayQ := h.replayQ
  expanding v := by
    rw [State.startExpansion, vget_set, vget_set]
    split
    · simp
    · exact h.expanding v
  startIdx := h.startIdx
  latchNone := h.latchNone
  latchSel := h.latchSel

theorem setStartIdx (h : s.FrontendLegal) (u : Thread) {n : Nat} (hn : n < 32) :
    { s with startIdx := s.startIdx.set u n }.FrontendLegal where
  mopQ := h.mopQ
  replayQ := h.replayQ
  expanding := h.expanding
  startIdx v := by
    rw [vget_set]
    split
    · exact hn
    · exact h.startIdx v
  latchNone := h.latchNone
  latchSel := h.latchSel

theorem setLatch (h : s.FrontendLegal) (u : Thread) {l : Latch} (hl : l.Legal) :
    { s with latch := s.latch.set u l }.FrontendLegal := by
  have all (v : Thread) : (s.latch.set u l)[v].Legal := by
    rw [vget_set]
    split
    · exact hl
    · exact h.latch v
  exact ⟨h.mopQ, h.replayQ, h.expanding, h.startIdx, fun v => (all v).1, fun v => (all v).2⟩

/-! ## Instructions and moves -/

/-- Every instruction keeps the frontends legal: only four names write a piece of them. -/
theorem exec {i : Instr} (h : s.FrontendLegal) (hx : exec i s = .next t) : t.FrontendLegal := by
  have f := exec_frame hx
  cases i
  case mop a b c =>
    rw [Machine.exec, execMop] at hx
    split at hx <;> cases hx
    · exact (h.startExpansion _ _).congr
    · exact h.startExpansion _ _
  case replay a b c d =>
    have slot : d % replaySlots < 32 := Nat.mod_lt _ (by decide)
    rw [Machine.exec, execReplay] at hx
    split at hx
    · cases hx
    · dsimp only at hx
      split at hx <;> cases hx
      · exact (h.setStartIdx s.cur slot).congr
      · exact (h.setStartIdx s.cur slot).congr
  case stallwait a b => cases hx; exact h.setLatch s.cur ⟨by simp, by simp⟩
  case semwait a b c =>
    obtain ⟨l, hk, hsel, rfl⟩ := execSemwait_next hx
    exact h.setLatch s.cur ⟨fun e => absurd e hk, hsel⟩
  all_goals
    exact h.congr (exec_par hx) (exec_mopQ hx) (exec_replayQ hx) (f.expansion (by simp [Instr.opName])).2
      (f.expansion (by simp [Instr.opName])).1 (f.replay (by simp [Instr.opName])).1 (f.latch (by simp [Instr.opName]))

/-- The frontends right after construction are legal. -/
theorem powerOn (p : Params) : (State.powerOn p).FrontendLegal where
  mopQ := by simp [State.powerOn]
  replayQ := by simp [State.powerOn]
  expanding := by simp [State.powerOn]
  startIdx := by simp [State.powerOn]
  latchNone := by simp [State.powerOn]
  latchSel := by simp [State.powerOn, Latch.clear]

theorem reboot (s : State) : s.reboot.FrontendLegal := (powerOn s.par).congr

theorem makeMove (h : s.FrontendLegal) (m : EnvMove) : (s.makeMove m).FrontendLegal :=
  makeMove_keeps (fun _ _ h => h.congr) (fun _ _ h => h.congr)
    (fun _ _ _ h hl => h.setMopQ _ (by rw [List.length_append]; exact hl)) (fun _ _ _ h => h.congr)
    (fun _ _ _ _ h => h.congr) (fun _ _ _ _ _ _ _ h => h.congr) (fun _ _ _ _ h => h.congr) (fun _ _ _ h => h.congr)
    (fun s _ => reboot s) h m

/-! ## Components -/

theorem forwarded (h : s.FrontendLegal) {u : Thread} {d : Decoded} (hd : s.dispatch u d = .taken t) :
    (t.forwarded u d.name).FrontendLegal := by
  obtain ⟨g, m, e⟩ := forwarded_frame t u d.name
  rw [e]
  rcases dispatch_taken hd with ⟨v, rfl, -⟩ | ⟨-, rfl | rfl⟩ <;> exact h.congr

theorem popReplayQ (h : s.FrontendLegal) (u : Thread) : (s.popReplayQ u).FrontendLegal :=
  h.setReplayQ u (by rw [List.length_tail]; exact (Nat.sub_le _ _).trans (h.replayQ u))

theorem popMopQ (h : s.FrontendLegal) (u : Thread) : (s.popMopQ u).FrontendLegal :=
  h.setMopQ u (by rw [List.length_tail]; exact (Nat.sub_le _ _).trans (h.mopQ u))

theorem pushReplayQ (h : s.FrontendLegal) (u : Thread) (w : Word) (hl : s.replayQ[u].length < s.par.capReplayQ) :
    (s.pushReplayQ u w).FrontendLegal := h.setReplayQ u (by rw [List.length_append]; exact hl)

theorem mopEmit (h : s.FrontendLegal) (u : Thread) : (s.mopEmit u).FrontendLegal := by
  rcases mopEmit_cases s u with e | ⟨hout, e⟩ | ⟨w, rest, -, hl, e⟩ <;> rw [e]
  · exact h
  · exact (h.startExpansion u []).congr (mopOut := (vset_self hout).symm)
  · exact ((h.pushReplayQ u w hl).startExpansion u rest).congr

/-- Every component keeps the frontends legal. -/
theorem tick (h : s.FrontendLegal) (c : Component) (hr : s.halted = false) : (s.tick c).FrontendLegal := by
  have stop : ∀ (s : State) y t c, s.FrontendLegal → (s.stop y t c).FrontendLegal := fun _ _ _ _ h => h.congr
  have issue : ∀ (s : State) t d, s.FrontendLegal → (s.issue t d).FrontendLegal := fun _ _ _ h => h.congr
  cases c with
  | unit u =>
    exact unitTick_keeps stop issue (fun _ _ _ _ h hx => h.exec hx) (fun _ _ _ _ h => h.congr)
      (fun s u h => by obtain ⟨f, b, e⟩ := recheckFlush_frame s u; rw [e]; exact h.congr) (fun _ h => h.congr)
      (fun _ _ h => h.congr) (fun s _ h => by obtain ⟨m, mw, w, e⟩ := resolve_frame s; rw [e]; exact h.congr) h
  | frontend u =>
    refine frontendTick_keeps (fun s h _ => ?_) (fun s h _ => ?_) (fun s h _ => ?_) h hr
    · exact gateTick_keeps stop issue (fun _ _ _ _ h hx => h.exec hx) (fun _ u h => h.setLatch u Latch.clear_legal)
        (fun _ _ h => h.congr) (fun _ _ _ _ _ h _ _ _ _ hd => h.forwarded hd) h u
    · exact replayTick_keeps stop issue (fun _ _ _ _ h hx => h.exec hx) (fun _ _ _ h _ _ => h.congr)
        (fun _ u h => h.popReplayQ u) (fun _ _ _ h _ => h.congr) (fun _ _ _ h => h.congr) h u
    · exact mopTick_keeps stop issue (fun _ _ _ _ h hx => h.exec hx) (fun _ u h => h.popMopQ u)
        (fun _ u w h hl => h.pushReplayQ u w hl) (fun _ u h => h.mopEmit u) h u

/-- Every step keeps the frontends legal. -/
theorem step (h : s.FrontendLegal) (hs : step s = .next t) : t.FrontendLegal :=
  step_keeps (fun _ _ _ h => h.congr) (fun _ m h => h.makeMove m) (fun _ _ h => h.congr) (fun s _ => reboot s)
    (fun _ c h hr => h.tick c hr) h hs

end State.FrontendLegal
end Sys2Proof.Machine
end

section
/-! PROOFS. The bounds of the unit queues (10_state.md R47; R154, R171, R191): only an accepted offer makes a queue
longer, and each unit's admission rule is its bound. -/

namespace Sys2Proof.Machine

variable {s t : State}

/-! ## The entries of a name -/

/-- An entry whose word decodes has the name of its row. -/
theorem entryName_of_decode {e : Entry} {d : Decoded} (h : s.par.schema.decode e.word = some d) :
    s.entryName e = some d.name := by
  rw [State.entryName, Schema.nameOf, h]; rfl

/-- An argument of an entry is one of its decoded view. -/
theorem entryArg_of_decode {e : Entry} {d : Decoded} (h : s.par.schema.decode e.word = some d) (a : ArgName) :
    s.entryArg e a = argValue d.args a := by
  rw [State.entryArg, h]

/-- Counting the entries of a name (R171). -/
theorem countNamed_eq (s : State) (u : FUnit) (n : OpName) :
    s.countNamed u n = (s.entriesNamed u (decide <| · = n)).length := by
  unfold State.countNamed State.entriesNamed
  congr 2
  ext e
  cases s.entryName e <;> simp

/-- The entries of a name after an entry of a known name is appended. -/
theorem entriesNamed_pushEntry {e : Entry} {n : OpName} (hn : s.entryName e = some n) (u : FUnit) (f : OpName → Bool) :
    (s.pushEntry u e).entriesNamed u f = if f n then s.entriesNamed u f ++ [e] else s.entriesNamed u f := by
  have name : (s.pushEntry u e).entryName = s.entryName := rfl
  rw [State.entriesNamed, State.queueOf_pushEntry, if_pos rfl, List.filter_append, name]
  by_cases hf : f n = true <;> simp [State.entriesNamed, hn, hf]

/-- Appending to one unit's queue leaves the entries of the others. -/
theorem entriesNamed_pushEntry_ne {u v : FUnit} (h : v ≠ u) (e : Entry) (f : OpName → Bool) :
    (s.pushEntry u e).entriesNamed v f = s.entriesNamed v f := by
  rw [State.entriesNamed, State.queueOf_pushEntry, if_neg h]; rfl

/-- An emptied queue has no entries, the others keep theirs. -/
theorem entriesNamed_setQueue_nil (s : State) (u v : FUnit) (f : OpName → Bool) :
    (s.setQueue u []).entriesNamed v f = if v = u then [] else s.entriesNamed v f := by
  rw [State.entriesNamed, State.queueOf_setQueue]
  split <;> rfl

/-- The threads of a list of entries stay distinct when one of a new thread is appended. -/
theorem nodup_threads_append {l : List Entry} {e : Entry} (h : (l.map Entry.thread).Nodup)
    (he : ∀ x ∈ l, x.thread ≠ e.thread) : ((l ++ [e]).map Entry.thread).Nodup := by
  rw [List.map_append, List.map_singleton, List.nodup_append]
  refine ⟨h, List.nodup_singleton _, fun a ha b hb => ?_⟩
  obtain ⟨x, hx, rfl⟩ := List.mem_map.mp ha
  rw [List.mem_singleton.mp hb]
  exact he x hx

namespace State.QueuesLegal

/-- Legality depends on the queues and the schema only. -/
theorem congr (h : s.QueuesLegal) (par : t.par = s.par := by rfl) (queue : t.queue = s.queue := by rfl) :
    t.QueuesLegal := by
  have hq : t.queueOf = s.queueOf := by unfold State.queueOf; rw [queue]
  have hname : t.entryName = s.entryName := by unfold State.entryName; rw [par]
  have harg : t.entryArg = s.entryArg := by unfold State.entryArg; rw [par]
  have hn : t.entriesNamed = s.entriesNamed := by unfold State.entriesNamed; rw [hq, hname]
  exact ⟨hq ▸ h.generic, hn ▸ h.setc16, hn ▸ h.wrcfg, hn ▸ h.configOther, hn ▸ h.mutexOps,
    by rw [hn, harg]; exact h.mutexIndices, hn ▸ h.syncOther⟩

/-! ## An accepted offer -/

/-- R154: the unit held no entry of the thread. -/
theorem pushGeneric (h : s.QueuesLegal) {u : FUnit} (hc : u ≠ .config) (hs : u ≠ .sync) {e : Entry}
    (hq : s.queued u e.thread = false) : (s.pushEntry u e).QueuesLegal where
  generic v hvc hvs := by
    rw [State.queueOf_pushEntry]
    split
    · exact nodup_threads_append (h.generic u hc hs) (queued_false.mp hq)
    · exact h.generic v hvc hvs
  setc16 := by rw [entriesNamed_pushEntry_ne hc.symm]; exact h.setc16
  wrcfg := by rw [entriesNamed_pushEntry_ne hc.symm]; exact h.wrcfg
  configOther := by rw [entriesNamed_pushEntry_ne hc.symm]; exact h.configOther
  mutexOps := by rw [entriesNamed_pushEntry_ne hs.symm]; exact h.mutexOps
  mutexIndices := by rw [entriesNamed_pushEntry_ne hs.symm]; exact h.mutexIndices
  syncOther := by rw [entriesNamed_pushEntry_ne hs.symm]; exact h.syncOther

/-- R171: the rule bounds the kind of the appended entry, and the other kinds are as before. -/
theorem pushConfig (h : s.QueuesLegal) {e : Entry} {n : OpName} (hn : s.entryName e = some n)
    (hs : n = .setc16 → s.countNamed .config .setc16 < 3) (hw : n = .wrcfg → s.countNamed .config .wrcfg < 1)
    (ho : n ≠ .setc16 → n ≠ .wrcfg →
      ∀ x ∈ s.queueOf .config, x.thread = e.thread → isCfgWriter (s.entryName x) = true) :
    (s.pushEntry .config e).QueuesLegal where
  generic v hvc hvs := by rw [State.queueOf_pushEntry, if_neg hvc]; exact h.generic v hvc hvs
  setc16 := by
    rw [entriesNamed_pushEntry hn]
    split
    · next e => rw [countNamed_eq] at hs; rw [List.length_append]; exact hs (of_decide_eq_true e)
    · exact h.setc16
  wrcfg := by
    rw [entriesNamed_pushEntry hn]
    split
    · next e => rw [countNamed_eq] at hw; rw [List.length_append]; exact hw (of_decide_eq_true e)
    · exact h.wrcfg
  configOther := by
    rw [entriesNamed_pushEntry hn]
    split
    · next e =>
      obtain ⟨hns, hnw⟩ := of_decide_eq_true e
      refine nodup_threads_append h.configOther fun x hx ht => ?_
      obtain ⟨hmem, hother⟩ := List.mem_filter.mp hx
      have hwriter := ho hns hnw x hmem ht
      cases hname : s.entryName x with
      | none => simp [hname] at hother
      | some m => simp_all [isCfgWriter]
    · exact h.configOther
  mutexOps := by rw [entriesNamed_pushEntry_ne (by decide)]; exact h.mutexOps
  mutexIndices := by rw [entriesNamed_pushEntry_ne (by decide)]; exact h.mutexIndices
  syncOther := by rw [entriesNamed_pushEntry_ne (by decide)]; exact h.syncOther

/-- R191: the rule bounds the kind of the appended entry, and a new mutex index is among no queued ones. -/
theorem pushSync (h : s.QueuesLegal) {e : Entry} {n : OpName} (hn : s.entryName e = some n)
    (hm : n = .atgetm ∨ n = .atrelm →
      (s.entriesNamed .sync fun n => decide (n = .atgetm ∨ n = .atrelm)).length < 3 ∧
      ∀ x ∈ s.entriesNamed .sync fun n => decide (n = .atgetm ∨ n = .atrelm),
        s.entryArg x .mutexIndex ≠ s.entryArg e .mutexIndex)
    (ho : n ≠ .atgetm → n ≠ .atrelm → s.queueOf .sync = []) : (s.pushEntry .sync e).QueuesLegal where
  generic v hvc hvs := by rw [State.queueOf_pushEntry, if_neg hvs]; exact h.generic v hvc hvs
  setc16 := by rw [entriesNamed_pushEntry_ne (by decide)]; exact h.setc16
  wrcfg := by rw [entriesNamed_pushEntry_ne (by decide)]; exact h.wrcfg
  configOther := by rw [entriesNamed_pushEntry_ne (by decide)]; exact h.configOther
  mutexOps := by
    rw [entriesNamed_pushEntry hn]
    split
    · next e => rw [List.length_append]; exact (hm (of_decide_eq_true e)).1
    · exact h.mutexOps
  mutexIndices := by
    rw [entriesNamed_pushEntry hn]
    split
    · next hop =>
      rw [List.map_append, List.map_singleton, List.nodup_append]
      refine ⟨h.mutexIndices, List.nodup_singleton _, fun a ha b hb => ?_⟩
      obtain ⟨x, hx, rfl⟩ := List.mem_map.mp ha
      rw [List.mem_singleton.mp hb]
      exact (hm (of_decide_eq_true hop)).2 x hx
    · exact h.mutexIndices
  syncOther := by
    rw [entriesNamed_pushEntry hn]
    split
    · next e =>
      obtain ⟨hng, hnr⟩ := of_decide_eq_true e
      rw [List.length_append, State.entriesNamed, ho hng hnr]; simp
    · exact h.syncOther

/-- An accepted offer of a decoded word keeps the bounds. -/
theorem offer (h : s.QueuesLegal) {u : FUnit} {v : Thread} {d : Decoded} (hd : s.par.schema.decode d.word = some d)
    (ho : s.offer u v d = .taken t) : t.QueuesLegal := by
  have hn : s.entryName ⟨d.word, v⟩ = some d.name := entryName_of_decode hd
  rw [s.offer_taken ho]
  have generic : u ≠ .config → u ≠ .sync →
      s.offerIf u ⟨d.word, v⟩ (!s.stalled u && !s.queued u v) = .taken t → (s.pushEntry u ⟨d.word, v⟩).QueuesLegal := by
    intro hc hs ho
    have hok := s.offerIf_taken ho
    simp only [Bool.and_eq_true, Bool.not_eq_true'] at hok
    exact h.pushGeneric hc hs hok.2
  cases u
  case config =>
    have hok := s.offerIf_taken ho
    refine h.pushConfig hn (fun e => ?_) (fun e => ?_) (fun hs hw x hx ht => ?_)
    · simpa [e] using hok
    · simpa [e] using hok
    · rw [if_neg hs, if_neg hw] at hok
      simp only [Bool.and_eq_true, Bool.not_eq_true', List.any_eq_false, decide_eq_true_eq, not_and,
        Bool.not_eq_false] at hok
      exact hok.2 x hx ht
  case sync =>
    rw [State.offer, State.offerSync] at ho
    have filter_eq : (s.queueOf .sync).filter (fun x => isMutexOp (s.entryName x)) =
        s.entriesNamed .sync fun n => decide (n = .atgetm ∨ n = .atrelm) := by
      unfold State.entriesNamed
      congr 1
      ext x
      cases s.entryName x <;> simp [isMutexOp]
    rw [filter_eq] at ho
    split at ho
    · next hop =>
      have hop : d.name = .atgetm ∨ d.name = .atrelm := by simpa [isMutexOp] using hop
      split at ho
      · cases ho
      · next i hi =>
        have hok := s.offerIf_taken ho
        simp only [Bool.and_eq_true, Bool.not_eq_true', List.any_eq_false, decide_eq_true_eq] at hok
        have harg : s.entryArg ⟨d.word, v⟩ .mutexIndex = some i := by
          rw [entryArg_of_decode hd]
          unfold Decoded.arg at hi
          split at hi
          · next x hx => cases hi; exact hx
          · cases hi
        exact h.pushSync hn (fun _ => ⟨hok.1, fun x hx => harg ▸ hok.2 x hx⟩)
          (fun hg hr => absurd hop (by simp [hg, hr]))
    · next hop =>
      have hok := s.offerIf_taken ho
      rw [← filter_eq, Bool.and_eq_true, List.isEmpty_iff, List.isEmpty_iff, List.filter_eq_nil_iff,
        List.filter_eq_nil_iff] at hok
      have hempty : s.queueOf .sync = [] := List.eq_nil_iff_forall_not_mem.mpr fun x hx => by
        have := hok.1 x hx
        have := hok.2 x hx
        simp_all
      have hnot : ¬ (d.name = .atgetm ∨ d.name = .atrelm) := by simpa [isMutexOp] using hop
      exact h.pushSync hn (fun e => absurd e hnot) (fun _ _ => hempty)
  all_goals exact generic (by decide) (by decide) ho

/-- Emptying a queue keeps the bounds. -/
theorem setQueueNil (h : s.QueuesLegal) (u : FUnit) : (s.setQueue u []).QueuesLegal where
  generic v hvc hvs := by
    rw [State.queueOf_setQueue]
    split
    · exact List.nodup_nil
    · exact h.generic v hvc hvs
  setc16 := by rw [entriesNamed_setQueue_nil]; split; exacts [Nat.zero_le _, h.setc16]
  wrcfg := by rw [entriesNamed_setQueue_nil]; split; exacts [Nat.zero_le _, h.wrcfg]
  configOther := by rw [entriesNamed_setQueue_nil]; split; exacts [List.nodup_nil, h.configOther]
  mutexOps := by rw [entriesNamed_setQueue_nil]; split; exacts [Nat.zero_le _, h.mutexOps]
  mutexIndices := by rw [entriesNamed_setQueue_nil]; split; exacts [List.nodup_nil, h.mutexIndices]
  syncOther := by rw [entriesNamed_setQueue_nil]; split; exacts [Nat.zero_le _, h.syncOther]

/-- Empty queues are within every bound. -/
theorem of_empty (h : ∀ u, s.queueOf u = []) : s.QueuesLegal := by
  constructor <;> simp [State.entriesNamed, h]

end State.QueuesLegal

/-! ## Invariants of the queues -/

/-- The queues are empty right after construction. -/
@[simp] theorem State.powerOn_queueOf (p : Params) (u : FUnit) : (State.powerOn p).queueOf u = [] := by
  simp [State.queueOf, State.powerOn]

/-- A property of the parameters and the queues that holds after construction, stays when a decoded word is accepted by
a unit, and stays when a queue is emptied. -/
structure QueueInvariant (P : State → Prop) : Prop where
  congr : ∀ {s t : State}, P s → t.par = s.par → t.queue = s.queue → P t
  powerOn : ∀ p, P (State.powerOn p)
  offer : ∀ {s t : State} {u : FUnit} {v : Thread} {d : Decoded}, P s → s.par.schema.decode d.word = some d →
    s.offer u v d = .taken t → P t
  empty : ∀ {s : State} (u : FUnit), P s → P (s.setQueue u [])

namespace QueueInvariant

variable {P : State → Prop} (inv : QueueInvariant P)
include inv

theorem makeMove (h : P s) (m : EnvMove) : P (s.makeMove m) :=
  makeMove_keeps (fun _ _ h => inv.congr h rfl rfl) (fun _ _ h => inv.congr h rfl rfl)
    (fun _ _ _ h _ => inv.congr h rfl rfl) (fun _ _ _ h => inv.congr h rfl rfl)
    (fun _ _ _ _ h => inv.congr h rfl rfl) (fun _ _ _ _ _ _ _ h => inv.congr h rfl rfl)
    (fun _ _ _ _ h => inv.congr h rfl rfl) (fun _ _ _ h => inv.congr h rfl rfl)
    (fun s _ => inv.congr (inv.powerOn s.par) rfl rfl) h m

/-- The gate forwards what the unit accepted: the word in its slot, which decodes. -/
theorem forwarded (h : P s) {u : Thread} {w : Word} {d : Decoded} (hd : s.par.schema.decode w = some d)
    (ho : s.dispatch u d = .taken t) : P (t.forwarded u d.name) := by
  obtain ⟨g, m, e⟩ := forwarded_frame t u d.name
  rw [e]
  rcases dispatch_taken ho with ⟨v, -, -, ho⟩ | ⟨-, rfl | rfl⟩
  · exact inv.congr (inv.offer h ((decoded_word hd).symm ▸ hd) ho) rfl rfl
  · exact inv.congr h rfl rfl
  · exact inv.congr h rfl rfl

theorem mopEmit (h : P s) (u : Thread) : P (s.mopEmit u) := by
  rcases mopEmit_cases s u with e | ⟨-, e⟩ | ⟨w, rest, -, -, e⟩ <;> rw [e] <;> exact inv.congr h rfl rfl

/-- Every component keeps an invariant of the queues. -/
theorem tick (h : P s) (c : Component) (hr : s.halted = false) : P (s.tick c) := by
  have stop : ∀ (s : State) y t c, P s → P (s.stop y t c) := fun _ _ _ _ h => inv.congr h rfl rfl
  have issue : ∀ (s : State) t d, P s → P (s.issue t d) := fun _ _ _ h => inv.congr h rfl rfl
  have exec : ∀ {s t : State} {i : Instr}, P s → exec i s = .next t → P t :=
    fun h hx => inv.congr h (exec_par hx) (exec_queue hx)
  cases c with
  | unit u =>
    exact unitTick_keeps stop issue (fun _ _ _ _ h hx => exec h hx) (fun _ _ _ _ h => inv.congr h rfl rfl)
      (fun s u h => by obtain ⟨f, b, e⟩ := recheckFlush_frame s u; rw [e]; exact inv.congr h rfl rfl)
      (fun _ h => inv.empty u h) (fun _ _ h => inv.congr h rfl rfl)
      (fun s _ h => by obtain ⟨m, mw, w, e⟩ := resolve_frame s; rw [e]; exact inv.congr h rfl rfl) h
  | frontend u =>
    refine frontendTick_keeps (fun s h _ => ?_) (fun s h _ => ?_) (fun s h _ => ?_) h hr
    · exact gateTick_keeps stop issue (fun _ _ _ _ h hx => exec h hx) (fun _ _ h => inv.congr h rfl rfl)
        (fun _ _ h => inv.congr h rfl rfl) (fun _ _ _ _ _ h _ _ _ hd ho => inv.forwarded h hd ho) h u
    · exact replayTick_keeps stop issue (fun _ _ _ _ h hx => exec h hx) (fun _ _ _ h _ _ => inv.congr h rfl rfl)
        (fun _ _ h => inv.congr h rfl rfl) (fun _ _ _ h _ => inv.congr h rfl rfl)
        (fun _ _ _ h => inv.congr h rfl rfl) h u
    · exact mopTick_keeps stop issue (fun _ _ _ _ h hx => exec h hx) (fun _ _ h => inv.congr h rfl rfl)
        (fun _ _ _ h _ => inv.congr h rfl rfl) (fun _ u h => inv.mopEmit h u) h u

/-- Every step keeps an invariant of the queues. -/
theorem step (h : P s) (hs : step s = .next t) : P t :=
  step_keeps (fun _ _ _ h => inv.congr h rfl rfl) (fun _ m h => inv.makeMove h m) (fun _ _ h => inv.congr h rfl rfl)
    (fun s _ => inv.congr (inv.powerOn s.par) rfl rfl) (fun _ c h hr => inv.tick h c hr) h hs

end QueueInvariant

/-- The bounds of the queues are an invariant of the queues (R47). -/
theorem queuesLegal_invariant : QueueInvariant State.QueuesLegal where
  congr h hp hq := h.congr hp hq
  powerOn p := .of_empty (State.powerOn_queueOf p)
  offer h := h.offer
  empty u h := h.setQueueNil u

/-- That every queued word decodes is an invariant of the queues. -/
theorem queuesDecode_invariant : QueueInvariant State.QueuesDecode where
  congr {s t} h hp hq u e he := by
    have : t.queueOf = s.queueOf := by unfold State.queueOf; rw [hq]
    rw [hp]; exact h u e (this ▸ he)
  powerOn p u e he := by rw [State.powerOn_queueOf] at he; cases he
  offer {s t u v d} h hd ho w e he := by
    obtain rfl := s.offer_taken ho
    rw [State.queueOf_pushEntry] at he
    split at he
    · rcases List.mem_append.mp he with he | he
      · exact h u e he
      · rw [List.mem_singleton.mp he, State.pushEntry_par, hd]; rfl
    · exact h w e he
  empty {s} u h v e he := by
    rw [State.queueOf_setQueue] at he
    split at he
    · cases he
    · exact h v e he

end Sys2Proof.Machine
end

section
/-! PROOFS. The mutex requests under way (43_sync_unit.md R197, 10_state.md R36): at most one for each thread, and its
gate waits while there is one. Inside the Sync unit's drain an entry and the waiter it becomes stand side by side, so
the drain has an invariant of its own, over the entries still to run; and a drain that stops leaves none. -/

namespace Sys2Proof.Machine

variable {s t : State}

/-! ## Counting requests -/

/-- The ATGETM entries of thread v in a list of entries. -/
def State.pendingRequests (s : State) (q : List Entry) (v : Thread) : Nat :=
  q.countP fun e => decide (s.entryName e = some .atgetm ∧ e.thread = v)

/-- The entries of thread v in a waiter list. -/
def waiting (ws : List (Thread × Nat)) (v : Thread) : Nat := ws.countP fun w => decide (w.1 = v)

theorem waiting_cons (w : Thread × Nat) (ws : List (Thread × Nat)) (v : Thread) :
    waiting (w :: ws) v = waiting ws v + if w.1 = v then 1 else 0 := by
  simp [waiting, List.countP_cons]

theorem waiting_append (ws : List (Thread × Nat)) (w : Thread × Nat) (v : Thread) :
    waiting (ws ++ [w]) v = waiting ws v + if w.1 = v then 1 else 0 := by
  simp [waiting, List.countP_append, List.countP_cons]

theorem pendingRequests_cons (s : State) (e : Entry) (q : List Entry) (v : Thread) :
    s.pendingRequests (e :: q) v =
      s.pendingRequests q v + if s.entryName e = some .atgetm ∧ e.thread = v then 1 else 0 := by
  simp [State.pendingRequests, List.countP_cons]

theorem pendingRequests_append (s : State) (e : Entry) (q : List Entry) (v : Thread) :
    s.pendingRequests (q ++ [e]) v =
      s.pendingRequests q v + if s.entryName e = some .atgetm ∧ e.thread = v then 1 else 0 := by
  simp [State.pendingRequests, List.countP_append, List.countP_cons]

/-- What is pending depends on the schema only. -/
theorem pendingRequests_congr (h : t.par = s.par) : t.pendingRequests = s.pendingRequests := by
  unfold State.pendingRequests State.entryName
  rw [h]

/-- A thread's requests are those pending in the Sync unit's queue and those in the waiter list. -/
theorem mutexRequests_eq (s : State) (v : Thread) :
    s.mutexRequests v = s.pendingRequests (s.queueOf .sync) v + waiting s.waiters v := by
  unfold State.mutexRequests State.pendingRequests State.entriesNamed waiting
  rw [List.countP_filter]
  congr 2
  ext e
  cases s.entryName e <;> simp [Bool.and_comm]

/-- At most one request of each thread is under way, counting `n` of them, and its gate waits while there is one. -/
def RequestsWait (n : Thread → Nat) (w : Vector Bool 3) : Prop := ∀ v : Thread, n v ≤ 1 ∧ (0 < n v → w[v] = true)

/-- A request that ends takes the gate's flag with it. -/
theorem RequestsWait.finish {n m : Thread → Nat} {w : Vector Bool 3} (h : RequestsWait n w) (u : Thread)
    (hu : m u + 1 ≤ n u) (hm : ∀ v, v ≠ u → m v = n v) : RequestsWait m (w.set u false) := by
  intro v
  obtain ⟨hle, hw⟩ := h v
  by_cases e : v = u
  · subst e
    have hz : m v = 0 := by omega
    exact ⟨by omega, fun h => by omega⟩
  · rw [vget_set_ne _ e, hm v e]
    exact ⟨hle, hw⟩

/-- Fewer requests under the same flags. -/
theorem RequestsWait.mono {n m : Thread → Nat} {w : Vector Bool 3} (h : RequestsWait n w) (hm : ∀ v, m v ≤ n v) :
    RequestsWait m w := fun v => ⟨(hm v).trans (h v).1, fun h0 => (h v).2 (h0.trans_le (hm v))⟩

theorem requestsLegal_iff (s : State) : s.RequestsLegal ↔
    RequestsWait (fun v => s.pendingRequests (s.queueOf .sync) v + waiting s.waiters v) s.mutexWait := by
  simp only [State.RequestsLegal, RequestsWait, mutexRequests_eq]

/-! ## The Sync unit's drain -/

/-- The invariant of the drain: the requests among the entries still to run and in the waiter list. -/
def State.DrainLegal (s : State) (q : List Entry) : Prop :=
  RequestsWait (fun v => s.pendingRequests q v + waiting s.waiters v) s.mutexWait

/-- Running an entry's instruction: an ATGETM's request ends with the grant or becomes a waiter, and no other
instruction touches the requests. -/
theorem drainLegal_exec {e : Entry} {q : List Entry} {d : Decoded} {i : Instr} (h : s.DrainLegal (e :: q))
    (hname : s.entryName e = some i.opName) (hx : exec i (s.issue e.thread d) = .next t) : t.DrainLegal q := by
  have hp : t.pendingRequests = s.pendingRequests := pendingRequests_congr (exec_par (s := s.issue e.thread d) hx)
  unfold State.DrainLegal at h ⊢
  simp only [pendingRequests_cons, hname] at h
  rw [hp]
  by_cases hget : i.opName = .atgetm
  · simp only [hget, true_and] at h
    cases i <;> cases hget
    obtain ⟨j, -, ⟨-, rfl⟩ | ⟨-, rfl⟩⟩ := execAtgetm_next hx
    · exact h.finish e.thread (by simp) fun v hv => by simp [Ne.symm hv]
    · exact h.mono fun v => by simp [waiting_append]; omega
  · obtain ⟨hw, hm⟩ := (exec_frame hx).waiters hget
    rw [hw, hm]
    exact h.mono fun v => by simp [hget]

/-- Running an entry ends the run or keeps the invariant of the drain. -/
theorem execEntry_drainLegal {e : Entry} {q : List Entry} (h : s.DrainLegal (e :: q)) :
    (s.execEntry .sync e).halted = true ∨ (s.execEntry .sync e).DrainLegal q := by
  unfold State.execEntry
  split
  · exact .inl rfl
  · next d hd =>
    have hocc : s.occupy .sync e.thread = s := rfl
    rw [hocc]
    dsimp only
    split
    · unfold State.runDecoded
      split
      · exact .inl rfl
      · next i hi =>
        rcases runInstr_cases s (.unit .sync) e.thread d i with ⟨s', -, hx, eq⟩ | ⟨y, eq⟩ <;> rw [eq]
        · exact .inr (drainLegal_exec h (toInstr_opName hi ▸ entryName_of_decode hd) hx)
        · exact .inl rfl
    · exact .inl rfl

/-- The drain ends the run or leaves only waiters as requests. -/
theorem drainLoop_drainLegal : ∀ (q : List Entry) {s : State}, s.DrainLegal q →
    (State.drainLoop .sync q s).halted = true ∨ (State.drainLoop .sync q s).DrainLegal []
  | [], _, h => .inr h
  | e :: q, s, h => by
    have hstep : State.drainLoop .sync (e :: q) s = State.drainLoop .sync q (s.andThen fun s => s.execEntry .sync e) :=
      rfl
    rw [hstep]
    rcases s.andThen_cases fun s => s.execEntry .sync e with ⟨hh, eq⟩ | ⟨-, eq⟩ <;> rw [eq]
    · rw [drainLoop_of_halted .sync q s hh]; exact .inl hh
    · rcases execEntry_drainLegal h with hh | hd
      · rw [drainLoop_of_halted .sync q _ hh]; exact .inl hh
      · exact drainLoop_drainLegal q hd

/-- The resolution ends the requests it grants and keeps the others, beside `k` requests elsewhere. -/
theorem resolveScan_requests : ∀ (ws : List (Thread × Nat)) (s : State) (k : Thread → Nat),
    RequestsWait (fun v => k v + waiting ws v) s.mutexWait →
    RequestsWait (fun v => k v + waiting (resolveScan ws s).2 v) (resolveScan ws s).1.mutexWait
  | [], _, _, h => h
  | w :: ws, s, k, h => by
    rcases resolveScan_cons w ws s with ⟨i, -, -, eq⟩ | ⟨-, eq⟩ <;> rw [eq]
    · refine resolveScan_requests ws (s.grantMutex w.1 i) k (h.finish w.1 ?_ fun v hv => ?_)
      · simp [waiting_cons, add_assoc]
      · simp [waiting_cons, Ne.symm hv]
    · have h' := resolveScan_requests ws s (fun v => k v + if w.1 = v then 1 else 0)
        (h.mono fun v => by rw [waiting_cons]; omega)
      exact h'.mono fun v => by rw [waiting_cons]; omega

namespace State.RequestsLegal

/-- Legality depends on the schema, the queues, the waiter list and the gates' mutex flags. -/
theorem congr (h : s.RequestsLegal) (par : t.par = s.par := by rfl) (queue : t.queue = s.queue := by rfl)
    (waiters : t.waiters = s.waiters := by rfl) (mutexWait : t.mutexWait = s.mutexWait := by rfl) :
    t.RequestsLegal := by
  have hq : t.queueOf = s.queueOf := by unfold State.queueOf; rw [queue]
  rw [requestsLegal_iff] at h ⊢
  rw [pendingRequests_congr par, hq, waiters, mutexWait]
  exact h

theorem powerOn (p : Params) : (State.powerOn p).RequestsLegal := by
  rw [requestsLegal_iff]
  refine fun v => ⟨?_, fun h => ?_⟩
  · rw [State.powerOn_queueOf]; exact Nat.zero_le _
  · rw [State.powerOn_queueOf] at h; cases h

theorem makeMove (h : s.RequestsLegal) (m : EnvMove) : (s.makeMove m).RequestsLegal :=
  makeMove_keeps (fun _ _ h => h.congr) (fun _ _ h => h.congr) (fun _ _ _ h _ => h.congr) (fun _ _ _ h => h.congr)
    (fun _ _ _ _ h => h.congr) (fun _ _ _ _ _ _ _ h => h.congr) (fun _ _ _ _ h => h.congr) (fun _ _ _ h => h.congr)
    (fun s _ => (powerOn s.par).congr) h m

/-- An instruction other than ATGETM touches no request. -/
theorem exec {i : Instr} (hn : i.opName ≠ .atgetm) (h : s.RequestsLegal) (hx : exec i s = .next t) : t.RequestsLegal :=
  h.congr (exec_par hx) (exec_queue hx) ((exec_frame hx).waiters hn).1 ((exec_frame hx).waiters hn).2

/-- Emptying a queue ends its requests. -/
theorem setQueueNil (h : s.RequestsLegal) (u : FUnit) : (s.setQueue u []).RequestsLegal := by
  rw [requestsLegal_iff] at h ⊢
  refine h.mono fun v => ?_
  rw [State.queueOf_setQueue, pendingRequests_congr (s := s) rfl]
  split
  · simp [State.pendingRequests]
  · exact le_rfl

/-- A word reaches a unit while its gate does not wait, so its thread has no request under way; an ATGETM makes its gate
wait. -/
theorem forwarded (h : s.RequestsLegal) {v : Thread} {w : Word} {d : Decoded} (hw : s.mutexWait[v] = false)
    (hd : s.par.schema.decode w = some d) (ho : s.dispatch v d = .taken t) : (t.forwarded v d.name).RequestsLegal := by
  rw [requestsLegal_iff] at h
  have hzero : s.pendingRequests (s.queueOf .sync) v + waiting s.waiters v = 0 := by
    by_contra hne
    have := (h v).2 (Nat.pos_of_ne_zero hne)
    rw [hw] at this
    cases this
  have hflag : RequestsWait (fun x => s.pendingRequests (s.queueOf .sync) x + waiting s.waiters x +
      if d.name = .atgetm ∧ v = x then 1 else 0) (if d.name = .atgetm then s.mutexWait.set v true else s.mutexWait) := by
    intro x
    by_cases hx : v = x
    · subst hx
      by_cases hn : d.name = .atgetm
      · simp [hn, hzero]
      · simpa [hn] using h v
    · have hx' : ((if d.name = .atgetm then s.mutexWait.set v true else s.mutexWait))[x] = s.mutexWait[x] := by
        split
        · exact vget_set_ne _ (Ne.symm hx) _
        · rfl
      simpa [hx, hx'] using h x
  have fields : (t.forwarded v d.name).par = t.par ∧ (t.forwarded v d.name).queue = t.queue ∧
      (t.forwarded v d.name).waiters = t.waiters ∧
      (t.forwarded v d.name).mutexWait = if d.name = .atgetm then t.mutexWait.set v true else t.mutexWait := by
    unfold State.forwarded
    split <;> exact ⟨rfl, rfl, rfl, rfl⟩
  obtain ⟨hpar, hqueue, hwait, hmw⟩ := fields
  have hq : (t.forwarded v d.name).queueOf = t.queueOf := by unfold State.queueOf; rw [hqueue]
  rw [requestsLegal_iff, pendingRequests_congr hpar, hq, hwait, hmw]
  rcases dispatch_taken ho with ⟨u, rfl, -, -⟩ | ⟨-, rfl | rfl⟩
  · refine hflag.mono fun x => ?_
    have hname : s.entryName ⟨d.word, v⟩ = some d.name := entryName_of_decode (decoded_word hd ▸ hd)
    have hp : (s.pushEntry u ⟨d.word, v⟩).pendingRequests = s.pendingRequests := pendingRequests_congr rfl
    rw [hp, State.queueOf_pushEntry, State.pushEntry_waiters]
    split
    · next e => subst e; rw [pendingRequests_append, hname]; simp; omega
    · exact Nat.le_add_right _ _
  · exact hflag.mono fun x => Nat.le_add_right _ _
  · exact hflag.mono fun x => Nat.le_add_right _ _

/-- The resolution keeps the requests legal. -/
theorem resolveWaiters (h : s.RequestsLegal) : s.resolveWaiters.RequestsLegal := by
  rw [requestsLegal_iff] at h ⊢
  have hres := resolveScan_requests s.waiters s (s.pendingRequests (s.queueOf .sync)) h
  obtain ⟨m, mw, w, e⟩ := resolve_frame s
  have hpar : s.resolveWaiters.par = s.par := by rw [e]
  have hq : s.resolveWaiters.queueOf = s.queueOf := by rw [e]; rfl
  rw [pendingRequests_congr hpar, hq]
  exact hres

theorem mopEmit (h : s.RequestsLegal) (u : Thread) : (s.mopEmit u).RequestsLegal := by
  rcases mopEmit_cases s u with e | ⟨-, e⟩ | ⟨w, rest, -, -, e⟩ <;> rw [e] <;> exact h.congr

theorem frontendTick (h : s.RequestsLegal) (u : Thread) (hr : s.halted = false) :
    (s.frontendTick u).RequestsLegal := by
  have stop : ∀ (s : State) y t c, s.RequestsLegal → (s.stop y t c).RequestsLegal := fun _ _ _ _ h => h.congr
  have issue : ∀ (s : State) t d, s.RequestsLegal → (s.issue t d).RequestsLegal := fun _ _ _ h => h.congr
  refine frontendTick_keeps (fun s h _ => ?_) (fun s h _ => ?_) (fun s h _ => ?_) h hr
  · exact gateTick_keeps stop issue (fun _ _ _ hn h hx => h.exec (by rcases hn with e | e <;> simp [e]) hx)
      (fun _ _ h => h.congr) (fun _ _ h => h.congr) (fun _ _ _ _ _ h _ hw _ hd ho => h.forwarded hw hd ho) h u
  · exact replayTick_keeps stop issue (fun _ _ _ hn h hx => h.exec (by simp [hn]) hx) (fun _ _ _ h _ _ => h.congr)
      (fun _ _ h => h.congr) (fun _ _ _ h _ => h.congr) (fun _ _ _ h => h.congr) h u
  · exact mopTick_keeps stop issue (fun _ _ _ hn h hx => h.exec (by rcases hn with e | e <;> simp [e]) hx)
      (fun _ _ h => h.congr) (fun _ _ _ h _ => h.congr) (fun _ u h => h.mopEmit u) h u

/-- A unit other than the Sync unit executes no ATGETM. -/
theorem unitTick (h : s.RequestsLegal) {u : FUnit} (hu : u ≠ .sync) : (s.unitTick u).RequestsLegal :=
  unitTick_keeps (fun _ _ _ _ h => h.congr) (fun _ _ _ h => h.congr)
    (fun _ _ i hn h hx => h.exec (fun e => hu (Option.some.inj (hn.symm.trans (congrArg homeUnit e)))) hx)
    (fun _ _ _ _ h => h.congr)
    (fun s u h => by obtain ⟨f, b, e⟩ := recheckFlush_frame s u; rw [e]; exact h.congr) (fun _ h => h.setQueueNil u)
    (fun _ _ h => h.congr) (fun _ e => absurd e hu) h

/-- The Sync unit's tick ends the run or keeps the requests legal. -/
theorem syncTick (h : s.RequestsLegal) : (s.unitTick .sync).halted = true ∨ (s.unitTick .sync).RequestsLegal := by
  have hpre : s.preUnit .sync = s := rfl
  rw [State.unitTick, hpre]
  generalize hz : State.drainLoop .sync (s.queueOf .sync) s = z
  rcases z.andThen_cases fun s' => (s'.setQueue .sync []).postUnit .sync (s.queueOf .sync) with ⟨hh, eq⟩ | ⟨hr, eq⟩ <;>
    rw [eq]
  · exact .inl hh
  · rcases drainLoop_drainLegal _ ((requestsLegal_iff s).mp h) with hh | hd
    · rw [hz, hr] at hh; cases hh
    · rw [hz] at hd
      refine .inr (resolveWaiters ((requestsLegal_iff _).mpr ?_))
      have hp : (z.setQueue .sync []).pendingRequests = z.pendingRequests := pendingRequests_congr rfl
      rw [State.queueOf_setQueue, if_pos rfl, hp]
      exact hd

/-- Every step keeps the requests legal: a component ends the run or keeps them. -/
theorem step (h : s.RequestsLegal) (hs : step s = .next t) : t.RequestsLegal := by
  obtain ⟨hc, hh⟩ := (step_next_iff s).mp hs
  have hbegin := beginCycle_keeps (fun _ _ _ h => h.congr) (fun _ m h => h.makeMove m) (fun _ _ h => h.congr)
    (fun s _ => (powerOn s.par).congr) h
  have hticks : t.halted = true ∨ t.RequestsLegal := by
    rw [← hc]
    refine ticks_keep (P := fun z => z.halted = true ∨ z.RequestsLegal) (fun z c hz hr => ?_) _ (.inr hbegin)
    have hz := hz.resolve_left (by simp [hr])
    cases c with
    | unit u =>
      by_cases hu : u = .sync
      · subst hu; exact hz.syncTick
      · exact .inr (hz.unitTick hu)
    | frontend u => exact .inr (hz.frontendTick u hr)
  exact hticks.resolve_left (by simp [State.halted, hh])

end State.RequestsLegal

/-- Settles O58: the frontends by `FrontendLegal.step`, the queues by `QueueInvariant.step`, the requests by
`RequestsLegal.step`. -/
theorem stepKeepsFrontendsAndQueuesLegal : Obligations.StepKeepsFrontendsAndQueuesLegal :=
  ⟨fun _ _ h hs => h.step hs, fun _ _ h hs => queuesLegal_invariant.step h hs,
    fun _ _ hd h hs => ⟨queuesDecode_invariant.step hd hs, h.step hs⟩⟩

/-- Settles O59: each invariant at `powerOn`, of which `reset` is the case of the default parameters. -/
theorem resetIsLegal : Obligations.ResetIsLegal := by
  have legal (p : Params) : (State.powerOn p).DataLegal ∧ (State.powerOn p).FrontendLegal ∧
      (State.powerOn p).QueuesLegal ∧ (State.powerOn p).QueuesDecode ∧ (State.powerOn p).RequestsLegal :=
    ⟨.powerOn p, .powerOn p, queuesLegal_invariant.powerOn p, queuesDecode_invariant.powerOn p, .powerOn p⟩
  exact ⟨legal, legal Params.default⟩

end Sys2Proof.Machine
end

section
/-! PROOFS. The Config Store (30_encoding.md R88) and the Config unit (42_config_unit.md): lookups, SETC16, WRCFG,
RMWCIB, admission and the hysteresis flag. -/

namespace Sys2Proof

/-- The value of a field as the rule writes it (R88). -/
theorem CfgRow.extract_eq (r : CfgRow) (raw : Word) : r.extract raw = (raw &&& r.mask).toNat / 2 ^ r.shift := by
  rw [CfgRow.extract, BitVec.toNat_ushiftRight, Nat.shiftRight_eq_div_pow]

/-- A name the schema lacks is in neither array. -/
theorem Schema.field_none {sch : Schema} {n : CfgName} (h : ∀ r ∈ sch.cfg, r.name ≠ n) (sp : Space) :
    sch.field sp n = none := by
  rw [Schema.field, List.find?_eq_none]
  intro r hr
  simp [h r hr]

end Sys2Proof

namespace Sys2Proof.Machine

variable {s : State}

/-! ## Lookups -/

theorem cfgRead_of_field {n : CfgName} {r : CfgRow} (hf : s.par.schema.field .general n = some r) (b : Fin 2)
    (h : r.addr < 188) : s.cfgRead n b = .ok ((s.cfg[b][r.addr] &&& r.mask).toNat / 2 ^ r.shift) := by
  simp only [State.cfgRead, hf, h, dif_pos, CfgRow.extract_eq]

theorem tcfgRead_of_field {n : CfgName} {r : CfgRow} (hf : s.par.schema.field .thread n = some r) (t : Thread)
    (h : r.addr < 57) : s.tcfgRead n t = .ok ((s.tcfg[t][r.addr] &&& r.mask).toNat / 2 ^ r.shift) := by
  simp only [State.tcfgRead, hf, h, dif_pos, CfgRow.extract_eq]

/-- Masking a word with 1 leaves bit 0. -/
theorem toNat_and_one (w : Word) : (w &&& 1#32).toNat = (w.getLsbD 0).toNat := by
  rw [BitVec.toNat_and, BitVec.toNat_ofNat, BitVec.getLsbD, Nat.testBit_zero]
  rcases Nat.mod_two_eq_zero_or_one w.toNat with h | h <;> simp [h]

/-- The active bank under the default schema is bit 0 of the thread's word 0 (R175). -/
theorem activeBank_default (hd : s.par.schema = schemaDefault) (t : Thread) :
    s.activeBank t = .ok (if s.tcfg[t][0].getLsbD 0 then 1 else 0) := by
  have hf : s.par.schema.field .thread .cfgStateId = some ⟨.cfgStateId, .thread, 0, 0, 0x00000001⟩ := by rw [hd]; rfl
  have hread : s.tcfgRead .cfgStateId t = .ok (s.tcfg[t][0].getLsbD 0).toNat := by
    rw [tcfgRead_of_field hf t (by decide)]
    simp only [pow_zero, Nat.div_one]
    exact congrArg _ (toNat_and_one _)
  rw [State.activeBank, hread]
  cases s.tcfg[t][0].getLsbD 0 <;> rfl

/-- Settles O5: a named row is found by its name and space, a name no row has is not found, and the active bank checks
the value it reads. -/
theorem configStoreLookup : Obligations.ConfigStoreLookup := by
  refine ⟨fun s hn => ⟨fun r hr => ⟨fun hs b h => ?_, fun hs t h => ?_⟩, fun n hne b t => ⟨?_, ?_⟩⟩,
    fun s t => ⟨fun v hv => ⟨fun h => ?_, fun h => ?_⟩, fun hd => activeBank_default hd t⟩⟩
  · exact cfgRead_of_field (findCfgRow_mem hn hr hs) b h
  · exact tcfgRead_of_field (findCfgRow_mem hn hr hs) t h
  · rw [State.cfgRead, Schema.field_none hne]
  · rw [State.tcfgRead, Schema.field_none hne]
  · simp only [State.activeBank, hv, h, dif_pos]
  · simp only [State.activeBank, hv, h.not_gt, dif_neg, not_false_eq_true]

/-! ## Instructions -/

/-- A word of the per-thread configuration after one was written. -/
theorem setTcfg_get (s : State) (t u : Thread) (i k : Nat) (v : Word) (h : k < 57) :
    (s.setTcfg t i v).tcfg[u][k] = if u = t ∧ k = i then v else s.tcfg[u][k] := by
  refine (vget2_set _ _ _ _ _ h).trans ?_
  by_cases e : u = t
  · subst e
    rw [if_pos rfl, Vector.getElem_setIfInBounds]
    simp only [eq_comm, true_and]
  · rw [if_neg e, if_neg (fun x => e x.1)]

/-- Settles O26: the write reaches one word of the thread's own array (`setTcfg_get`), zero-extended from 16 bits. -/
theorem setcWritesOwnThreadWord : Obligations.SetcWritesOwnThreadWord := by
  refine fun s v r => ⟨fun hr => ⟨_, if_pos hr, rfl, fun u k hk => ?_⟩, fun hr => if_neg hr.not_gt⟩
  rw [setTcfg_get _ _ _ _ _ _ hk]
  by_cases e : u = s.cur ∧ k = r
  · rw [if_pos e, if_pos e]
    simp only [BitVec.toNat_setWidth, BitVec.toNat_ofNat]
    omega
  · rw [if_neg e, if_neg e]

/-- What WRCFG does when the bank is known: the copy where the checks pass, else the first failing index. -/
theorem exec_wrcfg {b : Fin 2} (hb : s.activeBank s.cur = .ok b) (c w r : Nat) :
    exec (.wrcfg c w r) s = orFault (validateWrcfg s.par.ngpr r c (if w = 1 then 4 else 1)) fun _ =>
      .next (s.copyGprToCfg s.cur b r c (if w = 1 then 4 else 1)) := by
  rw [exec, execWrcfg, hb]; rfl

/-- The checks of WRCFG pass exactly when every index is in range and the four-word form is aligned (R177). -/
theorem validateWrcfg_ok {ngpr r c n : Nat} :
    validateWrcfg ngpr r c n = .ok () ↔ c + n - 1 < 188 ∧ r + n - 1 < ngpr ∧ (n = 4 → c % 4 = 0 ∧ r % 4 = 0) := by
  unfold validateWrcfg
  split
  · simp; omega
  · split
    · simp; omega
    · split
      · simp; omega
      · split
        · simp; omega
        · simp; omega

/-- Settles O27: the checks (`validateWrcfg_ok`) decide between the copy, read off word by word, and the fault. -/
theorem wrcfgCopiesRegisters : Obligations.WrcfgCopiesRegisters := by
  intro s c w r hlen
  dsimp only
  generalize hn : (if w = 1 then 4 else 1) = n
  have hpos : 1 ≤ n := by split at hn <;> omega
  refine ⟨fun b hb => ⟨fun hc hr ha => ?_, fun hbad => ?_⟩, fun x hx => by rw [exec, execWrcfg, hx]; rfl⟩
  · rw [exec_wrcfg hb, hn, validateWrcfg_ok.mpr ⟨hc, hr, ha⟩]
    refine ⟨_, rfl, copyGprToCfg_frame _ _ _ _ _, fun b' k hk => ?_⟩
    rw [copyGprToCfg_get _ _ _ _ _ _ _ hk]
    split
    · next e =>
      obtain ⟨-, hck, hkn⟩ := e
      have hin : r + (k - c) < s.gpr[s.cur].length := by omega
      rw [State.gprOf, List.getElem?_eq_getElem hin]; rfl
    · rfl
  · rw [exec_wrcfg hb, hn]
    cases hv : validateWrcfg s.par.ngpr r c n with
    | ok _ => have := validateWrcfg_ok.mp hv; omega
    | error x => exact ⟨x, rfl⟩

/-- The four RMWCIB instructions are one operation on their byte lanes (R178). -/
theorem exec_rmwcib {c data mask : Nat} {x : Nat × Instr}
    (hx : x ∈ [(0, .rmwcib0 c data mask), (1, .rmwcib1 c data mask), (2, .rmwcib2 c data mask),
      (3, .rmwcib3 c data mask)]) (s : State) : exec x.2 s = s.rmwLane x.1 c data mask := by
  simp only [List.mem_cons, List.not_mem_nil, or_false] at hx
  rcases hx with rfl | rfl | rfl | rfl <;> rfl

/-- Settles O28: the lane operation writes one word, whose bits `byteLane_bits` gives. -/
theorem rmwcibMasksOneByteLane : Obligations.RmwcibMasksOneByteLane := by
  intro s c data mask lanes x hx
  rw [exec_rmwcib hx, State.rmwLane]
  refine ⟨fun b hb => ?_, fun y hy => by rw [hy]; rfl⟩
  rw [hb, orFault]
  dsimp only
  refine ⟨fun hc => ⟨_, if_pos hc, rfl, fun b' k hk j hj => ?_⟩, fun hc => if_neg hc.not_gt⟩
  rw [setCfg_get _ _ _ _ _ _ hk]
  by_cases e : b' = b ∧ k = c
  · obtain ⟨rfl, rfl⟩ := e
    have hold : s.cfgOf b' k = s.cfg[b'][k] := by rw [State.cfgOf, Vector.getElem?_eq_getElem hc]; rfl
    rw [if_pos ⟨rfl, rfl⟩, byteLane_bits _ _ _ _ _ hj, hold]
    simp only [BitVec.getLsbD_ofNat, true_and]
    by_cases hlane : 8 * x.1 ≤ j ∧ j < 8 * x.1 + 8
    · have h8 : j - 8 * x.1 < 8 := by omega
      simp [hlane, h8]
    · rw [if_neg fun h => hlane ⟨h.1, h.2.1⟩, if_neg fun h => hlane ⟨h.1, h.2.1⟩]
  · rw [if_neg e, if_neg fun h => e ⟨h.1, h.2.1⟩]

/-! ## Admission and the hysteresis flag -/

/-- A SETC16 is taken while fewer than three are queued. -/
theorem offer_setc16 {d : Decoded} (hn : d.name = .setc16) (s : State) (t : Thread) :
    s.offer .config t d = s.offerIf .config ⟨d.word, t⟩ (decide (s.countNamed .config .setc16 < 3)) := by
  simp [State.offer, State.offerConfig, hn]

/-- A WRCFG is taken while none is queued. -/
theorem offer_wrcfg {d : Decoded} (hn : d.name = .wrcfg) (s : State) (t : Thread) :
    s.offer .config t d = s.offerIf .config ⟨d.word, t⟩ (decide (s.countNamed .config .wrcfg < 1)) := by
  simp [State.offer, State.offerConfig, hn]

/-- A taken word of a known name adds one to the count of its name. -/
theorem countNamed_push_decoded {d : Decoded} (hd : s.par.schema.decode d.word = some d) (t : Thread) :
    (s.pushEntry .config ⟨d.word, t⟩).countNamed .config d.name = s.countNamed .config d.name + 1 := by
  rw [countNamed_pushEntry, if_pos (entryName_of_decode hd)]

theorem countNamed_of_empty {u : FUnit} (h : s.queueOf u = []) (n : OpName) : s.countNamed u n = 0 := by
  rw [State.countNamed, h]; rfl

/-- Settles O29: the rule's condition is the model's, by counting the entries of a name; from an empty queue the counts
are those of the words just taken. -/
theorem configAdmission : Obligations.ConfigAdmission := by
  refine ⟨fun s t d => offerIf_iff _ _ _ _ _ ?_, fun s t₁ t₂ t₃ t₄ d₁ d₂ d₃ d₄ hq hd => ?_,
    fun s t₁ t₂ d₁ d₂ hq hd => ?_⟩
  · dsimp only
    by_cases hs : d.name = .setc16
    · simp [hs, countNamed_eq]
    · by_cases hw : d.name = .wrcfg
      · simp [hw, countNamed_eq]
      · simp [hs, hw, countNamed_eq, isCfgWriter, and_assoc, or_iff_not_imp_left]
  · simp only [List.forall_mem_cons] at hd
    obtain ⟨⟨hd₁, hn₁⟩, ⟨hd₂, hn₂⟩, ⟨hd₃, hn₃⟩, ⟨-, hn₄⟩, -⟩ := hd
    have h₀ := countNamed_of_empty hq .setc16
    have h₁ := hn₁ ▸ countNamed_push_decoded hd₁ t₁
    have h₂ := hn₂ ▸ countNamed_push_decoded (s := s.pushEntry .config ⟨d₁.word, t₁⟩) hd₂ t₂
    have h₃ := hn₃ ▸ countNamed_push_decoded
      (s := (s.pushEntry .config ⟨d₁.word, t₁⟩).pushEntry .config ⟨d₂.word, t₂⟩) hd₃ t₃
    refine ⟨_, _, _, (offer_setc16 hn₁ _ _).trans (if_pos ?_), (offer_setc16 hn₂ _ _).trans (if_pos ?_),
      (offer_setc16 hn₃ _ _).trans (if_pos ?_), (offer_setc16 hn₄ _ _).trans (if_neg ?_)⟩ <;>
      rw [decide_eq_true_eq] <;> omega
  · simp only [List.forall_mem_cons] at hd
    obtain ⟨⟨hd₁, hn₁⟩, ⟨-, hn₂⟩, -⟩ := hd
    have h₀ := countNamed_of_empty hq .wrcfg
    have h₁ := hn₁ ▸ countNamed_push_decoded hd₁ t₁
    refine ⟨_, (offer_wrcfg hn₁ _ _).trans (if_pos ?_), (offer_wrcfg hn₂ _ _).trans (if_neg ?_)⟩ <;>
      rw [decide_eq_true_eq] <;> omega

/-- A drain leaves the schema and the queues. -/
theorem drainLoop_frame (u : FUnit) (q : List Entry) (s : State) :
    (State.drainLoop u q s).par = s.par ∧ (State.drainLoop u q s).queue = s.queue :=
  drainLoop_keeps (P := fun z => z.par = s.par ∧ z.queue = s.queue) (fun _ _ _ _ => id) (fun _ _ _ => id)
    (fun _ _ _ _ h hx => ⟨(exec_par hx).trans h.1, (exec_queue hx).trans h.2⟩) (fun _ _ _ _ => id) q ⟨rfl, rfl⟩

/-- Settles O30: a tick that ends without a stop reached the bookkeeping after the drain, and the drain leaves the
schema that names the entries. -/
theorem configHysteresisFlag : Obligations.ConfigHysteresisFlag := by
  intro s hh
  have hpre : s.preUnit .config = s := rfl
  obtain ⟨hpar, -⟩ := drainLoop_frame .config (s.queueOf .config) s
  rw [State.unitTick, hpre] at hh ⊢
  generalize State.drainLoop .config (s.queueOf .config) s = z at hh hpar ⊢
  rcases z.andThen_cases fun s' => (s'.setQueue .config []).postUnit .config (s.queueOf .config) with
    ⟨hz, eq⟩ | ⟨-, eq⟩ <;> rw [eq] at hh ⊢
  · rw [State.halted, hh] at hz; cases hz
  · have hname : (z.setQueue .config []).entryName = s.entryName := by
      unfold State.entryName
      rw [State.setQueue_par, hpar]
    refine ⟨by rw [State.postUnit]; exact (z.queueOf_setQueue .config .config []).trans (if_pos rfl), ?_⟩
    simp only [State.postUnit, hname, List.any_eq_true, isCfgWriter, decide_eq_true_eq]

end Sys2Proof.Machine
end

section
/-! PROOFS. The macro expander (40_frontend.md R112, R115 to R119): MOP_CFG, the two MOP templates, and the words that
pass. -/

namespace Sys2Proof

/-! ## Words and masks -/

/-- `isnop` in the words of the statements (R87). -/
theorem isnop_eq (w : Word) : isnop w = decide (w.extractLsb' 24 8 = 0x02#8) := by
  have h : w.extractLsb' 24 8 = 0x02#8 ↔ opcodeOf w = 2 := by
    rw [← opcodeField_toNat]
    exact ⟨fun e => by rw [e]; rfl, fun e => BitVec.eq_of_toNat_eq e⟩
  rw [isnop, decide_eq_decide.mpr h]
  rfl

/-- The low seven bits of a word. -/
theorem slice_low7 (w : Word) : slice 6 0 w = w.toNat % 128 := by
  rw [slice, pow_zero, Nat.div_one]; rfl

end Sys2Proof

namespace Sys2Proof.Machine

variable {s : State}

/-- The bits of the template-0 mask: the instruction's half, then the latched half, then 0 (R116). -/
theorem t0Mask_getLsbD (hi : BitVec 16) {lo : Nat} (hlo : lo < 2 ^ 16) (i : Nat) : (t0Mask hi lo).getLsbD i = true ↔
    (i < 16 ∧ lo.testBit i = true) ∨ (16 ≤ i ∧ i < 32 ∧ hi.getLsbD (i - 16) = true) := by
  rw [t0Mask, BitVec.getLsbD_or, BitVec.getLsbD_shiftLeft, BitVec.getLsbD_setWidth, BitVec.getLsbD_ofNat]
  by_cases h16 : i < 16
  · simp [h16, show i < 32 by omega]
  · have hzero : lo.testBit i = false := Nat.testBit_lt_two_pow (hlo.trans_le (Nat.pow_le_pow_right (by decide) (by omega)))
    by_cases h32 : i < 32
    · simp [h16, h32, hzero, show 16 ≤ i by omega, show i - 16 < 32 by omega]
    · simp [h16, h32]

/-! ## Executing in a stage -/

/-- A decoded word whose instruction lacks no argument and answers a next state. -/
theorem runDecoded_of_next {c : Component} {t : Thread} {d : Decoded} {i : Instr} {u z : State} (hi : d.toInstr = some i)
    (hm : (s.issue t d).missingArg i = none) (hx : exec i (s.issue t d) = .next z) : s.runDecoded c t d u = z := by
  simp only [State.runDecoded, hi, State.runInstr, hm, hx, State.absorb]

/-- An argument that a decoded view has. -/
theorem argValue_of_arg {d : Decoded} {a : ArgName} {x : Nat} (h : d.arg a = .ok x) : argValue d.args a = some x := by
  unfold Decoded.arg at h
  split at h
  · next y hy => cases h; exact hy
  · cases h

/-! ## MOP_CFG (R115) -/

/-- At rest the macro expander treats its head word. -/
theorem mopTick_of_head {t : Thread} {w : Word} {q : List Word} {d : Decoded} (he : s.expanding[t] = false)
    (hq : s.mopQ[t] = w :: q) (hd : s.par.schema.decode w = some d) : s.mopTick t = s.mopWord t w d := by
  simp only [State.mopTick, he, hq, hd, Bool.false_eq_true, if_false]

/-- The macro expander runs a MOP_CFG word and drops it. -/
theorem mopTick_mopCfg {u : Thread} {w : Word} {q : List Word} {d : Decoded} {z : Nat} (hh : s.halt = none)
    (he : s.expanding[u] = false) (hq : s.mopQ[u] = w :: q) (hd : s.par.schema.decode w = some d)
    (hn : d.name = .mopCfg) (hz : d.arg .zmaskHi16 = .ok z) : s.mopTick u = { s with
      cur := u
      instr := d
      zmaskHi := s.zmaskHi.set u (BitVec.ofNat 16 z)
      mopQ := s.mopQ.set u q } := by
  have harg := argValue_of_arg hz
  have hi : d.toInstr = some (.mopCfg z) := by rw [Decoded.toInstr, hn, Instr.build, harg]; rfl
  have hm : (s.issue u d).missingArg (.mopCfg z) = none := by
    simp [State.missingArg, State.argsRead, harg]
  have hx : exec (.mopCfg z) (s.issue u d) =
      .next { s.issue u d with zmaskHi := s.zmaskHi.set u (BitVec.ofNat 16 z) } := rfl
  rw [mopTick_of_head he hq hd, State.mopWord, if_pos hn, runDecoded_of_next hi hm hx,
    State.andThen_of_running _ (by simp [State.halted, hh]), State.popMopQ]
  simp [hq, State.issue]

/-- Settles O6: the instruction writes one latch, and the stage around it drops the word (`mopTick_mopCfg`). -/
theorem mopCfgSetsHighMask : Obligations.MopCfgSetsHighMask := by
  refine ⟨fun s z => ⟨_, rfl, rfl, ?_, fun u hu => vget_set_ne _ hu _⟩,
    fun s u w q d z hh he hq hd hn hz => mopTick_mopCfg hh he hq hd hn hz⟩
  rw [vget_set_self, BitVec.toNat_ofNat]

/-! ## Template 0 (R116, R117) -/

/-- One position of template 0 in the words of the statement. -/
theorem t0Step_eq (cw : Vector Word 9) (hi : BitVec 16) {lo : Nat} (hlo : lo < 2 ^ 16) (i : Nat) :
    t0Step cw (t0Mask hi lo) i =
      if (i < 16 ∧ lo.testBit i = true) ∨ (16 ≤ i ∧ i < 32 ∧ hi.getLsbD (i - 16) = true) then
        if cw[1].getLsbD 0 then [cw[7], cw[8]] else [cw[7]]
      else
        (if cw[1].getLsbD 1 then [cw[3], cw[4], cw[5], cw[6]] else [cw[3]]) ++
          (if cw[1].getLsbD 0 then [cw[2]] else []) := by
  rw [t0Step, if_congr (t0Mask_getLsbD hi hlo i) rfl rfl]
  cases cw[1].getLsbD 0 <;> cases cw[1].getLsbD 1 <;> rfl

/-- Every position emits a word. -/
theorem t0Step_ne_nil (cw : Vector Word 9) (mask : BitVec 32) (i : Nat) : t0Step cw mask i ≠ [] := by
  unfold t0Step
  dsimp only
  split <;> simp

/-- Settles O7: the output is one `t0Step` for each position, each of which emits a word, so the expansion is in
progress. -/
theorem mopTemplateZeroExpansion : Obligations.MopTemplateZeroExpansion := by
  intro s lo lc hlo
  have hne : expandT0 s.mopCfg[s.cur] (t0Mask s.zmaskHi[s.cur] lo) (lc + 1) ≠ [] := by
    rw [expandT0, Ne, List.flatMap_eq_nil_iff]
    exact fun h => t0Step_ne_nil _ _ 0 (h 0 (List.mem_range.mpr (by omega)))
  refine ⟨_, rfl, rfl, fun u hu => ⟨vget_set_ne _ hu _, vget_set_ne _ hu _, vget_set_ne _ hu _⟩, vget_set_self _ _ _,
    ?_, ?_⟩
  · exact (vget_set_self _ _ _).trans (by simpa using hne)
  · refine (vget_set_self _ _ _).trans (List.flatMap_congr fun i _ => ?_)
    exact t0Step_eq _ _ hlo i

/-! ## Template 1 (R118, R119) -/

/-- Runs of equal length put one after another: their total length, and each place of each run. -/
theorem flatMap_range_runs {α : Type} (f : Nat → List α) (len : Nat) (hf : ∀ j, (f j).length = len) (n : Nat) :
    ((List.range n).flatMap f).length = n * len ∧
    ∀ j < n, ∀ k < len, ((List.range n).flatMap f)[j * len + k]? = (f j)[k]? := by
  induction n with
  | zero => simp
  | succ n ih =>
    obtain ⟨hlen, hget⟩ := ih
    rw [List.range_succ, List.flatMap_append, List.flatMap_singleton]
    refine ⟨by rw [List.length_append, hlen, hf, Nat.succ_mul], fun j hj k hk => ?_⟩
    rcases Nat.lt_succ_iff_lt_or_eq.mp hj with hjn | rfl
    · have hbound : j * len + k < n * len :=
        calc j * len + k < (j + 1) * len := by rw [Nat.succ_mul]; omega
          _ ≤ n * len := Nat.mul_le_mul_right len hjn
      rw [List.getElem?_append_left (by omega), hget j hjn k hk]
    · rw [List.getElem?_append_right (by omega), hlen, Nat.add_sub_cancel_left]

/-- One run of template 1: the start word, the inner words, the end pair (R118). -/
def t1Run (cw : Vector Word 9) (alt : Bool) (n : Nat) (lastOuter : Bool) : List Word :=
  (if isnop cw[2] then [] else [cw[2]]) ++ t1Inner cw alt n lastOuter ++ t1End cw

/-- The number of words of the end pair. -/
def t1EndLength (cw : Vector Word 9) : Nat := if isnop cw[3] then 0 else if isnop cw[4] then 1 else 2

/-- The number of start words. -/
def t1StartLength (cw : Vector Word 9) : Nat := if isnop cw[2] then 0 else 1

/-- How many inner words a run has (R118). -/
def t1Count (r : AltRule) (cw : Vector Word 9) : Nat :=
  if t1Alternates r cw then 2 * slice 6 0 cw[1] else slice 6 0 cw[1]

theorem expandT1_eq (r : AltRule) (cw : Vector Word 9) : expandT1 r cw =
    (List.range (t1Outer cw)).flatMap fun j => t1Run cw (t1Alternates r cw) (t1Count r cw) (j + 1 = t1Outer cw) := rfl

theorem t1Inner_length (cw : Vector Word 9) (alt : Bool) (n : Nat) (l : Bool) : (t1Inner cw alt n l).length = n := by
  simp [t1Inner]

theorem t1Start_length (cw : Vector Word 9) : (if isnop cw[2] then [] else [cw[2]]).length = t1StartLength cw := by
  unfold t1StartLength
  split <;> rfl

theorem t1End_length (cw : Vector Word 9) : (t1End cw).length = t1EndLength cw := by
  unfold t1End t1EndLength
  split
  · rfl
  · split <;> rfl

theorem t1Run_length (cw : Vector Word 9) (alt : Bool) (n : Nat) (l : Bool) :
    (t1Run cw alt n l).length = t1StartLength cw + n + t1EndLength cw := by
  rw [t1Run, List.length_append, List.length_append, t1Start_length, t1Inner_length, t1End_length]

variable {cw : Vector Word 9} {alt l : Bool} {n : Nat}

/-- The start word stands first unless it is a no-op. -/
theorem t1Run_start (h : isnop cw[2] = false) : (t1Run cw alt n l)[0]? = some cw[2] := by
  simp [t1Run, h]

/-- The inner words follow it, the last one overridden. -/
theorem t1Run_inner {i : Nat} (hi : i < n) : (t1Run cw alt n l)[t1StartLength cw + i]? =
    some (if i + 1 = n then (if l then cw[7] else cw[8]) else if alt && decide (i % 2 = 1) then cw[6] else cw[5]) := by
  rw [t1Run, List.getElem?_append_left (by rw [List.length_append, t1Start_length, t1Inner_length]; omega),
    List.getElem?_append_right (by rw [t1Start_length]; omega), t1Start_length, Nat.add_sub_cancel_left, t1Inner,
    List.getElem?_map, List.getElem?_range hi, Option.map_some]

/-- The end pair closes the run. -/
theorem t1Run_end (k : Nat) : (t1Run cw alt n l)[t1StartLength cw + n + k]? = (t1End cw)[k]? := by
  rw [t1Run, List.getElem?_append_right (by rw [List.length_append, t1Start_length, t1Inner_length]; omega),
    List.length_append, t1Start_length, t1Inner_length, Nat.add_sub_cancel_left]

/-- Every place of a template-1 expansion is a place of one of its runs. -/
theorem expandT1_get (r : AltRule) (cw : Vector Word 9) :
    (expandT1 r cw).length = t1Outer cw * (t1StartLength cw + t1Count r cw + t1EndLength cw) ∧
    ∀ j < t1Outer cw, ∀ k < t1StartLength cw + t1Count r cw + t1EndLength cw,
      (expandT1 r cw)[j * (t1StartLength cw + t1Count r cw + t1EndLength cw) + k]? =
        (t1Run cw (t1Alternates r cw) (t1Count r cw) (j + 1 = t1Outer cw))[k]? :=
  flatMap_range_runs _ _ (fun _ => t1Run_length _ _ _ _) _

/-- The number of runs in the words of the statement, the quirk of R119 included. -/
theorem t1Outer_eq (cw : Vector Word 9) : t1Outer cw =
    if cw[0].toNat % 128 = 1 ∧ isnop cw[2] ∧ cw[1].toNat % 128 = 0 ∧ ¬ isnop cw[3] then 129 else cw[0].toNat % 128 := by
  simp only [t1Outer, slice_low7]
  refine if_congr ?_ rfl rfl
  simp [and_assoc]

/-- MOP with a template other than 0 starts the template-1 expansion (R116). -/
theorem exec_mop_one {ty : Nat} (h : ty ≠ 0) (s : State) (lo lc : Nat) : exec (.mop lo lc ty) s =
    .next (s.startExpansion s.cur (expandT1 s.par.altRule s.mopCfg[s.cur])) := if_neg h

/-- Settles O8: the expansion is a list of equal runs (`expandT1_get`), and each place of a run is a start word, an
inner word or a word of the end pair. -/
theorem mopTemplateOneExpansion : Obligations.MopTemplateOneExpansion := by
  intro s lo lc ty hty cw nop outer₀ inner outer alt n a b len
  have hnop : ∀ w, isnop w = nop w := isnop_eq
  have houter : t1Outer cw = outer := by rw [t1Outer_eq, hnop, hnop]
  have halt : t1Alternates s.par.altRule cw = alt := by
    unfold t1Alternates
    simp only [hnop]
    rfl
  have hn : t1Count s.par.altRule cw = n := by rw [t1Count, halt, slice_low7]
  have ha : t1StartLength cw = a := by rw [t1StartLength, hnop]
  have hb : t1EndLength cw = b := by rw [t1EndLength, hnop, hnop]
  obtain ⟨hlen, hget⟩ := expandT1_get s.par.altRule cw
  rw [houter, hn, ha, hb] at hlen hget
  rw [halt] at hget
  have hout : (s.startExpansion s.cur (expandT1 s.par.altRule cw)).mopOut[s.cur] = expandT1 s.par.altRule cw :=
    vget_set_self _ _ _
  refine ⟨_, exec_mop_one hty s lo lc, rfl, fun u hu => ⟨vget_set_ne _ hu _, vget_set_ne _ hu _⟩, ?_, ?_, fun j hj => ?_⟩
  · rw [State.startExpansion, vget_set_self, ← hlen, Bool.not_eq_true', List.isEmpty_eq_false_iff,
      List.length_pos_iff]
  · rw [hout, hlen]
  · rw [hout]
    have place (k : Nat) (hk : k < len) := hget j hj k hk
    refine ⟨fun h2 => ?_, fun i hi => ?_, fun h3 => ?_, fun h3 h4 => ?_⟩
    · have h2 : isnop cw[2] = false := by rw [hnop]; simpa using h2
      have ha1 : a = 1 := by rw [← ha, t1StartLength, h2]; rfl
      exact (place 0 (by omega)).trans (t1Run_start h2)
    · have hrun := t1Run_inner (cw := cw) (alt := alt) (l := decide (j + 1 = outer)) hi
      rw [ha] at hrun
      rw [add_assoc, place _ (by omega), hrun]
      simp
    · have h3 : isnop cw[3] = false := by rw [hnop]; simpa using h3
      have hb1 : 1 ≤ b := by rw [← hb, t1EndLength, h3]; simp only [Bool.false_eq_true, if_false]; split <;> omega
      have hrun := t1Run_end (cw := cw) (alt := alt) (n := n) (l := decide (j + 1 = outer)) 0
      rw [ha] at hrun
      rw [add_assoc, place _ (by omega)]
      exact hrun.trans (by simp [t1End, h3])
    · have h3 : isnop cw[3] = false := by rw [hnop]; simpa using h3
      have h4 : isnop cw[4] = false := by rw [hnop]; simpa using h4
      have hb2 : b = 2 := by rw [← hb, t1EndLength, h3, h4]; rfl
      have hrun := t1Run_end (cw := cw) (alt := alt) (n := n) (l := decide (j + 1 = outer)) 1
      rw [ha] at hrun
      rw [add_assoc, add_assoc, ← add_assoc a, place _ (by omega)]
      exact hrun.trans (by simp [t1End, h3, h4])

/-- Settles O9: the quirk sets the number of runs to 129, and a run has neither a start word nor inner words. -/
theorem templateOneQuirk : Obligations.TemplateOneQuirk := by
  intro s lo lc ty hty cw h0 h2 h1 h3
  refine ⟨_, exec_mop_one hty s lo lc, (vget_set_self _ _ _).trans ?_⟩
  have houter : t1Outer cw = 129 := by simp [t1Outer, h0, h1, h2, h3]
  have hcount : t1Count s.par.altRule cw = 0 := by simp [t1Count, h1]
  have hrun (alt l : Bool) : t1Run cw alt 0 l = if isnop cw[4] then [cw[3]] else [cw[3], cw[4]] := by
    simp only [t1Run, h2, t1Inner, t1End, h3]
    cases isnop cw[4] <;> rfl
  rw [show s.mopCfg[s.cur] = cw from rfl, expandT1_eq, houter, hcount]
  simp only [hrun]
  rw [List.flatMap_def, List.map_const', List.length_range]

/-! ## Words that pass (R112) -/

/-- Settles O22: each case is one branch of the tick, chosen by the expansion flag, the word's name and the room. -/
theorem macroExpanderPassesWords : Obligations.MacroExpanderPassesWords := by
  intro s t
  refine ⟨fun he w q d hq hd hm hc => ?_, fun he w rest hout => ?_, fun he hq => ?_⟩
  · rw [mopTick_of_head he hq hd, State.mopWord, if_neg hc, if_neg hm]
    refine ⟨fun hroom => ?_, fun hfull => if_neg hfull.not_gt⟩
    rw [if_pos hroom, State.popMopQ, State.pushReplayQ_mopQ, hq]; rfl
  · have hemit : s.mopTick t = s.mopEmit t := if_pos he
    rw [hemit, State.mopEmit, he]
    refine ⟨fun hroom => ?_, fun hfull => ?_⟩
    · rw [decide_eq_true hroom, hout]; rfl
    · rw [decide_eq_false hfull.not_gt]; rfl
  · rw [State.mopTick, if_neg (by simp [he]), hq]

end Sys2Proof.Machine
end

section
/-! PROOFS. The replay expander (40_frontend.md R124 to R128): REPLAY, the tick, and the round trip of loading words and
playing them. -/

namespace Sys2Proof.Machine

variable {s : State} {t : Thread}

/-! ## REPLAY (R125, R126) -/

/-- Settles O10: outside load mode each mode writes its cursors for the issuing thread, in load mode the instruction is
refused before it looks at its operands. -/
theorem replaySetsItsCursors : Obligations.ReplaySetsItsCursors := by
  intro s e len st n
  refine ⟨fun h0 => ?_, fun hpos l => if_pos hpos⟩
  have hnot : ¬ 0 < s.recLeft[s.cur] := by omega
  refine ⟨⟨_, (if_neg hnot).trans (if_pos rfl), rfl, ?_, ?_, ?_, ?_, fun u hu => ?_⟩,
    ⟨_, (if_neg hnot).trans (if_neg (by decide)), rfl, ?_, ?_, ?_, fun u hu => ?_⟩⟩ <;>
  dsimp only
  · exact vget_set_self _ _ _
  · exact vget_set_self _ _ _
  · exact vget_set_self _ _ _
  · rw [vget_set_self, decide_eq_true_eq]
  · exact ⟨vget_set_ne _ hu _, vget_set_ne _ hu _, vget_set_ne _ hu _, vget_set_ne _ hu _⟩
  · exact vget_set_self _ _ _
  · exact vget_set_self _ _ _
  · exact vget_set_self _ _ _
  · exact ⟨vget_set_ne _ hu _, vget_set_ne _ hu _, vget_set_ne _ hu _⟩

/-! ## The tick (R124) -/

/-- A slot of the buffer, named by its number. -/
theorem getElem?_getD_slot (b : Vector (Option Word) 32) {n : Nat} {k : Fin 32} (hk : k.val = n) :
    (b[n]?).getD none = b[k] := by
  subst hk
  rw [Vector.getElem?_eq_getElem k.isLt]; rfl

/-- Writing a slot, named by its number. -/
theorem setIfInBounds_slot (b : Vector (Option Word) 32) {n : Nat} {k : Fin 32} (hk : k.val = n) (x : Option Word) :
    b.setIfInBounds n x = b.set k x := by
  subst hk
  exact Vector.ext fun i hi => by rw [Vector.getElem_setIfInBounds, Vector.getElem_set]

/-- Outside a play the expander treats its head word. -/
theorem replayTick_of_head {w : Word} {q : List Word} {d : Decoded} (hp : s.playLeft[t] = 0)
    (hq : s.replayQ[t] = w :: q) (hd : s.par.schema.decode w = some d) : s.replayTick t = s.replayWord t w d := by
  rw [State.replayTick, if_neg (by omega), hq]
  simp only [hd]

/-- Settles O11: the branches of the tick, chosen by the play counter, the load counter and the gate slot. -/
theorem replayExpanderTick : Obligations.ReplayExpanderTick := by
  intro s t
  refine ⟨fun hp => ?_, fun hp hq => ?_, fun hp w q d hq hd hn => ?_⟩
  · have hplay : s.replayTick t = s.playTick t := if_pos hp
    rw [hplay, State.playTick]
    refine ⟨fun hg => ?_, fun hg k hk => ?_⟩
    · obtain ⟨x, hx⟩ := Option.ne_none_iff_exists'.mp hg
      rw [hx]
    · have hslot : k.val = s.playCursor[t] % replaySlots := hk
      rw [hg]
      dsimp only
      rw [getElem?_getD_slot _ hslot]
      refine ⟨fun w hw => ?_, fun hw => ?_⟩ <;> rw [hw]
      · rfl
      · rw [← hslot]; rfl
  · rw [State.replayTick, if_neg (by omega), hq]
  · rw [replayTick_of_head hp hq hd, State.replayWord, if_neg hn]
    refine ⟨fun h0 => ?_, fun hpos k hk => ?_⟩
    · rw [if_neg (by omega)]
      refine ⟨fun hg => ?_, fun hg => ?_⟩
      · obtain ⟨x, hx⟩ := Option.ne_none_iff_exists'.mp hg
        rw [hx]
      · rw [hg]
        dsimp only
        rw [State.popReplayQ, State.fillGate_replayQ, hq]; rfl
    · have hslot : k.val = s.recCursor[t] % replaySlots := hk
      rw [if_pos hpos, State.recordTick, setIfInBounds_slot _ hslot]
      refine ⟨fun he hg => if_pos (by rw [he]; simpa [Option.isSome_iff_ne_none] using hg), fun hor => ?_⟩
      have hgo : ¬ (s.ewl[t] && s.gateSlot[t].isSome) = true := by
        rcases hor with h | h <;> simp [h]
      rw [if_neg hgo]
      dsimp only
      split
      · rw [State.popReplayQ, State.fillGate_replayQ, hq]; rfl
      · rw [State.popReplayQ, hq]; rfl

/-! ## The round trip (R128) -/

/-- Thread t has recorded `done` from slot `start` on, and `left` words are still to come. -/
structure State.Loading (s : State) (t : Thread) (sch : Schema) (start : Nat) (done : List Word) (left : Nat) : Prop where
  schema : s.par.schema = sch
  play : s.playLeft[t] = 0
  left : s.recLeft[t] = left
  cursor : s.recCursor[t] = start + done.length
  words : ∀ (i : Nat) (h : i < done.length) (k : Fin 32), k.val = (start + i) % 32 → s.rbuf[t][k] = some done[i]

/-- A word fed to the expander in load mode is recorded in the next slot. -/
theorem State.Loading.feed {sch : Schema} {start left : Nat} {done : List Word} (h : s.Loading t sch start done (left + 1))
    (hlen : done.length < 32) {w : Word} {d : Decoded} (hd : sch.decode w = some d) (hn : d.name ≠ .replay) :
    (s.feedReplay t w).Loading t sch start (done ++ [w]) left := by
  obtain ⟨k, hk⟩ : ∃ k : Fin 32, k.val = s.recCursor[t] % 32 := ⟨⟨_, Nat.mod_lt _ (by decide)⟩, rfl⟩
  have hpos : 0 < s.recLeft[t] := by rw [h.left]; omega
  obtain ⟨-, -, hhead⟩ := replayExpanderTick
    { s with replayQ := s.replayQ.set t [w], gateSlot := s.gateSlot.set t none } t
  obtain ⟨-, hrec⟩ := hhead h.play w [] d (vget_set_self _ _ _) (h.schema ▸ hd) hn
  rw [State.feedReplay, (hrec hpos k hk).2 (.inr (vget_set_self _ _ _))]
  refine ⟨h.schema, h.play, ?_, ?_, fun i hi j hj => ?_⟩
  · exact (vget_set_self _ _ _).trans (by rw [h.left]; rfl)
  · exact (vget_set_self _ _ _).trans (by rw [h.cursor, List.length_append]; rfl)
  · have hslot : ((s.rbuf.set t (s.rbuf[t].set k (some w)))[t])[j] = if j = k then some w else s.rbuf[t][j] := by
      rw [vget_set_self, vget_set]
    refine hslot.trans ?_
    rw [h.cursor] at hk
    rw [List.length_append, List.length_singleton] at hi
    rcases Nat.lt_succ_iff_lt_or_eq.mp hi with hlt | rfl
    · have hne : j ≠ k := fun e => by subst e; omega
      rw [if_neg hne, List.getElem_append_left hlt]
      exact h.words i hlt j hj
    · rw [if_pos (Fin.ext (hj.trans hk.symm)), List.getElem_concat_length rfl]

/-- Words fed in load mode are recorded one after another. -/
theorem State.Loading.feedAll {sch : Schema} {start : Nat} : ∀ (ws : List Word) {s : State} {done : List Word},
    s.Loading t sch start done ws.length → done.length + ws.length ≤ 32 →
    (∀ w ∈ ws, ∃ d, sch.decode w = some d ∧ d.name ≠ .replay) →
    (ws.foldl (State.feedReplay t) s).Loading t sch start (done ++ ws) 0
  | [], _, _, h, _, _ => by simpa using h
  | w :: ws, s, done, h, hlen, hws => by
    rw [List.length_cons] at hlen
    obtain ⟨d, hd, hn⟩ := hws w (by simp)
    have h' := (h.feed (by omega) hd hn).feedAll ws (by rw [List.length_append, List.length_singleton]; omega)
      fun x hx => hws x (by simp [hx])
    rwa [List.append_assoc] at h'

/-- A play of recorded slots puts their words into the gate slot in order. -/
theorem playedWords_eq : ∀ (ws : List Word) {s : State} {c : Nat}, s.playCursor[t] = c → s.playLeft[t] = ws.length →
    (∀ (i : Nat) (h : i < ws.length) (k : Fin 32), k.val = (c + i) % 32 → s.rbuf[t][k] = some ws[i]) →
    State.playedWords t ws.length s = ws.map some
  | [], _, _, _, _, _ => rfl
  | w :: ws, s, c, hc, hl, hw => by
    obtain ⟨k, hk⟩ : ∃ k : Fin 32, k.val = s.playCursor[t] % 32 := ⟨⟨_, Nat.mod_lt _ (by decide)⟩, rfl⟩
    obtain ⟨hplay, -⟩ := replayExpanderTick { s with gateSlot := s.gateSlot.set t none } t
    have hfirst : s.rbuf[t][k] = some w := hw 0 (by simp) k (by rw [hk, hc]; rfl)
    have htick := ((hplay (by rw [hl]; simp)).2 (vget_set_self _ _ _) k hk).1 w hfirst
    rw [List.length_cons, State.playedWords]
    rw [htick, List.map_cons, List.cons.injEq]
    refine ⟨vget_set_self _ _ _, playedWords_eq ws (c := c + 1) ?_ ?_ fun i hi j hj => ?_⟩
    · exact (vget_set_self _ _ _).trans (by rw [hc])
    · exact (vget_set_self _ _ _).trans (by rw [hl]; simp)
    · exact hw (i + 1) (by simpa using hi) j (by rw [hj]; congr 1; omega)

/-- Settles O12: loading records the words in consecutive slots (`Loading.feedAll`), and a play from the same index
reads them back (`playedWords_eq`). -/
theorem replayRoundTrip : Obligations.ReplayRoundTrip := by
  intro s t ws start e _ hp hl h1 h32 hws
  have hn : (if ws.length = 0 then 64 else ws.length) = ws.length := if_neg (by omega)
  obtain ⟨⟨⟨a, hxa, ea, -, hrc, hrl, -, -⟩, -⟩, -⟩ := (replaySetsItsCursors { s with cur := t } e ws.length start).imp_left
    fun h => h hl
  rw [hn] at hrl
  have hload : a.Loading t s.par.schema (start % 32) [] ws.length := by
    refine ⟨by rw [ea], ?_, hrl, hrc, fun i hi => absurd hi (Nat.not_lt_zero _)⟩
    rw [ea]; exact hp
  have hdone := State.Loading.feedAll ws hload (by simpa using h32) hws
  rw [List.nil_append] at hdone
  obtain ⟨⟨-, c, hxc, ec, -, hpc, hpl, -⟩, -⟩ := (replaySetsItsCursors { ws.foldl (State.feedReplay t) a with cur := t }
    0 ws.length start).imp_left fun h => h hdone.left
  rw [hn] at hpl
  refine ⟨a, c, hxa, hxc, playedWords_eq ws hpc hpl fun i hi k hk => ?_⟩
  rw [ec]
  exact hdone.words i hi k hk

end Sys2Proof.Machine
end

section
/-! PROOFS. The wait gate (40_frontend.md R131 to R141): STALLWAIT and SEMWAIT, the latched condition, the default
tables, and the gate's treatment of the word in its slot. -/

namespace Sys2Proof.Machine

variable {s r : State} {t : Thread} {w : Word} {d : Decoded}

/-! ## STALLWAIT and SEMWAIT (R138, R139) -/

/-- Settles O13: `execStallwait` writes the one latch of the issuing thread. -/
theorem stallwaitLatches : Obligations.StallwaitLatches := by
  intro s a b
  exact ⟨_, rfl, rfl, vget_set_self _ _ _, fun u hu => vget_set_ne _ hu _⟩

/-- Settles O14: `execSemwait` writes the one latch of the issuing thread, which one is decided by the condition mask. -/
theorem semwaitLatches : Obligations.SemwaitLatches := by
  intro s cond sel b
  by_cases h : cond = 0
  · exact ⟨_, if_pos h, rfl, fun u hu => vget_set_ne _ hu _, fun _ => vget_set_self _ _ _, fun hn => absurd h hn⟩
  · exact ⟨_, if_neg h, rfl, fun u hu => vget_set_ne _ hu _, fun h0 => absurd h0 h,
      fun _ => ⟨BitVec.ofNat 8 sel, BitVec.toNat_ofNat _ _, vget_set_self _ _ _⟩⟩

/-! ## The latched condition (R132) -/

/-- A semaphore meets a selected condition (R132), in the words of the statement. -/
theorem Semaphore.holds_iff (x : Semaphore) (m : Nat) : x.holds m = true ↔
    (m.testBit 0 = true ∧ x.value = 0) ∨ (m.testBit 1 = true ∧ x.max ≤ x.value) := by
  simp only [Semaphore.holds, Bool.or_eq_true, Bool.and_eq_true, decide_eq_true_eq]

/-- What a latched SEMWAIT answers. -/
theorem waitHolds_semwait (hk : s.latch[t].kind = .semwait) : s.waitHolds t = .ok ((List.finRange 8).any fun i =>
    (s.latch[t].semSel.getD 0).getLsbD i && s.sem[i].holds s.latch[t].condMask) := by
  simp only [State.waitHolds, hk]

/-- What a latched STALLWAIT answers where every selected bit has a predicate. -/
theorem waitHolds_stallwait (hk : s.latch[t].kind = .stallwait)
    (hf : ((bitsOf s.latch[t].condMask).find? fun c => (s.condMet c t).isNone) = none) :
    s.waitHolds t = .ok ((bitsOf s.latch[t].condMask).any fun c => decide (s.condMet c t = some false)) := by
  simp only [State.waitHolds, hk, hf]

/-- What a latched STALLWAIT answers where a selected bit has no predicate. -/
theorem waitHolds_unmodelled {c : Nat} (hk : s.latch[t].kind = .stallwait)
    (hf : ((bitsOf s.latch[t].condMask).find? fun c => (s.condMet c t).isNone) = some c) :
    s.waitHolds t = .error (.conditionBitUnmodelled c) := by
  simp only [State.waitHolds, hk, hf]

/-- Settles O15: by the kind of the latch; a STALLWAIT by whether a selected bit has no predicate. -/
theorem waitHoldsMeaning : Obligations.WaitHoldsMeaning := by
  intro s t
  refine ⟨fun hk => by simp only [State.waitHolds, hk], fun hk sel hsel => ⟨_, waitHolds_semwait hk, ?_⟩, fun hk => ?_⟩
  · rw [hsel, List.any_eq_true]
    simp only [List.mem_finRange, true_and, Option.getD_some, Bool.and_eq_true, Semaphore.holds_iff]
  · cases hf : (bitsOf s.latch[t].condMask).find? fun c => (s.condMet c t).isNone with
    | none =>
      have hall : ∀ c, s.latch[t].condMask.testBit c = true → s.condMet c t ≠ none := fun c hc he => by
        simpa [he] using List.find?_eq_none.mp hf c (mem_bitsOf.mpr hc)
      refine ⟨fun _ => ⟨_, waitHolds_stallwait hk hf, ?_⟩, fun ⟨c, hc, he⟩ => absurd he (hall c hc)⟩
      simp only [List.any_eq_true, mem_bitsOf, decide_eq_true_eq]
    | some c =>
      have hc : s.latch[t].condMask.testBit c = true := mem_bitsOf.mp (List.mem_of_find?_eq_some hf)
      have hn : s.condMet c t = none := by simpa using List.find?_some hf
      exact ⟨fun hall => absurd hn (hall c hc), fun _ => ⟨c, hc, hn, waitHolds_unmodelled hk hf⟩⟩

/-! ## The default tables (R133, R134) -/

/-- A condition bit with a predicate. -/
theorem condMet_of_pred {c : Nat} {p : CondPred} (h : s.par.condBit[c]? = some (some p)) :
    s.condMet c t = some (s.predMet t p) := by
  simp only [State.condMet, h]

/-- A condition bit has no predicate exactly where the table has none. -/
theorem condMet_none {c : Nat} : s.condMet c t = none ↔ ∀ p, s.par.condBit[c]? ≠ some (some p) := by
  rw [State.condMet]
  split
  case h_1 p hp => simp [hp]
  case h_2 hn => exact ⟨fun _ => hn, fun _ => rfl⟩

/-- A queue predicate in the words of the statement. -/
theorem predMet_queueIdle (u : FUnit) : s.predMet t (.queueIdle u) = true ↔ ∀ e ∈ s.queueOf u, e.thread ≠ t := by
  rw [← queued_false]; simp [State.predMet]

/-- The Scalar unit's predicate in the words of the statement. -/
theorem predMet_scalarIdle : s.predMet t .scalarIdle = true ↔
    (∀ e ∈ s.queueOf .scalar, e.thread ≠ t) ∧ s.flush[t] = none := by
  rw [← queued_false]; simp [State.predMet]

/-- A data unit's predicate in the words of the statement. -/
theorem predMet_dmaIdle (u : DmaUnit) : s.predMet t (.dmaIdle u) = true ↔
    (∀ e ∈ s.queueOf u.unit, e.thread ≠ t) ∧ s.inflightOf u t = 0 := by
  rw [← queued_false]; simp [State.predMet, State.inFlight]

/-- The condition bits without a predicate in the default table. -/
theorem condBitDefault_none (c : Nat) : (∀ p, condBitDefault[c]? ≠ some (some p)) ↔ (8 ≤ c ∧ c ≤ 11) ∨ 15 ≤ c := by
  by_cases h : c < 15
  · interval_cases c <;> simp [condBitDefault]
  · have hc : condBitDefault[c]? = none := List.getElem?_eq_none (by simp [condBitDefault]; omega)
    simp [hc]; omega

/-- Settles O16: the two default tables row by row. -/
theorem defaultWaitTables : Obligations.DefaultWaitTables := by
  refine ⟨fun p m => if_pos rfl, fun s hb hc => ⟨fun m => ?_, fun t => ?_⟩⟩
  · simp [Params.blocked, hb, blockClassDefault]
  · have met : ∀ {c p}, condBitDefault[c]? = some (some p) →
        (s.condMet c t = some true ↔ s.predMet t p = true) := fun h => by
      rw [condMet_of_pred (hc ▸ h), Option.some_inj]
    refine ⟨(met rfl).trans predMet_scalarIdle, (met rfl).trans (predMet_dmaIdle _),
      (met rfl).trans (predMet_dmaIdle _), fun c h3 h6 => ?_, (met rfl).trans (predMet_queueIdle _),
      (met rfl).trans (predMet_queueIdle _), (met rfl).trans (predMet_queueIdle _),
      (met rfl).trans (predMet_queueIdle _), fun c => by rw [condMet_none, hc, condBitDefault_none]⟩
    refine (met (p := .dmaIdle .packer) ?_).trans (predMet_dmaIdle _)
    interval_cases c <;> rfl

/-! ## The word in the slot (R131, R137) -/

/-- What the gate does with the dispatcher's answer (R131, R136). -/
def State.afterOffer (s : State) (t : Thread) (name : OpName) : Offer → State
  | .taken s' => s'.forwarded t name
  | .rejected => if s.par.reoffer then s else s.clearGate t
  | .fault f => s.stop (.fault f) t (.frontend t)

/-- The gate treats its decoded word in the re-checked state. -/
theorem gateTick_of_word (hh : s.halt = none) (hw : s.gateSlot[t] = some w) (hd : s.par.schema.decode w = some d)
    (hr : s.Rechecked t r) : s.gateTick t = r.gateWord t d := by
  rw [gateTick_of_rechecked hr hh hw, hd]

/-- What the re-check of the latch leaves alone, as far as the gate reads it. -/
theorem State.Rechecked.keeps (h : s.Rechecked t r) : r.par = s.par ∧ r.halt = s.halt ∧ r.gateSlot = s.gateSlot ∧
    r.mutexWait = s.mutexWait ∧ r.backendStall = s.backendStall ∧ r.queue = s.queue := by
  obtain ⟨l, rfl⟩ := rechecked_frame h
  exact ⟨rfl, rfl, rfl, rfl, rfl, rfl⟩

/-- While a flag of R137 is set the word stays. -/
theorem gateWord_of_flag (h : s.mutexWait[t] = true ∨ s.backendStall[t] = true) : s.gateWord t d = s :=
  if_pos ((Bool.or_eq_true _ _).mpr h)

section Unflagged
variable (hm : s.mutexWait[t] = false) (hb : s.backendStall[t] = false)
include hm hb

/-- STALLWAIT and SEMWAIT wait for the latch, and are executed by the gate. -/
theorem gateWord_of_wait (hn : d.name = .stallwait ∨ d.name = .semwait) : s.gateWord t d =
    if s.latch[t].kind ≠ .none then s
    else (s.runDecoded (.frontend t) t d s).andThen fun s => s.clearGate t := by
  rw [State.gateWord, if_neg (by rw [hm, hb]; decide), if_pos hn]

variable (hn : ¬ (d.name = .stallwait ∨ d.name = .semwait))
include hn

/-- Any other FRONTEND word ends the run. -/
theorem gateWord_of_frontend (htag : d.tag = .frontend) : s.gateWord t d =
    s.stop (.fault (.unroutableInstruction d.word)) t (.frontend t) := by
  rw [State.gateWord, if_neg (by rw [hm, hb]; decide), if_neg hn, if_pos htag]

/-- A blocked word stays. -/
theorem gateWord_of_blocked (htag : d.tag ≠ .frontend) (hk : s.latch[t].kind ≠ .none)
    (hbl : s.par.blocked s.latch[t].blockMask d.tag = true) : s.gateWord t d = s := by
  rw [State.gateWord, if_neg (by rw [hm, hb]; decide), if_neg hn, if_neg htag, if_pos ⟨hk, hbl⟩]

/-- A free word goes to the dispatcher. -/
theorem gateWord_of_free (htag : d.tag ≠ .frontend)
    (hf : s.latch[t].kind = .none ∨ s.par.blocked s.latch[t].blockMask d.tag = false) :
    s.gateWord t d = s.afterOffer t d.name (s.dispatch t d) := by
  have hfree : ¬ (s.latch[t].kind ≠ .none ∧ s.par.blocked s.latch[t].blockMask d.tag = true) := fun ⟨hk, hbl⟩ => by
    rcases hf with h | h
    · exact hk h
    · rw [h] at hbl; cases hbl
  rw [State.gateWord, if_neg (by rw [hm, hb]; decide), if_neg hn, if_neg htag, if_neg hfree]
  cases s.dispatch t d <;> rfl

end Unflagged

/-- An open gate sends a word that is neither STALLWAIT, SEMWAIT nor another FRONTEND word to the dispatcher. -/
theorem State.GateOpen.gateTick (h : s.GateOpen t w d r) (hn : ¬ (d.name = .stallwait ∨ d.name = .semwait))
    (htag : d.tag ≠ .frontend) : s.gateTick t = r.afterOffer t d.name (r.dispatch t d) := by
  obtain ⟨hpar, -, -, hm, hb, -⟩ := h.rechecked.keeps
  rw [gateTick_of_open h, gateWord_of_free (by rw [hm]; exact h.mutexWait) (by rw [hb]; exact h.backendStall) hn htag
    (by rw [hpar]; exact h.free)]

/-- The re-check of a latch whose condition does not hold. -/
theorem refreshLatch_of_clear (hk : s.latch[t].kind ≠ .none) (hw : s.waitHolds t = .ok false) :
    s.refreshLatch t = { s with latch := s.latch.set t Latch.clear } :=
  refreshLatch_of_rechecked (.inr (.inr ⟨hk, hw, rfl⟩))

/-- Settles O17: the gate's branches in the order of R288, after the re-check of the latch. -/
theorem gateHoldsAndRechecks : Obligations.GateHoldsAndRechecks := by
  refine ⟨fun s t w d r hh hw hd hr => ?_, fun s t hh hk => ?_⟩
  · obtain ⟨hpar, hhalt, -, hmw, hbs, -⟩ := hr.keeps
    rw [gateTick_of_word hh hw hd hr, ← hmw, ← hbs, ← hpar]
    refine ⟨fun h => gateWord_of_flag h, fun hk hn => ?_, fun hk hns hnw htag hbl => ?_,
      fun hk hm hb hn i hi hma z hx => ?_⟩
    · by_cases hf : r.mutexWait[t] = true ∨ r.backendStall[t] = true
      · exact gateWord_of_flag hf
      · rw [not_or, Bool.not_eq_true, Bool.not_eq_true] at hf
        rw [gateWord_of_wait hf.1 hf.2 hn, if_pos hk]
    · by_cases hf : r.mutexWait[t] = true ∨ r.backendStall[t] = true
      · exact gateWord_of_flag hf
      · rw [not_or, Bool.not_eq_true, Bool.not_eq_true] at hf
        exact gateWord_of_blocked hf.1 hf.2 (not_or.mpr ⟨hns, hnw⟩) htag hk hbl
    · have hz : z.halted = false := by
        rw [State.halted, exec_halt hx]; simp [State.issue, hhalt, hh]
      rw [gateWord_of_wait hm hb hn, if_neg (not_not.mpr hk), runDecoded_of_next hi hma hx, State.andThen_of_running _ hz]
      rfl
  · have hrun : ({ s with latch := s.latch.set t Latch.clear } : State).halted = false := by
      simp [State.halted, hh]
    refine ⟨refreshLatch_of_clear hk, fun hw => refreshLatch_of_rechecked (.inr (.inl ⟨hk, hw, rfl⟩)),
      fun hw hg => ?_, fun x hx => ?_⟩
    · rw [State.gateTick, refreshLatch_of_clear hk hw, State.andThen_of_running _ hrun, State.gateForward]
      simp only [hg]
    · have hstop : s.refreshLatch t = s.stop (.refused x) t (.frontend t) := by
        rw [State.refreshLatch, if_neg hk, hx]
      rw [State.gateTick, hstop]
      exact State.andThen_of_halted _ rfl

/-- Settles O18: the FRONTEND test comes before the block test, and a tag that names no unit is unroutable. -/
theorem unroutableEndsTheRun : Obligations.UnroutableEndsTheRun := by
  intro s t w d r hh hw hd hm hb hr hns hnw
  have hn : ¬ (d.name = .stallwait ∨ d.name = .semwait) := not_or.mpr ⟨hns, hnw⟩
  refine ⟨fun htag => ?_, fun n htag hf => ?_⟩
  · obtain ⟨-, -, -, hmw, hbs, -⟩ := hr.keeps
    rw [gateTick_of_word hh hw hd hr, gateWord_of_frontend (by rw [hmw]; exact hm) (by rw [hbs]; exact hb) hn htag,
      decoded_word hd]
    rfl
  · have hdisp : r.dispatch t d = .fault (.unroutableInstruction d.word) := by
      simp only [State.dispatch, htag, routeOf]
    rw [State.GateOpen.gateTick ⟨hh, hw, hd, hm, hb, hr, hf⟩ hn (by rw [htag]; exact Tag.noConfusion), hdisp,
      decoded_word hd]
    rfl

/-- Settles O19: a rejected offer is kept or dropped by `WAITGATE_REOFFER`. -/
theorem rejectedWordIsOfferedAgain : Obligations.RejectedWordIsOfferedAgain := by
  intro s t w d r h hns hnw htag hrej
  obtain ⟨hpar, -, hg, -⟩ := h.rechecked.keeps
  rw [h.gateTick (not_or.mpr ⟨hns, hnw⟩) htag, hrej, ← hpar, ← hg]
  exact ⟨fun hre => if_pos hre, fun hre => if_neg (by rw [hre]; decide)⟩

/-- Settles O20: a taken offer appends one entry (`offer_taken`), and the gate then empties the slot. -/
theorem acceptedWordEntersItsQueue : Obligations.AcceptedWordEntersItsQueue := by
  intro s t w d u r a h hns hnw hroute hoff
  obtain ⟨hpar, -, hg, hmw, -, hq⟩ := h.rechecked.keeps
  have hqueue : ∀ v, r.queueOf v = s.queueOf v := fun v => by rw [State.queueOf, State.queueOf, hq]
  have hword : d.word = w := decoded_word h.decoded
  have htag : d.tag ≠ .frontend := fun e => by rw [e] at hroute; cases hroute
  have ha : a = r.pushEntry u ⟨w, t⟩ := hword ▸ r.offer_taken hoff
  have hdisp : r.dispatch t d = .taken a := by
    simp only [State.dispatch, hword, hpar, hroute, hoff]
  refine ⟨_, rfl, ?_⟩
  rw [h.gateTick (not_or.mpr ⟨hns, hnw⟩) htag, hdisp, ha, ← hg, ← hmw]
  rw [State.afterOffer]
  have hslot : ((r.pushEntry u ⟨w, t⟩).forwarded t d.name).gateSlot = r.gateSlot.set t none := by
    rw [State.forwarded]; split <;> rfl
  have hwait : ((r.pushEntry u ⟨w, t⟩).forwarded t d.name).mutexWait =
      if d.name = .atgetm then r.mutexWait.set t true else r.mutexWait := by
    rw [State.forwarded]; split <;> rfl
  have hqu : ((r.pushEntry u ⟨w, t⟩).forwarded t d.name).queue = (r.pushEntry u ⟨w, t⟩).queue := by
    rw [State.forwarded]; split <;> rfl
  have hqv : ∀ v, ((r.pushEntry u ⟨w, t⟩).forwarded t d.name).queueOf v =
      if v = u then s.queueOf v ++ [⟨w, t⟩] else s.queueOf v := fun v => by
    rw [State.queueOf, hqu, ← State.queueOf, State.queueOf_pushEntry, hqueue, hqueue]
    split
    · next e => rw [e]
    · rfl
  refine ⟨?_, (hqv u).trans (if_pos rfl), fun v hv => (hqv v).trans (if_neg hv), ?_, ?_, fun v hv => ⟨?_, ?_⟩⟩
  · rw [State.forwarded]; split <;> rfl
  · rw [hslot]; exact vget_set_self _ _ _
  · rw [hwait]
    split
    · next e => rw [vget_set_self, e]; rfl
    · next e => rw [hmw, h.mutexWait, decide_eq_false e]
  · rw [hslot]; exact vget_set_ne _ hv _
  · rw [hwait]
    split
    · exact vget_set_ne _ hv _
    · rfl

/-- Settles O21: the three instructions answer their state, and a NOP word at the gate is dropped by the dispatcher,
which runs it. -/
theorem noOperationsChangeNothing : Obligations.NoOperationsChangeNothing := by
  refine ⟨fun s => ⟨rfl, rfl, rfl⟩, fun s t w d r h hn htag => ?_, fun w => by rw [isnop_eq, decide_eq_true_eq]⟩
  obtain ⟨-, -, hg, -⟩ := h.rechecked.keeps
  have hdisp : r.dispatch t d = .taken (r.issue t d) := by
    simp only [State.dispatch, htag, routeOf, hn, if_true]
    rfl
  rw [h.gateTick (by rw [hn]; decide) (by rw [htag]; decide), hdisp, ← hg, hn]
  rfl

end Sys2Proof.Machine
end

section
/-! PROOFS. The environment's moves (60_exceptions.md R296), the stopped run (R281) and reset
(70_reset_and_hazards.md R300). -/

namespace Sys2Proof.Machine

variable {s : State} {t : Thread}

/-! ## The ports (R110, R113, R204, R205, R243) -/

/-- Settles O23: the two branches of the intake, by the room in the first FIFO. -/
theorem intakeWriteAcceptance : Obligations.IntakeWriteAcceptance :=
  fun _ _ _ => ⟨fun h => if_pos h, fun h => if_neg (by omega)⟩

/-- The four bytes of a value that one byte holds (20_memory.md R65). -/
theorem le32_ofNat_of_le {n : Nat} (h : n ≤ 15) : le32 (BitVec.ofNat 32 n) = [BitVec.ofNat 8 n, 0, 0, 0] := by
  interval_cases n <;> decide

/-- Settles O24: a write is a SEMGET or SEMPOST step on the one semaphore, a read answers its value. -/
theorem semaphoreRegisterPort : Obligations.SemaphoreRegisterPort := by
  intro s i data
  refine ⟨⟨_, rfl, rfl, fun h => ?_, fun h => ?_, ?_, fun j hj => vget_set_ne _ hj _⟩, fun h => ?_⟩
  · rw [State.semRegWrite, vget_set_self, if_pos h]
    exact Semaphore.get_value_int _
  · rw [State.semRegWrite, vget_set_self, if_neg (by rw [h]; decide)]
    exact Semaphore.post_value _
  · rw [State.semRegWrite, vget_set_self]
    split
    · exact Semaphore.get_max _
    · exact Semaphore.post_max _
  · refine ⟨BitVec.ofNat 8 s.sem[i].value, ?_, ?_⟩
    · rw [BitVec.toNat_ofNat]; omega
    · rw [State.semRegRead, State.reply, le32_ofNat_of_le h]

/-- A counter with one half written (R243). -/
def Counter.poke (h : Half) (x : Nat) (k : Counter) : Counter :=
  match h with
  | .counter => { k with val := x }
  | .shadow => { k with cr := x }

/-- A counter after a poke of one of its halves (R243). -/
theorem pokeAdc_get (s : State) (t u : Thread) (g g' : Group) (c c' : Fin 2) (d d' : Dim) (h : Half) (v : Nat) :
    (s.pokeAdc t g c d h v).adc[u].get g' c' d' =
      if (u, g', c', d') = (t, g, c, d) then Counter.poke h (truncTo (s.par.dimWidth d) v) (s.adc[t].get g c d)
      else s.adc[u].get g' c' d' := by
  by_cases hut : u = t
  · subst hut
    rw [State.pokeAdc, vget_set_self, AdcThread.get_ofFn]
    by_cases he : g' = g ∧ c' = c ∧ d' = d
    · rw [if_pos he, if_pos (by simpa using he)]
      obtain ⟨rfl, rfl, rfl⟩ := he
      cases h <;> rfl
    · rw [if_neg he, if_neg (by simpa using he)]
  · rw [if_neg (by simp [hut]), State.pokeAdc, vget_set_ne _ hut]

/-- Settles O25: each port writes one place of one piece of state. -/
theorem configPortAndCounterPoke : Obligations.ConfigPortAndCounterPoke := by
  refine ⟨fun s t k v => ⟨_, rfl, rfl, ?_, fun u j huj => ?_⟩, fun s t g c d v => ?_⟩
  · rw [State.mopCfgWrite, vget_set_self, vget_set_self]
  · rw [State.mopCfgWrite, vget_set]
    split
    · next hu => rw [vget_set_ne _ (huj.resolve_left (not_not.mpr hu)), hu]
    · rfl
  · refine ⟨⟨_, rfl, rfl, ?_, fun u g' c' d' hne => ?_⟩, ⟨_, rfl, rfl, ?_, fun u g' c' d' hne => ?_⟩⟩
    · rw [pokeAdc_get, if_pos rfl]; rfl
    · rw [pokeAdc_get, if_neg hne]
    · rw [pokeAdc_get, if_pos rfl]; rfl
    · rw [pokeAdc_get, if_neg hne]

/-! ## The stopped run (R281, R286) -/

/-- Which moves are accesses of the memory is a question of the parameters. -/
theorem isMemoryMove_congr {s s' : State} (h : s'.par = s.par) (m : EnvMove) : s'.isMemoryMove m = s.isMemoryMove m := by
  have htouch : ∀ a n, s'.portTouched a n = s.portTouched a n := fun a n => by
    rw [State.portTouched, State.portTouched]
    congr 1
    funext p
    have hspan : s'.portSpan p = s.portSpan p := by cases p <;> simp only [State.portSpan, h]
    rw [portTouch, portTouch, hspan]
  cases m <;> simp only [State.isMemoryMove, htouch]

/-- The environment's moves on a stopped run, without a reset among them. -/
theorem envMoves_of_halted : ∀ (ms : List EnvMove) (s : State), s.halted = true → (∀ m ∈ ms, m ≠ .reset) →
    ∃ r M, ms.foldl State.envMove s = { s with replies := r, mem := M } ∧
      ((∀ m ∈ ms, s.isMemoryMove m = false) → r = s.replies ∧ M = s.mem)
  | [], s, _, _ => ⟨s.replies, s.mem, rfl, fun _ => ⟨rfl, rfl⟩⟩
  | m :: ms, s, hh, hm => by
    obtain ⟨r, M, e, hk⟩ := moveAfterStop_frame s (hm m (by simp))
    obtain ⟨r', M', e', hk'⟩ := envMoves_of_halted ms { s with replies := r, mem := M } hh fun x hx => hm x (by simp [hx])
    refine ⟨r', M', ?_, fun hno => ?_⟩
    · rw [List.foldl_cons, State.envMove, if_pos hh, e, e']
    · obtain ⟨rfl, rfl⟩ := hk (hno m (by simp))
      exact hk' fun x hx => hno x (by simp [hx])

/-- After a stop the environment still writes the memory where it can serve the write. -/
theorem envMove_memWrite_of_halted (hh : s.halted = true) {a : Nat} {bs : List Byte}
    (hfit : a + bs.length ≤ s.par.memSize.toNat) :
    s.envMove (.memWrite a bs) = { s with mem := s.mem.writeBytes a bs } := by
  rw [State.envMove, if_pos hh, State.moveAfterStop, if_neg (by simp), State.isMemoryMove,
    if_pos rfl, State.makeMove, State.memWrite,
    if_pos (by simpa [State.served] using hfit)]

/-- After a stop the environment still reads the memory where it can serve the read. -/
theorem envMove_memRead_of_halted (hh : s.halted = true) {a n : Nat} (hfit : a + n ≤ s.par.memSize.toNat) :
    s.envMove (.memRead a n) = s.reply (.bytes (s.mem.readBytes a n)) := by
  rw [State.envMove, if_pos hh, State.moveAfterStop, if_neg (by simp), State.isMemoryMove,
    if_pos rfl, State.makeMove, State.memRead,
    if_pos (by simpa [State.served] using hfit)]
  rfl

/-- No component of a stopped run steps. -/
theorem ticks_of_halted (cs : List Component) (hh : s.halted = true) :
    cs.foldl (fun s c => s.andThen fun s => s.tick c) s = s := by
  induction cs with
  | nil => rfl
  | cons c cs ih => rw [List.foldl_cons, State.andThen_of_halted _ hh, ih]

/-- The moves of a cycle, as one fold. -/
theorem beginCycle_eq (s : State) : s.beginCycle =
    (s.inputs.head?.getD []).foldl State.envMove { s with inputs := s.inputs.tail, replies := [] } := by
  rw [State.beginCycle]
  cases s.inputs <;> rfl

/-- A cycle of a stopped run, without a reset, is the environment's moves alone. -/
theorem cycle_of_halted (hh : s.halted = true) (hm : ∀ m ∈ s.inputs.head?.getD [], m ≠ EnvMove.reset) :
    s.cycle = s.beginCycle := by
  obtain ⟨r, M, e, -⟩ := envMoves_of_halted _ { s with inputs := s.inputs.tail, replies := [] } hh hm
  rw [State.cycle]
  refine ticks_of_halted _ ?_
  rw [beginCycle_eq, e]
  exact hh

/-- Settles O54: no component steps (`ticks_of_halted`), and a move changes the answers and the memory alone
(`moveAfterStop_frame`). -/
theorem stoppedRunStaysStopped : Obligations.StoppedRunStaysStopped := by
  intro s h hs hm
  have hh : s.halted = true := by rw [State.halted, hs]; rfl
  have hcyc : s.cycle = (s.inputs.head?.getD []).foldl State.envMove { s with inputs := s.inputs.tail, replies := [] } :=
    (cycle_of_halted hh hm).trans (beginCycle_eq s)
  obtain ⟨r, M, e, hk⟩ := envMoves_of_halted _ { s with inputs := s.inputs.tail, replies := [] } hh hm
  have hout : step s = State.outcome { s with inputs := s.inputs.tail, replies := r, mem := M } := by
    rw [step, hcyc, e]
  refine ⟨_, rfl, by rw [hcyc, e], fun hno => ?_, fun a bs hin hfit => ?_, fun a n hin hfit => ?_, fun f hf => ?_,
    fun x hx => ?_⟩
  · obtain ⟨rfl, rfl⟩ := hk fun m hx => (isMemoryMove_congr rfl m).trans (hno m hx)
    rw [hcyc, e]
    exact ⟨rfl, rfl⟩
  · rw [hcyc, hin]
    exact congrArg State.mem (envMove_memWrite_of_halted (s := { s with inputs := s.inputs.tail, replies := [] }) hh hfit)
  · have hread := envMove_memRead_of_halted (s := { s with inputs := s.inputs.tail, replies := [] }) hh hfit
    rw [hcyc, hin]
    exact ⟨(congrArg State.mem hread :), (congrArg State.replies hread :)⟩
  · obtain ⟨y, u, c⟩ := h
    dsimp only at hf
    subst hf
    rw [hout, State.outcome]
    simp only [hs]
  · obtain ⟨y, u, c⟩ := h
    dsimp only at hx
    subst hx
    rw [hout, State.outcome]
    simp only [hs]

/-! ## Reset (R300, R301) -/

/-- A place of a constant vector. -/
theorem vget_replicate {α : Type} {n : Nat} (x : α) (i : Fin n) : (Vector.replicate n x)[i] = x :=
  Vector.getElem_replicate _

/-- Settles O55: construction writes the table's value into every place, and reset keeps the parameters and the memory
alone. -/
theorem resetTable : Obligations.ResetTable := by
  intro s
  refine ⟨_, rfl, rfl, rfl, rfl, fun t => ?_, fun b i h => ?_, fun u => vget_replicate _ _, rfl, fun i => ?_, rfl,
    fun r => rfl, fun p => rfl⟩
  · refine ⟨vget_replicate _ _, fun i h => ?_, vget_replicate _ _, vget_replicate _ _, vget_replicate _ _,
      fun k => ?_, vget_replicate _ _, vget_replicate _ _, vget_replicate _ _, fun k => ?_, vget_replicate _ _,
      vget_replicate _ _, vget_replicate _ _, vget_replicate _ _, vget_replicate _ _, vget_replicate _ _,
      vget_replicate _ _, vget_replicate _ _, vget_replicate _ _, vget_replicate _ _, vget_replicate _ _,
      fun g c d => ?_, fun u => ?_⟩
    · exact (congrArg (fun v : Vector Word 57 => v[i]) (vget_replicate _ t)).trans (Vector.getElem_replicate _)
    · exact (congrArg (fun v : Vector Word 9 => v[k]) (vget_replicate _ t)).trans (vget_replicate _ _)
    · exact (congrArg (fun v : Vector (Option Word) 32 => v[k]) (vget_replicate _ t)).trans (vget_replicate _ _)
    · exact (congrArg (fun a : AdcThread => a.get g c d) (vget_replicate _ t)).trans (AdcThread.get_zero g c d)
    · exact (congrArg (fun v : Vector Nat 3 => v[t]) (vget_replicate _ (dmaIndex u))).trans (vget_replicate _ _)
  · exact (congrArg (fun v : Vector Word 188 => v[i]) (vget_replicate _ b)).trans (Vector.getElem_replicate _)
  · exact ⟨vget_replicate _ _, vget_replicate _ _⟩

end Sys2Proof.Machine
end

section
/-! PROOFS. The Sync unit (43_sync_unit.md): the mutexes (R193 to R196) and admission (R191). -/

namespace Sys2Proof.Machine

variable {s t : State}

/-! ## ATGETM and ATRELM (R193 to R195) -/

/-- An index that names no usable mutex (R193). -/
theorem mutexIndex_error {x : Nat} (h : x = 0 ∨ 7 < x) : mutexIndex x = .error (.index x) :=
  dif_neg (by omega)

/-- A mutex is grantable in the words of the statements. -/
theorem mutexGrantable_iff {u : Thread} {i : Fin 8} :
    s.mutexGrantable u i = true ↔ s.mutex[i] = none ∨ s.mutex[i] = some u := decide_eq_true_iff

/-- ATGETM of a usable index. -/
theorem exec_atgetm {i : Fin 8} (hi : 1 ≤ i.val) : exec (.atgetm i.val) s =
    if s.mutexGrantable s.cur i then .next (s.grantMutex s.cur i)
    else .next { s with waiters := s.waiters ++ [(s.cur, i.val)] } := by
  simp only [exec, execAtgetm, mutexIndex_ok i hi, orFault]

/-- ATRELM of a usable index. -/
theorem exec_atrelm {i : Fin 8} (hi : 1 ≤ i.val) : exec (.atrelm i.val) s =
    if s.mutex[i] = some s.cur then .next { s with mutex := s.mutex.set i none } else .next s := by
  simp only [exec, execAtrelm, mutexIndex_ok i hi, orFault]

/-- A grant keeps every mutex that is held. -/
theorem grantMutex_held {u h : Thread} {i m : Fin 8} (hg : s.mutexGrantable u i = true) (hm : s.mutex[m] = some h) :
    (s.grantMutex u i).mutex[m] = some h := by
  have hset : (s.grantMutex u i).mutex[m] = if m = i then some u else s.mutex[m] := vget_set _ _ _ _
  rw [hset]
  split
  · next e =>
    subst e
    rcases mutexGrantable_iff.mp hg with hn | ho
    · rw [hn] at hm; cases hm
    · rw [← ho, hm]
  · exact hm

/-- Settles O32: by whether the mutex is grantable. -/
theorem atgetmAcquiresOrWaits : Obligations.AtgetmAcquiresOrWaits := by
  intro s x
  refine ⟨fun i hi h1 => ?_, fun h => by simp only [exec, execAtgetm, mutexIndex_error h, orFault]⟩
  subst hi
  rw [exec_atgetm h1]
  refine ⟨fun hg => ⟨_, if_pos (mutexGrantable_iff.mpr hg), rfl, vget_set_self _ _ _, fun j hj => vget_set_ne _ hj _,
    vget_set_self _ _ _, fun u hu => vget_set_ne _ hu _⟩, fun hn ho => if_neg fun hg => ?_⟩
  exact (mutexGrantable_iff.mp hg).elim hn ho

/-- Settles O33: by whether the issuing thread is the holder. -/
theorem atrelmFreesOwnMutex : Obligations.AtrelmFreesOwnMutex := by
  intro s x
  refine ⟨fun i hi h1 => ?_, fun h => by simp only [exec, execAtrelm, mutexIndex_error h, orFault]⟩
  subst hi
  rw [exec_atrelm h1]
  exact ⟨fun ho => ⟨_, if_pos ho, rfl, vget_set_self _ _ _, fun j hj => vget_set_ne _ hj _⟩, fun hn => if_neg hn⟩

/-! ## The resolution of the waiters (R196) -/

/-- What a scan of the waiters `ws` leaves: the state t and the waiters `keep` (the clauses of R196, D21). -/
structure State.ScanEffect (s : State) (ws : List (Thread × Nat)) (t : State) (keep : List (Thread × Nat)) : Prop where
  held : ∀ (i : Fin 8) (h : Thread), s.mutex[i] = some h → t.mutex[i] = some h
  free : ∀ i : Fin 8, s.mutex[i] = none → t.mutex[i] = (ws.find? fun x => decide (x.2 = i.val)).map (·.1)
  keep : keep = ws.filter fun x => decide (t.mutex[x.2]? ≠ some (some x.1))
  wait : ∀ u : Thread, t.mutexWait[u] =
    (s.mutexWait[u] && !ws.any fun x => decide (x.1 = u ∧ t.mutex[x.2]? = some (some u)))

/-- A mutex named by a number. -/
theorem mutex_get? (s : State) (i : Fin 8) : s.mutex[i.val]? = some s.mutex[i] := Vector.getElem?_eq_getElem i.isLt

/-- A granted waiter leads the scan. -/
theorem State.ScanEffect.grant {w : Thread × Nat} {ws keep : List (Thread × Nat)} {i : Fin 8} (hi : w.2 = i.val)
    (hg : s.mutexGrantable w.1 i = true) (h : (s.grantMutex w.1 i).ScanEffect ws t keep) :
    s.ScanEffect (w :: ws) t keep := by
  have hmutex : ∀ j, (s.grantMutex w.1 i).mutex[j] = if j = i then some w.1 else s.mutex[j] := fun j => vget_set _ _ _ _
  have hgot : t.mutex[i] = some w.1 := h.held i w.1 (by rw [hmutex, if_pos rfl])
  have hgot? : t.mutex[w.2]? = some (some w.1) := by rw [hi, mutex_get?, hgot]
  refine ⟨fun j x hj => h.held j x (grantMutex_held hg hj), fun j hj => ?_, ?_, fun u => ?_⟩
  · by_cases hji : j = i
    · subst hji
      rw [List.find?_cons_of_pos (by simp [hi]), hgot]
      rfl
    · rw [List.find?_cons_of_neg (by simp only [hi, decide_eq_true_eq]; exact fun e => hji (Fin.ext e.symm))]
      exact h.free j (by rw [hmutex, if_neg hji, hj])
  · rw [List.filter_cons_of_neg (by simp [hgot?])]
    exact h.keep
  · have hw : (s.grantMutex w.1 i).mutexWait[u] = if u = w.1 then false else s.mutexWait[u] := vget_set _ _ _ _
    rw [h.wait u, hw, List.any_cons, hgot?]
    by_cases hu : u = w.1
    · simp [hu]
    · have hne : ¬ w.1 = u := fun e => hu e.symm
      simp only [hu, hne, if_false, false_and, decide_false, Bool.false_or]

/-- A waiter for another thread's mutex stays. -/
theorem State.ScanEffect.stay {w : Thread × Nat} {ws keep : List (Thread × Nat)} {i : Fin 8} (hi : w.2 = i.val)
    (hg : s.mutexGrantable w.1 i = false) (h : s.ScanEffect ws t keep) : s.ScanEffect (w :: ws) t (w :: keep) := by
  rw [← Bool.not_eq_true, mutexGrantable_iff, not_or] at hg
  obtain ⟨x, hx⟩ := Option.ne_none_iff_exists'.mp hg.1
  have hxw : x ≠ w.1 := fun e => hg.2 (by rw [hx, e])
  have hgot? : t.mutex[w.2]? = some (some x) := by rw [hi, mutex_get?, h.held i x hx]
  refine ⟨h.held, fun j hj => ?_, ?_, fun u => ?_⟩
  · have hji : j ≠ i := fun e => hg.1 (e ▸ hj)
    rw [List.find?_cons_of_neg (by simp only [hi, decide_eq_true_eq]; exact fun e => hji (Fin.ext e.symm))]
    exact h.free j hj
  · rw [List.filter_cons_of_pos (by simp [hgot?, hxw]), ← h.keep]
  · have hne : ¬ (w.1 = u ∧ some (some x) = some (some u)) := fun ⟨e, e'⟩ => hxw (by simpa [e] using e')
    rw [h.wait u, List.any_cons, hgot?, decide_eq_false hne, Bool.false_or]

/-- The scan's effect, waiter by waiter. -/
theorem resolveScan_effect : ∀ (ws : List (Thread × Nat)) (s : State), (∀ x ∈ ws, 1 ≤ x.2 ∧ x.2 < 8) →
    s.ScanEffect ws (resolveScan ws s).1 (resolveScan ws s).2
  | [], s, _ => ⟨fun _ _ h => h, fun _ h => h, rfl, fun u => by simp [resolveScan]⟩
  | w :: ws, s, hws => by
    have hw := hws w (by simp)
    have hrest : ∀ x ∈ ws, 1 ≤ x.2 ∧ x.2 < 8 := fun x hx => hws x (by simp [hx])
    have hok : mutexIndex w.2 = .ok ⟨w.2, hw.2⟩ := mutexIndex_ok ⟨w.2, hw.2⟩ hw.1
    rcases resolveScan_cons w ws s with ⟨i, hi, hg, e⟩ | ⟨hg, e⟩ <;> rw [e]
    · obtain rfl : ⟨w.2, hw.2⟩ = i := Except.ok.inj (hok.symm.trans hi)
      exact .grant rfl hg (resolveScan_effect ws _ hrest)
    · exact .stay rfl (hg _ hok) (resolveScan_effect ws s hrest)

/-- Settles O34: the scan's effect over the whole list of waiters. -/
theorem waiterResolution : Obligations.WaiterResolution := by
  intro s hws
  obtain ⟨hheld, hfree, hkeep, hwait⟩ := resolveScan_effect s.waiters s hws
  obtain ⟨m, mw, w, e⟩ := resolve_frame s
  exact ⟨_, rfl, by rw [e], hheld, hfree, hkeep, hwait⟩

/-! ## Admission (R191) -/

/-- Settles O35: by the name's class, then by `offerIf_iff`. -/
theorem syncAdmission : Obligations.SyncAdmission := by
  intro s t d x mutexOps
  refine ⟨fun hn hx => ?_, fun hg hr => ?_⟩
  · have hoffer : s.offer .sync t d = s.offerIf .sync ⟨d.word, t⟩ (decide (mutexOps.length < 3) &&
        !mutexOps.any fun e => decide (s.entryArg e .mutexIndex = some x)) := by
      have hop : isMutexOp (some d.name) = true := by simpa [isMutexOp] using hn
      simp only [State.offer, State.offerSync, hop, if_true, hx]
      rfl
    rw [hoffer]
    exact offerIf_iff _ _ _ _ _ (by simp)
  · have hop : ¬ isMutexOp (some d.name) = true := by simp [isMutexOp, hg, hr]
    have hoffer : s.offer .sync t d = s.offerIf .sync ⟨d.word, t⟩
        (((s.queueOf .sync).filter fun e => !isMutexOp (s.entryName e)).isEmpty &&
          ((s.queueOf .sync).filter fun e => isMutexOp (s.entryName e)).isEmpty) := by
      simp only [State.offer, State.offerSync]
      exact if_neg hop
    rw [hoffer]
    refine offerIf_iff _ _ _ _ _ ?_
    simp only [Bool.and_eq_true, List.isEmpty_iff, List.filter_eq_nil_iff, Bool.not_eq_true', Bool.not_eq_false]
    refine ⟨fun ⟨hoth, hops⟩ => List.eq_nil_iff_forall_not_mem.mpr fun e he => hops e he (hoth e he), fun h => ?_⟩
    rw [h]
    exact ⟨fun e he => absurd he List.not_mem_nil, fun e he => absurd he List.not_mem_nil⟩

/-! ## A held mutex (R195, R196) -/

/-- A scan of any waiters keeps a held mutex. -/
theorem resolveScan_held {m : Fin 8} {h : Thread} : ∀ (ws : List (Thread × Nat)) {s : State},
    s.mutex[m] = some h → (resolveScan ws s).1.mutex[m] = some h
  | [], s, hm => hm
  | w :: ws, s, hm => by
    rcases resolveScan_cons w ws s with ⟨i, -, hg, e⟩ | ⟨-, e⟩ <;> rw [e]
    · exact resolveScan_held ws (grantMutex_held hg hm)
    · exact resolveScan_held ws hm

/-- The index of a usable mutex. -/
theorem mutexIndex_val {x : Nat} {j : Fin 8} (h : mutexIndex x = .ok j) : x = j.val := by
  unfold mutexIndex at h
  split at h
  · cases h; rfl
  · cases h

/-- Settles O36: only ATGETM and ATRELM write a mutex (`exec_frame`), the former a grantable one, the latter the
issuing thread's own. -/
theorem heldMutexIsKept : Obligations.HeldMutexIsKept := by
  intro s m h hm
  refine ⟨fun i t hx => ?_, resolveScan_held s.waiters hm⟩
  by_cases hw : i.opName ∈ [.atgetm, .atrelm]
  · cases i <;> simp only [Instr.opName, List.mem_cons, reduceCtorEq, List.not_mem_nil, or_self, or_false, or_true] at hw
    case atgetm x =>
      left
      obtain ⟨j, -, ⟨hg, e⟩ | ⟨-, rfl⟩⟩ := execAtgetm_next hx
      · rw [e]; exact grantMutex_held hg hm
      · exact hm
    case atrelm x =>
      obtain ⟨j, hj, ⟨ho, e⟩ | ⟨-, rfl⟩⟩ := execAtrelm_next hx
      · have hset : t.mutex[m] = if m = j then none else s.mutex[m] := by rw [e]; exact vget_set _ _ _ _
        rw [hset]
        by_cases hmj : m = j
        · subst hmj
          rw [if_pos rfl]
          exact .inr ⟨rfl, Option.some.inj (ho.symm.trans hm), by rw [mutexIndex_val hj]⟩
        · exact .inl ((if_neg hmj).trans hm)
      · exact .inl hm
  · rw [(exec_frame hx).mutex hw]; exact .inl hm

end Sys2Proof.Machine
end

section
/-! PROOFS. The Scalar/THCON unit (44_thcon_unit.md): the register move (R217), STOREREG (R219), FLUSHDMA and its
re-check (R221 to R223). -/

namespace Sys2Proof.Machine

variable {s : State}

/-! ## The register move: words of the general configuration (R217, target (a)) -/

/-- The configuration words after a list of writes whose indices exist. -/
theorem cfgWrites_get (b : Fin 2) {i : Nat} (hi : i < 188) : ∀ (ws : List CfgWrite) (s : State),
    (∀ w ∈ ws, w.bank < 2 ∧ w.idx < 188) →
    (ws.foldl State.cfgWrite s).cfg[b][i] = lastOf (CfgWrite.valueAt b.val i) ws s.cfg[b][i]
  | [], _, _ => rfl
  | w :: ws, s, hws => by
    obtain ⟨hb, -⟩ := hws w (by simp)
    have hone : (s.cfgWrite w).cfg[b][i] = (CfgWrite.valueAt b.val i w).getD s.cfg[b][i] := by
      rw [State.cfgWrite, dif_pos hb, setCfg_get _ _ _ _ _ _ hi, CfgWrite.valueAt]
      by_cases h : w.bank = b.val ∧ w.idx = i
      · rw [if_pos h, if_pos ⟨Fin.ext h.1.symm, h.2.symm⟩]; rfl
      · rw [if_neg h, if_neg fun x => h ⟨(congrArg Fin.val x.1).symm, x.2.symm⟩]; rfl
    rw [List.foldl_cons, cfgWrites_get b hi ws _ fun x hx => hws x (by simp [hx]), lastOf_cons, hone]

/-! ## The register move: counters (R217, target (b)) -/

/-- One half of a counter. -/
def Counter.half (h : Half) (k : Counter) : Nat :=
  match h with
  | .counter => k.val
  | .shadow => k.cr

/-- A poke writes one half. -/
theorem Counter.half_poke (h h' : Half) (x : Nat) (k : Counter) :
    Counter.half h (Counter.poke h' x k) = if h' = h then x else Counter.half h k := by
  cases h <;> cases h' <;> rfl

/-- A dimension is known by its number. -/
theorem dimNumber_inj {d d' : Dim} : dimNumber d = dimNumber d' ↔ d = d' := by
  cases d <;> cases d' <;> decide

/-- A group is known by its bit. -/
theorem groupBit_inj {g g' : Group} : groupBit g = groupBit g' ↔ g = g' := by
  cases g <;> cases g' <;> decide

/-- One half of one counter of the thread after a write whose indices exist. -/
theorem counterWrite_half (u : Thread) {w : AdcWrite} (hw : w.group < 3 ∧ w.chan < 2 ∧ w.dim < 4) (g : Group)
    (c : Fin 2) (d : Dim) (h : Half) : Counter.half h ((s.counterWrite u w).adc[u].get g c d) =
      ((AdcWrite.valueAt g c d h w).map (· % 2 ^ s.par.dimWidth d)).getD (Counter.half h (s.adc[u].get g c d)) := by
  obtain ⟨g', c', d', hg, hc, hd, e⟩ := counterWrite_place s u hw.1 hw.2.1 hw.2.2
  rw [e, pokeAdc_get, AdcWrite.valueAt, hg, hc, hd]
  simp only [groupBit_inj, dimNumber_inj, Fin.val_inj, Prod.mk.injEq, true_and]
  by_cases hp : g = g' ∧ c = c' ∧ d = d'
  · obtain ⟨rfl, rfl, rfl⟩ := hp
    simp only [and_self, if_true, true_and, Counter.half_poke]
    split <;> rfl
  · have hp' : ¬ (g' = g ∧ c' = c ∧ d' = d ∧ w.half = h) := fun ⟨a, b, x, _⟩ => hp ⟨a.symm, b.symm, x.symm⟩
    rw [if_neg hp, if_neg hp']
    rfl

/-- One half of one counter of the thread after a list of writes whose indices exist. -/
theorem adcWrites_half (u : Thread) (g : Group) (c : Fin 2) (d : Dim) (h : Half) : ∀ (ws : List AdcWrite) (s : State),
    (∀ w ∈ ws, w.group < 3 ∧ w.chan < 2 ∧ w.dim < 4) →
    Counter.half h ((ws.foldl (fun s' w => s'.counterWrite u w) s).adc[u].get g c d) =
      lastOf (fun w => (AdcWrite.valueAt g c d h w).map (· % 2 ^ s.par.dimWidth d)) ws (Counter.half h (s.adc[u].get g c d))
  | [], _, _ => rfl
  | w :: ws, s, hws => by
    obtain ⟨a, e⟩ := counterWrite_frame s u w
    have hpar : (s.counterWrite u w).par = s.par := by rw [e]
    rw [List.foldl_cons, adcWrites_half u g c d h ws _ fun x hx => hws x (by simp [hx]), lastOf_cons, hpar,
      counterWrite_half u (hws w (by simp))]

/-- Writes of counters reach the counters of their thread only. -/
theorem adcWrites_ne {u v : Thread} (hv : v ≠ u) : ∀ (ws : List AdcWrite) (s : State),
    (ws.foldl (fun s' w => s'.counterWrite u w) s).adc[v] = s.adc[v]
  | [], _ => rfl
  | w :: ws, s => by
    have hone : (s.counterWrite u w).adc[v] = s.adc[v] := by
      unfold State.counterWrite
      split
      · exact vget_set_ne _ hv _
      · rfl
    rw [List.foldl_cons, adcWrites_ne hv ws, hone]

/-- The thread whose counters a move writes, where the override names one. -/
theorem thconTarget_val {o : Option Nat} (h : ∀ v, o = some v → v < 3) : (s.thconTarget o).val = o.getD s.cur.val := by
  cases o with
  | none => rfl
  | some v => simp [State.thconTarget, h v rfl]

/-! ## The register move: registers (R217) -/

/-- The registers after the first `n` of four words were loaded. -/
theorem loadRegisters_get (reg : Nat) (vs : Vector Word 4) : ∀ n, n ≤ 4 → reg + n ≤ s.gpr[s.cur].length →
    (s.loadRegisters reg vs n).gpr[s.cur].length = s.gpr[s.cur].length ∧
    (∀ u : Thread, u ≠ s.cur → (s.loadRegisters reg vs n).gpr[u] = s.gpr[u]) ∧
    ∀ i, (s.loadRegisters reg vs n).gpr[s.cur][i]? =
      if reg ≤ i ∧ i < reg + n then vs[i - reg]? else s.gpr[s.cur][i]?
  | 0, _, _ => ⟨rfl, fun _ _ => rfl, fun i => (if_neg (by omega)).symm⟩
  | n + 1, h4, hlen => by
    obtain ⟨hl, hother, hget⟩ := loadRegisters_get reg vs n (by omega) (by omega)
    have hset : (s.loadRegisters reg vs (n + 1)).gpr[s.cur] =
        (s.loadRegisters reg vs n).gpr[s.cur].set (reg + n) ((vs[n]?).getD 0) := vget_set_self _ _ _
    refine ⟨by rw [hset, List.length_set, hl], fun u hu => (vget_set_ne _ hu _).trans (hother u hu), fun i => ?_⟩
    rw [hset, List.getElem?_set, hget, hl]
    by_cases hi : reg + n = i
    · subst hi
      rw [if_pos rfl, if_pos (by omega), if_pos (by omega), Nat.add_sub_cancel_left, Vector.getElem?_eq_getElem (by omega)]
      rfl
    · rw [if_neg hi]
      by_cases hr : reg ≤ i ∧ i < reg + n
      · rw [if_pos hr, if_pos (by omega)]
      · rw [if_neg hr, if_neg (by omega)]

/-! ## The register move (R217) -/

/-- How many registers a move takes, in the words of the statement. -/
theorem moveRegisters_eq (z : MoveSize) : moveRegisters z = if z = .b128 then 4 else 1 := by
  cases z <;> rfl

/-- Settles O37: the three kinds of effect, each by what a list of its writes leaves. -/
theorem registerMoveAppliesItsWrites : Obligations.RegisterMoveAppliesItsWrites := by
  intro s r f c b ts sz hlen a reg n inRange
  have hn : moveRegisters a.size = n := moveRegisters_eq _
  have hbad : thconBadIndex s.par.ngpr reg a = none ↔ inRange := by rw [thconBadIndex_none, hn]
  refine ⟨fun ⟨x, hx⟩ => if_pos (by rw [hx]; rfl), fun hin => ?_, fun hout => ?_⟩
  · have hx : exec (.reg2flop r f c b ts sz) s = .next (s.thconApply reg a.size a.effect) := by
      have := hbad.mpr hin
      simp only [exec, execReg2flop]
      rw [this]
    obtain ⟨hreg, hcfg, hadc⟩ := hin
    refine ⟨_, hx, fun ws hw => ?_, fun o ws hw => ?_, fun src vs hw => ?_⟩ <;> rw [hw] at hcfg hadc ⊢ <;>
      rw [State.thconApply]
    · obtain ⟨x, e⟩ := cfgWrites_frame ws s
      refine ⟨by rw [e], fun k i hi => cfgWrites_get k hi ws s fun w hws => ?_⟩
      exact hcfg _ rfl _ (List.mem_map_of_mem hws)
    · obtain ⟨hover, hplaces⟩ := hadc o _ rfl
      have hwrites : ∀ w ∈ ws, w.group < 3 ∧ w.chan < 2 ∧ w.dim < 4 := fun w hws => hplaces _ (List.mem_map_of_mem hws)
      obtain ⟨x, e⟩ := adcWrites_frame (s.thconTarget o) ws s
      refine ⟨by rw [e], fun u g k d => ?_⟩
      by_cases hu : u.val = o.getD s.cur.val
      · obtain rfl : u = s.thconTarget o := Fin.ext (hu.trans (thconTarget_val hover).symm)
        rw [if_pos hu]
        exact ⟨adcWrites_half _ g k d .counter ws s hwrites, adcWrites_half _ g k d .shadow ws s hwrites⟩
      · rw [if_neg hu]
        exact adcWrites_ne (fun h => hu (by rw [h, thconTarget_val hover])) ws s
    · obtain ⟨x, e⟩ := loadRegisters_frame reg (moveRegisters a.size) vs (s := s)
      have h4 : moveRegisters a.size ≤ 4 := by rw [moveRegisters_eq]; split <;> omega
      obtain ⟨hl, hother, hget⟩ := loadRegisters_get (s := s) reg vs (moveRegisters a.size) h4 (by rw [hlen, hn]; exact hreg)
      refine ⟨by rw [e], hother, hl.trans hlen, fun i _ => ?_⟩
      rw [hget, hn]
      split <;> rfl
  · obtain ⟨i, hi⟩ := Option.ne_none_iff_exists'.mp (mt hbad.mp hout)
    refine ⟨i, ?_⟩
    simp only [exec, execReg2flop]
    rw [hi]

/-! ## STOREREG (R219) -/

/-- The bytes of a word (20_memory.md R65). -/
theorem le32_toNat (v : Word) {k : Nat} (hk : k < 4) : ((le32 v)[k]'hk).toNat = v.toNat / 2 ^ (8 * k) % 256 := by
  interval_cases k <;> simp only [le32, List.getElem_cons_zero, List.getElem_cons_succ, BitVec.extractLsb'_toNat,
    Nat.shiftRight_eq_div_pow]

/-- Settles O38: the checks in their order, then four bytes are written. -/
theorem storeregWritesFourBytes : Obligations.StoreregWritesFourBytes := by
  intro s a r v hwf hlen addr
  refine ⟨rfl, fun h => ?_, fun hv hfit => ?_, fun hr => if_neg (by omega), fun hr hfit => ?_⟩
  · have : addr = s.par.storeregBase + 4 * a := rfl
    omega
  · have hr : r < s.par.ngpr := hlen ▸ (List.getElem?_eq_some_iff.mp hv).1
    have hval : s.gprOf s.cur r = v := by rw [State.gprOf, hv]; rfl
    have hx : exec (.storereg a r) s = .next { s with mem := s.mem.writeBytes addr (le32 v) } := by
      rw [← hval]
      exact (if_pos hr).trans (if_pos (by simpa [State.served] using hfit))
    refine ⟨_, hx, rfl, fun k hk => ?_, fun x hx => Memory.read_writeBytes_outside hwf hx⟩
    exact (congrArg BitVec.toNat (Memory.read_writeBytes_inside (bs := le32 v) hwf hk)).trans (le32_toNat v hk)
  · exact (if_pos hr).trans (if_neg (by simpa [State.served] using hfit))

/-! ## FLUSHDMA (R221 to R223) -/

/-- Thread u has an outstanding flush whose selected units have no work of it left (R223). -/
def State.FlushDone (s : State) (u : Thread) : Prop :=
  ∃ m, s.flush[u] = some m ∧ ∀ v : DmaUnit, m.getLsbD (dmaIndex v) = true →
    (∀ e ∈ s.queueOf v.unit, e.thread ≠ u) ∧ s.inflightOf v u = 0

/-- When no selected unit has work of a thread left. -/
theorem anyInFlight_false {m : BitVec 3} {u : Thread} : s.anyInFlight m u = false ↔
    ∀ v : DmaUnit, m.getLsbD (dmaIndex v) = true → (∀ e ∈ s.queueOf v.unit, e.thread ≠ u) ∧ s.inflightOf v u = 0 := by
  rw [← Bool.not_eq_true, anyInFlight_iff]
  push Not
  simp only [Nat.le_zero]

/-- The re-check ends a flush that is done. -/
theorem recheckFlush_of_done {u : Thread} (h : s.FlushDone u) : s.recheckFlush u =
    { s with flush := s.flush.set u none, backendStall := s.backendStall.set u false } := by
  obtain ⟨m, hm, hidle⟩ := h
  simp only [State.recheckFlush, hm, anyInFlight_false.mpr hidle]
  rfl

/-- The re-check leaves everything else. -/
theorem recheckFlush_of_not_done {u : Thread} (h : ¬ s.FlushDone u) : s.recheckFlush u = s := by
  rw [State.recheckFlush]
  split
  · next m hm =>
    refine if_pos ?_
    rw [← Bool.not_eq_false]
    exact fun hf => h ⟨m, hm, anyInFlight_false.mp hf⟩
  · rfl

/-- The re-check of one thread leaves what another thread's flush says. -/
theorem recheckFlush_ne {u v : Thread} (h : v ≠ u) : (s.recheckFlush u).flush[v] = s.flush[v] ∧
    (s.recheckFlush u).backendStall[v] = s.backendStall[v] ∧ ((s.recheckFlush u).FlushDone v ↔ s.FlushDone v) := by
  by_cases hd : s.FlushDone u
  · rw [recheckFlush_of_done hd]
    have hf : (s.flush.set u none)[v] = s.flush[v] := vget_set_ne _ h _
    exact ⟨hf, vget_set_ne _ h _, by simp only [State.FlushDone, hf]; rfl⟩
  · rw [recheckFlush_of_not_done hd]
    exact ⟨rfl, rfl, Iff.rfl⟩

/-- What re-checking some threads leaves of thread u's flush, u being among them once. -/
theorem recheckFlushes_get {u : Thread} : ∀ (l : List Thread) (s : State), l.Nodup →
    (u ∈ l → s.FlushDone u → (l.foldl State.recheckFlush s).flush[u] = none ∧
      (l.foldl State.recheckFlush s).backendStall[u] = false) ∧
    (u ∉ l ∨ ¬ s.FlushDone u → (l.foldl State.recheckFlush s).flush[u] = s.flush[u] ∧
      (l.foldl State.recheckFlush s).backendStall[u] = s.backendStall[u])
  | [], s, _ => ⟨fun h => absurd h List.not_mem_nil, fun _ => ⟨rfl, rfl⟩⟩
  | v :: l, s, hl => by
    rw [List.nodup_cons] at hl
    obtain ⟨hdone, hkept⟩ := recheckFlushes_get (u := u) l (s.recheckFlush v) hl.2
    rw [List.foldl_cons]
    by_cases huv : u = v
    · subst huv
      obtain ⟨ef, eb⟩ := hkept (.inl hl.1)
      rw [ef, eb]
      refine ⟨fun _ hd => ?_, fun hd => ?_⟩
      · rw [recheckFlush_of_done hd]
        exact ⟨vget_set_self _ _ _, vget_set_self _ _ _⟩
      · rw [recheckFlush_of_not_done (hd.resolve_left (by simp))]
        exact ⟨rfl, rfl⟩
    · obtain ⟨ef, eb, ed⟩ := recheckFlush_ne (s := s) huv
      rw [ed, ef, eb] at hkept
      rw [ed] at hdone
      refine ⟨fun hm hd => hdone ((List.mem_cons.mp hm).resolve_left huv) hd, fun h => hkept ?_⟩
      exact h.imp_left fun hm hu => hm (List.mem_cons_of_mem _ hu)

/-- Settles O39: FLUSHDMA by whether selected work is in flight; the re-check thread by thread. -/
theorem flushdmaStallsAndClears : Obligations.FlushdmaStallsAndClears := by
  refine ⟨?_, fun s => ?_⟩
  · intro s spec busy
    have hbits : ∀ u : DmaUnit, (BitVec.ofNat 3 spec).getLsbD (dmaIndex u) = spec.testBit (dmaIndex u).val := fun u => by
      rw [BitVec.getLsbD_ofNat, decide_eq_true (dmaIndex u).isLt, Bool.true_and]
    have hbusy : s.anyInFlight (BitVec.ofNat 3 spec) s.cur = true ↔ busy := by
      rw [anyInFlight_iff]
      simp only [hbits]
      rfl
    refine ⟨fun hb => ⟨_, BitVec.ofNat 3 spec, if_pos (hbusy.mpr hb), rfl, vget_set_self _ _ _, BitVec.toNat_ofNat _ _,
      vget_set_self _ _ _, fun u hu => ⟨vget_set_ne _ hu _, vget_set_ne _ hu _⟩⟩, fun hb => if_neg (mt hbusy.mp hb)⟩
  · obtain ⟨f, b, e⟩ := preUnit_frame s .scalar
    refine ⟨_, rfl, by rw [e], ?_⟩
    intro u done
    obtain ⟨hdone, hkept⟩ := recheckFlushes_get (u := u) [0, 1, 2] s (by decide)
    exact ⟨fun hd => hdone (by fin_cases u <;> decide) hd, fun hn => hkept (.inr hn)⟩

end Sys2Proof.Machine
end

section
/-! PROOFS. The Misc/ADC unit (45_adc_unit.md): the two-dimension instructions (R235 to R240), SETADC (R241), the thread
override (R233) and the counters' equality with their shadows (R245). -/

namespace Sys2Proof.Machine

variable {s t : State}

/-! ## The shared operation (R230, R234) -/

/-- What a two-dimension instruction does to one counter. -/
def pairStep (p : Params) (pair : DimPair) (enable : Nat) (v : PairValues) (f : Nat → Nat → Counter → Counter)
    (c : Fin 2) (d : Dim) (x : Counter) : Counter :=
  match pairPlace pair c d with
  | some k => if enable.testBit k then f (p.dimWidth d) (v.at k) x else x
  | none => x

/-- A two-dimension instruction completes, with the effect of its step on every counter. -/
theorem overPairs_effect {u : Thread} {o m en : Nat} {pair : DimPair} {v : PairValues}
    {f : Nat → Nat → Counter → Counter} {F : Fin 2 → Dim → Counter → Counter} (ho : overrideThread s.cur o = .ok u)
    (hF : ∀ c d x, F c d x = pairStep s.par pair en v f c d x) :
    ∃ t, s.overAdc o m (pairOps s.par pair en v f) = .next t ∧ s.AdcEffect t u m F := by
  refine overAdc_effect s u o m _ F ho fun c d x => (hF c d x).trans ?_
  rw [pairStep, pairOps]
  cases pairPlace pair c d with
  | none => rfl
  | some k =>
    dsimp only
    cases en.testBit k <;> rfl

/-- The channels are two. -/
theorem chan_cases (c : Fin 2) : c = 0 ∨ c = 1 := by omega

/-! ## SETADCXY, SETADCZW and SETADC (R235, R236, R241) -/

/-- The dimensions of R241 by their numbers. -/
theorem dimOfIndex_ok {n : Nat} (h : n < 4) : ∃ d, dimOfIndex n = .ok d ∧ dimNumber d = n := by
  interval_cases n
  exacts [⟨.x, rfl, rfl⟩, ⟨.y, rfl, rfl⟩, ⟨.z, rfl, rfl⟩, ⟨.w, rfl, rfl⟩]

/-- SETADC of a channel and a dimension that exist is the shared operation on their counter. -/
theorem exec_setadc {u : Thread} {o ch : Nat} (ho : overrideThread s.cur o = .ok u) (hc : ch < 2) (d : Dim)
    (v m : Nat) : exec (.setadc v (dimNumber d) ch m o) s = s.overAdc o m fun c' d' =>
      if c' = ⟨ch, hc⟩ ∧ d' = d then some (Counter.setTo (s.par.dimWidth d) v) else none := by
  have hchan : chanOfIndex ch = .ok ⟨ch, hc⟩ := dif_pos hc
  have hdim : dimOfIndex (dimNumber d) = .ok d := by cases d <;> rfl
  simp only [exec, execSetadc, ho, hchan, hdim, orFault]

/-- Settles O40: the pair instructions counter by counter (`overPairs_effect`), SETADC by whether the counter is the
one it names. -/
theorem setAdcCounters : Obligations.SetAdcCounters := by
  intro s u bm a b c d m o hu
  have ho : overrideThread s.cur o = .ok u := overrideThread_ok s u o hu
  refine ⟨overPairs_effect ho fun ch dim x => ?_, overPairs_effect ho fun ch dim x => ?_, fun v dim ch hc hd => ?_⟩
  · rcases chan_cases ch with rfl | rfl <;> cases dim <;> rfl
  · rcases chan_cases ch with rfl | rfl <;> cases dim <;> rfl
  · obtain ⟨e, -, rfl⟩ := dimOfIndex_ok hd
    rw [exec_setadc ho hc e]
    refine overAdc_effect s u o m _ _ ho fun c' d' x => ?_
    by_cases h : c' = ⟨ch, hc⟩ ∧ d' = e
    · rw [if_pos h]
      obtain ⟨rfl, rfl⟩ := h
      cases d' <;> exact if_pos ⟨rfl, rfl⟩
    · rw [if_neg h]
      have h' : ¬ (c'.val = ch ∧ dimNumber d' = dimNumber e) := fun ⟨hx, hy⟩ => h ⟨Fin.ext hx, dimNumber_inj.mp hy⟩
      cases d' <;> exact if_neg h'

/-! ## INCADCXY and INCADCZW (R237, R238) -/

/-- An increment in the words of the statement. -/
theorem Counter.inc_eq (mode : IncadcShadow) (w v : Nat) (x : Counter) : x.inc mode w v =
    ⟨(x.val + v) % 2 ^ w, if mode = .counterOnly then x.cr else (x.cr + v) % 2 ^ w⟩ := by
  cases mode <;> rfl

/-- Settles O41: counter by counter, each of the four pairs being enabled. -/
theorem incrementAdcPairs : Obligations.IncrementAdcPairs := by
  intro s u a b c d m o hu inc
  have ho : overrideThread s.cur o = .ok u := overrideThread_ok s u o hu
  have hinc : Counter.inc s.par.incadcShadow = inc := by
    funext w v x
    exact Counter.inc_eq _ w v x
  refine ⟨overPairs_effect ho fun ch dim x => ?_, overPairs_effect ho fun ch dim x => ?_⟩ <;> rw [hinc]
  · rcases chan_cases ch with rfl | rfl <;> cases dim <;> rfl
  · rcases chan_cases ch with rfl | rfl <;> cases dim <;> rfl

/-! ## ADDRCRXY and ADDRCRZW (R239, R240) -/

/-- A clear or carriage return in the words of the statement. -/
theorem Counter.addrcr_eq (mode : AddrcrMode) (w v : Nat) (x : Counter) : x.addrcr mode w v =
    if mode = .carriageReturn then ⟨(x.cr + v) % 2 ^ w, (x.cr + v) % 2 ^ w⟩ else ⟨0, 0⟩ := by
  cases mode <;> rfl

/-- Settles O42: counter by counter. -/
theorem clearAdcPairs : Obligations.ClearAdcPairs := by
  intro s u bm a b c d m o hu act
  have ho : overrideThread s.cur o = .ok u := overrideThread_ok s u o hu
  have hact : ∀ (on : Bool) (w v : Nat) (x : Counter),
      act on w v x = if on then x.addrcr s.par.addrcrMode w v else x := fun on w v x => by
    rw [Counter.addrcr_eq]
  refine ⟨overPairs_effect ho fun ch dim x => ?_, overPairs_effect ho fun ch dim x => ?_⟩ <;> simp only [hact]
  · rcases chan_cases ch with rfl | rfl <;> cases dim <;> rfl
  · rcases chan_cases ch with rfl | rfl <;> cases dim <;> rfl

/-! ## The thread override (R233) -/

/-- Settles O43: every member of the family resolves the override first. -/
theorem overrideOfNoThreadFaults : Obligations.OverrideOfNoThreadFaults := by
  intro s k a b c d m o h0 h3 i hi
  have herr : overrideThread s.cur o = .error (.index (o - 1)) := by
    rw [overrideThread, if_neg h0, dif_neg (by omega)]
  have hover : ∀ f, s.overAdc o m f = .fault (.invalidFieldAccess (.index (o - 1))) := fun f => by
    rw [State.overAdc, herr]; rfl
  simp only [List.mem_cons, List.not_mem_nil, or_false] at hi
  rcases hi with rfl | rfl | rfl | rfl | rfl | rfl | rfl
  · simp only [exec, execSetadc, herr, orFault]
  all_goals exact hover _

/-! ## Counters and their shadows (R245) -/

/-- Every counter equals its shadow (R245). -/
def State.Balanced (s : State) : Prop :=
  ∀ (u : Thread) (g : Group) (c : Fin 2) (d : Dim), (s.adc[u].get g c d).val = (s.adc[u].get g c d).cr

/-- The shared operation keeps the counters equal to their shadows where its operations do. -/
theorem State.Balanced.overAdc (h : s.Balanced) {o m : Nat} {f : Fin 2 → Dim → Option (Counter → Counter)}
    (hf : ∀ c d k x, f c d = some k → x.val = x.cr → (k x).val = (k x).cr) (hx : s.overAdc o m f = .next t) :
    t.Balanced := by
  intro u g c d
  obtain ⟨v, -, -, hother, hget⟩ := s.overAdc_next hx
  by_cases huv : u = v
  · subst huv
    rw [hget]
    cases hk : f c d with
    | none => exact h u g c d
    | some k =>
      dsimp only
      split
      · exact hf c d k _ hk (h u g c d)
      · exact h u g c d
  · rw [hother u huv]; exact h u g c d

/-- A two-dimension instruction keeps the counters equal to their shadows where its step does. -/
theorem State.Balanced.overPairs (h : s.Balanced) {o m en : Nat} {pair : DimPair} {v : PairValues}
    {f : Nat → Nat → Counter → Counter} (hf : ∀ w y x, x.val = x.cr → (f w y x).val = (f w y x).cr)
    (hx : s.overAdc o m (pairOps s.par pair en v f) = .next t) : t.Balanced :=
  h.overAdc (fun c d k x hk hb => by obtain ⟨y, rfl⟩ := pairOps_eq_some hk; exact hf _ y x hb) hx

/-- Settles O45: the family writes a counter and its shadow alike, and no other instruction but the register move
writes counters (`exec_frame`). -/
theorem countersEqualTheirShadows : Obligations.CountersEqualTheirShadows := by
  intro s t i hinc hclr hi hb hx
  have hbal : s.Balanced := hb
  change t.Balanced
  have hset : ∀ (w y : Nat) (x : Counter), x.val = x.cr → (x.setTo w y).val = (x.setTo w y).cr := fun _ _ _ _ => rfl
  have hincr : ∀ (w y : Nat) (x : Counter), x.val = x.cr →
      (x.inc s.par.incadcShadow w y).val = (x.inc s.par.incadcShadow w y).cr := fun w y x h => by
    rw [hinc]
    exact congrArg (fun n => truncTo w (n + y)) h
  have hclear : ∀ (w y : Nat) (x : Counter), x.val = x.cr →
      (x.addrcr s.par.addrcrMode w y).val = (x.addrcr s.par.addrcrMode w y).cr := fun w y x _ => by
    rw [hclr]; rfl
  have hframe : i.opName ∉ [.setadc, .setadcxy, .setadczw, .incadcxy, .incadczw, .addrcrxy, .addrcrzw, .reg2flop] →
      t.Balanced := fun h => by
    rw [State.Balanced, (exec_frame hx).adc h]; exact hbal
  cases i
  case reg2flop => exact absurd rfl hi
  case setadcxy => exact hbal.overPairs hset hx
  case setadczw => exact hbal.overPairs hset hx
  case incadcxy => exact hbal.overPairs hincr hx
  case incadczw => exact hbal.overPairs hincr hx
  case addrcrxy => exact hbal.overPairs hclear hx
  case addrcrzw => exact hbal.overPairs hclear hx
  case setadc =>
    obtain ⟨_, -, hx⟩ := orFault_next hx
    obtain ⟨_, -, hx⟩ := orFault_next hx
    obtain ⟨_, -, hx⟩ := orFault_next hx
    refine hbal.overAdc (fun c d k x hk _ => ?_) hx
    split at hk
    · cases hk; rfl
    · cases hk
  all_goals exact hframe (by simp [Instr.opName])

end Sys2Proof.Machine
end

section
/-! PROOFS. The Matrix unit (46_matrix_unit.md): SETRWC (R254) and ZEROACC (R255, R256). -/

namespace Sys2Proof.Machine

variable {s : State} {dst am cm : Nat} {sc : Scope}

/-! ## SETRWC (R254) -/

/-- Settles O46: the set of the issuing thread is written, field by field. -/
theorem setrwcUpdatesCounters : Obligations.SetrwcUpdatesCounters := by
  intro s bm a b d cr cl old upd
  exact ⟨_, rfl, rfl, fun u hu => vget_set_ne _ hu _, vget_set_self _ _ _⟩

/-! ## ZEROACC (R255, R256) -/

/-- The scopes by `clear_mode`, in the words of the statements. -/
theorem scopeOf_eq (cm : Nat) : scopeOf cm = [Scope.single, .block16, .half, .whole][cm]? := by
  match cm with
  | 0 => rfl
  | 1 => rfl
  | 2 => rfl
  | 3 => rfl
  | _ + 4 => rfl

/-- The rows that are marked. -/
theorem mem_zeroaccMarks {r : Nat} : r ∈ s.zeroaccMarks sc dst ↔
    s.zeroaccEnabled = true ∧ r ∈ s.zeroaccRows sc dst s.mode32 := by
  rw [State.zeroaccMarks]
  split
  · next h => simp [h]
  · next h => simp [h]

/-- No marked row is missing exactly where every row of an enabled marking exists. -/
theorem badRow_none : s.badRow (s.zeroaccMarks sc dst) = none ↔
    (s.zeroaccEnabled = true → ∀ r ∈ s.zeroaccRows sc dst s.mode32, r < s.par.dstRows) := by
  rw [State.badRow, List.find?_eq_none]
  simp only [mem_zeroaccMarks, decide_eq_true_eq, Nat.not_le, and_imp]
  exact ⟨fun h he r hr => h r he hr, fun h r he hr => h he r hr⟩

/-- A marked row that does not exist stops the instruction. -/
theorem exec_zeroacc_badRow {r : Nat} (hsc : scopeOf cm = some sc) (hr : s.badRow (s.zeroaccMarks sc dst) = some r) :
    exec (.zeroacc dst am cm) s = .fault (.invalidFieldAccess (.index r)) := by
  simp only [exec, execZeroacc, hsc, hr]

/-- An address-mod step without a bank stops the instruction. -/
theorem exec_zeroacc_badBank {x : FieldRef} (hsc : scopeOf cm = some sc)
    (hr : s.badRow (s.zeroaccMarks sc dst) = none) (hb : s.zeroaccBank sc = .error x) :
    exec (.zeroacc dst am cm) s = .fault (.invalidFieldAccess x) := by
  simp only [exec, execZeroacc, hsc, hr, hb, orFault]

/-- ZEROACC without the address-mod step. -/
theorem exec_zeroacc_noBank (hsc : scopeOf cm = some sc) (hr : s.badRow (s.zeroaccMarks sc dst) = none)
    (hb : s.zeroaccBank sc = .ok none) :
    exec (.zeroacc dst am cm) s = .next (s.markRows (s.zeroaccMarks sc dst)) := by
  simp only [exec, execZeroacc, hsc, hr, hb, orFault]

/-- ZEROACC with the address-mod step. -/
theorem exec_zeroacc_bank {b : Fin 2} (hsc : scopeOf cm = some sc) (hr : s.badRow (s.zeroaccMarks sc dst) = none)
    (hb : s.zeroaccBank sc = .ok (some b)) :
    exec (.zeroacc dst am cm) s = .next ((s.markRows (s.zeroaccMarks sc dst)).applyAddrMod b am) := by
  simp only [exec, execZeroacc, hsc, hr, hb, orFault]

/-- The half and whole scopes have no address-mod step. -/
theorem zeroaccBank_wide (hsc : scopeOf cm = some sc) (h : 2 ≤ cm) : s.zeroaccBank sc = .ok none := by
  match cm, h with
  | 2, _ => cases hsc; rfl
  | 3, _ => cases hsc; rfl
  | _ + 4, _ => cases hsc

/-- The single-row and 16-row scopes read the active bank. -/
theorem zeroaccBank_narrow (hsc : scopeOf cm = some sc) (h : cm < 2) :
    s.zeroaccBank sc = (s.activeBank s.cur).map some := by
  match cm, h with
  | 0, _ => cases hsc; rfl
  | 1, _ => cases hsc; rfl

/-- Settles O47: the rows exist, so they are marked, and the two narrow scopes make the address-mod step. -/
theorem zeroaccMarksRows : Obligations.ZeroaccMarksRows := by
  intro s dst am cm sc hcm rows hrows
  have hsc : scopeOf cm = some sc := (scopeOf_eq cm).trans hcm
  have hbad : s.badRow (s.zeroaccMarks sc dst) = none := badRow_none.mpr hrows
  have hmark : ∀ r, r ∈ (s.markRows (s.zeroaccMarks sc dst)).dstUndefined ↔
      r ∈ s.dstUndefined ∨ (s.zeroaccEnabled = true ∧ r ∈ rows) := fun r => by
    rw [mem_markRows, mem_zeroaccMarks]
  refine ⟨fun h2 => ⟨_, exec_zeroacc_noBank hsc hbad (zeroaccBank_wide hsc h2), rfl, hmark⟩, fun h2 b hb => ?_⟩
  have hbank : s.zeroaccBank sc = .ok (some b) := by rw [zeroaccBank_narrow hsc h2, hb]; rfl
  have hrwc : ((s.markRows (s.zeroaccMarks sc dst)).applyAddrMod b am).rwc[s.cur] = (s.addrModFn b am).trunc s.par :=
    vget_set_self _ _ _
  exact ⟨_, exec_zeroacc_bank hsc hbad hbank, rfl, hmark, fun u hu => vget_set_ne _ hu _, hrwc, by
    rw [hrwc]; exact Rwc.trunc_fits _ _⟩

/-- Settles O48: the rows of each scope, and the checks in their order. -/
theorem zeroaccRowsAndStops : Obligations.ZeroaccRowsAndStops := by
  intro s dst am cm
  refine ⟨⟨_, rfl⟩, ⟨_, List.range'_eq_map_range⟩, ?_, fun m => by cases m <;> rfl, fun h => ?_, fun sc hcm => ?_⟩
  · rw [State.zeroaccRows]
    split
    · exact .inl List.range_eq_range'.symm
    · exact .inr List.range'_eq_map_range
  · have hsc : scopeOf cm = none := by rw [scopeOf_eq]; exact List.getElem?_eq_none h
    simp only [exec, execZeroacc, hsc]
  · have hsc : scopeOf cm = some sc := (scopeOf_eq cm).trans hcm
    refine ⟨fun he ⟨r, hr, hge⟩ => ?_, fun hrows h2 x hx => ?_⟩
    · have hbad : s.badRow (s.zeroaccMarks sc dst) ≠ none := fun h => by
        have := badRow_none.mp h he r hr
        omega
      obtain ⟨y, hy⟩ := Option.ne_none_iff_exists'.mp hbad
      have hge : decide (s.par.dstRows ≤ y) = true := List.find?_some (p := fun r => decide (s.par.dstRows ≤ r)) hy
      exact ⟨y, (mem_zeroaccMarks.mp (List.mem_of_find?_eq_some hy)).2, of_decide_eq_true hge, exec_zeroacc_badRow hsc hy⟩
    · exact exec_zeroacc_badBank hsc (badRow_none.mpr hrows) (by rw [zeroaccBank_narrow hsc h2, hx]; rfl)

end Sys2Proof.Machine
end

section
/-! PROOFS. The Mover (47_mover_and_other_units.md R265 to R268). -/

namespace Sys2Proof.Machine

variable {s : State}

/-! ## The bytes and the accesses of a transfer (R268, U14) -/

/-- The bytes a transfer writes are as many as it has. -/
@[simp] theorem transferBytes_length (s : State) (x : Transfer) : (s.transferBytes x).length = x.n := by
  rw [State.transferBytes]
  cases x.srcRegion <;> simp [Memory.readBytes]

/-- The bytes a transfer writes. -/
theorem transferBytes_get (s : State) (x : Transfer) {k : Nat} (hk : k < (s.transferBytes x).length) :
    (s.transferBytes x)[k] = if x.srcRegion = .l1 then s.mem.read (x.src + k) else 0 := by
  obtain ⟨src, dst, a, b, n⟩ := x
  cases src <;> simp [State.transferBytes, Memory.readBytes]

/-- An access the memory can serve. -/
theorem served_iff {a n : Nat} : s.served a n = true ↔ a + n ≤ s.par.memSize.toNat := decide_eq_true_iff

/-- Every access of the transfer is served. -/
theorem transferUnserved_none {x : Transfer} (hsrc : x.srcRegion = .l1 → x.src + x.n ≤ s.par.memSize.toNat)
    (hdst : x.dst + x.n ≤ s.par.memSize.toNat) : s.transferUnserved x = none := by
  have hread : ¬ (decide (x.srcRegion = .l1) && !s.served x.src x.n) = true := fun h => by
    simp only [Bool.and_eq_true, decide_eq_true_eq, Bool.not_eq_true', ← Bool.not_eq_true, served_iff] at h
    exact h.2 (hsrc h.1)
  exact (if_neg hread).trans (if_pos (served_iff.mpr hdst))

/-- The read of a copy is not served. -/
theorem transferUnserved_src {x : Transfer} (hl1 : x.srcRegion = .l1) (hsrc : s.par.memSize.toNat < x.src + x.n) :
    s.transferUnserved x = some x.src := by
  have hread : s.served x.src x.n = false := by rw [← Bool.not_eq_true, served_iff]; omega
  exact if_pos (by rw [hl1, hread]; rfl)

/-- The write is not served. -/
theorem transferUnserved_dst {x : Transfer} (hsrc : x.srcRegion = .l1 → x.src + x.n ≤ s.par.memSize.toNat)
    (hdst : s.par.memSize.toNat < x.dst + x.n) : s.transferUnserved x = some x.dst := by
  have hread : ¬ (decide (x.srcRegion = .l1) && !s.served x.src x.n) = true := fun h => by
    simp only [Bool.and_eq_true, decide_eq_true_eq, Bool.not_eq_true', ← Bool.not_eq_true, served_iff] at h
    exact h.2 (hsrc h.1)
  exact (if_neg hread).trans (if_neg (by rw [served_iff]; omega))

/-! ## XMOV (R265 to R268) -/

section Checked
variable (l mb : Nat) (hn : s.moverOperands.n ≠ 0) (hok : s.transferOk s.moverOperands = true)
include hn hok

/-- A checked transfer with an access the memory cannot serve. -/
theorem exec_xmov_unserved {a : Nat} (hu : s.transferUnserved s.moverOperands = some a) :
    exec (.xmov l mb) s = .fault (.memoryUnserved a s.moverOperands.n) := by
  simp only [exec, execXmov, hok, hn, hu, if_true, if_false]

/-- A checked transfer that the memory serves. -/
theorem exec_xmov_served (hu : s.transferUnserved s.moverOperands = none) : exec (.xmov l mb) s = .next { s with
    mem := s.mem.writeBytes s.moverOperands.dst (s.transferBytes s.moverOperands) } := by
  simp only [exec, execXmov, hok, hn, hu, if_true, if_false]

end Checked

/-- Settles O49: the checks hold, so the accesses decide, the read first. -/
theorem xmovCopiesOrFills : Obligations.XmovCopiesOrFills := by
  intro s l mb hwf x inside size
  refine ⟨fun h0 => ?_, fun hpos hsrc hdst hsb hdb => ?_⟩
  · have hok : s.transferOk s.moverOperands = true := by
      have h0' : s.moverOperands.n = 0 := h0
      rw [State.transferOk, decide_eq_true h0', Bool.true_or]
    exact (if_pos hok).trans (if_pos h0)
  · have hok : s.transferOk s.moverOperands = true := (transferOk_iff s _ hpos).mpr ⟨hsrc, hdst, hsb, hdb⟩
    have hn : s.moverOperands.n ≠ 0 := Nat.pos_iff_ne_zero.mp hpos
    refine ⟨fun hs hd => ⟨_, exec_xmov_served l mb hn hok (transferUnserved_none hs hd), rfl, fun k hk => ?_, fun a ha =>
      Memory.read_writeBytes_outside hwf (by rwa [transferBytes_length])⟩, fun hl1 hs => ?_, fun hs hd => ?_⟩
    · have hk' : k < (s.transferBytes s.moverOperands).length := by rwa [transferBytes_length]
      exact (Memory.read_writeBytes_inside hwf hk').trans (transferBytes_get s _ hk')
    · exact exec_xmov_unserved l mb hn hok (transferUnserved_src hl1 hs)
    · exact exec_xmov_unserved l mb hn hok (transferUnserved_dst hs hd)

/-- Settles O50: a check fails (`transferOk_iff`), and the checks come before any access. -/
theorem xmovRejectsBadRanges : Obligations.XmovRejectsBadRanges := by
  intro s l mb x inside hpos hbad
  refine if_neg fun hok => ?_
  obtain ⟨hsrc, hdst, hsb, hdb⟩ := (transferOk_iff s _ hpos).mp hok
  exact hbad.elim (· hsrc) fun h => h.elim (· hdst) fun h => h.elim (· hsb) (· hdb)

end Sys2Proof.Machine
end

section
/-! PROOFS. Dispatch and the queues (41_dispatch_and_queues.md): routing (R150 to R152), generic admission (R154) and
the drain of a unit (R156, R157, R271). -/

namespace Sys2Proof.Machine

variable {s x : State} {u : FUnit}

/-! ## Routing (R150 to R152) -/

/-- Settles O51: `routeOf` by tag, the unpacker pair by the selection bit. -/
theorem tagsRouteToUnits : Obligations.TagsRouteToUnits := by
  intro p w n
  refine ⟨rfl, rfl, rfl, rfl, rfl, rfl, rfl, rfl, rfl, fun h => ?_, fun h => ?_, rfl, rfl⟩
  · simp only [routeOf, h, Bool.false_eq_true, if_false]
  · simp only [routeOf, h, if_true]

/-! ## Generic admission (R154, R155, R216) -/

/-- The units other than Config and Sync admit generically. -/
theorem offer_generic (hc : u ≠ .config) (hs : u ≠ .sync) (s : State) (t : Thread) (d : Decoded) :
    s.offer u t d = s.offerIf u ⟨d.word, t⟩ (!s.stalled u && !s.queued u t) := by
  cases u
  case config => exact absurd rfl hc
  case sync => exact absurd rfl hs
  all_goals rfl

/-- When a unit is not stalled, in the words of the statement. -/
theorem stalled_false : s.stalled u = false ↔ (u = .scalar → ∀ v : Thread, s.flush[v] = none) := by
  have hall : (∀ v : Thread, s.flush[v] = none) ↔ s.flush[(0 : Thread)] = none ∧ s.flush[(1 : Thread)] = none ∧
      s.flush[(2 : Thread)] = none := Fin.forall_fin_succ.trans (and_congr_right fun _ =>
    Fin.forall_fin_succ.trans (and_congr_right fun _ => Fin.forall_fin_one))
  rw [hall]
  by_cases hu : u = .scalar <;> simp [State.stalled, hu]

/-- Settles O52: `offerIf_iff` with the two conditions in the statement's words. -/
theorem genericAdmission : Obligations.GenericAdmission := by
  intro s u t d hc hs ok
  rw [offer_generic hc hs]
  refine offerIf_iff _ _ _ _ _ ?_
  rw [Bool.and_eq_true, Bool.not_eq_true', Bool.not_eq_true', stalled_false, queued_false]

/-! ## The drain (R156) -/

/-- What a queue entry holds is a question of the parameters. -/
theorem State.Holds.congr {e : Entry} {i : Issue} (h : s.Holds u e i) (hp : x.par = s.par) : x.Holds u e i := by
  obtain ⟨ht, hu, hd, hi⟩ := h
  exact ⟨ht, hu, by rw [hp]; exact hd, hi⟩

/-- A run of the first issue, then of the rest. -/
theorem runAll_cons {i : Issue} {is : List Issue} {s' : State} (h : runAll (i :: is) s = some s') :
    (s.issue i.thread i.view).missingArg i.instr = none ∧
      ∃ z, exec i.instr (s.issue i.thread i.view) = .next z ∧ runAll is z = some s' := by
  rw [runAll] at h
  split at h
  · next z hm hx => exact ⟨hm, z, hx, h⟩
  · cases h

/-- A drain of entries that all answer a next state. -/
theorem drainLoop_of_runAll {s' : State} : ∀ (es : List Entry) (is : List Issue) {s : State}, s.halt = none →
    List.Forall₂ (s.Holds u) es is → runAll is s = some s' →
    State.drainLoop u es s = s' ∧ s'.halt = none ∧ s'.par = s.par ∧ s'.inflight = s.inflight
  | _, _, s, hh, .nil, hrun => by cases hrun; exact ⟨rfl, hh, rfl, rfl⟩
  | e :: es, i :: is, s, hh, .cons he hes, hrun => by
    obtain ⟨hm, z, hx, hrest⟩ := runAll_cons hrun
    have hentry : s.execEntry u e = z := by
      rw [execEntry_of_holds he, State.runInstr, hm, hx]; rfl
    have hpar : z.par = s.par := exec_par (s := s.issue i.thread i.view) hx
    obtain ⟨hd, hh', hp', hi'⟩ := drainLoop_of_runAll es is ((exec_halt (s := s.issue i.thread i.view) hx).trans hh)
      (hes.imp fun _ _ h => h.congr hpar) hrest
    refine ⟨?_, hh', hp'.trans hpar, hi'.trans (exec_inflight (s := s.issue i.thread i.view) hx)⟩
    rw [State.drainLoop, List.foldl_cons, State.andThen_of_running _ (by simp [State.halted, hh]), hentry]
    exact hd

/-- A drain that stops at an entry. -/
theorem unitTick_of_stop {es rest : List Entry} {e : Entry} {s' z : State} (hq : s.queueOf u = es ++ e :: rest)
    (hd : State.drainLoop u es (s.preUnit u) = s') (hh : s'.halt = none) (he : s'.execEntry u e = z)
    (hz : z.halted = true) : s.unitTick u = z := by
  have hqueue : (s.preUnit u).queueOf u = es ++ e :: rest := by
    obtain ⟨f, b, hf⟩ := preUnit_frame s u
    rw [hf]; exact hq
  have hloop : State.drainLoop u (es ++ e :: rest) (s.preUnit u) = z := by
    rw [State.drainLoop] at hd
    rw [State.drainLoop, List.foldl_append, List.foldl_cons, hd,
      State.andThen_of_running _ (by simp [State.halted, hh]), he]
    exact drainLoop_of_halted u rest z hz
  rw [State.unitTick, hqueue, hloop, State.andThen_of_halted _ hz]

/-! ## The occupancy and the count-down (R271) -/

/-- A data unit is known by its unit. -/
theorem dmaOf_unit (v : DmaUnit) : dmaOf v.unit = some v := by cases v <;> rfl

/-- The occupancy effect of an entry. -/
theorem occupy_inflightOf (s : State) (u : FUnit) (t t' : Thread) (v : DmaUnit) : (s.occupy u t).inflightOf v t' =
    if v.unit = u ∧ t' = t then s.par.latency[dmaIndex v] else s.inflightOf v t' := by
  rw [State.occupy]
  cases hu : dmaOf u with
  | none =>
    have hv : ¬ (v.unit = u ∧ t' = t) := fun ⟨h, _⟩ => by rw [← h, dmaOf_unit] at hu; cases hu
    rw [if_neg hv]
  | some w =>
    have hv : v.unit = u ↔ v = w := by
      refine ⟨fun h => ?_, fun h => ?_⟩
      · rw [← h, dmaOf_unit] at hu; exact Option.some.inj hu
      · subst h
        cases u <;> cases hu <;> rfl
    dsimp only
    rw [State.inflightOf_setInflight]
    by_cases h : v = w ∧ t' = t
    · rw [if_pos h, if_pos ⟨hv.mpr h.1, h.2⟩, h.1]
    · rw [if_neg h, if_neg fun x => h ⟨hv.mp x.1, x.2⟩]

/-- The occupancy effect reaches the in-flight counters only. -/
theorem occupy_frame (s : State) (u : FUnit) (t : Thread) : ∃ n, s.occupy u t = { s with inflight := n } := by
  rw [State.occupy]
  split <;> exact ⟨_, rfl⟩

/-- The count-down of a data unit, for the three threads (R271). -/
def State.countDownAll (s : State) (v : DmaUnit) (drained : List Entry) : State :=
  ((s.countDown v drained 0).countDown v drained 1).countDown v drained 2

/-- The bookkeeping of a data unit is its count-down. -/
theorem postUnit_dma (s : State) (v : DmaUnit) (drained : List Entry) :
    s.postUnit v.unit drained = s.countDownAll v drained := by cases v <;> rfl

/-- The count-down reaches the in-flight counters only. -/
theorem countDownAll_frame (s : State) (v : DmaUnit) (drained : List Entry) :
    ∃ n, s.countDownAll v drained = { s with inflight := n } := by
  have one : ∀ (s : State) t, ∃ n, s.countDown v drained t = { s with inflight := n } := fun s t => by
    rw [State.countDown]
    split <;> exact ⟨_, rfl⟩
  obtain ⟨n0, e0⟩ := one s 0
  obtain ⟨n1, e1⟩ := one { s with inflight := n0 } 1
  obtain ⟨n2, e2⟩ := one { s with inflight := n1 } 2
  exact ⟨n2, by rw [State.countDownAll, e0, e1, e2]⟩

/-- The in-flight work after the count-down: the unit's threads with nothing drained have one less. -/
theorem countDownAll_inflightOf (s : State) (v v' : DmaUnit) (drained : List Entry) (t : Thread) :
    (s.countDownAll v drained).inflightOf v' t =
      if v' = v ∧ ∀ e ∈ drained, e.thread ≠ t then s.inflightOf v' t - 1 else s.inflightOf v' t := by
  have hdr : ∀ t' : Thread, ¬ (drained.any fun e => decide (e.thread = t')) = true ↔ ∀ e ∈ drained, e.thread ≠ t' := by
    simp
  simp only [State.countDownAll, inflightOf_countDown, hdr]
  fin_cases t <;> simp

/-- Settles O53: the earlier entries run (`drainLoop_of_runAll`), the last one decides how the tick ends
(`unitTick_of_stop`); the bookkeeping of the data units is `countDownAll`. -/
theorem unitTickRunsItsQueue : Obligations.UnitTickRunsItsQueue := by
  refine ⟨fun s u es is s' hh hes hrun => ?_, fun s u drained => ?_⟩
  · obtain ⟨f, b, hpre⟩ := preUnit_frame s u
    have hhold : List.Forall₂ ((s.preUnit u).Holds u) es is := hes.imp fun _ _ h => h.congr (by rw [hpre])
    obtain ⟨hd, hh', hpar, hinf⟩ := drainLoop_of_runAll es is (by rw [hpre]; exact hh) hhold hrun
    have hpar' : s'.par = s.par := by rw [hpar, hpre]
    have hinf' : s'.inflight = s.inflight := by rw [hinf, hpre]
    refine ⟨fun hq => ?_, fun e rest hq => ⟨?_, fun d hdec hhome => ?_⟩⟩
    · have hqueue : (s.preUnit u).queueOf u = es := by rw [hpre]; exact hq
      rw [State.unitTick, hqueue, hd, State.andThen_of_running _ (by simp [State.halted, hh'])]
    · intro y hy z
      have hentry : s'.execEntry u e = s'.runInstr (.unit u) y.thread y.view y.instr := execEntry_of_holds (hy.congr hpar')
      refine ⟨fun a ha => ?_, fun hm => ⟨fun f hf => ?_, fun r hr => ?_⟩⟩
      · exact unitTick_of_stop hq hd hh' (hentry.trans (by rw [State.runInstr, ha]; rfl)) rfl
      · exact unitTick_of_stop hq hd hh' (hentry.trans (by rw [State.runInstr, hm, hf]; rfl)) rfl
      · exact unitTick_of_stop hq hd hh' (hentry.trans (by rw [State.runInstr, hm, hr]; rfl)) rfl
    · obtain ⟨n, hocc⟩ := occupy_frame s' u e.thread
      have hentry : s'.execEntry u e = (s'.occupy u e.thread).stop (.refused (.unmodelledAtUnit u e.word)) e.thread
          (.unit u) := by
        rw [State.execEntry, hpar', hdec]
        exact if_neg hhome
      refine ⟨s'.occupy u e.thread, unitTick_of_stop hq hd hh' hentry rfl, by rw [hocc], fun v t => ?_⟩
      rw [occupy_inflightOf, hpar', State.inflightOf, State.inflightOf, hinf']
  · obtain ⟨n, e⟩ := countDownAll_frame s u drained
    refine ⟨_, rfl, by rw [postUnit_dma, e], fun v t => ⟨fun hv hnot => ?_, fun h => ?_⟩⟩
    · rw [postUnit_dma, countDownAll_inflightOf, if_pos ⟨hv, hnot⟩]
      omega
    · rw [postUnit_dma, countDownAll_inflightOf, if_neg]
      rintro ⟨hv, hnot⟩
      exact h.elim (· hv) fun ⟨e, he, ht⟩ => hnot e he ht

end Sys2Proof.Machine
end

section
/-! PROOFS. Idle components: what a cycle leaves alone (41_dispatch_and_queues.md R160). -/

namespace Sys2Proof.Machine

variable {s x t : State} {u v : FUnit} {f : Thread}

/-! ## Frontends -/

/-- A frontend with nothing to do. -/
structure State.FrontendIdle (s : State) (f : Thread) : Prop where
  gateSlot : s.gateSlot[f] = none
  latch : s.latch[f].kind = .none
  playLeft : s.playLeft[f] = 0
  replayQ : s.replayQ[f] = []
  expanding : s.expanding[f] = false
  mopQ : s.mopQ[f] = []

/-- An empty gate without a latch does nothing. -/
theorem gateTick_of_idle (hg : s.gateSlot[f] = none) (hl : s.latch[f].kind = .none) : s.gateTick f = s := by
  have hrefresh : s.refreshLatch f = s := if_pos hl
  rw [State.gateTick, hrefresh]
  rcases s.andThen_cases fun s => s.gateForward f with ⟨-, e⟩ | ⟨-, e⟩ <;> rw [e]
  rw [State.gateForward, hg]

/-- The replay expander does nothing without a play and a word. -/
theorem replayTick_of_idle (hp : s.playLeft[f] = 0) (hq : s.replayQ[f] = []) : s.replayTick f = s := by
  rw [State.replayTick, if_neg (by omega), hq]

/-- The macro expander does nothing without an expansion and a word. -/
theorem mopTick_of_idle (he : s.expanding[f] = false) (hq : s.mopQ[f] = []) : s.mopTick f = s := by
  rw [State.mopTick, if_neg (by rw [he]; decide), hq]

/-- Going on with nothing. -/
theorem andThen_of_eq {k : State → State} (h : k s = s) : s.andThen k = s := by
  rcases s.andThen_cases k with ⟨-, e⟩ | ⟨-, e⟩
  · exact e
  · exact e.trans h

/-- An idle frontend does nothing. -/
theorem frontendTick_of_idle (h : s.FrontendIdle f) : s.frontendTick f = s := by
  have hreplay : (s.andThen fun s => s.replayTick f) = s := andThen_of_eq (replayTick_of_idle h.playLeft h.replayQ)
  rw [State.frontendTick, gateTick_of_idle h.gateSlot h.latch, hreplay]
  exact andThen_of_eq (mopTick_of_idle h.expanding h.mopQ)

/-! ## Units -/

/-- A unit with nothing to do. -/
structure State.UnitIdle (s : State) (u : FUnit) : Prop where
  queue : s.queueOf u = []
  flush : u = .scalar → ∀ f : Thread, s.flush[f] = none
  cfgWritePrev : u = .config → s.cfgWritePrev = false
  waiters : u = .sync → s.waiters = []
  inflight : ∀ v : DmaUnit, v.unit = u → ∀ f : Thread, s.inflightOf v f = 0

/-- Without an outstanding flush the work before a drain is nothing. -/
theorem preUnit_of_no_flush (h : u = .scalar → ∀ f : Thread, s.flush[f] = none) : s.preUnit u = s := by
  rw [State.preUnit]
  split
  · next hu =>
    have hnot : ∀ f, ¬ s.FlushDone f := fun f ⟨m, hm, _⟩ => by rw [h hu f] at hm; cases hm
    rw [State.recheckFlushes, recheckFlush_of_not_done (hnot 0), recheckFlush_of_not_done (hnot 1),
      recheckFlush_of_not_done (hnot 2)]
  · rfl

/-- Nothing drained and nothing in flight: the count-down is nothing. -/
theorem countDown_of_zero {w : DmaUnit} (h : s.inflightOf w f = 0) : s.countDown w [] f = s := by
  have hset : s.inflight.set (dmaIndex w) (s.inflight[dmaIndex w].set f (s.inflightOf w f - 1)) = s.inflight :=
    vset_self (vset_self (by rw [h]; exact h)).symm
  rw [State.countDown, if_neg (by simp), State.setInflight, hset]

/-- The bookkeeping of an idle unit is nothing. -/
theorem postUnit_of_idle (h : s.UnitIdle u) : s.postUnit u [] = s := by
  have dma : ∀ w : DmaUnit, w.unit = u → s.countDownAll w [] = s := fun w hw => by
    rw [State.countDownAll, countDown_of_zero (h.inflight w hw 0), countDown_of_zero (h.inflight w hw 1),
      countDown_of_zero (h.inflight w hw 2)]
  cases u
  case config =>
    have hprev : ([].any fun e => isCfgWriter (s.entryName e)) = s.cfgWritePrev := (h.cfgWritePrev rfl).symm
    simp only [State.postUnit, hprev]
  case sync =>
    have hw := h.waiters rfl
    simp only [State.postUnit, State.resolveWaiters, hw, resolveScan]
    rw [← hw]
  case packer => exact dma .packer rfl
  case unpacker0 => exact dma .unpacker0 rfl
  case unpacker1 => exact dma .unpacker1 rfl
  all_goals rfl

/-- Emptying an empty queue. -/
theorem setQueue_nil_of_empty (h : s.queueOf u = []) : s.setQueue u [] = s := by
  have hset : s.queue.set (unitIndex u) [] = s.queue := vset_self h
  rw [State.setQueue, hset]

/-- An idle unit does nothing. -/
theorem unitTick_of_idle (h : s.UnitIdle u) : s.unitTick u = s := by
  have hloop : State.drainLoop u [] s = s := rfl
  rw [State.unitTick, preUnit_of_no_flush h.flush, h.queue, hloop]
  refine andThen_of_eq ?_
  rw [setQueue_nil_of_empty h.queue, postUnit_of_idle h]

/-! ## Components and cycles -/

/-- A component with nothing to do. -/
def State.Idle (s : State) : Component → Prop
  | .unit u => s.UnitIdle u
  | .frontend f => s.FrontendIdle f

/-- An idle component does nothing. -/
theorem tick_of_idle {c : Component} (h : s.Idle c) : s.tick c = s := by
  cases c with
  | unit u => exact unitTick_of_idle h
  | frontend f => exact frontendTick_of_idle h

/-- A run of idle components does nothing. -/
theorem ticks_of_idle : ∀ (cs : List Component), (∀ c ∈ cs, s.Idle c) →
    cs.foldl (fun s c => s.andThen fun s => s.tick c) s = s
  | [], _ => rfl
  | c :: cs, h => by
    rw [List.foldl_cons, andThen_of_eq (tick_of_idle (h c (by simp))), ticks_of_idle cs fun x hx => h x (by simp [hx])]

/-- A cycle without moves of the environment in which one component alone has something to do. -/
theorem cycle_of_one {c : Component} (hnodup : s.par.tickOrder.Nodup) (hc : c ∈ s.par.tickOrder)
    (hbegin : s.beginCycle = s) (hrun : s.halted = false) (hbefore : ∀ c', c' ≠ c → s.Idle c')
    (hafter : (s.tick c).halted = false → ∀ c', c' ≠ c → (s.tick c).Idle c') : s.cycle = s.tick c := by
  obtain ⟨pre, post, horder⟩ := List.append_of_mem hc
  rw [horder] at hnodup
  have hpre : ∀ c' ∈ pre, c' ≠ c := fun c' h e => by
    subst e
    exact (List.nodup_append.mp hnodup).2.2 c' h c' (by simp) rfl
  have hpost : ∀ c' ∈ post, c' ≠ c := fun c' h e => by
    subst e
    exact (List.nodup_cons.mp (List.nodup_append.mp hnodup).2.1).1 h
  rw [State.cycle, hbegin, horder, List.foldl_append, List.foldl_cons, ticks_of_idle pre fun c' h => hbefore c' (hpre c' h),
    State.andThen_of_running _ hrun]
  cases hh : (s.tick c).halted with
  | true => exact ticks_of_halted post hh
  | false => exact ticks_of_idle post fun c' h => hafter hh c' (hpost c' h)

/-! ## What an instruction leaves idle -/

/-- STALLWAIT and SEMWAIT write the latch of their own thread, and no other instruction writes one. -/
theorem exec_latch_ne {i : Instr} (hx : exec i s = .next t) (hf : f ≠ s.cur) : t.latch[f] = s.latch[f] := by
  by_cases hw : i.opName ∈ [.stallwait, .semwait]
  · cases i <;> simp only [Instr.opName, List.mem_cons, reduceCtorEq, List.not_mem_nil, or_self, or_false, or_true] at hw
    case stallwait => rw [execStallwait_next hx]; exact vget_set_ne _ hf _
    case semwait => obtain ⟨l, -, -, e⟩ := execSemwait_next hx; rw [e]; exact vget_set_ne _ hf _
  · rw [(exec_frame hx).latch hw]

/-- REPLAY writes the play counter of its own thread, and no other instruction writes one. -/
theorem exec_playLeft_ne {i : Instr} (hx : exec i s = .next t) (hf : f ≠ s.cur) : t.playLeft[f] = s.playLeft[f] := by
  by_cases hw : i.opName = .replay
  · cases i <;> simp only [Instr.opName, reduceCtorEq] at hw
    simp only [exec, execReplay] at hx
    split at hx
    · cases hx
    · split at hx <;> cases hx
      · rfl
      · exact vget_set_ne _ hf _
  · rw [((exec_frame hx).replay hw).2.2.2.2.1]

/-- MOP writes the expansion of its own thread, and no other instruction writes one. -/
theorem exec_expanding_ne {i : Instr} (hx : exec i s = .next t) (hf : f ≠ s.cur) : t.expanding[f] = s.expanding[f] := by
  by_cases hw : i.opName = .mop
  · cases i <;> simp only [Instr.opName, reduceCtorEq] at hw
    simp only [exec, execMop] at hx
    split at hx <;> cases hx <;> exact vget_set_ne _ hf _
  · rw [((exec_frame hx).expansion hw).2]

/-- An instruction of one thread leaves the other frontends idle. -/
theorem State.FrontendIdle.exec_ne {i : Instr} (h : s.FrontendIdle f) (hx : exec i s = .next t) (hf : f ≠ s.cur) :
    t.FrontendIdle f where
  gateSlot := by rw [exec_gateSlot hx]; exact h.gateSlot
  latch := by rw [exec_latch_ne hx hf]; exact h.latch
  playLeft := by rw [exec_playLeft_ne hx hf]; exact h.playLeft
  replayQ := by rw [exec_replayQ hx]; exact h.replayQ
  expanding := by rw [exec_expanding_ne hx hf]; exact h.expanding
  mopQ := by rw [exec_mopQ hx]; exact h.mopQ

/-- An instruction of a unit leaves every frontend idle. -/
theorem State.FrontendIdle.exec_unit {i : Instr} (h : s.FrontendIdle f) (hx : exec i s = .next t)
    (hu : homeUnit i.opName = some u) : t.FrontendIdle f := by
  have hframe := exec_frame hx
  have hlatch : t.latch = s.latch := hframe.latch fun hm => by
    simp only [List.mem_cons, List.not_mem_nil, or_false] at hm
    rcases hm with e | e <;> rw [e] at hu <;> cases hu
  obtain ⟨-, -, -, -, hplay, -⟩ := hframe.replay fun e => by rw [e] at hu; cases hu
  obtain ⟨-, hexp⟩ := hframe.expansion fun e => by rw [e] at hu; cases hu
  exact ⟨by rw [exec_gateSlot hx]; exact h.gateSlot, by rw [hlatch]; exact h.latch, by rw [hplay]; exact h.playLeft,
    by rw [exec_replayQ hx]; exact h.replayQ, by rw [hexp]; exact h.expanding, by rw [exec_mopQ hx]; exact h.mopQ⟩

/-- An instruction leaves every unit idle but its own. -/
theorem State.UnitIdle.exec_other {i : Instr} (h : s.UnitIdle u) (hx : exec i s = .next t) (hu : homeUnit i.opName ≠ some u) :
    t.UnitIdle u := by
  have hq : t.queueOf u = s.queueOf u := by rw [State.queueOf, exec_queue hx]; rfl
  refine ⟨hq.trans h.queue, fun hs => ?_, fun hc => (exec_cfgWritePrev hx).trans (h.cfgWritePrev hc), fun hs => ?_,
    fun v hv f => ?_⟩
  · rw [((exec_frame hx).flush fun e => hu (by rw [e, hs]; rfl)).1]
    exact h.flush hs
  · rw [((exec_frame hx).waiters fun e => hu (by rw [e, hs]; rfl)).1]
    exact h.waiters hs
  · rw [State.inflightOf, exec_inflight hx]
    exact h.inflight v hv f

end Sys2Proof.Machine
end

section
/-! PROOFS. The step of an idle block with one instruction placed in it (log entry 4): where the word stands, that every
other component is idle before and after, and what its own component does. -/

namespace Sys2Proof

/-- The view of an instruction has every argument of it but the optional override. -/
theorem view_arg_isSome {i : Instr} {r : OpRow} (hr : schemaDefault.rowNamed i.opName = some r) :
    ∀ a ∈ i.args.map (·.1), a ≠ .threadOverride → (argValue (i.view r).args a).isSome = true := by
  cases i <;> cases hr <;>
    simp [Instr.view, Instr.args, OpRow.bounds, sortArgs, insertArg, argBounds, argTop, argValue]

/-- The row of an instruction has its name. -/
theorem rowNamed_name {n : OpName} {r : OpRow} (hr : schemaDefault.rowNamed n = some r) : r.name = n := by
  simpa using List.find?_some hr

end Sys2Proof

namespace Sys2Proof.Machine

variable {s p t : State} {i : Instr} {r : OpRow}

/-- The default schema's tag of a unit's instruction routes to that unit (R91, R151). -/
theorem routeOf_home {n : OpName} {u : FUnit} (hr : schemaDefault.rowNamed n = some r) (hu : homeUnit n = some u)
    (p : Params) (w : Word) : routeOf p r.tag w = .unit u := by
  cases n <;> cases hr <;> cases hu <;> rfl

/-- The instructions without a unit, and the routes of their tags. -/
theorem homeless_cases {n : OpName} (hr : schemaDefault.rowNamed n = some r) (hu : homeUnit n = none) :
    (n = .mop ∨ n = .mopCfg) ∨ n = .replay ∨ (n = .nop ∧ r.tag = .none) ∨
      ((n = .stallwait ∨ n = .semwait) ∧ r.tag = .frontend) := by
  cases n <;> cases hr <;> cases hu <;> decide

/-! ## Placing (log entry 4) -/

/-- The state with the word of an instruction placed for the thread `s.cur`, by the component that takes it. -/
inductive Placed (s : State) (i : Instr) (r : OpRow) : State → Prop
  | unit {u : FUnit} (hu : homeUnit i.opName = some u) : Placed s i r (s.placeAtUnit u (encode i) i.opName)
  | gate (hu : homeUnit i.opName = none)
      (hi : (i.opName = .nop ∧ r.tag = .none) ∨ ((i.opName = .stallwait ∨ i.opName = .semwait) ∧ r.tag = .frontend)) :
      Placed s i r (s.placeAtGate (encode i))
  | replay (hi : i.opName = .replay) : Placed s i r (s.placeAtReplay (encode i))
  | mop (hi : i.opName = .mop ∨ i.opName = .mopCfg) : Placed s i r (s.placeAtMop (encode i))

/-- A quiet state with an instruction's word. -/
theorem withFetchWord_placed (hs : s.Quiet) (hr : schemaDefault.rowNamed i.opName = some r) :
    Placed s i r (s.withFetchWord 32 (encode i).toNat) := by
  have hword : BitVec.ofNat 32 ((encode i).toNat % 2 ^ 32) = encode i := BitVec.eq_of_toNat_eq (by
    rw [BitVec.toNat_ofNat, Nat.mod_mod, Nat.mod_eq_of_lt (encode i).isLt])
  have hrun : ({ s with halt := none } : State) = s := by rw [← hs.halt]
  have hname : (i.view r).name = i.opName := rowNamed_name hr
  rw [State.withFetchWord, hword, State.place, hrun]
  simp only [hs.schema, decode_encode hr, hname]
  cases hu : homeUnit i.opName with
  | some u =>
    have hmop : ¬ (i.opName = .mop ∨ i.opName = .mopCfg) := by
      rintro (e | e) <;> rw [e] at hu <;> cases hu
    have hreplay : ¬ i.opName = .replay := fun e => by rw [e] at hu; cases hu
    have hroute : routeOf s.par (i.view r).tag (i.view r).word = .unit u := routeOf_home hr hu _ _
    rw [if_neg hmop, if_neg hreplay, hroute]
    exact .unit hu
  | none =>
    rcases homeless_cases hr hu with hi | hi | hi
    · rw [if_pos hi]; exact .mop hi
    · rw [if_neg (by rw [hi]; decide), if_pos hi]; exact .replay hi
    · have hgate := Placed.gate (s := s) hu hi
      rcases hi with ⟨hn, htag⟩ | ⟨hn, htag⟩
      · have hroute : routeOf s.par (i.view r).tag (i.view r).word = .dropped := by rw [Instr.view, htag]; rfl
        rw [if_neg (by rw [hn]; decide), if_neg (by rw [hn]; decide), hroute]
        exact hgate
      · have hroute : routeOf s.par (i.view r).tag (i.view r).word = .unroutable := by rw [Instr.view, htag]; rfl
        rw [if_neg (by rcases hn with e | e <;> rw [e] <;> decide), if_neg (by rcases hn with e | e <;> rw [e] <;> decide),
          hroute]
        exact hgate

/-- What placing leaves alone. -/
theorem Placed.keeps (h : Placed s i r p) : p.par = s.par ∧ p.cur = s.cur ∧ p.halt = s.halt ∧ p.inputs = s.inputs ∧
    p.replies = s.replies := by
  cases h with
  | unit hu => rw [State.placeAtUnit]; split <;> exact ⟨rfl, rfl, rfl, rfl, rfl⟩
  | gate hu hi => exact ⟨rfl, rfl, rfl, rfl, rfl⟩
  | replay hi => exact ⟨rfl, rfl, rfl, rfl, rfl⟩
  | mop hi => exact ⟨rfl, rfl, rfl, rfl, rfl⟩

/-- The component that takes an instruction. -/
def Instr.component (i : Instr) (f : Thread) : Component :=
  match homeUnit i.opName with
  | some u => .unit u
  | none => .frontend f

/-- A unit's instruction is taken by its unit. -/
theorem component_unit {u : FUnit} (hu : homeUnit i.opName = some u) (f : Thread) : Instr.component i f = .unit u := by
  simp only [Instr.component, hu]

/-- Every other instruction is taken by the frontend. -/
theorem component_frontend (hu : homeUnit i.opName = none) (f : Thread) : Instr.component i f = .frontend f := by
  simp only [Instr.component, hu]

/-! ## Idle components before the tick -/

/-- A quiet frontend is idle. -/
theorem State.Quiet.frontendIdle (hs : s.Quiet) (f : Thread) : s.FrontendIdle f :=
  ⟨hs.gateSlot f, by rw [hs.latch f]; rfl, hs.playLeft f, hs.replayQ f, hs.expanding f, hs.mopQ f⟩

/-- A quiet unit is idle. -/
theorem State.Quiet.unitIdle (hs : s.Quiet) (u : FUnit) : s.UnitIdle u :=
  ⟨hs.queue u, fun _ f => hs.flush f, fun _ => hs.cfgWritePrev, fun _ => hs.waiters, fun v _ f => hs.inflight v f⟩

/-- What a unit's idleness speaks of. -/
theorem State.UnitIdle.congr {u : FUnit} (h : s.UnitIdle u) (hq : t.queueOf u = s.queueOf u)
    (hf : t.flush = s.flush := by rfl) (hc : t.cfgWritePrev = s.cfgWritePrev := by rfl)
    (hw : t.waiters = s.waiters := by rfl) (hi : t.inflight = s.inflight := by rfl) : t.UnitIdle u :=
  ⟨hq.trans h.queue, fun e f => by rw [hf]; exact h.flush e f, fun e => hc.trans (h.cfgWritePrev e),
    fun e => hw.trans (h.waiters e), fun v hv f => by rw [State.inflightOf, hi]; exact h.inflight v hv f⟩

/-- The state with a word placed in a unit's queue, field by field. -/
theorem placeAtUnit_frame (s : State) (u : FUnit) (w : Word) (n : OpName) :
    ∃ m, s.placeAtUnit u w n = { s.setQueue u [⟨w, s.cur⟩] with mutexWait := m } := by
  rw [State.placeAtUnit]
  split <;> exact ⟨_, rfl⟩

/-- Every component but the one that takes the word is idle. -/
theorem Placed.idle (h : Placed s i r p) (hs : s.Quiet) {c : Component} (hc : c ≠ Instr.component i s.cur) : p.Idle c := by
  cases h with
  | @unit u hu =>
    rw [component_unit hu] at hc
    obtain ⟨m, e⟩ := placeAtUnit_frame s u (encode i) i.opName
    rw [e]
    cases c with
    | unit v =>
      have hv : v ≠ u := fun e => hc (by rw [e])
      exact (hs.unitIdle v).congr ((s.queueOf_setQueue u v _).trans (if_neg hv))
    | frontend f =>
      have hq := hs.frontendIdle f
      exact ⟨hq.gateSlot, hq.latch, hq.playLeft, hq.replayQ, hq.expanding, hq.mopQ⟩
  | gate hu hi =>
    rw [component_frontend hu] at hc
    cases c with
    | unit v => exact (hs.unitIdle v).congr rfl
    | frontend f =>
      have hf : f ≠ s.cur := fun e => hc (by rw [e])
      have hq := hs.frontendIdle f
      exact ⟨(vget_set_ne _ hf _).trans hq.gateSlot, (congrArg Latch.kind (vget_set_ne _ hf _)).trans hq.latch,
        hq.playLeft, hq.replayQ, hq.expanding, hq.mopQ⟩
  | replay hi =>
    rw [component_frontend (by rw [hi]; rfl)] at hc
    cases c with
    | unit v => exact (hs.unitIdle v).congr rfl
    | frontend f =>
      have hf : f ≠ s.cur := fun e => hc (by rw [e])
      have hq := hs.frontendIdle f
      exact ⟨hq.gateSlot, hq.latch, (vget_set_ne _ hf _).trans hq.playLeft, (vget_set_ne _ hf _).trans hq.replayQ,
        hq.expanding, hq.mopQ⟩
  | mop hi =>
    rw [component_frontend (by rcases hi with e | e <;> rw [e] <;> rfl)] at hc
    cases c with
    | unit v => exact (hs.unitIdle v).congr rfl
    | frontend f =>
      have hf : f ≠ s.cur := fun e => hc (by rw [e])
      have hq := hs.frontendIdle f
      exact ⟨hq.gateSlot, hq.latch, hq.playLeft, hq.replayQ, (vget_set_ne _ hf _).trans hq.expanding,
        (vget_set_ne _ hf _).trans hq.mopQ⟩

/-! ## The tick of the component that takes the word -/

/-- A decoded word whose instruction lacks no argument is absorbed. -/
theorem runDecoded_eq {c : Component} {f : Thread} {d : Decoded} {u : State} (hi : d.toInstr = some i)
    (hm : (s.issue f d).missingArg i = none) : s.runDecoded c f d u = s.absorb f c (exec i (s.issue f d)) := by
  simp only [State.runDecoded, hi, State.runInstr, hm]

/-- The view of a well-formed instruction runs as the instruction. -/
theorem runDecoded_view (hwf : i.WellFormed) (hr : schemaDefault.rowNamed i.opName = some r) (s u : State)
    (c : Component) (f : Thread) :
    s.runDecoded c f (i.view r) u = s.absorb f c (exec i (s.issue f (i.view r))) :=
  runDecoded_eq (toInstr_view hwf hr) (missingArg_none (view_arg_isSome hr))

/-- Going on twice. -/
theorem andThen_andThen {k l : State → State} (h : s.halted = false → (k s).halted = false → l (k s) = k s) :
    (s.andThen k).andThen l = s.andThen k := by
  rcases s.andThen_cases k with ⟨hs, e⟩ | ⟨hs, e⟩ <;> rw [e]
  · exact State.andThen_of_halted _ hs
  · rcases (k s).andThen_cases l with ⟨-, e'⟩ | ⟨hk, e'⟩ <;> rw [e']
    exact h hs hk

end Sys2Proof.Machine
end

section
/-! PROOFS. The step of an idle block with one instruction placed in it: the tick of the component that takes the word,
and the idle components after it (log entries 2 to 4). -/

namespace Sys2Proof.Machine

variable {s p t x : State} {i : Instr} {r : OpRow}

/-! ## What a component does after its instruction -/

/-- After a unit's instruction. -/
theorem consumed_unit {u : FUnit} (hu : homeUnit i.opName = some u) (t : State) :
    t.consumed i = (t.setQueue u []).postUnit u [⟨encode i, t.cur⟩] := by
  simp only [State.consumed, hu]

/-- After an instruction of the wait gate. -/
theorem consumed_gate (hi : i.opName = .nop ∨ i.opName = .stallwait ∨ i.opName = .semwait) (t : State) :
    t.consumed i = t.clearGate t.cur := by
  rcases hi with h | h | h <;> simp only [State.consumed, h, homeUnit]

/-- After a REPLAY. -/
theorem consumed_replay (hi : i.opName = .replay) (t : State) : t.consumed i = t.popReplayQ t.cur := by
  simp only [State.consumed, hi, homeUnit]

/-- After a MOP_CFG. -/
theorem consumed_mopCfg (hi : i.opName = .mopCfg) (t : State) : t.consumed i = t.popMopQ t.cur := by
  simp only [State.consumed, hi, homeUnit]

/-- After a MOP. -/
theorem consumed_mop (hi : i.opName = .mop) (t : State) : t.consumed i = (t.popMopQ t.cur).mopEmit t.cur := by
  simp only [State.consumed, hi, homeUnit]

/-! ## The tick -/

/-- A running state after an instruction is the instruction's next state. -/
theorem absorb_running {f : Thread} {c : Component} {y : Result} (h : (s.absorb f c y).halted = false) :
    ∃ t, y = .next t ∧ s.absorb f c y = t := by
  rcases s.absorb_cases f c y with h' | ⟨z, -, e⟩
  · exact h'
  · rw [e] at h; cases h

/-- Two continuations that agree on the instruction's next states. -/
theorem absorb_andThen_congr {f : Thread} {c : Component} {y : Result} {k l : State → State}
    (h : ∀ t, y = .next t → k t = l t) : (s.absorb f c y).andThen k = (s.absorb f c y).andThen l := by
  rcases s.absorb_cases f c y with ⟨t, hy, e⟩ | ⟨z, -, e⟩ <;> rw [e]
  · rcases t.andThen_cases k with ⟨hh, ek⟩ | ⟨hh, ek⟩ <;> rw [ek]
    · exact (State.andThen_of_halted _ hh).symm
    · rw [State.andThen_of_running _ hh, h t hy]
  · rw [State.andThen_of_halted _ rfl, State.andThen_of_halted _ rfl]

/-- The unit runs the placed word. -/
theorem unitTick_placed {u : FUnit} (hu : homeUnit i.opName = some u) (hh : p.halt = none)
    (hq : p.queueOf u = [⟨encode i, s.cur⟩]) (hf : ∀ f : Thread, p.flush[f] = none) (hsch : p.par.schema = schemaDefault)
    (hwf : i.WellFormed) (hr : schemaDefault.rowNamed i.opName = some r) : p.unitTick u =
      (p.absorb s.cur (.unit u) (exec i (p.issue s.cur (i.view r)))).andThen fun t => t.consumed i := by
  have hholds : p.Holds u ⟨encode i, s.cur⟩ ⟨s.cur, i.view r, i⟩ :=
    ⟨rfl, hu, by rw [hsch]; exact decode_encode hr, toInstr_view hwf hr⟩
  have hentry : p.execEntry u ⟨encode i, s.cur⟩ = p.absorb s.cur (.unit u) (exec i (p.issue s.cur (i.view r))) := by
    rw [execEntry_of_holds hholds, State.runInstr, missingArg_none (view_arg_isSome hr)]
  have hloop : State.drainLoop u [⟨encode i, s.cur⟩] p = p.execEntry u ⟨encode i, s.cur⟩ := by
    rw [State.drainLoop, List.foldl_cons, List.foldl_nil, State.andThen_of_running _ (by simp [State.halted, hh])]
  rw [State.unitTick, preUnit_of_no_flush fun _ => hf, hq, hloop, hentry]
  refine absorb_andThen_congr fun t ht => ?_
  have hcur : t.cur = s.cur := exec_cur (s := p.issue s.cur (i.view r)) ht
  rw [consumed_unit hu, hcur]

section Stages
variable {f : Thread} (hsch : p.par.schema = schemaDefault) (hwf : i.WellFormed)
  (hr : schemaDefault.rowNamed i.opName = some r)
include hsch hwf hr

/-- The wait gate runs the placed word. -/
theorem gateTick_placed (hh : p.halt = none) (hslot : p.gateSlot[f] = some (encode i)) (hl : p.latch[f].kind = .none)
    (hm : p.mutexWait[f] = false) (hb : p.backendStall[f] = false)
    (hi : (i.opName = .nop ∧ r.tag = .none) ∨ ((i.opName = .stallwait ∨ i.opName = .semwait) ∧ r.tag = .frontend)) :
    p.gateTick f = (p.absorb f (.frontend f) (exec i (p.issue f (i.view r)))).andThen fun t => t.clearGate f := by
  have hname : (i.view r).name = i.opName := rowNamed_name hr
  have hopen : p.GateOpen f (encode i) (i.view r) p :=
    ⟨hh, hslot, by rw [hsch]; exact decode_encode hr, hm, hb, .inl ⟨hl, rfl⟩, .inl hl⟩
  rcases hi with ⟨hn, htag⟩ | ⟨hn, -⟩
  · have hnop : exec i (p.issue f (i.view r)) = .next (p.issue f (i.view r)) := by
      cases i <;> cases hn
      rfl
    rw [noOperationsChangeNothing.2.1 p f _ _ p hopen (hname.trans hn) htag, hnop, State.absorb,
      State.andThen_of_running _ (by simp [State.halted, hh])]
    rfl
  · rw [gateTick_of_open hopen, gateWord_of_wait hm hb (by rwa [hname]), if_neg (not_not.mpr hl),
      runDecoded_view hwf hr]

/-- The replay expander runs the placed word. -/
theorem replayTick_placed (hp : p.playLeft[f] = 0) (hq : p.replayQ[f] = [encode i]) (hi : i.opName = .replay) :
    p.replayTick f = (p.absorb f (.frontend f) (exec i (p.issue f (i.view r)))).andThen fun t => t.popReplayQ f := by
  have hname : (i.view r).name = i.opName := rowNamed_name hr
  rw [replayTick_of_head hp hq (by rw [hsch]; exact decode_encode hr), State.replayWord, if_pos (hname.trans hi),
    runDecoded_view hwf hr]

/-- The macro expander runs the placed word. -/
theorem mopTick_placed (he : p.expanding[f] = false) (hq : p.mopQ[f] = [encode i])
    (hi : i.opName = .mop ∨ i.opName = .mopCfg) : p.mopTick f =
      (p.absorb f (.frontend f) (exec i (p.issue f (i.view r)))).andThen fun t => t.consumed i := by
  have hname : (i.view r).name = i.opName := rowNamed_name hr
  rw [mopTick_of_head he hq (by rw [hsch]; exact decode_encode hr), State.mopWord]
  have hcur : ∀ t, exec i (p.issue f (i.view r)) = .next t → t.cur = f := fun t ht =>
    exec_cur (s := p.issue f (i.view r)) ht
  rcases hi with hi | hi
  · rw [if_neg (by rw [hname, hi]; decide), if_pos (hname.trans hi), runDecoded_view hwf hr]
    exact absorb_andThen_congr fun t ht => by rw [consumed_mop hi, hcur t ht]
  · rw [if_pos (hname.trans hi), runDecoded_view hwf hr]
    exact absorb_andThen_congr fun t ht => by rw [consumed_mopCfg hi, hcur t ht]

end Stages

/-- The component that takes the placed word runs it, and then does what follows the instruction. -/
theorem Placed.tick (h : Placed s i r p) (hs : s.Quiet) (hwf : i.WellFormed)
    (hr : schemaDefault.rowNamed i.opName = some r) : p.tick (Instr.component i s.cur) =
      (p.absorb s.cur (Instr.component i s.cur) (exec i (p.issue s.cur (i.view r)))).andThen fun t => t.consumed i := by
  obtain ⟨hpar, hcur, hhalt, -, -⟩ := h.keeps
  have hh : p.halt = none := hhalt.trans hs.halt
  have hsch : p.par.schema = schemaDefault := by rw [hpar, hs.schema]
  cases h with
  | @unit u hu =>
    rw [component_unit hu]
    obtain ⟨m, e⟩ := placeAtUnit_frame s u (encode i) i.opName
    refine unitTick_placed hu hh ?_ ?_ hsch hwf hr <;> rw [e]
    · exact (s.queueOf_setQueue u u _).trans (if_pos rfl)
    · exact hs.flush
  | gate hu hi =>
    rw [component_frontend hu]
    have hgate := gateTick_placed (f := s.cur) hsch hwf hr hh (vget_set_self _ _ _)
      (congrArg Latch.kind (vget_set_self _ _ _)) (vget_set_self _ _ _) (vget_set_self _ _ _) hi
    have hnr : i.opName ≠ .replay := by rcases hi with ⟨e, -⟩ | ⟨e | e, -⟩ <;> rw [e] <;> decide
    have hnm : i.opName ≠ .mop := by rcases hi with ⟨e, -⟩ | ⟨e | e, -⟩ <;> rw [e] <;> decide
    have hreplay : ((s.placeAtGate (encode i)).gateTick s.cur).andThen (fun t => t.replayTick s.cur) =
        (s.placeAtGate (encode i)).gateTick s.cur := by
      rw [hgate]
      refine andThen_andThen fun hrun _ => ?_
      obtain ⟨t, ht, e⟩ := absorb_running hrun
      obtain ⟨-, -, -, -, hplay, -⟩ := (exec_frame ht).replay hnr
      have hp : t.playLeft[s.cur] = 0 := by rw [hplay]; exact hs.playLeft _
      have hq : t.replayQ[s.cur] = [] := by rw [exec_replayQ ht]; exact hs.replayQ _
      rw [e]
      exact replayTick_of_idle hp hq
    have hmop : ((s.placeAtGate (encode i)).gateTick s.cur).andThen (fun t => t.mopTick s.cur) =
        (s.placeAtGate (encode i)).gateTick s.cur := by
      rw [hgate]
      refine andThen_andThen fun hrun _ => ?_
      obtain ⟨t, ht, e⟩ := absorb_running hrun
      have he : t.expanding[s.cur] = false := by rw [((exec_frame ht).expansion hnm).2]; exact hs.expanding _
      have hq : t.mopQ[s.cur] = [] := by rw [exec_mopQ ht]; exact hs.mopQ _
      rw [e]
      exact mopTick_of_idle he hq
    rw [State.tick, State.frontendTick, hreplay, hmop, hgate]
    refine absorb_andThen_congr fun t ht => ?_
    have hcur : t.cur = s.cur := exec_cur (s := (s.placeAtGate (encode i)).issue s.cur (i.view r)) ht
    rw [consumed_gate (hi.imp And.left And.left), hcur]
  | replay hi =>
    rw [component_frontend (by rw [hi]; rfl)]
    have hgate : (s.placeAtReplay (encode i)).gateTick s.cur = s.placeAtReplay (encode i) :=
      gateTick_of_idle (hs.frontendIdle s.cur).gateSlot (hs.frontendIdle s.cur).latch
    have htick := replayTick_placed (f := s.cur) hsch hwf hr (vget_set_self _ _ _) (vget_set_self _ _ _) hi
    have hmop : ((s.placeAtReplay (encode i)).replayTick s.cur).andThen (fun t => t.mopTick s.cur) =
        (s.placeAtReplay (encode i)).replayTick s.cur := by
      rw [htick]
      refine andThen_andThen fun hrun _ => ?_
      obtain ⟨t, ht, e⟩ := absorb_running hrun
      have he : t.expanding[s.cur] = false := by
        rw [((exec_frame ht).expansion (by rw [hi]; decide)).2]; exact hs.expanding _
      have hq : t.mopQ[s.cur] = [] := by rw [exec_mopQ ht]; exact hs.mopQ _
      rw [e]
      exact mopTick_of_idle he hq
    have hrun : (s.placeAtReplay (encode i)).halted = false := by simp [State.halted, hh]
    rw [State.tick, State.frontendTick, hgate, (s.placeAtReplay (encode i)).andThen_of_running hrun, hmop, htick]
    refine absorb_andThen_congr fun t ht => ?_
    have hcur : t.cur = s.cur := exec_cur (s := (s.placeAtReplay (encode i)).issue s.cur (i.view r)) ht
    rw [consumed_replay hi, hcur]
  | mop hi =>
    rw [component_frontend (by rcases hi with e | e <;> rw [e] <;> rfl)]
    have hgate : (s.placeAtMop (encode i)).gateTick s.cur = s.placeAtMop (encode i) :=
      gateTick_of_idle (hs.frontendIdle s.cur).gateSlot (hs.frontendIdle s.cur).latch
    have hreplay : (s.placeAtMop (encode i)).replayTick s.cur = s.placeAtMop (encode i) :=
      replayTick_of_idle (hs.playLeft s.cur) (hs.replayQ s.cur)
    have hrun : (s.placeAtMop (encode i)).halted = false := by simp [State.halted, hh]
    rw [State.tick, State.frontendTick, hgate, (s.placeAtMop (encode i)).andThen_of_running hrun, hreplay,
      (s.placeAtMop (encode i)).andThen_of_running hrun]
    exact mopTick_placed hsch hwf hr (vget_set_self _ _ _) (vget_set_self _ _ _) hi

/-! ## Idle components after the tick -/

/-- What the bookkeeping of a unit leaves alone: the Config unit's flag but for Config, the waiters but for Sync, the
in-flight work of the other units. -/
theorem postUnit_frame (s : State) (u : FUnit) (es : List Entry) : ∃ c m mw ws n, s.postUnit u es =
    { s with cfgWritePrev := c, mutex := m, mutexWait := mw, waiters := ws, inflight := n } ∧
    (u ≠ .config → c = s.cfgWritePrev) ∧ (u ≠ .sync → ws = s.waiters) ∧
    ∀ v : DmaUnit, v.unit ≠ u → ∀ f : Thread, n[dmaIndex v][f] = s.inflightOf v f := by
  have dma : ∀ w : DmaUnit, w.unit = u → ∃ n, s.postUnit u es = { s with inflight := n } ∧
      ∀ v : DmaUnit, v.unit ≠ u → ∀ f : Thread, n[dmaIndex v][f] = s.inflightOf v f := fun w hw => by
    subst hw
    obtain ⟨n, e⟩ := countDownAll_frame s w es
    refine ⟨n, (postUnit_dma s w es).trans e, fun v hv f => ?_⟩
    have hget := countDownAll_inflightOf s w v es f
    rw [if_neg fun h => hv (by rw [h.1]), e] at hget
    exact hget
  cases u
  case config => exact ⟨_, _, _, _, _, rfl, fun h => absurd rfl h, fun _ => rfl, fun _ _ _ => rfl⟩
  case sync =>
    obtain ⟨m, mw, ws, e⟩ := resolve_frame s
    exact ⟨_, m, mw, ws, _, e, fun _ => rfl, fun h => absurd rfl h, fun _ _ _ => rfl⟩
  case packer => obtain ⟨n, e, hn⟩ := dma .packer rfl; exact ⟨_, _, _, _, n, e, fun _ => rfl, fun _ => rfl, hn⟩
  case unpacker0 => obtain ⟨n, e, hn⟩ := dma .unpacker0 rfl; exact ⟨_, _, _, _, n, e, fun _ => rfl, fun _ => rfl, hn⟩
  case unpacker1 => obtain ⟨n, e, hn⟩ := dma .unpacker1 rfl; exact ⟨_, _, _, _, n, e, fun _ => rfl, fun _ => rfl, hn⟩
  all_goals exact ⟨_, _, _, _, _, rfl, fun _ => rfl, fun _ => rfl, fun _ _ _ => rfl⟩

/-- What a stage does after its instruction, as far as other threads can see. -/
theorem consumed_frontend_frame (hr : schemaDefault.rowNamed i.opName = some r) (hu : homeUnit i.opName = none)
    (t : State) : ∃ g q m o e, t.consumed i =
      { t with gateSlot := g, replayQ := q, mopQ := m, mopOut := o, expanding := e } ∧
      ∀ f : Thread, f ≠ t.cur → g[f] = t.gateSlot[f] ∧ q[f] = t.replayQ[f] ∧ m[f] = t.mopQ[f] ∧ e[f] = t.expanding[f] := by
  rcases homeless_cases hr hu with (hi | hi) | hi | hi
  · rw [consumed_mop hi]
    rcases mopEmit_cases (t.popMopQ t.cur) t.cur with e | ⟨-, e⟩ | ⟨w, rest, -, -, e⟩ <;> rw [e]
    · exact ⟨_, _, _, _, _, rfl, fun f hf => ⟨rfl, rfl, vget_set_ne _ hf _, rfl⟩⟩
    · exact ⟨_, _, _, _, _, rfl, fun f hf => ⟨rfl, rfl, vget_set_ne _ hf _, vget_set_ne _ hf _⟩⟩
    · exact ⟨_, _, _, _, _, rfl, fun f hf => ⟨rfl, vget_set_ne _ hf _, vget_set_ne _ hf _, vget_set_ne _ hf _⟩⟩
  · rw [consumed_mopCfg hi]
    exact ⟨_, _, _, _, _, rfl, fun f hf => ⟨rfl, rfl, vget_set_ne _ hf _, rfl⟩⟩
  · rw [consumed_replay hi]
    exact ⟨_, _, _, _, _, rfl, fun f hf => ⟨rfl, vget_set_ne _ hf _, rfl, rfl⟩⟩
  · rw [consumed_gate (hi.imp And.left And.left)]
    exact ⟨_, _, _, _, _, rfl, fun f hf => ⟨vget_set_ne _ hf _, rfl, rfl, rfl⟩⟩

/-- What follows an instruction does not end the run. -/
theorem consumed_halt (hr : schemaDefault.rowNamed i.opName = some r) (t : State) : (t.consumed i).halt = t.halt := by
  cases hu : homeUnit i.opName with
  | some u =>
    obtain ⟨c, m, mw, ws, n, e, -⟩ := postUnit_frame (t.setQueue u []) u [⟨encode i, t.cur⟩]
    rw [consumed_unit hu, e]
    rfl
  | none =>
    obtain ⟨g, q, m, o, e, h, -⟩ := consumed_frontend_frame hr hu t
    rw [h]

/-- An instruction and what follows it leave every other component idle. -/
theorem consumed_idle (hr : schemaDefault.rowNamed i.opName = some r) (hx : exec i x = .next t) {c : Component}
    (hc : c ≠ Instr.component i x.cur) (h : x.Idle c) : (t.consumed i).Idle c := by
  have hcur : t.cur = x.cur := exec_cur hx
  cases hu : homeUnit i.opName with
  | some u =>
    rw [component_unit hu] at hc
    obtain ⟨cp, m, mw, ws, n, e, hcp, hws, hn⟩ := postUnit_frame (t.setQueue u []) u [⟨encode i, t.cur⟩]
    rw [consumed_unit hu, e]
    cases c with
    | unit v =>
      have hvu : v ≠ u := fun e => hc (by rw [e])
      have hi : t.UnitIdle v := State.UnitIdle.exec_other h hx fun e => hvu (Option.some.inj (e.symm.trans hu))
      exact ⟨((t.queueOf_setQueue u v []).trans (if_neg hvu)).trans hi.queue, hi.flush,
        fun hv => (hcp fun e => hvu (by rw [hv, e])).trans (hi.cfgWritePrev hv),
        fun hv => (hws fun e => hvu (by rw [hv, e])).trans (hi.waiters hv),
        fun w hw f => (hn w (fun e => hvu (by rw [← hw, e])) f).trans (hi.inflight w hw f)⟩
    | frontend f =>
      have hi : t.FrontendIdle f := State.FrontendIdle.exec_unit h hx hu
      exact ⟨hi.gateSlot, hi.latch, hi.playLeft, hi.replayQ, hi.expanding, hi.mopQ⟩
  | none =>
    rw [component_frontend hu] at hc
    obtain ⟨g, q, m, o, e, hframe, hget⟩ := consumed_frontend_frame hr hu t
    rw [hframe]
    cases c with
    | unit v =>
      have hi : t.UnitIdle v := State.UnitIdle.exec_other h hx (by rw [hu]; nofun)
      exact ⟨hi.queue, hi.flush, hi.cfgWritePrev, hi.waiters, hi.inflight⟩
    | frontend f =>
      have hf : f ≠ x.cur := fun e => hc (by rw [e])
      have hi : t.FrontendIdle f := State.FrontendIdle.exec_ne h hx hf
      obtain ⟨hg, hq, hm, he⟩ := hget f (by rw [hcur]; exact hf)
      exact ⟨hg.trans hi.gateSlot, hi.latch, hi.playLeft, hq.trans hi.replayQ, he.trans hi.expanding, hm.trans hi.mopQ⟩

/-- Idle is idle with another instruction issued. -/
theorem State.Idle.issue {c : Component} (h : s.Idle c) (f : Thread) (d : Decoded) : (s.issue f d).Idle c := by
  cases c with
  | unit u => exact State.UnitIdle.congr h rfl
  | frontend f => exact ⟨h.gateSlot, h.latch, h.playLeft, h.replayQ, h.expanding, h.mopQ⟩

/-! ## The step -/

/-- The step of a quiet state with a placed instruction is the tick of the component that takes it. -/
theorem Placed.cycle (h : Placed s i r p) (hs : s.Quiet) (hwf : i.WellFormed)
    (hr : schemaDefault.rowNamed i.opName = some r) : p.cycle = p.tick (Instr.component i s.cur) := by
  obtain ⟨hpar, hcur, hhalt, hin, hrep⟩ := h.keeps
  have hrun : p.halted = false := by rw [State.halted, hhalt, hs.halt]; rfl
  refine cycle_of_one (by rw [hpar]; exact hs.orderNodup) (by rw [hpar]; exact hs.orderAll _) ?_ hrun
    (fun c hc => h.idle hs hc) fun hq c hc => ?_
  · rw [State.beginCycle, hin, hs.inputs]
    dsimp only
    rw [← hs.replies, ← hrep, ← hin.trans hs.inputs]
  · rw [h.tick hs hwf hr] at hq ⊢
    rcases State.andThen_cases (p.absorb s.cur (Instr.component i s.cur) (exec i (p.issue s.cur (i.view r))))
      fun t => t.consumed i with ⟨hh, e⟩ | ⟨hh, e⟩
    · rw [e, hh] at hq; cases hq
    · obtain ⟨t, ht, ea⟩ := absorb_running hh
      rw [e, ea]
      exact consumed_idle hr ht hc ((h.idle hs hc).issue _ _)

/-- Settles O56: the word stands where one component takes it (`withFetchWord_placed`), that component runs it
(`Placed.tick`), and every other component is idle before and after (`Placed.cycle`). -/
theorem stepRunsThePlacedInstruction : Obligations.StepRunsThePlacedInstruction := by
  intro s i d hs hwf hd p
  obtain ⟨r, hr⟩ := rowNamed_opName i
  obtain rfl : i.view r = d := Option.some.inj ((decode_encode hr).symm.trans hd)
  have hp : Placed s i r p := withFetchWord_placed hs hr
  obtain ⟨-, hcur, hhalt, -, -⟩ := hp.keeps
  have hissue : p.issue s.cur (i.view r) = { p with instr := i.view r } := by rw [← hcur]; rfl
  have hstep : step p = State.outcome
      ((p.absorb s.cur (Instr.component i s.cur) (exec i { p with instr := i.view r })).andThen fun t => t.consumed i) := by
    rw [step, hp.cycle hs hwf hr, hp.tick hs hwf hr, hissue]
  refine ⟨fun t ht => ?_, fun f hf => ?_, fun x hx => ?_⟩
  · have hrun : t.halt = none := (exec_halt ht).trans (hhalt.trans hs.halt)
    rw [hstep, ht, State.absorb, State.andThen_of_running _ (by rw [State.halted, hrun]; rfl), State.outcome,
      consumed_halt hr, hrun]
  · rw [hstep, hf, State.absorb, State.andThen_of_halted _ rfl]
    rfl
  · rw [hstep, hx, State.absorb, State.andThen_of_halted _ rfl]
    rfl

end Sys2Proof.Machine
end
